-- ==== Sys2Proof/Word.lean ====
section
/-! DEFINITION. The word types of the GDC (spec/00_scope.md R5: XLEN = 32, spec/10_state.md R44, R45). -/

namespace Sys2Proof

/-- A CSR, a command word, an information word: XLEN = 32 bits (R5). -/
abbrev Word := BitVec 32

/-- One byte of MEM, of the window, of a keystream. -/
abbrev Byte := BitVec 8

/-- An entry of the Huffman node RAM, a node index 0 .. 510 (R45: 9 bits). -/
abbrev Node := BitVec 9

end Sys2Proof
end

