-- ==== Sys2Proof/Syntax.lean ====
section
/-! DEFINITION. The 18 commands of spec/30_encoding.md R105, one constructor each, operands as R108 gives them. -/

namespace Sys2Proof

/-- The declared bit order of a bit cursor (R11, R39 BORD, R103 operand ord: 0 is most-significant-first). -/
inductive BitOrder where
  | msb
  | lsb
  deriving DecidableEq, Repr

/-- A command (R105). `csr` is any 8-bit CSR index, `imm` an unsigned 16-bit immediate, `n` the 6-bit count field
of BR.BITS, `bias` the +0x80 flag of the cipher commands. -/
inductive Instr where
  | halt
  | setlo (csr : BitVec 8) (imm : BitVec 16)
  | sethi (csr : BitVec 8) (imm : BitVec 16)
  | brOpen (ord : BitOrder)
  | brBit
  | brBits (n : BitVec 6)
  | brUnary
  | ocCopy
  | lzDec
  | hufBldw
  | hufBldl
  | hufDec
  | ppAsm
  | ppAlpha
  | ksLcg (bias : Bool)
  | ksPm (bias : Bool)
  | ksHash (bias : Bool)
  | ksRaw (bias : Bool)
  deriving DecidableEq, Repr

end Sys2Proof
end

