-- ==== Sys2Proof/WellFormed.lean ====
section
/-! DEFINITION. Which terms of `Instr` are commands of the machine: spec/30_encoding.md R104 admits n = 0 .. 32 for
BR.BITS; every other operand field admits every value (R108). -/

namespace Sys2Proof

/-- A command with operands the encoding admits (R104, R106, R108). -/
def Instr.wellFormed : Instr → Bool
  | .halt => true
  | .setlo _ _ => true
  | .sethi _ _ => true
  | .brOpen _ => true
  | .brBit => true
  | .brBits n => decide (n.toNat ≤ 32)
  | .brUnary => true
  | .ocCopy => true
  | .lzDec => true
  | .hufBldw => true
  | .hufBldl => true
  | .hufDec => true
  | .ppAsm => true
  | .ppAlpha => true
  | .ksLcg _ => true
  | .ksPm _ => true
  | .ksHash _ => true
  | .ksRaw _ => true

end Sys2Proof
end

