-- ==== Sys2Proof/Decode.lean ====
section
/-! DEFINITION. The decoder of spec/30_encoding.md R106, total on 32-bit words and rejecting by name, and the encoder of
the same tables (R101 to R105). -/

namespace Sys2Proof

/-- Why a word is no command (R107). Safe: the machine itself raises E_ILLCMD for each of them. -/
inductive DecodeError where
  /-- The opcode byte is none of the 18 of R105. -/
  | unknownOpcode
  /-- A legal opcode with a nonzero bit in a field its format marks zero (R100). -/
  | nonzeroField
  /-- BR.BITS with n in 33 .. 63 (R104). -/
  | badBitCount
  deriving DecidableEq, Repr

/-- Bits [31:24] of a command word (R100). -/
def opcodeOf (w : Word) : BitVec 8 := w.extractLsb' 24 8

/-- Format S, bits [23:16] (R102). -/
def csrField (w : Word) : BitVec 8 := w.extractLsb' 16 8

/-- Format S, bits [15:0] (R102). -/
def immField (w : Word) : BitVec 16 := w.extractLsb' 0 16

/-- Format N, bits [5:0] (R104). -/
def countField (w : Word) : BitVec 6 := w.extractLsb' 0 6

/-- Format B, bit [0] (R103). -/
def flagField (w : Word) : Bool := w.getLsbD 0

/-- The bit order that the operand ord of BR.OPEN names (R103). -/
def orderOfFlag (b : Bool) : BitOrder := if b then .lsb else .msb

/-- The operand ord of a bit order (R103). -/
def flagOfOrder : BitOrder → Bool
  | .msb => false
  | .lsb => true

/-- Format Z: bits [23:0] are zero (R101). -/
def formatZ (w : Word) (i : Instr) : Except DecodeError Instr :=
  if w.extractLsb' 0 24 = 0 then .ok i else .error .nonzeroField

/-- Format B: bits [23:1] are zero, bit 0 is the operand (R103). -/
def formatB (w : Word) (i : Bool → Instr) : Except DecodeError Instr :=
  if w.extractLsb' 1 23 = 0 then .ok (i (flagField w)) else .error .nonzeroField

/-- Format N: bits [23:6] are zero and the count is at most 32 (R104). -/
def formatN (w : Word) (i : BitVec 6 → Instr) : Except DecodeError Instr :=
  if w.extractLsb' 6 18 = 0 then
    if (countField w).toNat ≤ 32 then .ok (i (countField w)) else .error .badBitCount
  else .error .nonzeroField

/-- R106: the command a word is, or why it is illegal. -/
def decode (w : Word) : Except DecodeError Instr :=
  if opcodeOf w = 0x01#8 then formatZ w .halt
  else if opcodeOf w = 0x10#8 then .ok (.setlo (csrField w) (immField w))
  else if opcodeOf w = 0x11#8 then .ok (.sethi (csrField w) (immField w))
  else if opcodeOf w = 0x20#8 then formatB w (fun b => .brOpen (orderOfFlag b))
  else if opcodeOf w = 0x21#8 then formatZ w .brBit
  else if opcodeOf w = 0x22#8 then formatN w .brBits
  else if opcodeOf w = 0x23#8 then formatZ w .brUnary
  else if opcodeOf w = 0x30#8 then formatZ w .ocCopy
  else if opcodeOf w = 0x31#8 then formatZ w .lzDec
  else if opcodeOf w = 0x40#8 then formatZ w .hufBldw
  else if opcodeOf w = 0x41#8 then formatZ w .hufBldl
  else if opcodeOf w = 0x42#8 then formatZ w .hufDec
  else if opcodeOf w = 0x50#8 then formatZ w .ppAsm
  else if opcodeOf w = 0x51#8 then formatZ w .ppAlpha
  else if opcodeOf w = 0x60#8 then formatB w .ksLcg
  else if opcodeOf w = 0x61#8 then formatB w .ksPm
  else if opcodeOf w = 0x62#8 then formatB w .ksHash
  else if opcodeOf w = 0x63#8 then formatB w .ksRaw
  else .error .unknownOpcode

/-- A format Z word (R101). -/
def wordZ (op : BitVec 8) : Word := op ++ 0#24

/-- A format S word (R102). -/
def wordS (op csr : BitVec 8) (imm : BitVec 16) : Word := op ++ csr ++ imm

/-- A format B word (R103). -/
def wordB (op : BitVec 8) (b : Bool) : Word := op ++ 0#23 ++ BitVec.ofBool b

/-- A format N word (R104). -/
def wordN (op : BitVec 8) (n : BitVec 6) : Word := op ++ 0#18 ++ n

/-- The word of a command (R105). -/
def encode : Instr → Word
  | .halt => wordZ 0x01
  | .setlo csr imm => wordS 0x10 csr imm
  | .sethi csr imm => wordS 0x11 csr imm
  | .brOpen ord => wordB 0x20 (flagOfOrder ord)
  | .brBit => wordZ 0x21
  | .brBits n => wordN 0x22 n
  | .brUnary => wordZ 0x23
  | .ocCopy => wordZ 0x30
  | .lzDec => wordZ 0x31
  | .hufBldw => wordZ 0x40
  | .hufBldl => wordZ 0x41
  | .hufDec => wordZ 0x42
  | .ppAsm => wordZ 0x50
  | .ppAlpha => wordZ 0x51
  | .ksLcg bias => wordB 0x60 bias
  | .ksPm bias => wordB 0x61 bias
  | .ksHash bias => wordB 0x62 bias
  | .ksRaw bias => wordB 0x63 bias

/-- The command the decoder reads from a table row's bits `w`: one whole 32-bit word of CMD, which has no byte order
inside the GDC (R73, R100). Bits at and above `nbits` are zero. -/
def decodeTableWord (nbits w : Nat) : Option Instr :=
  match decode (BitVec.ofNat 32 (w % 2 ^ nbits)) with
  | .ok i => some i
  | .error _ => none

end Sys2Proof
end

