-- ==== Sys2Proof/Config.lean ====
section
/-! DEFINITION. What an instance of the GDC fixes and the spec leaves OPEN (spec/00_scope.md R5, R6; treatment
`parameter` in spec/93_implementation_defined.md U10 to U13): opaque constants with no body, so that a claim holds
whatever their values are. The laws R6 states for them are built into the functions of Machine/Params.lean that use them. -/

namespace Sys2Proof.Config

/-- Free number behind the Park-Miller multiplier PM_MULT (R5, OPEN; assumption 6). -/
opaque freePmMult : Nat

/-- Free values of UNARY_MAP at run lengths other than 0 (R6 (a), OPEN; assumption 3). -/
opaque freeUnary : Nat → Word

/-- Free values of ALPHA_EXPAND(b, v) (R6 (b), OPEN; assumption 4). -/
opaque freeAlpha : Nat → Nat → Byte

/-- Free hex digit number j of the digest stream of a key and a counter (R6 (c), OPEN; assumption 5). -/
opaque freeHashDigit : List Byte → Word → Nat → BitVec 4

end Sys2Proof.Config
end

