-- ==== Sys2Proof/Machine/Params.lean ====
section
/-! DEFINITION. The implementation parameters of spec/00_scope.md R5 and R6: the numbers the spec fixes, by name
(93 U14), and the OPEN ones as functions of the free constants of Config.lean, with the laws R6 states for them. -/

namespace Sys2Proof.Machine

/-- UNARY_CAP (R5). -/
def UNARY_CAP : Nat := 32

/-- BITS_MAX (R5). -/
def BITS_MAX : Nat := 32

/-- WCAP_MAX (R5). -/
def WCAP_MAX : Nat := 65536

/-- LZ_OFFB_MAX (R5). -/
def LZ_OFFB_MAX : Nat := 24

/-- LZ_LENB_MAX (R5). -/
def LZ_LENB_MAX : Nat := 16

/-- HSYM_MAX (R5). -/
def HSYM_MAX : Nat := 256

/-- HLEN_MAX (R5). -/
def HLEN_MAX : Nat := 32

/-- PLANES_MAX (R5). -/
def PLANES_MAX : Nat := 4

/-- VBANDS (R5). -/
def VBANDS : Nat := 3

/-- HASH_BLOCK (R5). -/
def HASH_BLOCK : Nat := 32

/-- LCG_MUL (R5). -/
def LCG_MUL : Word := 214013

/-- LCG_INC (R5). -/
def LCG_INC : Word := 2531011

/-- PM_MOD = 2^31 - 1 (R5). -/
def PM_MOD : Nat := 2147483647

/-- BIAS (R5). -/
def BIAS : Byte := 0x80

/-- PM_MULT (R5, OPEN): some multiplier with 1 <= PM_MULT < PM_MOD (assumption 6). -/
def pmMult : Nat := 1 + Config.freePmMult % (PM_MOD - 1)

/-- UNARY_MAP (R6 (a), OPEN): UNARY_MAP(0) = 1, every value below 2^32, free elsewhere (assumption 3). -/
def unaryMap (k : Nat) : Word := if k = 0 then 1 else Config.freeUnary k

/-- ALPHA_EXPAND(b, v) (R6 (b), OPEN; assumption 4). -/
def alphaExpand (b v : Nat) : Byte := Config.freeAlpha b v

/-- The ASCII code of a lowercase hex digit: 0x30 .. 0x39 or 0x61 .. 0x66 (R6 (c)). -/
def hexAscii (d : BitVec 4) : Byte :=
  if d.toNat < 10 then BitVec.ofNat 8 (0x30 + d.toNat) else BitVec.ofNat 8 (0x57 + d.toNat)

/-- Byte j of HASHFN(key, ctr) (R6 (c), OPEN): a free lowercase hex digit (assumption 5). -/
def hashFn (key : List Byte) (ctr : Word) (j : Nat) : Byte := hexAscii (Config.freeHashDigit key ctr j)

end Sys2Proof.Machine
end

