-- ==== Sys2Proof/Machine/State.lean ====
section
/-! DEFINITION. The state of the GDC (spec/10_state.md R20 to R49), the model's fault and refusal reasons, and the state
after RESET (R50). Plain data throughout. -/

namespace Sys2Proof.Machine

/-- STATUS.RUN (R35). -/
inductive RunState where
  | idle
  | busy
  | done
  | stopped
  deriving DecidableEq, Repr

/-- STATUS.LAST (R35): the outcome of the most recent command other than HALT in this run. -/
inductive LastOutcome where
  | none
  | complete
  | truncated
  | corrupt
  deriving DecidableEq, Repr

/-- HFLAGS.HMODE (R41): what the tree was built from. -/
inductive TreeMode where
  | weights
  | lengths
  deriving DecidableEq, Repr

/-- The causes of spec/60_exceptions.md R291 (Corrupt, names in e) and R292 (Truncated, names in t). -/
inductive Cause where
  | eIllCmd
  | eIllCsr
  | eBadCfg
  | eBadSeq
  | eBounds
  | eLzDist
  | eLzUnder
  | eLzOver
  | eHTable
  | ePlane
  | eAlpha
  | eCmdEnd
  | tEoi
  | tLzStop
  | tARun
  deriving DecidableEq, Repr

/-- Why the MODEL stops where the GDC has no cause code. -/
inductive Fault where
  /-- Raised by a command that reads a byte of MEM nothing has written (R88, 93 U1). Safe: the hardware goes on with
  an unspecified byte, the model proves nothing about it. -/
  | unwrittenMem (addr : Nat)
  /-- Raised by the fetch of a command word nothing has written (R88, 93 U1). Safe, for the same reason. -/
  | unwrittenCmd (idx : Nat)
  /-- Raised by an access to MEM at or past MEM_SIZE (R70). Safe: the region checks of R77 keep every run away from
  it; only states that no run reaches raise it (assumption 17). -/
  | noSuchMem (addr : Nat)
  /-- Raised by LZ.DEC on a window entry with no specified value (R44). Safe: LZ.DEC fills the window first, so it is
  never raised (assumption 8). -/
  | unspecifiedWindow (idx : Nat)
  /-- Raised by HUF.DEC on a node entry with no specified value (R45). Safe: a built tree lists every node a walk
  meets; only states that no run reaches raise it (assumption 8). -/
  | unspecifiedNode (idx : Nat)
  deriving DecidableEq, Repr

/-- Why a command has no meaning in the model. -/
inductive Refusal where
  /-- Raised by `exec` for a command that is not modelled. Safe: nothing is proved about it. No command raises it. -/
  | notModelled (mnemonic : String)
  deriving DecidableEq, Repr

/-- Sparse contents of an array: the listed indices, strictly rising; an index that is not listed has no specified
value (R88, 93 U1, U2). -/
abbrev Cells (α : Type) := List (Nat × α)

/-- Everything the GDC holds (R20). A status CSR that packs fields is held field by field; its word is a view of them
(Machine/Flags.lean). -/
structure State where
  /-- CP (R22). -/
  cp : Word
  /-- The configuration CSRs 0x00 .. 0x21 (R23 to R33). -/
  cfg : Vector Word 34
  /-- STATUS.RUN (R35). -/
  run : RunState
  /-- STATUS.LAST (R35). -/
  last : LastOutcome
  /-- STATUS.TSTICKY (R35). -/
  tsticky : Bool
  /-- CAUSE (R36); `none` is the value 0. -/
  cause : Option Cause
  /-- EINFO (R36). -/
  einfo : Word
  /-- ECP (R36). -/
  ecp : Word
  /-- PRODUCED (R37). -/
  produced : Word
  /-- RES (R38). -/
  res : Word
  /-- RINFO.GOT (R38). -/
  got : BitVec 6
  /-- RINFO.EOI (R38). -/
  eoi : Bool
  /-- RINFO.CAP (R38). -/
  cap : Bool
  /-- BSTATE.BBUF (R39). -/
  bbuf : Byte
  /-- BSTATE.BCNT (R39). -/
  bcnt : BitVec 4
  /-- BSTATE.BORD (R39). -/
  bord : BitOrder
  /-- BSTATE.BOPEN (R39). -/
  bopen : Bool
  /-- WCUR (R40). -/
  wcur : BitVec 17
  /-- HROOT (R41). -/
  hroot : Word
  /-- HNEXT (R41). -/
  hnext : Word
  /-- HFLAGS.HVALID (R41). -/
  hvalid : Bool
  /-- HFLAGS.HMODE (R41). -/
  hmode : TreeMode
  /-- HFLAGS.HTOVF (R41). -/
  htovf : Bool
  /-- HTOT (R45), below 2^40; HTOTAL (R41) is its low 32 bits. -/
  htot : BitVec 40
  /-- HNSYM (R45). -/
  hnsym : BitVec 9
  /-- HC0 (R45). -/
  hc0 : Cells Node
  /-- HC1 (R45). -/
  hc1 : Cells Node
  /-- WIN (R44). -/
  win : Cells Byte
  /-- KSTATE (R42). -/
  kstate : Word
  /-- KPOS (R42). -/
  kpos : Word
  /-- MEM (R47, R70). -/
  mem : List Host.Cell
  /-- CMD (R47, R70). -/
  cmd : Cells Word
  /-- The instance's MEM_SIZE (R5), the model's own field (assumption 1). -/
  memSize : Nat
  /-- The instance's CMD_LEN (R5), the model's own field (assumption 1). -/
  cmdLen : Nat
  deriving DecidableEq, Repr

/-- The state after RESET (R50). MEM, CMD, WIN, HC0, HC1 list nothing; HNSYM is 0 (DESIGN CHOICE, assumption 7); the
instance's sizes are 65536 bytes and 65536 words (DESIGN CHOICE, assumption 1). -/
def State.reset : State where
  cp := 0
  cfg := Vector.replicate 34 0
  run := .idle
  last := .none
  tsticky := false
  cause := none
  einfo := 0
  ecp := 0
  produced := 0
  res := 0
  got := 0
  eoi := false
  cap := false
  bbuf := 0
  bcnt := 0
  bord := .msb
  bopen := false
  wcur := 0
  hroot := 0xFFFFFFFF
  hnext := 0
  hvalid := false
  hmode := .weights
  htovf := false
  htot := 0
  hnsym := 0
  hc0 := []
  hc1 := []
  win := []
  kstate := 0
  kpos := 0
  mem := []
  cmd := []
  memSize := 65536
  cmdLen := 65536

end Sys2Proof.Machine
end

