-- ==== Sys2Proof/Machine/Operands.lean ====
section
/-! DEFINITION. Where a command finds its operands: the names of the configuration CSRs (spec/10_state.md R24 to R33),
the fields of the packed ones, the region descriptors (R24), and the bit and byte helpers of spec/00_scope.md R7, R8. -/

namespace Sys2Proof.Machine

/-! The configuration CSRs by name (R24 to R33). -/

abbrev IN_BASE : Fin 34 := 0x00
abbrev IN_LEN : Fin 34 := 0x01
abbrev IN_POS : Fin 34 := 0x02
abbrev OUT_BASE : Fin 34 := 0x03
abbrev OUT_LEN : Fin 34 := 0x04
abbrev TBL_BASE : Fin 34 := 0x05
abbrev TBL_LEN : Fin 34 := 0x06
abbrev KEY_BASE : Fin 34 := 0x07
abbrev KEY_LEN : Fin 34 := 0x08
abbrev PL0_BASE : Fin 34 := 0x09
abbrev PL0_LEN : Fin 34 := 0x0A
abbrev PL1_BASE : Fin 34 := 0x0B
abbrev PL1_LEN : Fin 34 := 0x0C
abbrev PL2_BASE : Fin 34 := 0x0D
abbrev PL2_LEN : Fin 34 := 0x0E
abbrev PL3_BASE : Fin 34 := 0x0F
abbrev PL3_LEN : Fin 34 := 0x10
abbrev LZ_WCAP : Fin 34 := 0x11
abbrev LZ_WINIT : Fin 34 := 0x12
abbrev LZ_WFILL : Fin 34 := 0x13
abbrev LZ_CTRL : Fin 34 := 0x14
abbrev LZ_LONG : Fin 34 := 0x15
abbrev LZ_SHORT : Fin 34 := 0x16
abbrev HUF_N : Fin 34 := 0x17
abbrev HUF_POL : Fin 34 := 0x18
abbrev OC_SRC : Fin 34 := 0x19
abbrev OC_DST : Fin 34 := 0x1A
abbrev OC_LEN : Fin 34 := 0x1B
abbrev PP_W : Fin 34 := 0x1C
abbrev PP_H : Fin 34 := 0x1D
abbrev PP_FMT : Fin 34 := 0x1E
abbrev KS_SEED : Fin 34 := 0x1F
abbrev KS_CTR0 : Fin 34 := 0x20
abbrev KS_ROT : Fin 34 := 0x21

/-- The configuration CSR an 8-bit index names, if it is at most 0x21 (R23). -/
def cfgIndex (i : BitVec 8) : Option (Fin 34) := if h : i.toNat < 34 then some ⟨i.toNat, h⟩ else none

/-- The index of a configuration CSR as an information word (R291). -/
def cfgInfo (r : Fin 34) : Word := BitVec.ofNat 32 r.val

/-- csr[r] (R8). -/
def State.csr (s : State) (r : Fin 34) : Word := s.cfg[r]

/-- csr[r] as a natural number (R7). -/
def State.csrNat (s : State) (r : Fin 34) : Nat := (s.csr r).toNat

/-- v[hi:lo] for lo and a width, as a natural number (R7). -/
def bitsOf (v : Word) (lo width : Nat) : Nat := v.toNat / 2 ^ lo % 2 ^ width

/-- rotl8 (R7). -/
def rotl8 (x : Byte) (r : Nat) : Byte := (x <<< r) ||| (x >>> (8 - r))

/-- The 32-bit value of four bytes, the first least significant (R73). -/
def littleEndian32 (b0 b1 b2 b3 : Byte) : Word := b3 ++ b2 ++ b1 ++ b0

/-- The region descriptors (R24). -/
inductive Region where
  | input
  | output
  | table
  | key
  | plane (c : Fin 4)
  deriving DecidableEq, Repr

/-- The region's BASE register (R24). -/
def Region.baseReg : Region → Fin 34
  | .input => IN_BASE
  | .output => OUT_BASE
  | .table => TBL_BASE
  | .key => KEY_BASE
  | .plane 0 => PL0_BASE
  | .plane 1 => PL1_BASE
  | .plane 2 => PL2_BASE
  | .plane 3 => PL3_BASE

/-- The region's LEN register (R24). -/
def Region.lenReg : Region → Fin 34
  | .input => IN_LEN
  | .output => OUT_LEN
  | .table => TBL_LEN
  | .key => KEY_LEN
  | .plane 0 => PL0_LEN
  | .plane 1 => PL1_LEN
  | .plane 2 => PL2_LEN
  | .plane 3 => PL3_LEN

/-- The region's BASE. -/
def State.base (s : State) (g : Region) : Nat := s.csrNat g.baseReg

/-- The region's LEN. -/
def State.len (s : State) (g : Region) : Nat := s.csrNat g.lenReg

/-! LZ_CTRL and the branch descriptors (R27, R28). -/

/-- LZ_CTRL.LITPOL. -/
def State.litpol (s : State) : Bool := (s.csr LZ_CTRL).getLsbD 0

/-- LZ_CTRL.TWOLVL. -/
def State.twolvl (s : State) : Bool := (s.csr LZ_CTRL).getLsbD 1

/-- LZ_CTRL.SHORTPOL. -/
def State.shortpol (s : State) : Bool := (s.csr LZ_CTRL).getLsbD 2

/-- LZ_CTRL.UNDER: 0 WINDOW, 1 STOP, 2 FAULT, 3 reserved. -/
def State.under (s : State) : Nat := bitsOf (s.csr LZ_CTRL) 3 2

/-- LZ_CTRL.OFFMODE: true is TABLE, false is DIST. -/
def State.tableMode (s : State) : Bool := (s.csr LZ_CTRL).getLsbD 5

/-- OFFB of a branch descriptor (R28). -/
def offB (d : Word) : Nat := bitsOf d 0 5

/-- LENB of a branch descriptor (R28). -/
def lenB (d : Word) : Nat := bitsOf d 5 5

/-- LENBIAS of a branch descriptor (R28). -/
def lenBias (d : Word) : Nat := bitsOf d 10 8

/-- DISTBIAS of a branch descriptor (R28). -/
def distBias (d : Word) : Nat := bitsOf d 18 8

/-! PP_FMT (R32). -/

/-- PP_FMT.CC. -/
def State.channels (s : State) : Nat := bitsOf (s.csr PP_FMT) 0 3

/-- PP_FMT.VDELTA. -/
def State.vdelta (s : State) : Bool := (s.csr PP_FMT).getLsbD 3

/-- PP_FMT.LANEc: two bits from bit 4 + 2c. -/
def State.lane (s : State) (c : Nat) : Nat := bitsOf (s.csr PP_FMT) (4 + 2 * c) 2

/-- PP_FMT.ALANE. -/
def State.alphaLane (s : State) : Nat := bitsOf (s.csr PP_FMT) 12 2

/-- PP_FMT.ABITS. -/
def State.alphaBits (s : State) : Nat := bitsOf (s.csr PP_FMT) 16 4

/-- npix = w * h on naturals (R230). -/
def State.npix (s : State) : Nat := s.csrNat PP_W * s.csrNat PP_H

end Sys2Proof.Machine
end

