-- ==== Sys2Proof/Machine/Flags.lean ====
section
/-! DEFINITION. The status CSRs as words (spec/10_state.md R35 to R43): how the fields State holds are packed, and the
cause codes (spec/60_exceptions.md R291, R292). -/

namespace Sys2Proof.Machine

/-- CAUSE[7:0] of a cause (R291, R292). -/
def Cause.code : Cause → Byte
  | .eIllCmd => 1
  | .eIllCsr => 2
  | .eBadCfg => 3
  | .eBadSeq => 4
  | .eBounds => 5
  | .eLzDist => 6
  | .eLzUnder => 7
  | .eLzOver => 8
  | .eHTable => 9
  | .ePlane => 10
  | .eAlpha => 11
  | .eCmdEnd => 12
  | .tEoi => 0x20
  | .tLzStop => 0x21
  | .tARun => 0x22

/-- The encoding of STATUS.RUN (R35). -/
def RunState.code : RunState → BitVec 2
  | .idle => 0
  | .busy => 1
  | .done => 2
  | .stopped => 3

/-- The encoding of STATUS.LAST (R35). -/
def LastOutcome.code : LastOutcome → BitVec 2
  | .none => 0
  | .complete => 1
  | .truncated => 2
  | .corrupt => 3

/-- The encoding of HFLAGS.HMODE (R41). -/
def TreeMode.flag : TreeMode → Bool
  | .weights => false
  | .lengths => true

/-- The encoding of BSTATE.BORD (R39). -/
def orderBit : BitOrder → Bool
  | .msb => false
  | .lsb => true

/-- STATUS (R35): RUN [1:0], LAST [3:2], TSTICKY [4]. -/
def State.statusWord (s : State) : Word := 0#27 ++ BitVec.ofBool s.tsticky ++ s.last.code ++ s.run.code

/-- CAUSE (R36): the code in [7:0], 0 for none. -/
def State.causeWord (s : State) : Word :=
  match s.cause with
  | none => 0
  | some c => 0#24 ++ c.code

/-- RINFO (R38): GOT [5:0], EOI [8], CAP [9]. -/
def State.rinfoWord (s : State) : Word := 0#22 ++ BitVec.ofBool s.cap ++ BitVec.ofBool s.eoi ++ 0#2 ++ s.got

/-- BSTATE (R39): BBUF [7:0], BCNT [11:8], BORD [12], BOPEN [13]. -/
def State.bstateWord (s : State) : Word :=
  0#18 ++ BitVec.ofBool s.bopen ++ BitVec.ofBool (orderBit s.bord) ++ s.bcnt ++ s.bbuf

/-- WCUR (R40): bits [16:0]. -/
def State.wcurWord (s : State) : Word := 0#15 ++ s.wcur

/-- HFLAGS (R41): HVALID [0], HMODE [1], HTOVF [2]. -/
def State.hflagsWord (s : State) : Word :=
  0#29 ++ BitVec.ofBool s.htovf ++ BitVec.ofBool s.hmode.flag ++ BitVec.ofBool s.hvalid

/-- HTOTAL (R41, R45): the low 32 bits of HTOT. -/
def State.htotal (s : State) : Word := s.htot.setWidth 32

/-- The CSR an 8-bit index reads as (R23, R35 to R43): configuration 0x00 .. 0x21, status 0x40 .. 0x4F, 0 elsewhere. -/
def State.readCsr (s : State) (i : BitVec 8) : Word :=
  match cfgIndex i with
  | some r => s.csr r
  | none =>
    match i.toNat with
    | 0x40 => s.statusWord
    | 0x41 => s.causeWord
    | 0x42 => s.einfo
    | 0x43 => s.ecp
    | 0x44 => s.produced
    | 0x45 => s.res
    | 0x46 => s.rinfoWord
    | 0x47 => s.bstateWord
    | 0x48 => s.wcurWord
    | 0x49 => s.hroot
    | 0x4A => s.hnext
    | 0x4B => s.hflagsWord
    | 0x4C => s.htotal
    | 0x4D => s.kstate
    | 0x4E => s.kpos
    | 0x4F => s.cp
    | _ => 0

/-- DONE_IRQ (R294): high while the run has ended. -/
def State.doneIrq (s : State) : Bool := s.run == .done || s.run == .stopped

end Sys2Proof.Machine
end

