-- ==== Sys2Proof/Machine/Ops.lean ====
section
/-! DEFINITION. The named operations every command is built from: the arrays (spec/10_state.md R44, R45, R47), MEM
(spec/20_memory.md R70 to R79), the CSRs and the bit cursor's registers (R25, R39), the checks (spec/60_exceptions.md
R295), the four outcomes (spec/40_sequencer.md R131) with taking a Corrupt outcome (R296), START (R136, R51) and RESET (R50). -/

namespace Sys2Proof.Machine

/-! Sparse arrays. -/

/-- The value listed for an index, if one is. -/
def cellRead {α : Type} : Cells α → Nat → Option α
  | [], _ => none
  | (b, w) :: c, a => if a = b then some w else cellRead c a

/-- Lists `v` for the index `a`, keeping the indices strictly rising. -/
def cellWrite {α : Type} : Cells α → Nat → α → Cells α
  | [], a, v => [(a, v)]
  | (b, w) :: c, a, v =>
    if a < b then (a, v) :: (b, w) :: c
    else if a = b then (a, v) :: c
    else (b, w) :: cellWrite c a v

/-- Lists `v` for the indices `i .. i + n - 1`, in front of `c`. -/
def cellRun {α : Type} (v : α) (c : Cells α) : Nat → Nat → Cells α
  | 0, _ => c
  | n + 1, i => (i, v) :: cellRun v c n (i + 1)

/-- Lists `v` for every index below `n` and keeps the entries at and above `n`. -/
def cellFill {α : Type} (c : Cells α) (n : Nat) (v : α) : Cells α :=
  cellRun v (c.filter (fun e => decide (n ≤ e.1))) n 0

/-- The canonical form: indices strictly rising and below the array's size. -/
abbrev CellsWf {α : Type} (size : Nat) (c : Cells α) : Prop :=
  (c.map Prod.fst).Pairwise (· < ·) ∧ ∀ a ∈ c.map Prod.fst, a < size

/-- MEM and CMD are in canonical form. An index that is not listed has no value, so no listed entry can equal it. -/
abbrev Memory.wf (s : State) : Prop := CellsWf s.memSize s.mem ∧ CellsWf s.cmdLen s.cmd

/-! MEM. -/

/-- One byte of MEM as the model holds it: `none` where nothing has been written (R88). -/
def State.byteAt (s : State) (a : Nat) : Option Byte := cellRead s.mem a

/-- MEM[a] (R8, R70); an unwritten byte is a fault of the model (R88). -/
def readMem (s : State) (a : Nat) : Except Fault Byte :=
  if a < s.memSize then
    match s.byteAt a with
    | some b => .ok b
    | none => .error (.unwrittenMem a)
  else .error (.noSuchMem a)

/-- MemRead(a, 4) (R73): four byte reads in rising address order. -/
def readMem32 (s : State) (a : Nat) : Except Fault Word :=
  match readMem s a with
  | .error f => .error f
  | .ok b0 =>
    match readMem s (a + 1) with
    | .error f => .error f
    | .ok b1 =>
      match readMem s (a + 2) with
      | .error f => .error f
      | .ok b2 =>
        match readMem s (a + 3) with
        | .error f => .error f
        | .ok b3 => .ok (littleEndian32 b0 b1 b2 b3)

/-- MEM replaced. -/
def State.setMem (s : State) (m : List Host.Cell) : State := { s with mem := m }

/-- MemWrite(a, 1, b) (R8). -/
def writeMem (s : State) (a : Nat) (b : Byte) : Except Fault State :=
  if a < s.memSize then .ok (s.setMem (cellWrite s.mem a b)) else .error (.noSuchMem a)

/-! CSRs and the fields of the status CSRs. -/

/-- csr[r] <- v (R8). -/
def State.setCsr (s : State) (r : Fin 34) (v : Word) : State := { s with cfg := s.cfg.set r v }

/-- The cursor is closed (R25): BOPEN, BCNT, BBUF become 0, BORD stays. -/
def State.closeCursor (s : State) : State := { s with bopen := false, bcnt := 0, bbuf := 0 }

/-- The cursor is opened on a byte boundary (R153). -/
def State.openCursor (s : State) (ord : BitOrder) : State :=
  { s with bord := ord, bbuf := 0, bcnt := 0, bopen := true }

/-- The unread bits of the current byte (R39 BBUF, BCNT). -/
def State.setBits (s : State) (buf : Byte) (cnt : BitVec 4) : State := { s with bbuf := buf, bcnt := cnt }

/-- RES and RINFO (R38). -/
def State.setResult (s : State) (res : Word) (got : BitVec 6) (eoi cap : Bool) : State :=
  { s with res := res, got := got, eoi := eoi, cap := cap }

/-- PRODUCED (R37). -/
def State.setProduced (s : State) (n : Nat) : State := { s with produced := BitVec.ofNat 32 n }

/-- WIN and WCUR (R40, R44). -/
def State.setWindow (s : State) (win : Cells Byte) (wcur : Nat) : State :=
  { s with win := win, wcur := BitVec.ofNat 17 wcur }

/-- The registers a tree builder writes before it builds (R202, R205): no tree, HMODE, HNSYM, HNEXT and the total. -/
def State.beginTree (s : State) (mode : TreeMode) (n total : Nat) : State :=
  { s with
    hvalid := false
    hmode := mode
    htovf := decide (2 ^ 32 ≤ total)
    hnsym := BitVec.ofNat 9 n
    htot := BitVec.ofNat 40 total
    hroot := 0xFFFFFFFF
    hnext := BitVec.ofNat 32 n }

/-- A built tree (R202, R205): HROOT, HNEXT, HC0, HC1, and HVALID set. -/
def State.setTree (s : State) (root : Word) (next : Nat) (hc0 hc1 : Cells Node) : State :=
  { s with hroot := root, hnext := BitVec.ofNat 32 next, hc0 := hc0, hc1 := hc1, hvalid := true }

/-- HVALID cleared: the tree is consumed (R206, R208). -/
def State.consumeTree (s : State) : State := { s with hvalid := false }

/-- KSTATE and KPOS (R42). -/
def State.setCipher (s : State) (kstate : Word) (kpos : Nat) : State :=
  { s with kstate := kstate, kpos := BitVec.ofNat 32 kpos }

/-- CMD replaced. -/
def State.setCmd (s : State) (c : Cells Word) : State := { s with cmd := c }

/-! Outcomes. -/

/-- How a command ends (R9, R290). -/
inductive Ending where
  | complete
  | truncated (c : Cause) (info : Word)
  | corrupt (c : Cause) (info : Word)
  | halt
  deriving DecidableEq, Repr

/-- Complete (R131). -/
def State.endComplete (s : State) : State := { s with last := .complete, cp := s.cp + 1 }

/-- Truncated(c, info) (R131): recorded, and the run goes on. -/
def State.endTruncated (s : State) (c : Cause) (info : Word) : State :=
  { s with last := .truncated, tsticky := true, cause := some c, einfo := info, ecp := s.cp, cp := s.cp + 1 }

/-- Taking a Corrupt outcome, the GDC's one exception (R131, R296): LAST, CAUSE, EINFO, ECP, and RUN becomes STOPPED with
CP left at the offending command. -/
def State.takeCorrupt (s : State) (c : Cause) (info : Word) : State :=
  { s with last := .corrupt, cause := some c, einfo := info, ecp := s.cp, run := .stopped }

/-- Halt (R131, R132). -/
def State.endHalt (s : State) : State := { s with run := .done }

/-- Applying an outcome (R131). -/
def applyEnding : Ending → State → State
  | .complete, s => s.endComplete
  | .truncated c info, s => s.endTruncated c info
  | .corrupt c info, s => s.takeCorrupt c info
  | .halt, s => s.endHalt

/-- What a command did: the state its pseudocode leaves and its outcome, or a fault of the model. -/
abbrev Effect := Except Fault (State × Ending)

/-- The step a command makes: its effect with the outcome applied (R130, R131). -/
def conclude : Effect → Host.Outcome State Fault Refusal
  | .ok (s, r) => .next (applyEnding r s)
  | .error f => .fault f

/-! START and RESET, the two ways on from a Corrupt stop (R298). -/

/-- START (R136, R51): every status CSR takes its START value, RUN becomes BUSY; configuration CSRs, MEM and CMD stay,
and so do WIN, HC0, HC1 and HNSYM (R210; assumption 9). -/
def State.start (s : State) : State :=
  { s with
    cp := 0, run := .busy, last := .none, tsticky := false, cause := none, einfo := 0, ecp := 0, produced := 0,
    res := 0, got := 0, eoi := false, cap := false, bbuf := 0, bcnt := 0, bord := .msb, bopen := false, wcur := 0,
    hroot := 0xFFFFFFFF, hnext := 0, hvalid := false, hmode := .weights, htovf := false, htot := 0, kstate := 0,
    kpos := 0 }

/-- RESET (R320, R50), in any state: the reset state of the same instance; MEM and CMD list nothing (assumption 10). -/
def State.applyReset (s : State) : State :=
  { State.reset with memSize := s.memSize, cmdLen := s.cmdLen }

/-! Checks made before a command does anything (R77, R78, R295). -/

/-- One line of a command's list of checks: whether its condition FAILS, the cause and EINFO it raises then. -/
abbrev Check := Bool × Cause × Word

/-- The first failing check decides (R295). -/
def firstFailure : List Check → Option (Cause × Word)
  | [] => none
  | (bad, c, info) :: rest => if bad then some (c, info) else firstFailure rest

/-- Corrupt by the first failing check, with nothing else changed; the body otherwise (R295, R297). -/
def checked (checks : List Check) (s : State) (body : Effect) : Effect :=
  match firstFailure checks with
  | some (c, info) => .ok (s, .corrupt c info)
  | none => body

/-- E_BADCFG naming a configuration CSR (R291). -/
def badCfg (bad : Bool) (r : Fin 34) : Check := (bad, .eBadCfg, cfgInfo r)

/-- The region does not lie inside MEM (R77). -/
def State.regionOutside (s : State) (g : Region) : Bool := decide (s.memSize < s.base g + s.len g)

/-- Two regions overlap (R78). -/
def State.overlaps (s : State) (g h : Region) : Bool :=
  decide (0 < s.len g) && decide (0 < s.len h) && decide (s.base g < s.base h + s.len h)
    && decide (s.base h < s.base g + s.len g)

/-- The region-in-memory check (R77). -/
def State.insideCheck (s : State) (g : Region) : Check := badCfg (s.regionOutside g) g.baseReg

/-- The disjointness check of a written region against a read one (R78): EINFO names the read region. -/
def State.disjointCheck (s : State) (written read : Region) : Check := badCfg (s.overlaps written read) read.baseReg

/-- The open-cursor check (R154 to R156, R173, R206). -/
def State.cursorCheck (s : State) : Check := (!s.bopen, .eBadSeq, 0)

/-! Fetch. -/

/-- What a fetch meets (R72, R130). -/
inductive Fetched where
  | pastEnd
  | unwritten
  | word (w : Word)
  deriving DecidableEq, Repr

/-- The fetch of CMD[CP] (R72, R130). -/
def State.fetch (s : State) : Fetched :=
  if s.cmdLen ≤ s.cp.toNat then .pastEnd
  else
    match cellRead s.cmd s.cp.toNat with
    | none => .unwritten
    | some w => .word w

/-- The host's load of one command word where the next fetch reads, with a run in progress (Machine/Step.lean's
withFetchWord; assumption 11). -/
def State.placeCommand (s : State) (w : Word) : State :=
  { s with cmd := cellWrite s.cmd s.cp.toNat w, cmdLen := max s.cmdLen (s.cp.toNat + 1), run := .busy }

end Sys2Proof.Machine
end

