-- ==== Sys2Proof/Machine/Cipher.lean ====
section
/-! DEFINITION. KS.LCG, KS.PM, KS.HASH and KS.RAW (spec/45_cipher.md R260 to R269). -/

namespace Sys2Proof.Machine

/-- The byte a cipher command stores (R261): XOR with the keystream byte, then the optional bias. -/
def cipherByte (bias : Bool) (x kb : Byte) : Byte := if bias then (x ^^^ kb) + BIAS else x ^^^ kb

/-- The in-place transform of `n` bytes of OUT from byte `i` on (R260, R261). `gen` gives the keystream byte and the
generator state after it; `pre` is what is done to the data byte before the XOR. -/
def transformLoop (gen : State → Word → Nat → Except Fault (Byte × Word)) (pre : Byte → Byte) (bias : Bool) :
    Nat → Nat → Word → State → Except Fault (Word × State)
  | 0, _, g, s => .ok (g, s)
  | n + 1, i, g, s =>
    match readMem s (s.base .output + i) with
    | .error f => .error f
    | .ok x =>
      match gen s g i with
      | .error f => .error f
      | .ok (kb, g') =>
        match writeMem s (s.base .output + i) (cipherByte bias (pre x) kb) with
        | .error f => .error f
        | .ok s' => transformLoop gen pre bias n (i + 1) g' s'

/-- What every cipher command does once its checks pass (R260): the transform of all of OUT, then KSTATE, KPOS and
PRODUCED. `final` makes KSTATE from the generator's last state. -/
def cipherEffect (gen : State → Word → Nat → Except Fault (Byte × Word)) (pre : Byte → Byte) (bias : Bool)
    (start : Word) (final : Word → Word) (s : State) : Effect :=
  match transformLoop gen pre bias (s.len .output) 0 start s with
  | .error f => .error f
  | .ok (g, s') => .ok ((s'.setCipher (final g) (s.len .output)).setProduced (s.len .output), .complete)

/-! KS.LCG. -/

/-- One step of the linear congruential generator (R262). -/
def lcgNext (g : Word) : Word := g * LCG_MUL + LCG_INC

/-- The keystream byte of a stepped seed (R262): the low 8 bits of its bits 16 .. 30. -/
def lcgByte (g : Word) : Byte := ((g >>> 16) &&& 0x7FFF).setWidth 8

/-- The generator of KS.LCG (R262): the step precedes the byte's use. -/
def lcgGen (_ : State) (g : Word) (_ : Nat) : Except Fault (Byte × Word) := .ok (lcgByte (lcgNext g), lcgNext g)

/-- KS.LCG [BIAS] (R262). -/
def execKsLcg (bias : Bool) (s : State) : Host.Outcome State Fault Refusal :=
  conclude (checked [s.insideCheck .output] s (cipherEffect lcgGen id bias (s.csr KS_SEED) id s))

/-! KS.PM. -/

/-- One step of the Park-Miller style generator with multiplier `mult` (R263). -/
def pmNext (mult : Nat) (g : Word) : Word := BitVec.ofNat 32 (g.toNat * mult % PM_MOD)

/-- The generator of KS.PM (R264): the keystream byte is the low 8 bits of the stepped state. -/
def pmGen (mult : Nat) (_ : State) (g : Word) (_ : Nat) : Except Fault (Byte × Word) :=
  .ok ((pmNext mult g).setWidth 8, pmNext mult g)

/-- KS.PM [BIAS] (R264). -/
def execKsPm (bias : Bool) (s : State) : Host.Outcome State Fault Refusal :=
  conclude (checked [s.insideCheck .output] s (cipherEffect (pmGen pmMult) id bias (s.csr KS_SEED) id s))

/-! KS.HASH. -/

/-- The key bytes KEY[i ..], `n` of them (R266). -/
def readKey (s : State) : Nat → Nat → Except Fault (List Byte)
  | 0, _ => .ok []
  | n + 1, i =>
    match readMem s (s.base .key + i) with
    | .error f => .error f
    | .ok b =>
      match readKey s n (i + 1) with
      | .error f => .error f
      | .ok bs => .ok (b :: bs)

/-- The generator of KS.HASH for a digest `digest` (R6 (c), R266): byte i is byte i mod 32 of the block with counter
`ctr0` + i / 32; the state after it is the next block's counter. -/
def hashGen (digest : List Byte → Word → Nat → Byte) (key : List Byte) (ctr0 : Word) (_ : State) (_ : Word) (i : Nat) :
    Except Fault (Byte × Word) :=
  .ok (digest key (ctr0 + BitVec.ofNat 32 (i / HASH_BLOCK)) (i % HASH_BLOCK),
    ctr0 + BitVec.ofNat 32 (i / HASH_BLOCK) + 1)

/-- The checks of KS.HASH (R266). -/
def ksHashChecks (s : State) : List Check :=
  [s.insideCheck .output, s.insideCheck .key, s.disjointCheck .output .key]

/-- The operation of KS.HASH (R266), for a digest `digest`: the key is read first. -/
def ksHashEffect (digest : List Byte → Word → Nat → Byte) (bias : Bool) (s : State) : Effect :=
  match readKey s (s.len .key) 0 with
  | .error f => .error f
  | .ok key => cipherEffect (hashGen digest key (s.csr KS_CTR0)) id bias (s.csr KS_CTR0) id s

/-- KS.HASH [BIAS] (R266). -/
def execKsHash (bias : Bool) (s : State) : Host.Outcome State Fault Refusal :=
  conclude (checked (ksHashChecks s) s (ksHashEffect hashFn bias s))

/-! KS.RAW. -/

/-- The generator of KS.RAW (R267): KEY[i mod KEY_LEN], read where it is used. -/
def rawGen (s : State) (g : Word) (i : Nat) : Except Fault (Byte × Word) :=
  match readMem s (s.base .key + i % s.len .key) with
  | .error f => .error f
  | .ok kb => .ok (kb, g)

/-- The checks of KS.RAW (R267). -/
def ksRawChecks (s : State) : List Check :=
  [ badCfg (decide (s.len .key = 0)) KEY_LEN,
    badCfg (decide (7 < s.csrNat KS_ROT)) KS_ROT,
    s.insideCheck .output,
    s.insideCheck .key,
    s.disjointCheck .output .key ]

/-- KS.RAW [BIAS] (R267): the data byte is rotated left by KS_ROT before the XOR; KSTATE becomes 0. -/
def execKsRaw (bias : Bool) (s : State) : Host.Outcome State Fault Refusal :=
  conclude (checked (ksRawChecks s) s
    (cipherEffect rawGen (fun x => rotl8 x (s.csrNat KS_ROT)) bias 0 (fun _ => 0) s))

end Sys2Proof.Machine
end

