-- ==== Sys2Proof/Machine/BitReader.lean ====
section
/-! DEFINITION. The bit reader: next_bit, read_bits, count_unary (spec/41_bitreader.md R150 to R152) and the commands
BR.OPEN, BR.BIT, BR.BITS, BR.UNARY (R153 to R156). -/

namespace Sys2Proof.Machine

/-- What next_bit answers (R150): a bit and the cursor after it, or EOI, which changes nothing. -/
inductive BitRead where
  | bit (b : Bool) (s : State)
  | eoi
  | fault (f : Fault)

/-- The delivery half of next_bit (R150): one bit leaves a buffer of `cnt` unread bits. -/
def deliverBit (s : State) (buf : Byte) (cnt : BitVec 4) : BitRead :=
  match s.bord with
  | .msb => .bit (buf.getLsbD 7) (s.setBits (buf <<< 1) (cnt - 1))
  | .lsb => .bit (buf.getLsbD 0) (s.setBits (buf >>> 1) (cnt - 1))

/-- next_bit (R150). -/
def nextBit (s : State) : BitRead :=
  if s.bcnt = 0 then
    if s.csrNat IN_LEN ≤ s.csrNat IN_POS then .eoi
    else
      match readMem s (s.base .input + s.csrNat IN_POS) with
      | .error f => .fault f
      | .ok b => deliverBit (s.setCsr IN_POS (s.csr IN_POS + 1)) b 8
  else deliverBit s s.bbuf s.bcnt

/-- How many bits next_bit can still deliver: the bound of every loop that reads bits (R138). -/
def State.bitsLeft (s : State) : Nat := s.bcnt.toNat + 8 * (s.csrNat IN_LEN - s.csrNat IN_POS)

/-- What read_bits answers (R151): value, bits obtained, whether the source ended, and the cursor after it. -/
inductive BitsRead where
  | bits (v : Word) (got : Nat) (eoi : Bool) (s : State)
  | fault (f : Fault)

/-- read_bits (R151), from the value and count so far: the first bit consumed ends up most significant. -/
def readBitsFrom : Nat → Word → Nat → State → BitsRead
  | 0, v, got, s => .bits v got false s
  | n + 1, v, got, s =>
    match nextBit s with
    | .fault f => .fault f
    | .eoi => .bits v got true s
    | .bit b s' => readBitsFrom n ((v <<< 1) ||| (BitVec.ofBool b).setWidth 32) (got + 1) s'

/-- read_bits(n) (R151). -/
def readBits (n : Nat) (s : State) : BitsRead := readBitsFrom n 0 0 s

/-- What count_unary answers (R152): the run length, whether the cap stopped it, whether the source ended. -/
inductive UnaryRead where
  | run (k : Nat) (cap eoi : Bool) (s : State)
  | fault (f : Fault)

/-- count_unary (R152) from a run of `k` ones, with `room` more before the cap. -/
def countUnaryFrom : Nat → Nat → State → UnaryRead
  | 0, k, s => .run k true false s
  | room + 1, k, s =>
    match nextBit s with
    | .fault f => .fault f
    | .eoi => .run k false true s
    | .bit false s' => .run k false false s'
    | .bit true s' => countUnaryFrom room (k + 1) s'

/-- count_unary() (R152). -/
def countUnary (s : State) : UnaryRead := countUnaryFrom UNARY_CAP 0 s

/-- The checks of BR.OPEN (R153). -/
def brOpenChecks (s : State) : List Check :=
  [s.insideCheck .input, badCfg (decide (s.csrNat IN_LEN < s.csrNat IN_POS)) IN_POS]

/-- BR.OPEN ord (R153). -/
def execBrOpen (ord : BitOrder) (s : State) : Host.Outcome State Fault Refusal :=
  conclude (checked (brOpenChecks s) s (.ok (s.openCursor ord, .complete)))

/-- The operation of BR.BIT (R154). -/
def brBitEffect (s : State) : Effect :=
  match nextBit s with
  | .fault f => .error f
  | .eoi => .ok (s.setResult 0 0 true false, .truncated .tEoi 0)
  | .bit b s' => .ok (s'.setResult ((BitVec.ofBool b).setWidth 32) 1 false false, .complete)

/-- BR.BIT (R154). -/
def execBrBit (s : State) : Host.Outcome State Fault Refusal :=
  conclude (checked [s.cursorCheck] s (brBitEffect s))

/-- The operation of BR.BITS n (R155). -/
def brBitsEffect (n : Nat) (s : State) : Effect :=
  match readBits n s with
  | .fault f => .error f
  | .bits v got eoi s' =>
    .ok (s'.setResult v (BitVec.ofNat 6 got) eoi false,
      if eoi then .truncated .tEoi (BitVec.ofNat 32 got) else .complete)

/-- BR.BITS n (R155). -/
def execBrBits (n : BitVec 6) (s : State) : Host.Outcome State Fault Refusal :=
  conclude (checked [s.cursorCheck] s (brBitsEffect n.toNat s))

/-- The operation of BR.UNARY (R156), for a run-length decoding `decoding` (R6 (a)). -/
def brUnaryEffect (decoding : Nat → Word) (s : State) : Effect :=
  match countUnary s with
  | .fault f => .error f
  | .run k cap eoi s' =>
    .ok (s'.setResult (decoding k) (BitVec.ofNat 6 k) eoi cap,
      if eoi then .truncated .tEoi (BitVec.ofNat 32 k) else .complete)

/-- BR.UNARY (R156). -/
def execBrUnary (s : State) : Host.Outcome State Fault Refusal :=
  conclude (checked [s.cursorCheck] s (brUnaryEffect unaryMap s))

end Sys2Proof.Machine
end

