-- ==== Sys2Proof/Machine/Huffman.lean ====
section
/-! DEFINITION. HUF.BLDW, HUF.BLDL and HUF.DEC (spec/43_huffman.md R200 to R210). -/

namespace Sys2Proof.Machine

/-- HROOT of an empty code, or of no tree (R41). -/
def NIL : Word := 0xFFFFFFFF

/-- A tree under construction: the root, the next free index, and the node RAM (R200). -/
structure TreeBuild where
  root : Word
  next : Nat
  hc0 : Cells Node
  hc1 : Cells Node

/-! Building from weights. -/

/-- The weight table: `n` little-endian entries from entry `i` on (R201). -/
def readWeights (s : State) : Nat → Nat → Except Fault (List Nat)
  | 0, _ => .ok []
  | n + 1, i =>
    match readMem32 s (s.base .table + 4 * i) with
    | .error f => .error f
    | .ok w =>
      match readWeights s n (i + 1) with
      | .error f => .error f
      | .ok ws => .ok (w.toNat :: ws)

/-- A live node of the builder: its weight and its index (R202). -/
abbrev LiveNode := Nat × Nat

/-- Smaller weight first; among equal weights the smaller index (R202). -/
def lighter (x y : LiveNode) : Bool := decide (x.1 < y.1) || (decide (x.1 = y.1) && decide (x.2 < y.2))

/-- The lightest of a node and a list of nodes. -/
def lightest : LiveNode → List LiveNode → LiveNode
  | m, [] => m
  | m, x :: xs => lightest (if lighter x m then x else m) xs

/-- The lightest live node and the others (R202: select, then live[a] <- false). -/
def takeLightest : List LiveNode → Option (LiveNode × List LiveNode)
  | [] => none
  | x :: xs => some (lightest x xs, (x :: xs).erase (lightest x xs))

/-- One merge (R202): the first selected node `a` becomes child 1, the second, `b`, child 0. -/
def TreeBuild.merge (t : TreeBuild) (a b : LiveNode) : TreeBuild where
  root := BitVec.ofNat 32 t.next
  next := t.next + 1
  hc0 := cellWrite t.hc0 t.next (BitVec.ofNat 9 b.2)
  hc1 := cellWrite t.hc1 t.next (BitVec.ofNat 9 a.2)

/-- The merge loop of R202; each round leaves one live node fewer, so `fuel`, the number of live nodes, bounds it. -/
def mergeLoop : Nat → List LiveNode → TreeBuild → TreeBuild
  | 0, _, t => t
  | fuel + 1, live, t =>
    match takeLightest live with
    | none => t
    | some (a, rest) =>
      match takeLightest rest with
      | none => t
      | some (b, rest') => mergeLoop fuel (rest' ++ [(a.1 + b.1, t.next)]) (t.merge a b)

/-- The nonzero weights with their symbols, in rising symbol order (R202: live). -/
def liveLeaves (ws : List Nat) : List LiveNode := ws.zipIdx.filter (fun e => decide (e.1 ≠ 0))

/-- The tree of a weight table (R202). -/
def weightTree (ws : List Nat) (hc0 hc1 : Cells Node) : TreeBuild :=
  match liveLeaves ws with
  | [x] => { root := BitVec.ofNat 32 x.2, next := ws.length, hc0 := hc0, hc1 := hc1 }
  | live => mergeLoop live.length live { root := NIL, next := ws.length, hc0 := hc0, hc1 := hc1 }

/-- HUF_N out of 1 .. 256 (R202, R205). -/
def State.badAlphabet (s : State) : Bool := decide (s.csrNat HUF_N = 0) || decide (HSYM_MAX < s.csrNat HUF_N)

/-- The checks of HUF.BLDW (R202). -/
def hufBldwChecks (s : State) : List Check :=
  [ badCfg s.badAlphabet HUF_N,
    (decide (s.len .table ≠ 4 * s.csrNat HUF_N), .eHTable, s.csr TBL_LEN),
    s.insideCheck .table ]

/-- The operation of HUF.BLDW (R202). -/
def hufBldwEffect (s : State) : Effect :=
  match readWeights s (s.csrNat HUF_N) 0 with
  | .error f => .error f
  | .ok ws =>
    .ok ((s.beginTree .weights (s.csrNat HUF_N) ws.sum).setTree
        (weightTree ws s.hc0 s.hc1).root (weightTree ws s.hc0 s.hc1).next
        (weightTree ws s.hc0 s.hc1).hc0 (weightTree ws s.hc0 s.hc1).hc1, .complete)

/-- HUF.BLDW (R202). -/
def execHufBldw (s : State) : Host.Outcome State Fault Refusal :=
  conclude (checked (hufBldwChecks s) s (hufBldwEffect s))

/-! Building from bit-lengths. -/

/-- What reading the length table gives (R205): the lengths, or the first symbol whose length is above 32. -/
inductive LengthsRead where
  | lengths (ls : List Nat)
  | tooLong (i : Nat)
  | fault (f : Fault)

/-- The length table: `n` bytes from entry `i` on (R203, R205). -/
def readLengths (s : State) : Nat → Nat → LengthsRead
  | 0, _ => .lengths []
  | n + 1, i =>
    match readMem s (s.base .table + i) with
    | .error f => .fault f
    | .ok b =>
      if HLEN_MAX < b.toNat then .tooLong i
      else
        match readLengths s n (i + 1) with
        | .fault f => .fault f
        | .tooLong j => .tooLong j
        | .lengths ls => .lengths (b.toNat :: ls)

/-- The sum of R205's completeness test: 2^(32 - L) over the nonzero lengths L. -/
def kraftSum (ls : List Nat) : Nat := (ls.map (fun l => if l = 0 then 0 else 2 ^ (32 - l))).sum

/-- The symbols with a nonzero length, with that length, in increasing (length, symbol) order (R204). -/
def canonicalOrder (ls : List Nat) : List (Nat × Nat) :=
  (List.range' 1 HLEN_MAX).flatMap (fun l => ls.zipIdx.filter (fun e => decide (e.1 = l)))

/-- The scratch mark EMPTY of R205: 511, no node index (assumption 8). -/
def EMPTY : Node := 511

/-- HCc[n] (R205): HC1 where c is 1, HC0 where it is 0; an entry that is not listed is EMPTY. -/
def TreeBuild.child (t : TreeBuild) (c : Bool) (n : Nat) : Node :=
  if c then (cellRead t.hc1 n).getD EMPTY else (cellRead t.hc0 n).getD EMPTY

/-- HCc[n] <- v (R205). -/
def TreeBuild.setChild (t : TreeBuild) (c : Bool) (n : Nat) (v : Node) : TreeBuild :=
  if c then { t with hc1 := cellWrite t.hc1 n v } else { t with hc0 := cellWrite t.hc0 n v }

/-- A new internal node with two EMPTY children (R205). -/
def TreeBuild.newNode (t : TreeBuild) : TreeBuild where
  root := t.root
  next := t.next + 1
  hc0 := cellWrite t.hc0 t.next EMPTY
  hc1 := cellWrite t.hc1 t.next EMPTY

/-- The walk of R205 from node `n` with the code bits `j .. 0` still to follow: makes the nodes it first needs and ends
with leaf `sym`. -/
def insertCode (code sym : Nat) : Nat → Nat → TreeBuild → TreeBuild
  | 0, n, t => t.setChild (code.testBit 0) n (BitVec.ofNat 9 sym)
  | j + 1, n, t =>
    if t.child (code.testBit (j + 1)) n = EMPTY then
      insertCode code sym j t.next (t.newNode.setChild (code.testBit (j + 1)) n (BitVec.ofNat 9 t.next))
    else insertCode code sym j (t.child (code.testBit (j + 1)) n).toNat t

/-- The code of a symbol of length `l` after the code and length before it, `none` for the first (R204). -/
def nextCode (prev : Option (Nat × Nat)) (l : Nat) : Nat :=
  match prev with
  | none => 0
  | some (code, pl) => (code + 1) <<< (l - pl)

/-- Insertion of the symbols in canonical order (R204, R205). -/
def insertAll (root : Nat) : List (Nat × Nat) → Option (Nat × Nat) → TreeBuild → TreeBuild
  | [], _, t => t
  | (l, sym) :: rest, prev, t =>
    insertAll root rest (some (nextCode prev l, l)) (insertCode (nextCode prev l) sym (l - 1) root t)

/-- The trie of a complete length table (R205). -/
def lengthTree (ls : List Nat) (hc0 hc1 : Cells Node) : TreeBuild :=
  insertAll ls.length (canonicalOrder ls) none
    ({ root := BitVec.ofNat 32 ls.length, next := ls.length, hc0 := hc0, hc1 := hc1 } : TreeBuild).newNode

/-- The checks of HUF.BLDL (R205). -/
def hufBldlChecks (s : State) : List Check :=
  [ badCfg s.badAlphabet HUF_N,
    (decide (s.len .table ≠ s.csrNat HUF_N), .eHTable, s.csr TBL_LEN),
    s.insideCheck .table ]

/-- The operation of HUF.BLDL (R205). -/
def hufBldlEffect (s : State) : Effect :=
  match readLengths s (s.csrNat HUF_N) 0 with
  | .fault f => .error f
  | .tooLong i => .ok (s.beginTree .lengths (s.csrNat HUF_N) 0, .corrupt .eHTable (BitVec.ofNat 32 i))
  | .lengths ls =>
    if ls.all (fun l => decide (l = 0)) then
      .ok ((s.beginTree .lengths (s.csrNat HUF_N) 0).setTree NIL (s.csrNat HUF_N) s.hc0 s.hc1, .complete)
    else if kraftSum ls ≠ 2 ^ 32 then
      .ok (s.beginTree .lengths (s.csrNat HUF_N) 0, .corrupt .eHTable 0x100)
    else
      .ok ((s.beginTree .lengths (s.csrNat HUF_N) 0).setTree
          (lengthTree ls s.hc0 s.hc1).root (lengthTree ls s.hc0 s.hc1).next
          (lengthTree ls s.hc0 s.hc1).hc0 (lengthTree ls s.hc0 s.hc1).hc1, .complete)

/-- HUF.BLDL (R205). -/
def execHufBldl (s : State) : Host.Outcome State Fault Refusal :=
  conclude (checked (hufBldlChecks s) s (hufBldlEffect s))

/-! Decoding. -/

/-- Where a walk down the tree ends (R206). -/
inductive WalkEnd where
  | leaf (n : Nat) (s : State)
  | eoi (s : State)
  | fault (f : Fault)

/-- The child a polarised bit selects (R206, R207). -/
def State.child (s : State) (c : Bool) (n : Nat) : Option Node := if c then cellRead s.hc1 n else cellRead s.hc0 n

/-- The walk of R206 from node `n`. Every step consumes one bit, so `fuel`, the number of bits left, bounds it; with no
bit left next_bit answers EOI (R138). -/
def walk (pol : Bool) : Nat → Nat → State → WalkEnd
  | fuel, n, s =>
    if n < s.hnsym.toNat then .leaf n s
    else
      match fuel with
      | 0 => .eoi s
      | fuel + 1 =>
        match nextBit s with
        | .fault f => .fault f
        | .eoi => .eoi s
        | .bit b s' =>
          match s'.child (b != pol) n with
          | none => .fault (.unspecifiedNode n)
          | some m => walk pol fuel m.toNat s'

/-- The symbol loop of R206: `m` symbols still to decode, `k` decoded. -/
def decodeSymbols (pol : Bool) : Nat → Nat → State → Effect
  | 0, k, s => .ok (s.setProduced k, .complete)
  | m + 1, k, s =>
    match walk pol s.bitsLeft s.hroot.toNat s with
    | .fault f => .error f
    | .eoi s' => .ok (s'.setProduced k, .truncated .tEoi (BitVec.ofNat 32 k))
    | .leaf n s' =>
      match writeMem s' (s'.base .output + k) (BitVec.ofNat 8 n) with
      | .error f => .error f
      | .ok s'' => decodeSymbols pol m (k + 1) s''

/-- The checks of HUF.DEC after the tree is consumed (R206). -/
def hufDecChecks (s : State) : List Check :=
  [ badCfg (decide (1 < s.csrNat HUF_POL)) HUF_POL,
    s.insideCheck .output,
    s.disjointCheck .output .input ]

/-- The checks of HUF.DEC on the tree, made after PRODUCED is cleared (R206). -/
def hufTableChecks (s : State) : List Check :=
  [ (decide (s.hmode = .weights ∧ s.htot.toNat ≠ s.len .output), .eHTable, s.htotal),
    (decide (0 < s.len .output ∧ s.hroot = NIL), .eHTable, 0x101) ]

/-- HUF.DEC after its sequence check, in a state whose tree is consumed (R206). -/
def hufDecEffect (s : State) : Effect :=
  checked (hufDecChecks s) s
    (checked (hufTableChecks s) (s.setProduced 0)
      (decodeSymbols (decide (s.csrNat HUF_POL = 1)) (s.len .output) 0 (s.setProduced 0)))

/-- HUF.DEC (R206). -/
def execHufDec (s : State) : Host.Outcome State Fault Refusal :=
  conclude (checked [(!s.bopen || !s.hvalid, .eBadSeq, 0)] s (hufDecEffect s.consumeTree))

end Sys2Proof.Machine
end

