-- ==== Sys2Proof/Machine/Lz.lean ====
section
/-! DEFINITION. OC.COPY and LZ.DEC (spec/42_lz.md R170 to R182). -/

namespace Sys2Proof.Machine

/-! OverlapCopy. -/

/-- The forward byte loop of R170 from index `i` on, on MEM: one byte read, then one byte written. -/
def overlapCopy (src dst : Nat) : Nat → Nat → State → Except Fault State
  | 0, _, s => .ok s
  | n + 1, i, s =>
    match readMem s (src + i) with
    | .error f => .error f
    | .ok b =>
      match writeMem s (dst + i) b with
      | .error f => .error f
      | .ok s' => overlapCopy src dst n (i + 1) s'

/-- The checks of OC.COPY (R171). -/
def ocCopyChecks (s : State) : List Check :=
  [ s.insideCheck .output,
    (decide (s.len .output < s.csrNat OC_SRC + s.csrNat OC_LEN), .eBounds, cfgInfo OC_SRC),
    (decide (s.len .output < s.csrNat OC_DST + s.csrNat OC_LEN), .eBounds, cfgInfo OC_DST) ]

/-- The operation of OC.COPY (R171). -/
def ocCopyEffect (s : State) : Effect :=
  match overlapCopy (s.base .output + s.csrNat OC_SRC) (s.base .output + s.csrNat OC_DST) (s.csrNat OC_LEN) 0 s with
  | .error f => .error f
  | .ok s' => .ok (s'.setProduced (s.csrNat OC_LEN), .complete)

/-- OC.COPY (R171). -/
def execOcCopy (s : State) : Host.Outcome State Fault Refusal :=
  conclude (checked (ocCopyChecks s) s (ocCopyEffect s))

/-! LzWindowDecoder: tokens. -/

/-- What read_token answers (R174). A match carries the descriptor of its branch, the offset field and the length field. -/
inductive TokenRead where
  | literal (b : Byte) (s : State)
  | copy (br : Word) (o l : Nat) (s : State)
  | eoi (s : State)
  | fault (f : Fault)

/-- The two fields of a match token, offset first (R174). -/
def readMatch (br : Word) (s : State) : TokenRead :=
  match readBits (offB br) s with
  | .fault f => .fault f
  | .bits _ _ true s1 => .eoi s1
  | .bits o _ false s1 =>
    match readBits (lenB br) s1 with
    | .fault f => .fault f
    | .bits _ _ true s2 => .eoi s2
    | .bits l _ false s2 => .copy br o.toNat l.toNat s2

/-- The eight bits of a literal token (R174). -/
def readLiteral (s : State) : TokenRead :=
  match readBits 8 s with
  | .fault f => .fault f
  | .bits _ _ true s1 => .eoi s1
  | .bits v _ false s1 => .literal (v.setWidth 8) s1

/-- read_token (R174). -/
def readToken (s : State) : TokenRead :=
  match nextBit s with
  | .fault f => .fault f
  | .eoi => .eoi s
  | .bit c1 s1 =>
    if c1 = s.litpol then readLiteral s1
    else if s.twolvl then
      match nextBit s1 with
      | .fault f => .fault f
      | .eoi => .eoi s1
      | .bit c2 s2 => readMatch (if c2 = s.shortpol then s.csr LZ_SHORT else s.csr LZ_LONG) s2
    else readMatch (s.csr LZ_LONG) s1

/-! Distances, underflow, overrun. -/

/-- The distance of a match (R175). -/
inductive Distance where
  | ok (d : Nat)
  | bad (c : Cause) (info : Nat)
  | fault (f : Fault)

/-- R175: the offset field plus DISTBIAS is the distance (DIST) or the index of the table entry that holds it (TABLE). -/
def matchDistance (br : Word) (o : Nat) (s : State) : Distance :=
  if s.tableMode then
    if s.len .table / 4 ≤ o + distBias br then .bad .eBounds (o + distBias br)
    else
      match readMem32 s (s.base .table + 4 * (o + distBias br)) with
      | .error f => .fault f
      | .ok d => if d = 0 then .bad .eLzDist 0 else .ok d.toNat
  else if o + distBias br = 0 ∨ s.csrNat LZ_WCAP < o + distBias br then .bad .eLzDist (o + distBias br)
  else .ok (o + distBias br)

/-- What a match does after `opos` bytes of output: copies `n` bytes from distance `d`, or ends the command. -/
inductive MatchPlan where
  | copy (d n : Nat)
  | stop (r : Ending)
  | fault (f : Fault)

/-- R175, then R176 (a source before the start of output), then R177 (an overrun of the requested length). -/
def planMatch (br : Word) (o l opos : Nat) (s : State) : MatchPlan :=
  match matchDistance br o s with
  | .fault f => .fault f
  | .bad c info => .stop (.corrupt c (BitVec.ofNat 32 info))
  | .ok d =>
    if opos < d ∧ s.under = 1 then .stop (.truncated .tLzStop (BitVec.ofNat 32 opos))
    else if opos < d ∧ s.under = 2 then .stop (.corrupt .eLzUnder (BitVec.ofNat 32 d))
    else if s.len .output < opos + (l + lenBias br) then
      if s.under = 1 then .copy d (s.len .output - opos)
      else .stop (.corrupt .eLzOver (BitVec.ofNat 32 (l + lenBias br)))
    else .copy d (l + lenBias br)

/-! Producing bytes. -/

/-- put (R178): the byte goes to OUT[opos] and, in DIST mode, into the window. -/
def putByte (opos : Nat) (b : Byte) (s : State) : Except Fault State :=
  match writeMem s (s.base .output + opos) b with
  | .error f => .error f
  | .ok s' =>
    if s.tableMode then .ok s'
    else .ok (s'.setWindow (cellWrite s.win s.wcur.toNat b) ((s.wcur.toNat + 1) % s.csrNat LZ_WCAP))

/-- The byte at backward distance `d` (R178): from the window in DIST mode, from the output in TABLE mode. -/
def sourceByte (opos d : Nat) (s : State) : Except Fault Byte :=
  if s.tableMode then readMem s (s.base .output + (opos - d))
  else
    match cellRead s.win ((s.wcur.toNat + s.csrNat LZ_WCAP - d) % s.csrNat LZ_WCAP) with
    | some b => .ok b
    | none => .error (.unspecifiedWindow ((s.wcur.toNat + s.csrNat LZ_WCAP - d) % s.csrNat LZ_WCAP))

/-- copy_match (R178): byte by byte, each read after the write before it. -/
def copyMatch (d : Nat) : Nat → Nat → State → Except Fault State
  | 0, _, s => .ok s
  | n + 1, opos, s =>
    match sourceByte opos d s with
    | .error f => .error f
    | .ok b =>
      match putByte opos b s with
      | .error f => .error f
      | .ok s' => copyMatch d n (opos + 1) s'

/-! LZ.DEC. -/

/-- The reserved or out-of-range fields of a branch descriptor (R28, R173 rows 8 and 9). -/
def badDescriptor (d : Word) : Bool :=
  decide (bitsOf d 26 6 ≠ 0) || decide (LZ_OFFB_MAX < offB d) || decide (LZ_LENB_MAX < lenB d)

/-- The static checks of LZ.DEC, in the order of the table of R173. -/
def lzDecChecks (s : State) : List Check :=
  [ s.cursorCheck,
    badCfg (decide (bitsOf (s.csr LZ_CTRL) 6 26 ≠ 0)) LZ_CTRL,
    badCfg (decide (s.under = 3)) LZ_CTRL,
    badCfg (s.tableMode && decide (s.under = 0)) LZ_CTRL,
    badCfg (!s.tableMode && (decide (s.csrNat LZ_WCAP = 0) || decide (WCAP_MAX < s.csrNat LZ_WCAP))) LZ_WCAP,
    badCfg (!s.tableMode && decide (s.csrNat LZ_WCAP ≤ s.csrNat LZ_WINIT)) LZ_WINIT,
    badCfg (!s.tableMode && decide (255 < s.csrNat LZ_WFILL)) LZ_WFILL,
    badCfg (badDescriptor (s.csr LZ_LONG)) LZ_LONG,
    badCfg (s.twolvl && badDescriptor (s.csr LZ_SHORT)) LZ_SHORT,
    badCfg (s.tableMode && decide (s.len .table % 4 ≠ 0)) TBL_LEN,
    s.insideCheck .output,
    badCfg (s.tableMode && s.regionOutside .table) TBL_BASE,
    s.disjointCheck .output .input,
    badCfg (s.tableMode && s.overlaps .output .table) TBL_BASE ]

/-- The window as LZ.DEC sets it up (R179): filled and with its cursor at LZ_WINIT in DIST mode, WCUR = 0 in TABLE mode. -/
def lzInit (s : State) : State :=
  if s.tableMode then s.setWindow s.win 0
  else s.setWindow (cellFill s.win (s.csrNat LZ_WCAP) ((s.csr LZ_WFILL).setWidth 8)) (s.csrNat LZ_WINIT)

/-- The loop of LZ.DEC (R179) after `opos` bytes. Every token consumes at least one bit, so `fuel`, the number of bits
left when the loop is entered, bounds the tokens; with no bit left read_token meets end of input (R138). -/
def lzLoop : Nat → Nat → State → Effect
  | fuel, opos, s =>
    if s.len .output ≤ opos then .ok (s.setProduced opos, .complete)
    else
      match fuel with
      | 0 => .ok (s.setProduced opos, .truncated .tEoi (BitVec.ofNat 32 opos))
      | fuel + 1 =>
        match readToken s with
        | .fault f => .error f
        | .eoi s1 => .ok (s1.setProduced opos, .truncated .tEoi (BitVec.ofNat 32 opos))
        | .literal b s1 =>
          match putByte opos b s1 with
          | .error f => .error f
          | .ok s2 => lzLoop fuel (opos + 1) s2
        | .copy br o l s1 =>
          match planMatch br o l opos s1 with
          | .fault f => .error f
          | .stop r => .ok (s1.setProduced opos, r)
          | .copy d n =>
            match copyMatch d n opos s1 with
            | .error f => .error f
            | .ok s2 => lzLoop fuel (opos + n) s2

/-- LZ.DEC (R179). -/
def execLzDec (s : State) : Host.Outcome State Fault Refusal :=
  conclude (checked (lzDecChecks s) s (lzLoop s.bitsLeft 0 ((lzInit s).setProduced 0)))

end Sys2Proof.Machine
end

