-- ==== Sys2Proof/Machine/Planar.lean ====
section
/-! DEFINITION. PP.ASM and PP.ALPHA (spec/44_planar.md R230 to R237). -/

namespace Sys2Proof.Machine

/-! PP.ASM. -/

/-- PP_FMT with a must-be-zero bit set (R32). -/
def State.badFormatBits (s : State) : Bool :=
  decide (bitsOf (s.csr PP_FMT) 14 2 ≠ 0) || decide (bitsOf (s.csr PP_FMT) 20 12 ≠ 0)

/-- CC out of 1 .. 4 (R32). -/
def State.badChannels (s : State) : Bool := decide (s.channels = 0) || decide (PLANES_MAX < s.channels)

/-- The lanes of the planes in use are not all below CC, or not pairwise distinct (R32, R231 row 3). -/
def State.badLanes (s : State) : Bool :=
  (List.range s.channels).any (fun c =>
    decide (s.channels ≤ s.lane c) || (List.range c).any (fun d => decide (s.lane d = s.lane c)))

/-- Plane `c`'s region; the planes in use are numbered below CC <= 4. -/
def planeRegion (c : Nat) : Region := .plane (Fin.ofNat 4 c)

/-- The checks of PP.ASM, in the order of the table of R231. -/
def ppAsmChecks (s : State) : List Check :=
  [ badCfg s.badFormatBits PP_FMT,
    badCfg s.badChannels PP_FMT,
    badCfg s.badLanes PP_FMT,
    badCfg (s.vdelta && decide (s.csrNat PP_H % VBANDS ≠ 0)) PP_H,
    badCfg (decide (s.len .output ≠ s.npix * s.channels)) OUT_LEN ]
  ++ (List.range s.channels).map (fun c => (decide (s.len (planeRegion c) < s.npix), .ePlane, BitVec.ofNat 32 c))
  ++ [s.insideCheck .output]
  ++ (List.range s.channels).map (fun c => s.insideCheck (planeRegion c))
  ++ (List.range s.channels).map (fun c => s.disjointCheck .output (planeRegion c))

/-- The byte PP.ASM stores for plane `c` at pixel `p` (R231, R232): the plane's byte, plus the reconstructed byte one row
above in all but a band's first row when VDELTA = 1. -/
def asmByte (s : State) (p c : Nat) : Except Fault Byte :=
  match readMem s (s.base (planeRegion c) + p) with
  | .error f => .error f
  | .ok v =>
    if s.vdelta = true ∧ p / s.csrNat PP_W % (s.csrNat PP_H / VBANDS) ≠ 0 then
      match readMem s (s.base .output + ((p - s.csrNat PP_W) * s.channels + s.lane c)) with
      | .error f => .error f
      | .ok up => .ok (v + up)
    else .ok v

/-- The channels of one pixel, `n` of them from plane `c` on (R231). -/
def asmPixel (p : Nat) : Nat → Nat → State → Except Fault State
  | 0, _, s => .ok s
  | n + 1, c, s =>
    match asmByte s p c with
    | .error f => .error f
    | .ok v =>
      match writeMem s (s.base .output + (p * s.channels + s.lane c)) v with
      | .error f => .error f
      | .ok s' => asmPixel p n (c + 1) s'

/-- The pixels in row-major order, `n` of them from pixel `p` = y*w + x on (R231). -/
def asmImage : Nat → Nat → State → Except Fault State
  | 0, _, s => .ok s
  | n + 1, p, s =>
    match asmPixel p s.channels 0 s with
    | .error f => .error f
    | .ok s' => asmImage n (p + 1) s'

/-- The operation of PP.ASM (R231). -/
def ppAsmEffect (s : State) : Effect :=
  match asmImage s.npix 0 s with
  | .error f => .error f
  | .ok s' => .ok (s'.setProduced (s.npix * s.channels), .complete)

/-- PP.ASM (R231). -/
def execPpAsm (s : State) : Host.Outcome State Fault Refusal :=
  conclude (checked (ppAsmChecks s) s (ppAsmEffect s))

/-! PP.ALPHA. -/

/-- The checks of PP.ALPHA, in the order of the table of R234. -/
def ppAlphaChecks (s : State) : List Check :=
  [ badCfg s.badFormatBits PP_FMT,
    badCfg s.badChannels PP_FMT,
    badCfg (decide (s.channels ≤ s.alphaLane)) PP_FMT,
    badCfg (decide (s.alphaBits ∉ [4, 5, 7, 8])) PP_FMT,
    badCfg (decide (s.len .output ≠ s.npix * s.channels)) OUT_LEN,
    badCfg (decide (s.len .table % 4 ≠ 0)) TBL_LEN,
    s.insideCheck .output,
    s.insideCheck .table,
    s.disjointCheck .output .table ]

/-- The alpha byte of `n` pixels from pixel `p` on becomes `a` (R234). -/
def fillAlpha (a : Byte) : Nat → Nat → State → Except Fault State
  | 0, _, s => .ok s
  | n + 1, p, s =>
    match writeMem s (s.base .output + (p * s.channels + s.alphaLane)) a with
    | .error f => .error f
    | .ok s' => fillAlpha a n (p + 1) s'

/-- The value a stored alpha value is written as (R234), for an expansion `expand` (R6 (b)). -/
def alphaValue (expand : Nat → Nat → Byte) (bits val : Nat) : Byte :=
  if bits = 8 then BitVec.ofNat 8 val else expand bits val

/-- The run loop of R234: `n` table entries from entry `k` on, `p` pixels covered. -/
def alphaRuns (expand : Nat → Nat → Byte) : Nat → Nat → Nat → State → Effect
  | 0, _, p, s =>
    .ok (s.setProduced p, if p < s.npix then .truncated .tARun (BitVec.ofNat 32 p) else .complete)
  | n + 1, k, p, s =>
    match readMem32 s (s.base .table + 4 * k) with
    | .error f => .error f
    | .ok e =>
      if s.alphaBits < 8 ∧ 2 ^ s.alphaBits ≤ bitsOf e 0 8 then
        .ok (s.setProduced p, .corrupt .eAlpha (BitVec.ofNat 32 k))
      else if s.npix < p + bitsOf e 8 24 then .ok (s.setProduced p, .corrupt .eBounds (BitVec.ofNat 32 k))
      else
        match fillAlpha (alphaValue expand s.alphaBits (bitsOf e 0 8)) (bitsOf e 8 24) p s with
        | .error f => .error f
        | .ok s' => alphaRuns expand n (k + 1) (p + bitsOf e 8 24) s'

/-- PP.ALPHA (R234). -/
def execPpAlpha (s : State) : Host.Outcome State Fault Refusal :=
  conclude (checked (ppAlphaChecks s) s (alphaRuns alphaExpand (s.len .table / 4) 0 0 (s.setProduced 0)))

end Sys2Proof.Machine
end

