-- ==== Sys2Proof/Machine/Sequencer.lean ====
section
/-! DEFINITION. HALT, SETLO and SETHI (spec/40_sequencer.md R132 to R134). -/

namespace Sys2Proof.Machine

/-- HALT (R132). -/
def execHalt (s : State) : Host.Outcome State Fault Refusal := conclude (.ok (s, .halt))

/-- A write of a configuration CSR by SETLO or SETHI, with its side effect on the cursor (R25, R133, R134). -/
def State.writeConfig (s : State) (r : Fin 34) (v : Word) : State :=
  if r.val ≤ 2 then (s.setCsr r v).closeCursor else s.setCsr r v

/-- What SETLO and SETHI share (R133, R134): the index check, then the write of a value made from the old one. -/
def setConfig (csr : BitVec 8) (value : Word → Word) (s : State) : Effect :=
  match cfgIndex csr with
  | none => .ok (s, .corrupt .eIllCsr (csr.setWidth 32))
  | some r => .ok (s.writeConfig r (value (s.csr r)), .complete)

/-- SETLO csr, imm16 (R133): the immediate, zero-extended. -/
def execSetlo (csr : BitVec 8) (imm : BitVec 16) (s : State) : Host.Outcome State Fault Refusal :=
  conclude (setConfig csr (fun _ => 0#16 ++ imm) s)

/-- SETHI csr, imm16 (R134): bits [31:16] become the immediate, the low half is kept. -/
def execSethi (csr : BitVec 8) (imm : BitVec 16) (s : State) : Host.Outcome State Fault Refusal :=
  conclude (setConfig csr (fun old => imm ++ old.extractLsb' 0 16) s)

end Sys2Proof.Machine
end

