-- ==== Sys2Proof/Machine/Dispatch.lean ====
section
/-! DEFINITION. One arm per command of spec/30_encoding.md R105. -/

namespace Sys2Proof.Machine

def exec (i : Instr) (s : State) : Host.Outcome State Fault Refusal :=
  match i with
  | .halt => Sys2Proof.Machine.execHalt s
  | .setlo csr imm => Sys2Proof.Machine.execSetlo csr imm s
  | .sethi csr imm => Sys2Proof.Machine.execSethi csr imm s
  | .brOpen ord => Sys2Proof.Machine.execBrOpen ord s
  | .brBit => Sys2Proof.Machine.execBrBit s
  | .brBits n => Sys2Proof.Machine.execBrBits n s
  | .brUnary => Sys2Proof.Machine.execBrUnary s
  | .ocCopy => Sys2Proof.Machine.execOcCopy s
  | .lzDec => Sys2Proof.Machine.execLzDec s
  | .hufBldw => Sys2Proof.Machine.execHufBldw s
  | .hufBldl => Sys2Proof.Machine.execHufBldl s
  | .hufDec => Sys2Proof.Machine.execHufDec s
  | .ppAsm => Sys2Proof.Machine.execPpAsm s
  | .ppAlpha => Sys2Proof.Machine.execPpAlpha s
  | .ksLcg bias => Sys2Proof.Machine.execKsLcg bias s
  | .ksPm bias => Sys2Proof.Machine.execKsPm bias s
  | .ksHash bias => Sys2Proof.Machine.execKsHash bias s
  | .ksRaw bias => Sys2Proof.Machine.execKsRaw bias s

end Sys2Proof.Machine
end

