-- ==== Sys2Proof/Machine/Cycle.lean ====
section
/-! DEFINITION. The run cycle of spec/40_sequencer.md R130: fetch, decode, execute, apply the outcome. -/

namespace Sys2Proof.Machine

/-- The step of R130 on a fetched word: an illegal word is Corrupt(E_ILLCMD, w) and changes nothing else (R107). -/
def runWord (w : Word) (s : State) : Host.Outcome State Fault Refusal :=
  match decode w with
  | .error _ => conclude (.ok (s, .corrupt .eIllCmd w))
  | .ok i => exec i s

/-- R130: nothing while RUN is not BUSY; otherwise one command. -/
def cycle (s : State) : Host.Outcome State Fault Refusal :=
  if s.run = .busy then
    match s.fetch with
    | .pastEnd => conclude (.ok (s, .corrupt .eCmdEnd s.cp))
    | .unwritten => .fault (.unwrittenCmd s.cp.toNat)
    | .word w => runWord w s
  else .next s

end Sys2Proof.Machine
end

