-- ==== Sys2Proof/Machine/Step.lean ====
section
/-! DEFINITION. One step of the GDC (spec/40_sequencer.md R130), and the host's placing of one command at the fetch. -/

namespace Sys2Proof.Machine

/-- One step (R130). -/
def step (s : State) : Host.Outcome State Fault Refusal := cycle s

/-- `s` with the command word whose bits are `w` stored where the next step fetches and with a run in progress: what the
host's CMD writes and START do (R136, R323; assumption 11). -/
def State.withFetchWord (s : State) (nbits w : Nat) : State := s.placeCommand (BitVec.ofNat 32 (w % 2 ^ nbits))

end Sys2Proof.Machine
end

