-- ==== Sys2Proof/Machine/HostPort.lean ====
section
/-! DEFINITION. The host's operations (spec/70_reset_and_hazards.md R323, spec/10_state.md R23): no part of `step`, the
host being another agent (assumption 11). A refused operation has no transition (93 U4, U5). -/

namespace Sys2Proof.Machine

/-- What a host read answers: a value, that nothing has written the location (R88), or refused (R323). -/
inductive HostAnswer (α : Type) where
  | value (a : α)
  | unwritten
  | refused
  deriving DecidableEq, Repr

/-- The answer for an array entry. -/
def hostEntry {α : Type} : Option α → HostAnswer α
  | some a => .value a
  | none => .unwritten

/-- RESET: always (R320, R323). -/
def hostReset (s : State) : State := s.applyReset

/-- START: while RUN is not BUSY (R136, R323). -/
def hostStart (s : State) : Option State := if s.run = .busy then none else some s.start

/-- Write of CMD[i] (R323). -/
def hostWriteCmd (i : Nat) (w : Word) (s : State) : Option State :=
  if s.run = .busy ∨ s.cmdLen ≤ i then none else some (s.setCmd (cellWrite s.cmd i w))

/-- Read of CMD[i] (R323). -/
def hostReadCmd (i : Nat) (s : State) : HostAnswer Word :=
  if s.run = .busy ∨ s.cmdLen ≤ i then .refused else hostEntry (cellRead s.cmd i)

/-- Write of MEM[a] (R323). -/
def hostWriteMem (a : Nat) (b : Byte) (s : State) : Option State :=
  if s.run = .busy ∨ s.memSize ≤ a then none else some (s.setMem (cellWrite s.mem a b))

/-- Read of MEM[a] (R323). -/
def hostReadMem (a : Nat) (s : State) : HostAnswer Byte :=
  if s.run = .busy ∨ s.memSize ≤ a then .refused else hostEntry (s.byteAt a)

/-- Write of a CSR (R23, R323): a configuration CSR stores all 32 bits with no other effect; any other index is ignored. -/
def hostWriteCsr (i : BitVec 8) (v : Word) (s : State) : Option State :=
  if s.run = .busy then none
  else
    match cfgIndex i with
    | some r => some (s.setCsr r v)
    | none => some s

/-- Read of a CSR (R23, R323). -/
def hostReadCsr (i : BitVec 8) (s : State) : HostAnswer Word :=
  if s.run = .busy then .refused else .value (s.readCsr i)

/-- Read of STATUS: always (R323). -/
def hostReadStatus (s : State) : Word := s.statusWord

end Sys2Proof.Machine
end

