-- ==== Sys2Proof/Safety.lean ====
section
/-! DEFINITION. The terms claims are stated in: what a command may read, the cursor as a list of bits, a listed tree, and
the invariant of every run. -/

namespace Sys2Proof.Machine

/-! Regions. -/

/-- The region lies inside MEM (spec/20_memory.md R77). -/
abbrev State.Inside (s : State) (g : Region) : Prop := s.base g + s.len g ≤ s.memSize

/-- Two regions do not overlap (R78). -/
abbrev State.Disjoint (s : State) (g h : Region) : Prop := s.overlaps g h = false

/-- Every byte of the region has been written (R88, R322). -/
abbrev State.Readable (s : State) (g : Region) : Prop := ∀ k, k < s.len g → (s.byteAt (s.base g + k)).isSome = true

/-- The byte of a region at an offset, 0 where nothing has been written; a claim reads it only where something has. -/
def State.regionByte (s : State) (g : Region) (k : Nat) : Byte := (s.byteAt (s.base g + k)).getD 0

/-- The bytes of a region. -/
def State.regionBytes (s : State) (g : Region) : List Byte := (List.range (s.len g)).map (s.regionByte g)

/-- The 32-bit little-endian entry `i` of the table region (R73). -/
def State.tableEntry (s : State) (i : Nat) : Word :=
  littleEndian32 (s.regionByte .table (4 * i)) (s.regionByte .table (4 * i + 1)) (s.regionByte .table (4 * i + 2))
    (s.regionByte .table (4 * i + 3))

/-- Address `a` is none of the first `n` bytes of the output region. -/
abbrev State.OutsideOut (s : State) (n a : Nat) : Prop := a < s.base .output ∨ s.base .output + n ≤ a

/-! The cursor as a list of bits (spec/41_bitreader.md R150). -/

/-- The bits of a byte in the order a cursor delivers them (R150). -/
def byteBits (ord : BitOrder) (b : Byte) : List Bool :=
  match ord with
  | .msb => [b.getLsbD 7, b.getLsbD 6, b.getLsbD 5, b.getLsbD 4, b.getLsbD 3, b.getLsbD 2, b.getLsbD 1, b.getLsbD 0]
  | .lsb => [b.getLsbD 0, b.getLsbD 1, b.getLsbD 2, b.getLsbD 3, b.getLsbD 4, b.getLsbD 5, b.getLsbD 6, b.getLsbD 7]

/-- The number of input bytes not yet loaded. -/
def State.bytesLeft (s : State) : Nat := s.csrNat IN_LEN - s.csrNat IN_POS

/-- The bits of the input bytes not yet loaded. -/
def State.unloadedBits (s : State) : List Bool :=
  (List.range s.bytesLeft).flatMap (fun k => byteBits s.bord (s.regionByte .input (s.csrNat IN_POS + k)))

/-- The bits next_bit will deliver, first to last: the unread bits of BBUF, then those of the bytes not yet loaded. -/
def State.pendingBits (s : State) : List Bool := (byteBits s.bord s.bbuf).take s.bcnt.toNat ++ s.unloadedBits

/-- The value of a list of bits, the first most significant (R151). -/
def bitsValue (bs : List Bool) : Nat := bs.foldl (fun v b => 2 * v + b.toNat) 0

/-- Every input byte not yet loaded has been written. -/
abbrev State.InputReady (s : State) : Prop :=
  ∀ k, k < s.bytesLeft → (s.byteAt (s.base .input + (s.csrNat IN_POS + k))).isSome = true

/-- The positions of BBUF that hold no unread bit are 0 (R39). -/
abbrev State.BufferClear (s : State) : Prop :=
  (s.bord = .msb → ∀ i, i < 8 - s.bcnt.toNat → s.bbuf.getLsbD i = false) ∧
    (s.bord = .lsb → ∀ i, i < 8 → s.bcnt.toNat ≤ i → s.bbuf.getLsbD i = false)

/-- The invariants of BSTATE (R39). -/
abbrev State.CursorOk (s : State) : Prop :=
  s.bcnt.toNat ≤ 8 ∧ s.BufferClear ∧ (s.bopen = false → s.bcnt = 0 ∧ s.bbuf = 0)

/-- An open cursor with a checked input region (R25, R78). -/
abbrev State.CursorOpen (s : State) : Prop :=
  s.bopen = true ∧ s.Inside .input ∧ s.csrNat IN_POS ≤ s.csrNat IN_LEN

/-- An open cursor whose unread input can be read: what BR.OPEN establishes and every command keeps (R25, R78), with the
input bytes the host has written (R322). -/
abbrev State.ReadyToRead (s : State) : Prop := s.CursorOpen ∧ s.bcnt.toNat ≤ 8 ∧ s.InputReady

/-- A byte after `k` of its bits have been delivered (R39, R150): the next bit to deliver moves to the delivery position. -/
def shiftOut (ord : BitOrder) (b : Byte) (k : Nat) : Byte :=
  match ord with
  | .msb => b <<< k
  | .lsb => b >>> k

/-- The state after `k` more bits have been consumed and nothing else has happened: IN_POS, BBUF and BCNT in closed form.
Bytes are loaded one at a time, each only when a bit of it is demanded (R39, R150). With `m` bits taken from bytes not yet
loaded, `(m + 7) / 8` bytes are loaded and the last one keeps the rest. -/
def State.afterBits (s : State) (k : Nat) : State :=
  if k ≤ s.bcnt.toNat then s.setBits (shiftOut s.bord s.bbuf k) (BitVec.ofNat 4 (s.bcnt.toNat - k))
  else
    (s.setCsr IN_POS (s.csr IN_POS + BitVec.ofNat 32 ((k - s.bcnt.toNat + 7) / 8))).setBits
      (shiftOut s.bord (s.regionByte .input (s.csrNat IN_POS + ((k - s.bcnt.toNat + 7) / 8 - 1)))
        (8 - (8 * ((k - s.bcnt.toNat + 7) / 8) - (k - s.bcnt.toNat))))
      (BitVec.ofNat 4 (8 * ((k - s.bcnt.toNat + 7) / 8) - (k - s.bcnt.toNat)))

/-- The run of 1-bits count_unary counts in a list of bits: leading ones, at most 32 (R152). -/
def onesRun (bs : List Bool) : Nat := ((bs.take UNARY_CAP).takeWhile (fun b => b)).length

/-! The tree (spec/43_huffman.md R200). -/

/-- HROOT is NIL or a node in use, and every internal node has two listed children that are nodes in use (R45, R200). -/
abbrev State.TreeListed (s : State) : Prop :=
  (s.hroot = NIL ∨ s.hroot.toNat < s.hnext.toNat) ∧
    ∀ n, n < s.hnext.toNat → s.hnsym.toNat ≤ n →
      ∀ c : Bool, (s.child c n).any (fun m => decide (m.toNat < s.hnext.toNat)) = true

/-! The invariant of every run. -/

/-- What holds after RESET and is kept by every step and every host operation: the sizes of R5, CP within the list
(R5, R22), canonical memories, the window's bounds (R40, R44), the invariants of BSTATE (R39), a checked input region
while a cursor is open during a run (R25, R78; assumption 14), and HTOVF as R41 defines it. -/
abbrev State.Inv (s : State) : Prop :=
  s.memSize ≤ 2 ^ 32 ∧ s.cmdLen < 2 ^ 32 ∧ s.cp.toNat ≤ s.cmdLen ∧ Memory.wf s ∧ CellsWf WCAP_MAX s.win ∧
    s.wcur.toNat < WCAP_MAX ∧ s.CursorOk ∧ (s.run = .busy → s.bopen = true → s.CursorOpen) ∧
    s.htovf = decide (2 ^ 32 ≤ s.htot.toNat)

end Sys2Proof.Machine
end

