-- ==== Sys2Proof/Reference.lean ====
section
/-! DEFINITION. What the decoders compute, as functions of lists: no bit cursor, no window RAM, no MEM. Claims compare the
machine with these. The configuration is read from a state that never changes. -/

namespace Sys2Proof.Machine

/-! LZ.DEC (spec/42_lz.md R174 to R179) over the list of pending bits and the list of bytes produced. -/

/-- A token (R174): a literal, or a match with its branch descriptor, offset field and length field. -/
inductive RefToken where
  | literal (b : Byte)
  | copy (br : Word) (o l : Nat)
  deriving DecidableEq, Repr

/-- A field of `n` bits, the first most significant, and the bits after it (R151); `none` where the input ends. -/
def refField (n : Nat) (bs : List Bool) : Option (Nat × List Bool) :=
  if n ≤ bs.length then some (bitsValue (bs.take n), bs.drop n) else none

/-- The two fields of a match, offset first (R174). -/
def refMatch (br : Word) (bs : List Bool) : Option (RefToken × List Bool) :=
  match refField (offB br) bs with
  | none => none
  | some (o, bs1) =>
    match refField (lenB br) bs1 with
    | none => none
    | some (l, bs2) => some (.copy br o l, bs2)

/-- read_token (R174); `none` where the input ends. -/
def refToken (s : State) (bs : List Bool) : Option (RefToken × List Bool) :=
  match bs with
  | [] => none
  | c1 :: bs1 =>
    if c1 = s.litpol then
      match refField 8 bs1 with
      | none => none
      | some (v, bs2) => some (.literal (BitVec.ofNat 8 v), bs2)
    else if s.twolvl then
      match bs1 with
      | [] => none
      | c2 :: bs2 => refMatch (if c2 = s.shortpol then s.csr LZ_SHORT else s.csr LZ_LONG) bs2
    else refMatch (s.csr LZ_LONG) bs1

/-- The distance of a match, or the cause and information word of R175. -/
def refDistance (s : State) (v : Nat) : Except (Cause × Nat) Nat :=
  if s.tableMode then
    if s.len .table / 4 ≤ v then .error (.eBounds, v)
    else if s.tableEntry v = 0 then .error (.eLzDist, 0)
    else .ok (s.tableEntry v).toNat
  else if v = 0 ∨ s.csrNat LZ_WCAP < v then .error (.eLzDist, v)
  else .ok v

/-- `n` bytes copied from distance `d`, each after the one before it; before the start of output stands the fill byte
(R176, R178, R181). -/
def refCopy (fill : Byte) (d : Nat) : Nat → List Byte → List Byte
  | 0, out => out
  | n + 1, out => refCopy fill d n (out ++ [if d ≤ out.length then out.getD (out.length - d) 0 else fill])

/-- What a decode ends with: the bytes produced, the outcome, and the bits not consumed. -/
structure RefDecode where
  out : List Byte
  ending : Ending
  rest : List Bool
  deriving DecidableEq, Repr

/-- The loop of R179. Every token takes at least one bit, so the number of bits bounds the tokens. -/
def refLzLoop (s : State) : Nat → List Bool → List Byte → RefDecode
  | fuel, bs, out =>
    if s.len .output ≤ out.length then { out := out, ending := .complete, rest := bs }
    else
      match fuel with
      | 0 => { out := out, ending := .truncated .tEoi (BitVec.ofNat 32 out.length), rest := [] }
      | fuel + 1 =>
        match refToken s bs with
        | none => { out := out, ending := .truncated .tEoi (BitVec.ofNat 32 out.length), rest := [] }
        | some (.literal b, rest) => refLzLoop s fuel rest (out ++ [b])
        | some (.copy br o l, rest) =>
          match refDistance s (o + distBias br) with
          | .error (c, info) => { out := out, ending := .corrupt c (BitVec.ofNat 32 info), rest := rest }
          | .ok d =>
            if out.length < d ∧ s.under = 1 then
              { out := out, ending := .truncated .tLzStop (BitVec.ofNat 32 out.length), rest := rest }
            else if out.length < d ∧ s.under = 2 then
              { out := out, ending := .corrupt .eLzUnder (BitVec.ofNat 32 d), rest := rest }
            else if s.len .output < out.length + (l + lenBias br) then
              if s.under = 1 then
                refLzLoop s fuel rest
                  (refCopy ((s.csr LZ_WFILL).setWidth 8) d (s.len .output - out.length) out)
              else { out := out, ending := .corrupt .eLzOver (BitVec.ofNat 32 (l + lenBias br)), rest := rest }
            else refLzLoop s fuel rest (refCopy ((s.csr LZ_WFILL).setWidth 8) d (l + lenBias br) out)

/-- LZ.DEC over the pending bits (R179). -/
def refLz (s : State) : RefDecode := refLzLoop s s.pendingBits.length s.pendingBits []

/-- The bits of literal tokens that carry the given bytes (R174). -/
def literalBits (s : State) (bytes : List Byte) : List Bool := bytes.flatMap (fun b => s.litpol :: byteBits .msb b)

/-! HUF.DEC (spec/43_huffman.md R206) over the list of pending bits and the node RAM. -/

/-- A walk from node `n`: the leaf and the bits after it, or `none` where the input ends (R206). -/
def refWalk (s : State) (pol : Bool) : List Bool → Nat → Option (Nat × List Bool)
  | [], n => if n < s.hnsym.toNat then some (n, []) else none
  | b :: bs, n =>
    if n < s.hnsym.toNat then some (n, b :: bs) else refWalk s pol bs ((s.child (b != pol) n).getD 0).toNat

/-- Up to `m` symbols from the root, and the bits after them (R206). -/
def refSymbols (s : State) (pol : Bool) : Nat → List Bool → List Nat × List Bool
  | 0, bs => ([], bs)
  | m + 1, bs =>
    match refWalk s pol bs s.hroot.toNat with
    | none => ([], [])
    | some (n, rest) => (n :: (refSymbols s pol m rest).1, (refSymbols s pol m rest).2)

/-- The canonical code of symbol `sym` as its list of bits, first bit first (R204): symbols stand in increasing (length,
symbol) order, and the code of a symbol of length L is the sum, over the symbols before it, of 2^(L - their length). -/
def canonicalCode (len : Nat → Nat) (n sym : Nat) : List Bool :=
  let before := (List.range n).filter (fun j =>
    decide (len j ≠ 0) && (decide (len j < len sym) || (decide (len j = len sym) && decide (j < sym))))
  let code := (before.map (fun j => 2 ^ (len sym - len j))).sum
  (List.range (len sym)).map (fun k => code.testBit (len sym - 1 - k))

/-- Node `j` is live when internal node `n` is made (R202): it exists, is no zero-weight leaf, and is not yet a child. -/
def State.liveAt (s : State) (weight : Nat → Nat) (n j : Nat) : Prop :=
  j < n ∧ weight j ≠ 0 ∧ ∀ p, s.hnsym.toNat ≤ p → p < n → ∀ c : Bool, s.child c p ≠ some (BitVec.ofNat 9 j)

/-! PP.ALPHA (spec/44_planar.md R234) over the list of table entries. -/

/-- The alpha bytes the runs cover, and the outcome: entries from number `k` on, after `done` (R234). -/
def refAlpha (npix bits : Nat) (expand : Nat → Nat → Byte) : List Word → Nat → List Byte → List Byte × Ending
  | [], _, done =>
    (done, if done.length < npix then .truncated .tARun (BitVec.ofNat 32 done.length) else .complete)
  | e :: es, k, done =>
    if bits < 8 ∧ 2 ^ bits ≤ e.toNat % 256 then (done, .corrupt .eAlpha (BitVec.ofNat 32 k))
    else if npix < done.length + e.toNat / 256 then (done, .corrupt .eBounds (BitVec.ofNat 32 k))
    else refAlpha npix bits expand es (k + 1)
      (done ++ List.replicate (e.toNat / 256)
        (if bits = 8 then BitVec.ofNat 8 (e.toNat % 256) else expand bits (e.toNat % 256)))

end Sys2Proof.Machine
end

