-- ==== Sys2Proof/Certificates/Slice0/Obligations.lean ====
section
/-! DEFINITION. The statements for the provers. Registers, masks and information words are written out as spec/ prints them,
apart from the model's own check lists. -/

open Sys2Proof Sys2Proof.Machine

namespace Sys2Proof.Claims

/-! Encoding. -/

/-- The match and mask columns of spec/30_encoding.md R105. -/
def opcodeRows : List (Word × Word) :=
  [ (0x01000000, 0xFFFFFFFF), (0x10000000, 0xFF000000), (0x11000000, 0xFF000000), (0x20000000, 0xFFFFFFFE),
    (0x21000000, 0xFFFFFFFF), (0x22000000, 0xFFFFFFC0), (0x23000000, 0xFFFFFFFF), (0x30000000, 0xFFFFFFFF),
    (0x31000000, 0xFFFFFFFF), (0x40000000, 0xFFFFFFFF), (0x41000000, 0xFFFFFFFF), (0x42000000, 0xFFFFFFFF),
    (0x50000000, 0xFFFFFFFF), (0x51000000, 0xFFFFFFFF), (0x60000000, 0xFFFFFFFE), (0x61000000, 0xFFFFFFFE),
    (0x62000000, 0xFFFFFFFE), (0x63000000, 0xFFFFFFFE) ]

/-- A word is legal by R106: it lies in a row of R105, and a BR.BITS word has n <= 32. -/
def LegalWord (w : Word) : Prop :=
  (∃ r ∈ opcodeRows, w &&& r.2 = r.1) ∧ ¬ (w >>> 24 = 0x22 ∧ 32 < (w &&& 0x3F).toNat)

/-! Outcomes, as spec/40_sequencer.md R131 prints them. -/

/-- Complete. -/
def completed (s : State) : State := { s with last := .complete, cp := s.cp + 1 }

/-- Truncated(c, info). -/
def truncatedBy (s : State) (c : Cause) (info : Word) : State :=
  { s with last := .truncated, tsticky := true, cause := some c, einfo := info, ecp := s.cp, cp := s.cp + 1 }

/-- Corrupt(c, info). -/
def stoppedBy (s : State) (c : Cause) (info : Word) : State :=
  { s with last := .corrupt, cause := some c, einfo := info, ecp := s.cp, run := .stopped }

/-- The causes a command may stop with, by spec/60_exceptions.md R293. -/
def corruptCauses : Instr → List Cause
  | .halt => []
  | .setlo _ _ => [.eIllCsr]
  | .sethi _ _ => [.eIllCsr]
  | .brOpen _ => [.eBadCfg]
  | .brBit => [.eBadSeq]
  | .brBits _ => [.eBadSeq]
  | .brUnary => [.eBadSeq]
  | .ocCopy => [.eBadCfg, .eBounds]
  | .lzDec => [.eBadSeq, .eBadCfg, .eLzDist, .eBounds, .eLzUnder, .eLzOver]
  | .hufBldw => [.eBadCfg, .eHTable]
  | .hufBldl => [.eBadCfg, .eHTable]
  | .hufDec => [.eBadSeq, .eBadCfg, .eHTable]
  | .ppAsm => [.eBadCfg, .ePlane]
  | .ppAlpha => [.eBadCfg, .eAlpha, .eBounds]
  | .ksLcg _ => [.eBadCfg]
  | .ksPm _ => [.eBadCfg]
  | .ksHash _ => [.eBadCfg]
  | .ksRaw _ => [.eBadCfg]

/-- The causes a command may truncate with, by R293. -/
def truncatedCauses : Instr → List Cause
  | .brBit => [.tEoi]
  | .brBits _ => [.tEoi]
  | .brUnary => [.tEoi]
  | .lzDec => [.tEoi, .tLzStop]
  | .hufDec => [.tEoi]
  | .ppAlpha => [.tARun]
  | .halt => []
  | .setlo _ _ => []
  | .sethi _ _ => []
  | .brOpen _ => []
  | .ocCopy => []
  | .hufBldw => []
  | .hufBldl => []
  | .ppAsm => []
  | .ksLcg _ => []
  | .ksPm _ => []
  | .ksHash _ => []
  | .ksRaw _ => []

/-- The CAUSE codes as R291 and R292 print them; 0 where no cause has been recorded (R36). -/
def causeCode : Option Cause → Nat
  | none => 0
  | some .eIllCmd => 1
  | some .eIllCsr => 2
  | some .eBadCfg => 3
  | some .eBadSeq => 4
  | some .eBounds => 5
  | some .eLzDist => 6
  | some .eLzUnder => 7
  | some .eLzOver => 8
  | some .eHTable => 9
  | some .ePlane => 10
  | some .eAlpha => 11
  | some .eCmdEnd => 12
  | some .tEoi => 0x20
  | some .tLzStop => 0x21
  | some .tARun => 0x22

/-- STATUS.RUN as spec/10_state.md R35 prints it. -/
def runCode : RunState → Nat
  | .idle => 0
  | .busy => 1
  | .done => 2
  | .stopped => 3

/-- STATUS.LAST as R35 prints it. -/
def lastCode : LastOutcome → Nat
  | .none => 0
  | .complete => 1
  | .truncated => 2
  | .corrupt => 3

/-- What a read of each CSR gives from the fields (R23, R35 to R43): a field at bit position k counts 2^k. -/
def ReadsFields (s : State) : Prop :=
  (∀ (i : BitVec 8) (r : Fin 34), i.toNat = r.val → s.readCsr i = s.csr r) ∧
  (s.readCsr 0x40).toNat = runCode s.run + 4 * lastCode s.last + 16 * s.tsticky.toNat ∧
  (s.readCsr 0x41).toNat = causeCode s.cause ∧
  s.readCsr 0x42 = s.einfo ∧ s.readCsr 0x43 = s.ecp ∧ s.readCsr 0x44 = s.produced ∧ s.readCsr 0x45 = s.res ∧
  (s.readCsr 0x46).toNat = s.got.toNat + 256 * s.eoi.toNat + 512 * s.cap.toNat ∧
  (s.readCsr 0x47).toNat = s.bbuf.toNat + 256 * s.bcnt.toNat + 4096 * (decide (s.bord = .lsb)).toNat +
    8192 * s.bopen.toNat ∧
  (s.readCsr 0x48).toNat = s.wcur.toNat ∧ s.readCsr 0x49 = s.hroot ∧ s.readCsr 0x4A = s.hnext ∧
  (s.readCsr 0x4B).toNat = s.hvalid.toNat + 2 * (decide (s.hmode = .lengths)).toNat + 4 * s.htovf.toNat ∧
  (s.readCsr 0x4C).toNat = s.htot.toNat % 2 ^ 32 ∧ s.readCsr 0x4D = s.kstate ∧ s.readCsr 0x4E = s.kpos ∧
  s.readCsr 0x4F = s.cp ∧
  ∀ i : BitVec 8, (0x21 < i.toNat ∧ i.toNat < 0x40) ∨ 0x4F < i.toNat → s.readCsr i = 0

/-! Which command may write what (spec/10_state.md R37 to R42, spec/20_memory.md R71, spec/43_huffman.md R210). -/

/-- BR.BIT, BR.BITS, BR.UNARY: the writers of RES and RINFO (R38). -/
def writesResult : Instr → Bool
  | .brBit => true
  | .brBits _ => true
  | .brUnary => true
  | _ => false

/-- The commands that consume bits of the cursor (R39). -/
def readsBits : Instr → Bool
  | .lzDec => true
  | .hufDec => true
  | i => writesResult i

/-- The writers of BSTATE and of IN_POS (R25, R39). -/
def writesCursor : Instr → Bool
  | .setlo _ _ => true
  | .sethi _ _ => true
  | .brOpen _ => true
  | i => readsBits i

/-- HUF.BLDW and HUF.BLDL: the writers of the tree (R41, R210). -/
def buildsTree : Instr → Bool
  | .hufBldw => true
  | .hufBldl => true
  | _ => false

/-- The writers of KSTATE and KPOS (R42). -/
def isCipher : Instr → Bool
  | .ksLcg _ => true
  | .ksPm _ => true
  | .ksHash _ => true
  | .ksRaw _ => true
  | _ => false

/-- The data commands: the writers of PRODUCED and of MEM (R37, R78). -/
def isData : Instr → Bool
  | .ocCopy => true
  | .lzDec => true
  | .hufDec => true
  | .ppAsm => true
  | .ppAlpha => true
  | i => isCipher i

/-! Static checks, row by row as the rules print them; `none` where every check passes. -/

/-- Two regions overlap (spec/20_memory.md R78). -/
abbrev Overlap (s : State) (g h : Region) : Prop :=
  0 < s.len g ∧ 0 < s.len h ∧ s.base g < s.base h + s.len h ∧ s.base h < s.base g + s.len g

/-- The fields of a branch descriptor LZ.DEC refuses (spec/10_state.md R28). -/
abbrev BadDescriptor (d : Word) : Prop :=
  d >>> 26 ≠ 0 ∨ 24 < (d &&& 0x1F).toNat ∨ 16 < ((d >>> 5) &&& 0x1F).toNat

/-- LZ_CTRL.OFFMODE is TABLE (spec/10_state.md R27). -/
abbrev OffsetTable (s : State) : Prop := s.csr LZ_CTRL &&& 0x20 ≠ 0

/-- The table of spec/42_lz.md R173. -/
def lzRejects (s : State) : Option (Cause × Word) :=
  let ctrl := s.csr LZ_CTRL
  if s.bopen = false then some (.eBadSeq, 0)
  else if ctrl >>> 6 ≠ 0 then some (.eBadCfg, 0x14)
  else if (ctrl >>> 3) &&& 3 = 3 then some (.eBadCfg, 0x14)
  else if OffsetTable s ∧ (ctrl >>> 3) &&& 3 = 0 then some (.eBadCfg, 0x14)
  else if ¬ OffsetTable s ∧ (s.csrNat LZ_WCAP = 0 ∨ 65536 < s.csrNat LZ_WCAP) then some (.eBadCfg, 0x11)
  else if ¬ OffsetTable s ∧ s.csrNat LZ_WCAP ≤ s.csrNat LZ_WINIT then some (.eBadCfg, 0x12)
  else if ¬ OffsetTable s ∧ 255 < s.csrNat LZ_WFILL then some (.eBadCfg, 0x13)
  else if BadDescriptor (s.csr LZ_LONG) then some (.eBadCfg, 0x15)
  else if ctrl &&& 2 ≠ 0 ∧ BadDescriptor (s.csr LZ_SHORT) then some (.eBadCfg, 0x16)
  else if OffsetTable s ∧ s.len .table % 4 ≠ 0 then some (.eBadCfg, 0x06)
  else if ¬ s.Inside .output then some (.eBadCfg, 0x03)
  else if OffsetTable s ∧ ¬ s.Inside .table then some (.eBadCfg, 0x05)
  else if Overlap s .output .input then some (.eBadCfg, 0x00)
  else if OffsetTable s ∧ Overlap s .output .table then some (.eBadCfg, 0x05)
  else none

/-- The checks of spec/42_lz.md R171. -/
def ocCopyRejects (s : State) : Option (Cause × Word) :=
  if ¬ s.Inside .output then some (.eBadCfg, 0x03)
  else if s.len .output < s.csrNat OC_SRC + s.csrNat OC_LEN then some (.eBounds, 0x19)
  else if s.len .output < s.csrNat OC_DST + s.csrNat OC_LEN then some (.eBounds, 0x1A)
  else none

/-- The checks of HUF.BLDW and HUF.BLDL (spec/43_huffman.md R202, R205), for entries of `width` bytes. -/
def buildRejects (s : State) (width : Nat) : Option (Cause × Word) :=
  if s.csrNat HUF_N = 0 ∨ 256 < s.csrNat HUF_N then some (.eBadCfg, 0x17)
  else if s.len .table ≠ width * s.csrNat HUF_N then some (.eHTable, s.csr TBL_LEN)
  else if ¬ s.Inside .table then some (.eBadCfg, 0x05)
  else none

/-- The checks of HUF.DEC that come after the tree is consumed (R206). -/
def hufDecRejects (s : State) : Option (Cause × Word) :=
  if 1 < s.csrNat HUF_POL then some (.eBadCfg, 0x18)
  else if ¬ s.Inside .output then some (.eBadCfg, 0x03)
  else if Overlap s .output .input then some (.eBadCfg, 0x00)
  else none

/-- The checks of HUF.DEC on the tree, that come after PRODUCED is cleared (R206). -/
def hufTreeRejects (s : State) : Option (Cause × Word) :=
  if s.hmode = .weights ∧ s.htot.toNat ≠ s.len .output then some (.eHTable, s.htotal)
  else if 0 < s.len .output ∧ s.hroot = 0xFFFFFFFF then some (.eHTable, 0x101)
  else none

/-- The first plane in use with a property, by number. -/
def firstPlane (s : State) (bad : Fin 4 → Bool) : Option (Fin 4) :=
  ([0, 1, 2, 3] : List (Fin 4)).find? (fun c => decide (c.val < s.channels) && bad c)

/-- The index of a plane's BASE register (spec/44_planar.md R231 rows 8 and 9). -/
def planeBase (c : Fin 4) : Word := BitVec.ofNat 32 (0x09 + 2 * c.val)

/-- Must-be-zero bits of PP_FMT (rows 1 of R231 and R234). -/
abbrev BadFormat (s : State) : Prop := (s.csr PP_FMT >>> 14) &&& 3 ≠ 0 ∨ s.csr PP_FMT >>> 20 ≠ 0

/-- The table of spec/44_planar.md R231. -/
def ppAsmRejects (s : State) : Option (Cause × Word) :=
  if BadFormat s then some (.eBadCfg, 0x1E)
  else if s.channels = 0 ∨ 4 < s.channels then some (.eBadCfg, 0x1E)
  else if (∃ c : Fin 4, c.val < s.channels ∧ s.channels ≤ s.lane c.val) ∨
      (∃ c d : Fin 4, c.val < s.channels ∧ d.val < s.channels ∧ c ≠ d ∧ s.lane c.val = s.lane d.val) then
    some (.eBadCfg, 0x1E)
  else if s.vdelta = true ∧ s.csrNat PP_H % 3 ≠ 0 then some (.eBadCfg, 0x1D)
  else if s.len .output ≠ s.csrNat PP_W * s.csrNat PP_H * s.channels then some (.eBadCfg, 0x04)
  else
    match firstPlane s (fun c => decide (s.len (.plane c) < s.csrNat PP_W * s.csrNat PP_H)) with
    | some c => some (.ePlane, BitVec.ofNat 32 c.val)
    | none =>
      if ¬ s.Inside .output then some (.eBadCfg, 0x03)
      else
        match firstPlane s (fun c => decide (¬ s.Inside (.plane c))) with
        | some c => some (.eBadCfg, planeBase c)
        | none =>
          match firstPlane s (fun c => decide (Overlap s .output (.plane c))) with
          | some c => some (.eBadCfg, planeBase c)
          | none => none

/-- The table of spec/44_planar.md R234. -/
def ppAlphaRejects (s : State) : Option (Cause × Word) :=
  if BadFormat s then some (.eBadCfg, 0x1E)
  else if s.channels = 0 ∨ 4 < s.channels then some (.eBadCfg, 0x1E)
  else if s.channels ≤ s.alphaLane then some (.eBadCfg, 0x1E)
  else if s.alphaBits ≠ 4 ∧ s.alphaBits ≠ 5 ∧ s.alphaBits ≠ 7 ∧ s.alphaBits ≠ 8 then some (.eBadCfg, 0x1E)
  else if s.len .output ≠ s.csrNat PP_W * s.csrNat PP_H * s.channels then some (.eBadCfg, 0x04)
  else if s.len .table % 4 ≠ 0 then some (.eBadCfg, 0x06)
  else if ¬ s.Inside .output then some (.eBadCfg, 0x03)
  else if ¬ s.Inside .table then some (.eBadCfg, 0x05)
  else if Overlap s .output .table then some (.eBadCfg, 0x05)
  else none

/-- The checks of KS.LCG and KS.PM (spec/45_cipher.md R262, R264). -/
def streamRejects (s : State) : Option (Cause × Word) :=
  if ¬ s.Inside .output then some (.eBadCfg, 0x03) else none

/-- The checks of KS.HASH (R266). -/
def ksHashRejects (s : State) : Option (Cause × Word) :=
  if ¬ s.Inside .output then some (.eBadCfg, 0x03)
  else if ¬ s.Inside .key then some (.eBadCfg, 0x07)
  else if Overlap s .output .key then some (.eBadCfg, 0x07)
  else none

/-- The checks of KS.RAW (R267). -/
def ksRawRejects (s : State) : Option (Cause × Word) :=
  if s.len .key = 0 then some (.eBadCfg, 0x08)
  else if 7 < s.csrNat KS_ROT then some (.eBadCfg, 0x21)
  else if ¬ s.Inside .output then some (.eBadCfg, 0x03)
  else if ¬ s.Inside .key then some (.eBadCfg, 0x07)
  else if Overlap s .output .key then some (.eBadCfg, 0x07)
  else none

/-! Results. -/

/-- What a cipher command that completes leaves (R260): MEM `m`, KSTATE, KPOS and PRODUCED, and nothing else changed; the
output bytes are `byte`, every other byte reads as before. -/
def TransformsOut (s : State) (o : Host.Outcome State Fault Refusal) (kstate : Word) (byte : Nat → Byte) : Prop :=
  ∃ m, o = .next (completed { s with mem := m, kstate := kstate, kpos := s.csr OUT_LEN, produced := s.csr OUT_LEN }) ∧
    (∀ k, k < s.len .output → cellRead m (s.base .output + k) = some (byte k)) ∧
    ∀ a, s.OutsideOut (s.len .output) a → cellRead m a = s.byteAt a

/-- R261: the byte stored for data byte `x` and keystream byte `kb`. -/
def biased (bias : Bool) (x kb : Byte) : Byte := if bias then (x ^^^ kb) + 0x80 else x ^^^ kb

/-- The byte PP.ASM stores for plane `c` at pixel `p`, in closed form (spec/44_planar.md R236): the sum of the plane's bytes
in that column, from the band's first row (VDELTA = 1) or from the row itself (VDELTA = 0). -/
def asmSum (s : State) (p : Nat) (c : Fin 4) : Byte :=
  let w := s.csrNat PP_W
  let y := p / w
  let y0 := if s.vdelta then y - y % (s.csrNat PP_H / 3) else y
  (List.range (y - y0 + 1)).foldl (fun v j => v + s.regionByte (.plane c) ((y0 + j) * w + p % w)) 0

/-- The entries of the alpha run table (spec/44_planar.md R233). -/
def alphaEntries (s : State) : List Word := (List.range (s.len .table / 4)).map s.tableEntry

/-- A weight of the weight table (spec/43_huffman.md R201). -/
def weight (s : State) (i : Nat) : Nat := (s.tableEntry i).toNat

/-- A length of the length table (R203). -/
def codeLength (s : State) (i : Nat) : Nat := (s.regionByte .table i).toNat

/-- How many of the first HUF_N table entries are not 0. -/
def usedSymbols (s : State) (entry : Nat → Nat) : Nat :=
  ((List.range (s.csrNat HUF_N)).filter (fun i => decide (entry i ≠ 0))).length

/-- The tree registers after a builder has begun and built nothing (R205). -/
def emptyTree (s : State) (mode : TreeMode) (n : Nat) : State :=
  { s with
    hvalid := false
    hmode := mode
    htovf := false
    hnsym := BitVec.ofNat 9 n
    htot := 0
    hroot := 0xFFFFFFFF
    hnext := BitVec.ofNat 32 n }

end Sys2Proof.Claims

open Sys2Proof.Claims

/-! ## Encoding -/

/-- Decode and encode agree: every bit of every operand survives (spec/30_encoding.md R100 to R106). -/
def Obligations.DecodeInvertsEncode : Prop := ∀ i : Instr, i.wellFormed = true → decode (encode i) = .ok i

/-- A word that decodes is the encoding of a well-formed command (R106): no two words share a command. -/
def Obligations.EncodeInvertsDecode : Prop :=
  ∀ (w : Word) (i : Instr), decode w = .ok i → i.wellFormed = true ∧ encode i = w

/-- The legal words are those of the rows of R105 with n <= 32 for BR.BITS, and no word lies in two rows (R106). -/
def Obligations.LegalWordsAreTheTable : Prop :=
  (∀ w : Word, (∃ i, decode w = .ok i) ↔ LegalWord w) ∧
    ∀ (w : Word) (r q : Word × Word), r ∈ opcodeRows → q ∈ opcodeRows → w &&& r.2 = r.1 → w &&& q.2 = q.1 → r = q

/-- Words the spec prints, with the commands they are (examples of R132 to R134, R153, R155, R267). -/
def Obligations.PrintedWordsDecode : Prop :=
  decode 0x01000000 = .ok .halt ∧ decode 0x1003BEEF = .ok (.setlo 3 0xBEEF) ∧
    decode 0x1103DEAD = .ok (.sethi 3 0xDEAD) ∧ decode 0x20000001 = .ok (.brOpen .lsb) ∧
    decode 0x22000003 = .ok (.brBits 3) ∧ decode 0x63000001 = .ok (.ksRaw true)

/-! ## The run cycle -/

/-- A step on a decoded command is that command's meaning, with nothing around it (spec/40_sequencer.md R130). -/
def Obligations.StepRunsDecodedCommand : Prop :=
  ∀ (s : State) (w : Word) (i : Instr), s.run = .busy → s.cp.toNat < s.cmdLen →
    cellRead s.cmd s.cp.toNat = some w → decode w = .ok i → step s = exec i s

/-- The run cycle (R130): nothing while RUN is not BUSY; E_CMDEND at the end of the list; E_ILLCMD on an illegal word; the
command's meaning otherwise. -/
def Obligations.RunCycle : Prop :=
  ∀ s : State,
    (s.run ≠ .busy → step s = .next s) ∧
    (s.run = .busy → s.cmdLen ≤ s.cp.toNat → step s = .next (stoppedBy s .eCmdEnd s.cp)) ∧
    (s.run = .busy → s.cp.toNat < s.cmdLen → ∀ w, cellRead s.cmd s.cp.toNat = some w →
      (¬ LegalWord w → step s = .next (stoppedBy s .eIllCmd w)) ∧
      (LegalWord w → ∃ i, encode i = w ∧ i.wellFormed = true ∧ step s = exec i s))

/-- Every illegal word stops the run at the step that fetches it and changes nothing else (R107). -/
def Obligations.IllegalWordStopsRun : Prop :=
  ∀ (s : State) (w : Word), s.run = .busy → s.cp.toNat < s.cmdLen → cellRead s.cmd s.cp.toNat = some w →
    ¬ LegalWord w →
    step s = .next { s with last := .corrupt, cause := some .eIllCmd, einfo := w, ecp := s.cp, run := .stopped }

/-- Every command ends in one of the four outcomes, recorded as R131 says (R290, R296); CAUSE then reads the code R291 and
R292 give the cause, whichever command or fetch recorded it. -/
def Obligations.OutcomeIsRecorded : Prop :=
  (∀ (i : Instr) (s t : State), exec i s = .next t →
    (i = .halt ∧ t = { s with run := .done }) ∨
    (i ≠ .halt ∧ t.last = .complete ∧ t.cp = s.cp + 1 ∧ t.run = s.run ∧ t.tsticky = s.tsticky ∧ t.cause = s.cause ∧
      t.einfo = s.einfo ∧ t.ecp = s.ecp) ∨
    (i ≠ .halt ∧ t.last = .truncated ∧ t.cp = s.cp + 1 ∧ t.run = s.run ∧ t.tsticky = true ∧
      (∃ c ∈ truncatedCauses i, t.cause = some c ∧ (t.readCsr 0x41).toNat = causeCode (some c)) ∧ t.ecp = s.cp) ∨
    (i ≠ .halt ∧ t.last = .corrupt ∧ t.cp = s.cp ∧ t.run = .stopped ∧ t.tsticky = s.tsticky ∧
      (∃ c ∈ corruptCauses i, t.cause = some c ∧ (t.readCsr 0x41).toNat = causeCode (some c)) ∧ t.ecp = s.cp)) ∧
  ∀ s : State, (s.readCsr 0x41).toNat = causeCode s.cause

/-- Which command can produce which cause (spec/60_exceptions.md R293), the fetch among them. -/
def Obligations.CausesPerCommand : Prop :=
  (∀ (i : Instr) (s t : State), exec i s = .next t → i ≠ .halt →
    (t.last = .corrupt → ∃ c ∈ corruptCauses i, t.cause = some c) ∧
    (t.last = .truncated → ∃ c ∈ truncatedCauses i, t.cause = some c) ∧
    (i = .lzDec → t.last = .corrupt → t.cause = some .eBounds → s.tableMode = true)) ∧
  (∀ s t : State, exec .halt s = .next t → t.last = s.last ∧ t.cause = s.cause) ∧
  ∀ s t : State, s.run = .busy → step s = .next t → (∀ w i, s.fetch = .word w → decode w ≠ .ok i) →
    t.last = .corrupt ∧ (t.cause = some .eCmdEnd ∨ t.cause = some .eIllCmd)

/-- A failed static check leaves everything as it was but the outcome registers, and HVALID for a HUF.DEC that has
consumed its tree (R295, R297). -/
def Obligations.StaticFailureChangesNothing : Prop :=
  ∀ (i : Instr) (s t : State), exec i s = .next t → i ≠ .halt → t.last = .corrupt →
    (t.cause = some .eBadCfg ∨ t.cause = some .eBadSeq ∨ t.cause = some .ePlane ∨ t.cause = some .eIllCsr) →
    t = { s with last := .corrupt, cause := t.cause, einfo := t.einfo, ecp := s.cp, run := .stopped,
                 hvalid := if i = .hufDec ∧ s.bopen = true then false else s.hvalid }

/-- HALT (R132): RUN becomes DONE and nothing else changes; STATUS reads 2 where HALT is the first command; a list without a
HALT ends with E_CMDEND. -/
def Obligations.HaltEndsRun : Prop :=
  decode 0x01000000 = .ok .halt ∧
  ∀ s : State, exec .halt s = .next { s with run := .done } ∧
    (s.last = .none → s.tsticky = false → ({ s with run := .done } : State).readCsr 0x40 = 2) ∧
    (s.run = .busy → s.cp.toNat = s.cmdLen → step s = .next (stoppedBy s .eCmdEnd s.cp))

/-- SETLO (R133), with its effect on the cursor (spec/10_state.md R25) and the indices it refuses. -/
def Obligations.SetloWritesConfiguration : Prop :=
  ∀ (s : State) (csr : BitVec 8) (imm : BitVec 16),
    decode (0x10#8 ++ csr ++ imm) = .ok (.setlo csr imm) ∧
    (∀ r : Fin 34, csr.toNat = r.val →
      exec (.setlo csr imm) s = .next (completed { s with
        cfg := s.cfg.set r (0#16 ++ imm)
        bopen := if csr.toNat ≤ 2 then false else s.bopen
        bcnt := if csr.toNat ≤ 2 then 0 else s.bcnt
        bbuf := if csr.toNat ≤ 2 then 0 else s.bbuf })) ∧
    (0x21 < csr.toNat → exec (.setlo csr imm) s = .next (stoppedBy s .eIllCsr (csr.setWidth 32)))

/-- SETHI (R134): bits [31:16] become the immediate, the low half is kept; cursor and refused indices as SETLO. -/
def Obligations.SethiWritesConfiguration : Prop :=
  ∀ (s : State) (csr : BitVec 8) (imm : BitVec 16),
    decode (0x11#8 ++ csr ++ imm) = .ok (.sethi csr imm) ∧
    (∀ r : Fin 34, csr.toNat = r.val →
      exec (.sethi csr imm) s = .next (completed { s with
        cfg := s.cfg.set r (imm ++ (s.csr r).extractLsb' 0 16)
        bopen := if csr.toNat ≤ 2 then false else s.bopen
        bcnt := if csr.toNat ≤ 2 then 0 else s.bcnt
        bbuf := if csr.toNat ≤ 2 then 0 else s.bbuf })) ∧
    (0x21 < csr.toNat → exec (.sethi csr imm) s = .next (stoppedBy s .eIllCsr (csr.setWidth 32)))

/-- SET csr, imm32 (spec/30_encoding.md R110): SETLO of the low half, then SETHI of the high half where it is not 0, leaves
the whole value, whatever the register held. -/
def Obligations.SetLoadsWord : Prop :=
  ∀ (s : State) (r : Fin 34) (csr : BitVec 8) (imm : Word), csr.toNat = r.val →
    ∃ t u, exec (.setlo csr (imm.extractLsb' 0 16)) s = .next t ∧ exec (.sethi csr (imm.extractLsb' 16 16)) t = .next u ∧
      u.csr r = imm ∧ (imm.extractLsb' 16 16 = 0 → t.csr r = imm) ∧ ∀ q, q ≠ r → u.csr q = s.csr q

/-! ## The bit reader -/

/-- BR.OPEN (spec/41_bitreader.md R153): its two checks, and what an opened cursor holds. -/
def Obligations.BrOpenOpensCursor : Prop :=
  decode 0x20000000 = .ok (.brOpen .msb) ∧ decode 0x20000001 = .ok (.brOpen .lsb) ∧
  ∀ (s : State) (ord : BitOrder),
    (¬ s.Inside .input → exec (.brOpen ord) s = .next (stoppedBy s .eBadCfg 0x00)) ∧
    (s.Inside .input → s.csrNat IN_LEN < s.csrNat IN_POS → exec (.brOpen ord) s = .next (stoppedBy s .eBadCfg 0x02)) ∧
    (s.Inside .input → s.csrNat IN_POS ≤ s.csrNat IN_LEN →
      exec (.brOpen ord) s = .next (completed { s with bord := ord, bbuf := 0, bcnt := 0, bopen := true }))

/-- BR.BIT (R150, R154): no open cursor; a bit; end of input; always what BR.BITS 1 does. `afterBits 1` moves IN_POS, BBUF
and BCNT only. -/
def Obligations.BrBitReadsOneBit : Prop :=
  decode 0x21000000 = .ok .brBit ∧
  (∀ s : State, s.bopen = false → exec .brBit s = .next (stoppedBy s .eBadSeq 0)) ∧
  (∀ (s : State) (b : Bool) (bs : List Bool), s.ReadyToRead → s.pendingBits = b :: bs →
    exec .brBit s = .next (completed { s.afterBits 1 with
      res := if b then 1 else 0, got := 1, eoi := false, cap := false }) ∧ (s.afterBits 1).pendingBits = bs) ∧
  (∀ s : State, s.ReadyToRead → s.pendingBits = [] →
    exec .brBit s = .next (truncatedBy { s with res := 0, got := 0, eoi := true, cap := false } .tEoi 0)) ∧
  ∀ s : State, exec .brBit s = exec (.brBits 1) s

/-- BR.BITS n (R151, R155): n bits, the first consumed most significant; a short read delivers what there is, unpadded. -/
def Obligations.BrBitsReadsBits : Prop :=
  (∀ n : BitVec 6, (n.toNat ≤ 32 → decode (0x22#8 ++ 0#18 ++ n) = .ok (.brBits n)) ∧
    (32 < n.toNat → ∀ i, decode (0x22#8 ++ 0#18 ++ n) ≠ .ok i)) ∧
  (∀ (s : State) (n : BitVec 6), s.bopen = false → exec (.brBits n) s = .next (stoppedBy s .eBadSeq 0)) ∧
  (∀ (s : State) (n : BitVec 6), n.toNat ≤ 32 → s.ReadyToRead → n.toNat ≤ s.pendingBits.length →
    exec (.brBits n) s = .next (completed { s.afterBits n.toNat with
      res := BitVec.ofNat 32 (bitsValue (s.pendingBits.take n.toNat)), got := n, eoi := false, cap := false })) ∧
  (∀ (s : State) (n : BitVec 6), n.toNat ≤ 32 → s.ReadyToRead → s.pendingBits.length < n.toNat →
    exec (.brBits n) s = .next (truncatedBy { s.afterBits s.pendingBits.length with
      res := BitVec.ofNat 32 (bitsValue s.pendingBits), got := BitVec.ofNat 6 s.pendingBits.length, eoi := true,
      cap := false } .tEoi (BitVec.ofNat 32 s.pendingBits.length)))

/-- BR.UNARY (R152, R156): the run of ones ended by a 0-bit, by the cap of 32, or by the end of input. UNARY_MAP is open. -/
def Obligations.BrUnaryCountsOnes : Prop :=
  decode 0x23000000 = .ok .brUnary ∧ unaryMap 0 = 1 ∧
  (∀ s : State, s.bopen = false → exec .brUnary s = .next (stoppedBy s .eBadSeq 0)) ∧
  (∀ (s : State) (k : Nat) (bs : List Bool), s.ReadyToRead → k < 32 →
    s.pendingBits = List.replicate k true ++ false :: bs →
    exec .brUnary s = .next (completed { s.afterBits (k + 1) with
      res := unaryMap k, got := BitVec.ofNat 6 k, eoi := false, cap := false })) ∧
  (∀ (s : State) (bs : List Bool), s.ReadyToRead → s.pendingBits = List.replicate 32 true ++ bs →
    exec .brUnary s = .next (completed { s.afterBits 32 with
      res := unaryMap 32, got := 32, eoi := false, cap := true })) ∧
  (∀ (s : State) (k : Nat), s.ReadyToRead → k < 32 → s.pendingBits = List.replicate k true →
    exec .brUnary s = .next (truncatedBy { s.afterBits k with
      res := unaryMap k, got := BitVec.ofNat 6 k, eoi := true, cap := false } .tEoi (BitVec.ofNat 32 k)))

/-- Bit composition (R157): reading n bits and then m bits is reading n + m bits, split, in both bit orders. -/
def Obligations.BitComposition : Prop :=
  ∀ (s : State) (n m : BitVec 6), s.ReadyToRead → n.toNat + m.toNat ≤ 32 → n.toNat + m.toNat ≤ s.pendingBits.length →
    ∃ t u v, exec (.brBits n) s = .next t ∧ exec (.brBits m) t = .next u ∧ exec (.brBits (n + m)) s = .next v ∧
      v.res = (t.res <<< m.toNat) ||| u.res ∧ v.bbuf = u.bbuf ∧ v.bcnt = u.bcnt ∧ v.cfg = u.cfg ∧
      u.pendingBits = s.pendingBits.drop (n.toNat + m.toNat)

/-- The bits a freshly opened cursor delivers (R150, R153): the input bytes from IN_POS on in rising order, bit 7 first or
bit 0 first as declared. -/
def Obligations.OpenedCursorBits : Prop :=
  ∀ (s t : State) (ord : BitOrder), exec (.brOpen ord) s = .next t → t.last = .complete →
    ∀ k j, k < s.csrNat IN_LEN - s.csrNat IN_POS → j < 8 →
      t.pendingBits[8 * k + j]? = some ((s.regionByte .input (s.csrNat IN_POS + k)).getLsbD
        (match ord with | .msb => 7 - j | .lsb => j))

/-! ## OC.COPY and LZ.DEC -/

/-- The checks of OC.COPY come before the first byte copied (spec/42_lz.md R171). -/
def Obligations.OcCopyChecks : Prop :=
  ∀ (s : State) (c : Cause) (info : Word), ocCopyRejects s = some (c, info) →
    exec .ocCopy s = .next (stoppedBy s c info)

/-- OC.COPY is the forward byte loop (R170, R171): with the destination above the source the first DST - SRC source bytes
repeat; otherwise the original bytes arrive. Nothing outside the destination changes. -/
def Obligations.OcCopyRepeatsShortCycles : Prop :=
  ∀ s : State, ocCopyRejects s = none → s.Readable .output →
    ∃ m, exec .ocCopy s = .next (completed { s with mem := m, produced := s.csr OC_LEN }) ∧
      (∀ k, k < s.csrNat OC_LEN → cellRead m (s.base .output + s.csrNat OC_DST + k) =
        some (s.regionByte .output (if s.csrNat OC_DST ≤ s.csrNat OC_SRC then s.csrNat OC_SRC + k
          else s.csrNat OC_SRC + k % (s.csrNat OC_DST - s.csrNat OC_SRC)))) ∧
      ∀ a, (a < s.base .output + s.csrNat OC_DST ∨ s.base .output + s.csrNat OC_DST + s.csrNat OC_LEN ≤ a) →
        cellRead m a = s.byteAt a

/-- The static checks of LZ.DEC, in the order of the table (R173). -/
def Obligations.LzStaticChecks : Prop :=
  ∀ (s : State) (c : Cause) (info : Word), lzRejects s = some (c, info) → exec .lzDec s = .next (stoppedBy s c info)

/-- LZ.DEC computes the windowless decoder over the pending bits (R174 to R179, R181): same bytes, same outcome, same bits
consumed, PRODUCED the number of bytes, in DIST and in TABLE mode alike. The window (R44, R178, R181 a): kept in TABLE mode; in
DIST mode the last bytes produced, before them the fill byte, and entries at and past LZ_WCAP kept. -/
def Obligations.LzDecComputesReference : Prop :=
  ∀ s : State, lzRejects s = none → s.ReadyToRead → (s.tableMode = true → s.Readable .table) →
    ∃ m win wcur, exec .lzDec s = .next (applyEnding (refLz s).ending
        { s.afterBits (s.pendingBits.length - (refLz s).rest.length) with
          mem := m, win := win, wcur := wcur, produced := BitVec.ofNat 32 (refLz s).out.length }) ∧
      (refLz s).out.length ≤ s.len .output ∧
      wcur.toNat = (if s.tableMode then 0 else (s.csrNat LZ_WINIT + (refLz s).out.length) % s.csrNat LZ_WCAP) ∧
      (s.tableMode = true → win = s.win) ∧
      (s.tableMode = false →
        (∀ j, 1 ≤ j → j ≤ s.csrNat LZ_WCAP →
          cellRead win ((wcur.toNat + s.csrNat LZ_WCAP - j) % s.csrNat LZ_WCAP) =
            if j ≤ (refLz s).out.length then (refLz s).out[(refLz s).out.length - j]?
            else some ((s.csr LZ_WFILL).setWidth 8)) ∧
        ∀ n, s.csrNat LZ_WCAP ≤ n → cellRead win n = cellRead s.win n) ∧
      (∀ k, k < (refLz s).out.length → cellRead m (s.base .output + k) = (refLz s).out[k]?) ∧
      ∀ a, s.OutsideOut (refLz s).out.length a → cellRead m a = s.byteAt a

/-- A stream of literals decodes to its bytes and completes (R174, R179), in every mode and bit order. -/
def Obligations.LzLiteralsRoundTrip : Prop :=
  ∀ (s : State) (bytes : List Byte) (rest : List Bool), lzRejects s = none → s.ReadyToRead →
    s.pendingBits = literalBits s bytes ++ rest → bytes.length = s.len .output →
    ∃ m win wcur, exec .lzDec s = .next (completed { s.afterBits (9 * bytes.length) with
        mem := m, win := win, wcur := wcur, produced := s.csr OUT_LEN }) ∧
      (∀ k, k < bytes.length → cellRead m (s.base .output + k) = bytes[k]?) ∧
      ∀ a, s.OutsideOut bytes.length a → cellRead m a = s.byteAt a

/-- The mirror invariant (R181 a): in DIST mode the window holds the last bytes produced. -/
def Obligations.LzWindowMirrorsOutput : Prop :=
  ∀ s t : State, lzRejects s = none → s.tableMode = false → exec .lzDec s = .next t →
    ∀ j, 1 ≤ j → j ≤ t.produced.toNat → j ≤ s.csrNat LZ_WCAP →
      cellRead t.win ((t.wcur.toNat + s.csrNat LZ_WCAP - j) % s.csrNat LZ_WCAP) =
        t.byteAt (s.base .output + (t.produced.toNat - j))

/-- LZ_WINIT is observable only through WCUR (R181 c): two decodes that differ in it alone write the same bytes, consume
the same bits and end alike. -/
def Obligations.LzWinitUnobservable : Prop :=
  ∀ (s t : State) (v : Word), lzRejects s = none → lzRejects (s.setCsr LZ_WINIT v) = none → exec .lzDec s = .next t →
    ∃ u, exec .lzDec (s.setCsr LZ_WINIT v) = .next u ∧ (∀ a, u.byteAt a = t.byteAt a) ∧ u.produced = t.produced ∧
      u.last = t.last ∧ u.cause = t.cause ∧ u.einfo = t.einfo ∧ u.run = t.run ∧ u.bbuf = t.bbuf ∧ u.bcnt = t.bcnt ∧
      u.csr IN_POS = t.csr IN_POS

/-- What every exit of LZ.DEC after its static checks leaves (R176, R177, R179): PRODUCED <= OUT_LEN, output bytes at and
past PRODUCED unchanged, Complete exactly with all of OUT_LEN produced; with UNDER = STOP neither E_LZUNDER nor E_LZOVER. -/
def Obligations.LzPartialOutput : Prop :=
  ∀ s t : State, lzRejects s = none → exec .lzDec s = .next t →
    t.produced.toNat ≤ s.len .output ∧
    (∀ a, s.OutsideOut t.produced.toNat a → t.byteAt a = s.byteAt a) ∧
    (t.last = .complete → t.produced = s.csr OUT_LEN) ∧
    (t.last = .truncated → t.einfo = t.produced ∧ t.produced.toNat < s.len .output) ∧
    (s.under = 1 → t.last = .corrupt → t.cause ≠ some .eLzUnder ∧ t.cause ≠ some .eLzOver)

/-! ## Huffman -/

/-- The checks of HUF.BLDW and HUF.BLDL; a failed one changes no tree state (spec/43_huffman.md R202, R205). -/
def Obligations.TreeBuilderChecks : Prop :=
  ∀ (s : State) (c : Cause) (info : Word),
    (buildRejects s 4 = some (c, info) → exec .hufBldw s = .next (stoppedBy s c info)) ∧
    (buildRejects s 1 = some (c, info) → exec .hufBldl s = .next (stoppedBy s c info))

/-- What HUF.BLDW leaves (R202): the tree registers, HTOT the exact sum, HNEXT = N + m - 1 for m nonzero weights, the root
NIL, the one leaf, or the last internal node; node RAM outside N .. HNEXT-1 is kept. -/
def Obligations.HufBldwRegisters : Prop :=
  ∀ s : State, buildRejects s 4 = none → s.Readable .table →
    ∃ root next hc0 hc1, exec .hufBldw s = .next (completed { s with
        hvalid := true, hmode := .weights
        htovf := decide (2 ^ 32 ≤ ((List.range (s.csrNat HUF_N)).map (weight s)).sum)
        hnsym := BitVec.ofNat 9 (s.csrNat HUF_N)
        htot := BitVec.ofNat 40 ((List.range (s.csrNat HUF_N)).map (weight s)).sum
        hroot := root, hnext := next, hc0 := hc0, hc1 := hc1 }) ∧
      next.toNat = s.csrNat HUF_N + (usedSymbols s (weight s) - 1) ∧
      (usedSymbols s (weight s) = 0 → root = 0xFFFFFFFF) ∧
      (usedSymbols s (weight s) = 1 → root.toNat < s.csrNat HUF_N ∧ weight s root.toNat ≠ 0) ∧
      (2 ≤ usedSymbols s (weight s) → root.toNat + 1 = next.toNat) ∧
      ∀ n, n < s.csrNat HUF_N ∨ next.toNat ≤ n → cellRead hc0 n = cellRead s.hc0 n ∧ cellRead hc1 n = cellRead s.hc1 n

/-- The tree HUF.BLDW builds is the one R202 describes: every internal node merges the two lightest live nodes, lowest index
among equals, the first selected as child 1 and the second as child 0; the root weighs HTOT. -/
def Obligations.HufBldwMergesLightest : Prop :=
  ∀ s t : State, exec .hufBldw s = .next t → t.last = .complete →
    ∃ W : Nat → Nat, (∀ i, i < s.csrNat HUF_N → W i = weight s i) ∧
      (t.hroot ≠ 0xFFFFFFFF → W t.hroot.toNat = t.htot.toNat) ∧
      ∀ n, s.csrNat HUF_N ≤ n → n < t.hnext.toNat → ∃ a b,
        t.child true n = some (BitVec.ofNat 9 a) ∧ t.child false n = some (BitVec.ofNat 9 b) ∧ a ≠ b ∧
        t.liveAt W n a ∧ t.liveAt W n b ∧ W n = W a + W b ∧
        (∀ j, t.liveAt W n j → W a < W j ∨ (W a = W j ∧ a ≤ j)) ∧
        (∀ j, t.liveAt W n j → j ≠ a → W b < W j ∨ (W b = W j ∧ b ≤ j))

/-- A built tree lists every node a walk can meet, each child a node in use (R200), and after HUF.BLDW children have smaller
indices than their node (R209 a). -/
def Obligations.BuiltTreesAreListed : Prop :=
  (∀ s t : State, exec .hufBldw s = .next t → t.last = .complete → t.TreeListed ∧
    ∀ n, t.hnsym.toNat ≤ n → n < t.hnext.toNat → ∀ c m, t.child c n = some m → m.toNat < n) ∧
  ∀ s t : State, exec .hufBldl s = .next t → t.last = .complete → t.TreeListed

/-- Huffman determinism (R209 d): two builds from the same weight table and alphabet size give the same tree, whatever the
machine held before. -/
def Obligations.HuffmanDeterminism : Prop :=
  ∀ s s' t t' : State, exec .hufBldw s = .next t → exec .hufBldw s' = .next t' → t.last = .complete →
    t'.last = .complete → s.csr HUF_N = s'.csr HUF_N → (∀ i, i < s.csrNat HUF_N → weight s i = weight s' i) →
    t.hroot = t'.hroot ∧ t.hnext = t'.hnext ∧ t.htot = t'.htot ∧ t.htovf = t'.htovf ∧ t.hnsym = t'.hnsym ∧
      ∀ n, s.csrNat HUF_N ≤ n → n < t.hnext.toNat → ∀ c, t.child c n = t'.child c n

/-- The four ends of HUF.BLDL on a readable table (R205): the first length above 32; no symbol; an incomplete or
over-subscribed set; a tree rooted at N with HNEXT = N + m - 1, node RAM outside N .. HNEXT-1 kept. -/
def Obligations.HufBldlOutcomes : Prop :=
  ∀ s : State, buildRejects s 1 = none → s.Readable .table →
    (∀ i, i < s.csrNat HUF_N → 32 < codeLength s i → (∀ j, j < i → codeLength s j ≤ 32) →
      exec .hufBldl s = .next (stoppedBy (emptyTree s .lengths (s.csrNat HUF_N)) .eHTable (BitVec.ofNat 32 i))) ∧
    ((∀ i, i < s.csrNat HUF_N → codeLength s i = 0) →
      exec .hufBldl s = .next (completed { emptyTree s .lengths (s.csrNat HUF_N) with hvalid := true })) ∧
    ((∀ i, i < s.csrNat HUF_N → codeLength s i ≤ 32) → usedSymbols s (codeLength s) ≠ 0 →
      ((List.range (s.csrNat HUF_N)).map (fun i => if codeLength s i = 0 then 0 else 2 ^ (32 - codeLength s i))).sum
        ≠ 2 ^ 32 →
      exec .hufBldl s = .next (stoppedBy (emptyTree s .lengths (s.csrNat HUF_N)) .eHTable 0x100)) ∧
    ((∀ i, i < s.csrNat HUF_N → codeLength s i ≤ 32) →
      ((List.range (s.csrNat HUF_N)).map (fun i => if codeLength s i = 0 then 0 else 2 ^ (32 - codeLength s i))).sum
        = 2 ^ 32 →
      ∃ hc0 hc1, exec .hufBldl s = .next (completed { emptyTree s .lengths (s.csrNat HUF_N) with
        hvalid := true
        hroot := BitVec.ofNat 32 (s.csrNat HUF_N)
        hnext := BitVec.ofNat 32 (s.csrNat HUF_N + usedSymbols s (codeLength s) - 1)
        hc0 := hc0, hc1 := hc1 }) ∧
        ∀ n, n < s.csrNat HUF_N ∨ s.csrNat HUF_N + usedSymbols s (codeLength s) - 1 ≤ n →
          cellRead hc0 n = cellRead s.hc0 n ∧ cellRead hc1 n = cellRead s.hc1 n)

/-- The tree HUF.BLDL builds decodes the canonical codes (R204, R205, R209 b): from the root, a symbol's code leads to that
symbol's leaf, no earlier leaf on the way, whatever bits follow. -/
def Obligations.HufBldlDecodesCanonicalCodes : Prop :=
  ∀ s t : State, exec .hufBldl s = .next t → t.last = .complete →
    ∀ sym, sym < s.csrNat HUF_N → codeLength s sym ≠ 0 → ∀ rest,
      refWalk t false (canonicalCode (codeLength s) (s.csrNat HUF_N) sym ++ rest) t.hroot.toNat = some (sym, rest)

/-- The checks of HUF.DEC in order (R206, R208): no cursor or no tree changes nothing; every later failure has consumed the
tree; the failures on the tree have also cleared PRODUCED. -/
def Obligations.HufDecChecks : Prop :=
  ∀ s : State,
    (s.bopen = false ∨ s.hvalid = false → exec .hufDec s = .next (stoppedBy s .eBadSeq 0)) ∧
    (s.bopen = true → s.hvalid = true → ∀ c info, hufDecRejects s = some (c, info) →
      exec .hufDec s = .next (stoppedBy { s with hvalid := false } c info)) ∧
    (s.bopen = true → s.hvalid = true → hufDecRejects s = none → ∀ c info, hufTreeRejects s = some (c, info) →
      exec .hufDec s = .next (stoppedBy { s with hvalid := false, produced := 0 } c info))

/-- HUF.DEC computes the list decoder (R206, R207): the symbols of the pending bits, one byte each; Complete with OUT_LEN of
them, Truncated with fewer. The tree is consumed. -/
def Obligations.HufDecComputesReference : Prop :=
  ∀ s : State, s.hvalid = true → hufDecRejects s = none → hufTreeRejects s = none → s.ReadyToRead → s.TreeListed →
    let r := refSymbols s (decide (s.csrNat HUF_POL = 1)) (s.len .output) s.pendingBits
    ∃ m, (r.1.length = s.len .output →
        exec .hufDec s = .next (completed { s.afterBits (s.pendingBits.length - r.2.length) with
          mem := m, hvalid := false, produced := s.csr OUT_LEN })) ∧
      (r.1.length ≠ s.len .output →
        exec .hufDec s = .next (truncatedBy { s.afterBits s.pendingBits.length with
          mem := m, hvalid := false, produced := BitVec.ofNat 32 r.1.length } .tEoi (BitVec.ofNat 32 r.1.length))) ∧
      (∀ k, k < r.1.length → cellRead m (s.base .output + k) = (r.1[k]?).map (BitVec.ofNat 8)) ∧
      ∀ a, s.OutsideOut r.1.length a → cellRead m a = s.byteAt a

/-- Only symbols that occur are decoded (R209 c): every byte a HUF.DEC writes after a HUF.BLDW has a nonzero weight, and
every byte it writes after a HUF.BLDL a nonzero length. -/
def Obligations.DecodedSymbolsOccur : Prop :=
  (∀ s t u : State, exec .hufBldw s = .next t → t.last = .complete → exec .hufDec t = .next u → u.last ≠ .corrupt →
    ∀ k, k < u.produced.toNat → ∃ b, u.byteAt (s.base .output + k) = some b ∧ b.toNat < s.csrNat HUF_N ∧
      weight s b.toNat ≠ 0) ∧
  ∀ s t u : State, exec .hufBldl s = .next t → t.last = .complete → exec .hufDec t = .next u → u.last ≠ .corrupt →
    ∀ k, k < u.produced.toNat → ∃ b, u.byteAt (s.base .output + k) = some b ∧ b.toNat < s.csrNat HUF_N ∧
      codeLength s b.toNat ≠ 0

/-- The one-symbol code (R202, R206): with a single nonzero weight every symbol is that leaf and no bit is consumed. -/
def Obligations.OneSymbolNeedsNoBits : Prop :=
  ∀ s t : State, exec .hufBldw s = .next t → t.last = .complete → usedSymbols s (weight s) = 1 → t.bopen = true →
    hufDecRejects t = none → t.htot.toNat = t.len .output →
    ∃ m, exec .hufDec t = .next (completed { t with mem := m, hvalid := false, produced := t.csr OUT_LEN }) ∧
      (∀ k, k < t.len .output → cellRead m (t.base .output + k) = some (t.hroot.setWidth 8)) ∧
      ∀ a, t.OutsideOut (t.len .output) a → cellRead m a = t.byteAt a

/-! ## Planar -/

/-- The checks of PP.ASM and PP.ALPHA, in the order of their tables; the first failure decides and nothing else changes
(spec/44_planar.md R231, R234). -/
def Obligations.PlanarChecks : Prop :=
  ∀ (s : State) (c : Cause) (info : Word),
    (ppAsmRejects s = some (c, info) → exec .ppAsm s = .next (stoppedBy s c info)) ∧
    (ppAlphaRejects s = some (c, info) → exec .ppAlpha s = .next (stoppedBy s c info))

/-- PP.ASM in closed form (R231, R232, R236): every byte of the image is the sum of one column of its plane, from the band's
first row when VDELTA = 1. -/
def Obligations.PpAsmSumsColumns : Prop :=
  ∀ s : State, ppAsmRejects s = none →
    (∀ c : Fin 4, c.val < s.channels → ∀ k, k < s.npix → (s.byteAt (s.base (.plane c) + k)).isSome = true) →
    ∃ m, exec .ppAsm s = .next (completed { s with mem := m, produced := BitVec.ofNat 32 (s.npix * s.channels) }) ∧
      (∀ (p : Nat) (c : Fin 4), p < s.npix → c.val < s.channels →
        cellRead m (s.base .output + (p * s.channels + s.lane c.val)) = some (asmSum s p c)) ∧
      ∀ a, s.OutsideOut (s.len .output) a → cellRead m a = s.byteAt a

/-- PP.ALPHA lays the runs end to end over the alpha lane (R233, R234, R235): the outcome, PRODUCED and the alpha bytes are
those of the run list, and no other byte changes; runs that fit and cover exactly the image complete. ALPHA_EXPAND is open. -/
def Obligations.PpAlphaLaysRuns : Prop :=
  ∀ s : State, ppAlphaRejects s = none → s.Readable .table →
    let r := refAlpha s.npix s.alphaBits alphaExpand (alphaEntries s) 0 []
    (∃ m, exec .ppAlpha s = .next (applyEnding r.2 { s with mem := m, produced := BitVec.ofNat 32 r.1.length }) ∧
      r.1.length ≤ s.npix ∧
      (∀ k, k < r.1.length → cellRead m (s.base .output + (k * s.channels + s.alphaLane)) = r.1[k]?) ∧
      ∀ a, (∀ k, k < r.1.length → a ≠ s.base .output + (k * s.channels + s.alphaLane)) →
        cellRead m a = s.byteAt a) ∧
    ((∀ e ∈ alphaEntries s, s.alphaBits = 8 ∨ e.toNat % 256 < 2 ^ s.alphaBits) →
      ((alphaEntries s).map (fun e => e.toNat / 256)).sum = s.npix →
      r.2 = .complete ∧ r.1.length = s.npix ∧
        ∃ m, exec .ppAlpha s = .next (completed { s with mem := m, produced := BitVec.ofNat 32 s.npix }))

/-! ## Ciphers -/

/-- The checks of the four cipher commands (spec/45_cipher.md R262, R264, R266, R267). -/
def Obligations.CipherChecks : Prop :=
  ∀ (s : State) (bias : Bool) (c : Cause) (info : Word),
    (streamRejects s = some (c, info) → exec (.ksLcg bias) s = .next (stoppedBy s c info)) ∧
    (streamRejects s = some (c, info) → exec (.ksPm bias) s = .next (stoppedBy s c info)) ∧
    (ksHashRejects s = some (c, info) → exec (.ksHash bias) s = .next (stoppedBy s c info)) ∧
    (ksRawRejects s = some (c, info) → exec (.ksRaw bias) s = .next (stoppedBy s c info))

/-- KS.LCG (R260 to R262): byte i is combined with bits 16 .. 23 of the seed stepped i + 1 times; KSTATE is the seed stepped
OUT_LEN times. -/
def Obligations.KsLcgTransform : Prop :=
  ∀ (s : State) (bias : Bool), s.Inside .output → s.Readable .output →
    TransformsOut s (exec (.ksLcg bias) s) ((fun g : Word => g * 214013 + 2531011)^[s.len .output] (s.csr KS_SEED))
      (fun k => biased bias (s.regionByte .output k)
        (BitVec.ofNat 8 (((fun g : Word => g * 214013 + 2531011)^[k + 1] (s.csr KS_SEED)).toNat / 65536 % 32768)))

/-- KS.PM (R260, R261, R263, R264): byte i is combined with the low byte of seed * PM_MULT^(i+1) mod 2^31 - 1; PM_MULT is
open. -/
def Obligations.KsPmTransform : Prop :=
  ∀ (s : State) (bias : Bool), s.Inside .output → s.Readable .output →
    TransformsOut s (exec (.ksPm bias) s)
      (if s.len .output = 0 then s.csr KS_SEED
        else BitVec.ofNat 32 (s.csrNat KS_SEED * pmMult ^ s.len .output % 2147483647))
      (fun k => biased bias (s.regionByte .output k)
        (BitVec.ofNat 8 (s.csrNat KS_SEED * pmMult ^ (k + 1) % 2147483647)))

/-- KS.HASH (R260, R261, R266): block t of 32 bytes is combined with the digest of the key and KS_CTR0 + t; KSTATE is the
next counter. HASHFN is open. -/
def Obligations.KsHashTransform : Prop :=
  ∀ (s : State) (bias : Bool), ksHashRejects s = none → s.Readable .output → s.Readable .key →
    TransformsOut s (exec (.ksHash bias) s) (s.csr KS_CTR0 + BitVec.ofNat 32 ((s.len .output + 31) / 32))
      (fun k => biased bias (s.regionByte .output k)
        (hashFn (s.regionBytes .key) (s.csr KS_CTR0 + BitVec.ofNat 32 (k / 32)) (k % 32)))

/-- KS.RAW (R260, R261, R267): the data byte rotated left by KS_ROT, combined with the key byte at i mod KEY_LEN; KSTATE 0. -/
def Obligations.KsRawTransform : Prop :=
  ∀ (s : State) (bias : Bool), ksRawRejects s = none → s.Readable .output → s.Readable .key →
    TransformsOut s (exec (.ksRaw bias) s) 0
      (fun k => biased bias ((s.regionByte .output k).rotateLeft (s.csrNat KS_ROT))
        (s.regionByte .key (k % s.len .key)))

/-- Involution (R269 a, b): a cipher command applied twice restores every byte of MEM, with or without the bias; KS.RAW with
KS_ROT = 0. -/
def Obligations.CipherInvolution : Prop :=
  ∀ (i : Instr) (s t : State), isCipher i = true → (∀ b, i = .ksRaw b → s.csr KS_ROT = 0) → exec i s = .next t →
    ∃ u, exec i t = .next u ∧ ∀ a, u.byteAt a = s.byteAt a

/-- The laws of the open parameters (spec/00_scope.md R5, R6): UNARY_MAP(0) = 1, HASHFN's bytes are lowercase hex digits,
1 <= PM_MULT < 2^31 - 1. -/
def Obligations.OpenParameterLaws : Prop :=
  unaryMap 0 = 1 ∧
  (∀ key ctr j, (0x30 ≤ (hashFn key ctr j).toNat ∧ (hashFn key ctr j).toNat ≤ 0x39) ∨
    (0x61 ≤ (hashFn key ctr j).toNat ∧ (hashFn key ctr j).toNat ≤ 0x66)) ∧
  1 ≤ pmMult ∧ pmMult < 2147483647

/-! ## The whole machine -/

/-- No command writes a byte of MEM outside the output region (spec/20_memory.md R79). -/
def Obligations.OnlyOutputIsWritten : Prop :=
  ∀ (i : Instr) (s t : State), exec i s = .next t → ∀ a, s.OutsideOut (s.len .output) a → t.byteAt a = s.byteAt a

/-- Configuration CSRs keep their values (spec/10_state.md R25, R34) but for a SETLO or SETHI of that CSR and IN_POS under
the bit reader; no command writes CMD (R72, R85). -/
def Obligations.ConfigurationIsKept : Prop :=
  ∀ (i : Instr) (s t : State), exec i s = .next t →
    (∀ r : Fin 34, (∀ csr imm, i = .setlo csr imm ∨ i = .sethi csr imm → csr.toNat ≠ r.val) →
      (r = IN_POS → readsBits i = false) → t.csr r = s.csr r) ∧
    t.cmd = s.cmd ∧ t.memSize = s.memSize ∧ t.cmdLen = s.cmdLen

/-- Which command writes which special register (R37 to R42, R71, R210): every other command leaves it as it was. -/
def Obligations.RegisterOwners : Prop :=
  ∀ (i : Instr) (s t : State), exec i s = .next t →
    (writesResult i = false → t.res = s.res ∧ t.got = s.got ∧ t.eoi = s.eoi ∧ t.cap = s.cap) ∧
    (writesCursor i = false → t.bbuf = s.bbuf ∧ t.bcnt = s.bcnt ∧ t.bord = s.bord ∧ t.bopen = s.bopen) ∧
    (i ≠ .lzDec → t.win = s.win ∧ t.wcur = s.wcur) ∧
    (buildsTree i = false → t.hroot = s.hroot ∧ t.hnext = s.hnext ∧ t.hmode = s.hmode ∧ t.htovf = s.htovf ∧
      t.htot = s.htot ∧ t.hnsym = s.hnsym ∧ t.hc0 = s.hc0 ∧ t.hc1 = s.hc1 ∧ (i ≠ .hufDec → t.hvalid = s.hvalid)) ∧
    (isCipher i = false → t.kstate = s.kstate ∧ t.kpos = s.kpos) ∧
    (isData i = false → t.produced = s.produced ∧ t.mem = s.mem)

/-- The invariant of every run is kept by every step: canonical memories (assumption 2), the bounds of CP and WCUR
(R22, R40), the invariants of BSTATE (R39), a checked input region while a cursor is open (R25, R78), HTOVF (R41). -/
def Obligations.StepKeepsInvariant : Prop := ∀ s t : State, s.Inv → step s = .next t → t.Inv

/-- The invariant, the model's own (assumptions 1, 2, 14), holds after RESET (R50). -/
def Obligations.ResetMeetsInvariant : Prop := State.reset.Inv

/-- The host's operations keep the invariant (spec/70_reset_and_hazards.md R323; assumptions 1, 2, 14). -/
def Obligations.HostKeepsInvariant : Prop :=
  ∀ s : State, s.Inv →
    (hostReset s).Inv ∧ (∀ t, hostStart s = some t → t.Inv) ∧ (∀ i w t, hostWriteCmd i w s = some t → t.Inv) ∧
    (∀ a b t, hostWriteMem a b s = some t → t.Inv) ∧ (∀ i v t, hostWriteCsr i v s = some t → t.Inv)

/-- Every run ends (spec/40_sequencer.md R135, R138): from a command pointer inside the list, after at most one step per
remaining word and one more, RUN is no longer BUSY. -/
def Obligations.EveryRunStops : Prop :=
  ∀ s t : State, s.cmdLen < 2 ^ 32 → s.cp.toNat ≤ s.cmdLen →
    Host.Core.run Sys2Proof.core (s.cmdLen - s.cp.toNat + 1) s = .next t → State.run t ≠ .busy

/-- The model stops only where a command or a fetch reads what nothing has written (spec/20_memory.md R79, R88): no access
leaves MEM, no window or node entry is read without a value. That such a read stops the model is its choice (assumption 2). -/
def Obligations.OnlyUnwrittenReadsFault : Prop :=
  ∀ (s : State) (f : Fault), s.Inv → (s.hvalid = true → s.TreeListed) → step s = .fault f →
    (∃ a, f = .unwrittenMem a ∧ a < s.memSize ∧ s.byteAt a = none) ∨
      (f = .unwrittenCmd s.cp.toNat ∧ cellRead s.cmd s.cp.toNat = none)

/-- What every CSR reads from the fields (spec/10_state.md R23, R35 to R43), in any state; and the state after RESET (R50):
the values the spec gives, read as CSRs, from any state. -/
def Obligations.ResetValues : Prop :=
  ∀ s : State, ReadsFields s ∧ (∀ r : Fin 34, (hostReset s).csr r = 0) ∧
    (∀ i : BitVec 8, 0x40 ≤ i.toNat → i.toNat ≤ 0x4F → i.toNat ≠ 0x49 → (hostReset s).readCsr i = 0) ∧
    (hostReset s).readCsr 0x49 = 0xFFFFFFFF ∧ (hostReset s).cp = 0 ∧ (hostReset s).htot = 0 ∧
    (hostReset s).run = .idle ∧ State.reset.cp = 0 ∧ State.reset.run = .idle

/-- The state after START (R51, spec/40_sequencer.md R136): status CSRs as after RESET but for RUN, which is BUSY;
configuration, MEM and CMD unchanged. -/
def Obligations.StartValues : Prop :=
  ∀ s : State, s.run ≠ .busy → ∃ t, hostStart s = some t ∧ t.readCsr 0x40 = 1 ∧
    (∀ i : BitVec 8, 0x41 ≤ i.toNat → i.toNat ≤ 0x4F → i.toNat ≠ 0x49 → t.readCsr i = 0) ∧
    t.readCsr 0x49 = 0xFFFFFFFF ∧ t.cp = 0 ∧ t.htot = 0 ∧ t.cfg = s.cfg ∧ t.mem = s.mem ∧ t.cmd = s.cmd

/-- The host interface (R23, R80, R323, R324): refused during a run but for RESET and a read of STATUS, and refused past the
end of CMD or MEM; otherwise a write has its one effect and changes nothing else, and a read returns what is held. A CSR
write leaves the cursor open (assumption 14); what an unwritten entry reads as is not stated (assumption 2). -/
def Obligations.HostInterface : Prop :=
  ∀ (s : State) (i a : Nat) (x : BitVec 8) (w : Word) (b : Byte),
    (s.run = .busy → hostStart s = none ∧ hostWriteCmd i w s = none ∧ hostReadCmd i s = .refused ∧
      hostWriteMem a b s = none ∧ hostReadMem a s = .refused ∧ hostWriteCsr x w s = none ∧
      hostReadCsr x s = .refused) ∧
    (s.cmdLen ≤ i → hostWriteCmd i w s = none ∧ hostReadCmd i s = .refused) ∧
    (s.memSize ≤ a → hostWriteMem a b s = none ∧ hostReadMem a s = .refused) ∧
    hostReadStatus s = s.readCsr 0x40 ∧
    (s.run ≠ .busy →
      (i < s.cmdLen →
        (∃ c, hostWriteCmd i w s = some { s with cmd := c } ∧ hostReadCmd i { s with cmd := c } = .value w ∧
          ∀ j, j ≠ i → cellRead c j = cellRead s.cmd j) ∧
        (cellRead s.cmd i = some w → hostReadCmd i s = .value w)) ∧
      (a < s.memSize →
        (∃ m, hostWriteMem a b s = some { s with mem := m } ∧ hostReadMem a { s with mem := m } = .value b ∧
          ∀ c, c ≠ a → cellRead m c = s.byteAt c) ∧
        (s.byteAt a = some b → hostReadMem a s = .value b)) ∧
      (∀ r : Fin 34, x.toNat = r.val → hostWriteCsr x w s = some { s with cfg := s.cfg.set r w } ∧
        hostReadCsr x { s with cfg := s.cfg.set r w } = .value w) ∧
      (0x21 < x.toNat → hostWriteCsr x w s = some s) ∧
      hostReadCsr x s = .value (s.readCsr x))
end

