-- ==== Sys2Proof/Laws/State.lean ====
section
/-! SUPPORT. What each update of State does to each field and to each accessor, true by unfolding; no later proof unfolds a
record update. -/

namespace Sys2Proof.Machine

/-! Fields. -/

@[simp] theorem State.setMem_cp (s : State) (m : List Host.Cell) : (s.setMem m).cp = s.cp := rfl
@[simp] theorem State.setMem_cfg (s : State) (m : List Host.Cell) : (s.setMem m).cfg = s.cfg := rfl
@[simp] theorem State.setMem_run (s : State) (m : List Host.Cell) : (s.setMem m).run = s.run := rfl
@[simp] theorem State.setMem_last (s : State) (m : List Host.Cell) : (s.setMem m).last = s.last := rfl
@[simp] theorem State.setMem_tsticky (s : State) (m : List Host.Cell) : (s.setMem m).tsticky = s.tsticky := rfl
@[simp] theorem State.setMem_cause (s : State) (m : List Host.Cell) : (s.setMem m).cause = s.cause := rfl
@[simp] theorem State.setMem_einfo (s : State) (m : List Host.Cell) : (s.setMem m).einfo = s.einfo := rfl
@[simp] theorem State.setMem_ecp (s : State) (m : List Host.Cell) : (s.setMem m).ecp = s.ecp := rfl
@[simp] theorem State.setMem_produced (s : State) (m : List Host.Cell) : (s.setMem m).produced = s.produced := rfl
@[simp] theorem State.setMem_res (s : State) (m : List Host.Cell) : (s.setMem m).res = s.res := rfl
@[simp] theorem State.setMem_got (s : State) (m : List Host.Cell) : (s.setMem m).got = s.got := rfl
@[simp] theorem State.setMem_eoi (s : State) (m : List Host.Cell) : (s.setMem m).eoi = s.eoi := rfl
@[simp] theorem State.setMem_cap (s : State) (m : List Host.Cell) : (s.setMem m).cap = s.cap := rfl
@[simp] theorem State.setMem_bbuf (s : State) (m : List Host.Cell) : (s.setMem m).bbuf = s.bbuf := rfl
@[simp] theorem State.setMem_bcnt (s : State) (m : List Host.Cell) : (s.setMem m).bcnt = s.bcnt := rfl
@[simp] theorem State.setMem_bord (s : State) (m : List Host.Cell) : (s.setMem m).bord = s.bord := rfl
@[simp] theorem State.setMem_bopen (s : State) (m : List Host.Cell) : (s.setMem m).bopen = s.bopen := rfl
@[simp] theorem State.setMem_wcur (s : State) (m : List Host.Cell) : (s.setMem m).wcur = s.wcur := rfl
@[simp] theorem State.setMem_hroot (s : State) (m : List Host.Cell) : (s.setMem m).hroot = s.hroot := rfl
@[simp] theorem State.setMem_hnext (s : State) (m : List Host.Cell) : (s.setMem m).hnext = s.hnext := rfl
@[simp] theorem State.setMem_hvalid (s : State) (m : List Host.Cell) : (s.setMem m).hvalid = s.hvalid := rfl
@[simp] theorem State.setMem_hmode (s : State) (m : List Host.Cell) : (s.setMem m).hmode = s.hmode := rfl
@[simp] theorem State.setMem_htovf (s : State) (m : List Host.Cell) : (s.setMem m).htovf = s.htovf := rfl
@[simp] theorem State.setMem_htot (s : State) (m : List Host.Cell) : (s.setMem m).htot = s.htot := rfl
@[simp] theorem State.setMem_hnsym (s : State) (m : List Host.Cell) : (s.setMem m).hnsym = s.hnsym := rfl
@[simp] theorem State.setMem_hc0 (s : State) (m : List Host.Cell) : (s.setMem m).hc0 = s.hc0 := rfl
@[simp] theorem State.setMem_hc1 (s : State) (m : List Host.Cell) : (s.setMem m).hc1 = s.hc1 := rfl
@[simp] theorem State.setMem_win (s : State) (m : List Host.Cell) : (s.setMem m).win = s.win := rfl
@[simp] theorem State.setMem_kstate (s : State) (m : List Host.Cell) : (s.setMem m).kstate = s.kstate := rfl
@[simp] theorem State.setMem_kpos (s : State) (m : List Host.Cell) : (s.setMem m).kpos = s.kpos := rfl
@[simp] theorem State.setMem_mem (s : State) (m : List Host.Cell) : (s.setMem m).mem = m := rfl
@[simp] theorem State.setMem_cmd (s : State) (m : List Host.Cell) : (s.setMem m).cmd = s.cmd := rfl
@[simp] theorem State.setMem_memSize (s : State) (m : List Host.Cell) : (s.setMem m).memSize = s.memSize := rfl
@[simp] theorem State.setMem_cmdLen (s : State) (m : List Host.Cell) : (s.setMem m).cmdLen = s.cmdLen := rfl

@[simp] theorem State.setCsr_cp (s : State) (r : Fin 34) (v : Word) : (s.setCsr r v).cp = s.cp := rfl
@[simp] theorem State.setCsr_cfg (s : State) (r : Fin 34) (v : Word) : (s.setCsr r v).cfg = s.cfg.set r v := rfl
@[simp] theorem State.setCsr_run (s : State) (r : Fin 34) (v : Word) : (s.setCsr r v).run = s.run := rfl
@[simp] theorem State.setCsr_last (s : State) (r : Fin 34) (v : Word) : (s.setCsr r v).last = s.last := rfl
@[simp] theorem State.setCsr_tsticky (s : State) (r : Fin 34) (v : Word) : (s.setCsr r v).tsticky = s.tsticky := rfl
@[simp] theorem State.setCsr_cause (s : State) (r : Fin 34) (v : Word) : (s.setCsr r v).cause = s.cause := rfl
@[simp] theorem State.setCsr_einfo (s : State) (r : Fin 34) (v : Word) : (s.setCsr r v).einfo = s.einfo := rfl
@[simp] theorem State.setCsr_ecp (s : State) (r : Fin 34) (v : Word) : (s.setCsr r v).ecp = s.ecp := rfl
@[simp] theorem State.setCsr_produced (s : State) (r : Fin 34) (v : Word) :
    (s.setCsr r v).produced = s.produced := rfl
@[simp] theorem State.setCsr_res (s : State) (r : Fin 34) (v : Word) : (s.setCsr r v).res = s.res := rfl
@[simp] theorem State.setCsr_got (s : State) (r : Fin 34) (v : Word) : (s.setCsr r v).got = s.got := rfl
@[simp] theorem State.setCsr_eoi (s : State) (r : Fin 34) (v : Word) : (s.setCsr r v).eoi = s.eoi := rfl
@[simp] theorem State.setCsr_cap (s : State) (r : Fin 34) (v : Word) : (s.setCsr r v).cap = s.cap := rfl
@[simp] theorem State.setCsr_bbuf (s : State) (r : Fin 34) (v : Word) : (s.setCsr r v).bbuf = s.bbuf := rfl
@[simp] theorem State.setCsr_bcnt (s : State) (r : Fin 34) (v : Word) : (s.setCsr r v).bcnt = s.bcnt := rfl
@[simp] theorem State.setCsr_bord (s : State) (r : Fin 34) (v : Word) : (s.setCsr r v).bord = s.bord := rfl
@[simp] theorem State.setCsr_bopen (s : State) (r : Fin 34) (v : Word) : (s.setCsr r v).bopen = s.bopen := rfl
@[simp] theorem State.setCsr_wcur (s : State) (r : Fin 34) (v : Word) : (s.setCsr r v).wcur = s.wcur := rfl
@[simp] theorem State.setCsr_hroot (s : State) (r : Fin 34) (v : Word) : (s.setCsr r v).hroot = s.hroot := rfl
@[simp] theorem State.setCsr_hnext (s : State) (r : Fin 34) (v : Word) : (s.setCsr r v).hnext = s.hnext := rfl
@[simp] theorem State.setCsr_hvalid (s : State) (r : Fin 34) (v : Word) : (s.setCsr r v).hvalid = s.hvalid := rfl
@[simp] theorem State.setCsr_hmode (s : State) (r : Fin 34) (v : Word) : (s.setCsr r v).hmode = s.hmode := rfl
@[simp] theorem State.setCsr_htovf (s : State) (r : Fin 34) (v : Word) : (s.setCsr r v).htovf = s.htovf := rfl
@[simp] theorem State.setCsr_htot (s : State) (r : Fin 34) (v : Word) : (s.setCsr r v).htot = s.htot := rfl
@[simp] theorem State.setCsr_hnsym (s : State) (r : Fin 34) (v : Word) : (s.setCsr r v).hnsym = s.hnsym := rfl
@[simp] theorem State.setCsr_hc0 (s : State) (r : Fin 34) (v : Word) : (s.setCsr r v).hc0 = s.hc0 := rfl
@[simp] theorem State.setCsr_hc1 (s : State) (r : Fin 34) (v : Word) : (s.setCsr r v).hc1 = s.hc1 := rfl
@[simp] theorem State.setCsr_win (s : State) (r : Fin 34) (v : Word) : (s.setCsr r v).win = s.win := rfl
@[simp] theorem State.setCsr_kstate (s : State) (r : Fin 34) (v : Word) : (s.setCsr r v).kstate = s.kstate := rfl
@[simp] theorem State.setCsr_kpos (s : State) (r : Fin 34) (v : Word) : (s.setCsr r v).kpos = s.kpos := rfl
@[simp] theorem State.setCsr_mem (s : State) (r : Fin 34) (v : Word) : (s.setCsr r v).mem = s.mem := rfl
@[simp] theorem State.setCsr_cmd (s : State) (r : Fin 34) (v : Word) : (s.setCsr r v).cmd = s.cmd := rfl
@[simp] theorem State.setCsr_memSize (s : State) (r : Fin 34) (v : Word) : (s.setCsr r v).memSize = s.memSize := rfl
@[simp] theorem State.setCsr_cmdLen (s : State) (r : Fin 34) (v : Word) : (s.setCsr r v).cmdLen = s.cmdLen := rfl

@[simp] theorem State.closeCursor_cp (s : State) : (s.closeCursor).cp = s.cp := rfl
@[simp] theorem State.closeCursor_cfg (s : State) : (s.closeCursor).cfg = s.cfg := rfl
@[simp] theorem State.closeCursor_run (s : State) : (s.closeCursor).run = s.run := rfl
@[simp] theorem State.closeCursor_last (s : State) : (s.closeCursor).last = s.last := rfl
@[simp] theorem State.closeCursor_tsticky (s : State) : (s.closeCursor).tsticky = s.tsticky := rfl
@[simp] theorem State.closeCursor_cause (s : State) : (s.closeCursor).cause = s.cause := rfl
@[simp] theorem State.closeCursor_einfo (s : State) : (s.closeCursor).einfo = s.einfo := rfl
@[simp] theorem State.closeCursor_ecp (s : State) : (s.closeCursor).ecp = s.ecp := rfl
@[simp] theorem State.closeCursor_produced (s : State) : (s.closeCursor).produced = s.produced := rfl
@[simp] theorem State.closeCursor_res (s : State) : (s.closeCursor).res = s.res := rfl
@[simp] theorem State.closeCursor_got (s : State) : (s.closeCursor).got = s.got := rfl
@[simp] theorem State.closeCursor_eoi (s : State) : (s.closeCursor).eoi = s.eoi := rfl
@[simp] theorem State.closeCursor_cap (s : State) : (s.closeCursor).cap = s.cap := rfl
@[simp] theorem State.closeCursor_bbuf (s : State) : (s.closeCursor).bbuf = 0 := rfl
@[simp] theorem State.closeCursor_bcnt (s : State) : (s.closeCursor).bcnt = 0 := rfl
@[simp] theorem State.closeCursor_bord (s : State) : (s.closeCursor).bord = s.bord := rfl
@[simp] theorem State.closeCursor_bopen (s : State) : (s.closeCursor).bopen = false := rfl
@[simp] theorem State.closeCursor_wcur (s : State) : (s.closeCursor).wcur = s.wcur := rfl
@[simp] theorem State.closeCursor_hroot (s : State) : (s.closeCursor).hroot = s.hroot := rfl
@[simp] theorem State.closeCursor_hnext (s : State) : (s.closeCursor).hnext = s.hnext := rfl
@[simp] theorem State.closeCursor_hvalid (s : State) : (s.closeCursor).hvalid = s.hvalid := rfl
@[simp] theorem State.closeCursor_hmode (s : State) : (s.closeCursor).hmode = s.hmode := rfl
@[simp] theorem State.closeCursor_htovf (s : State) : (s.closeCursor).htovf = s.htovf := rfl
@[simp] theorem State.closeCursor_htot (s : State) : (s.closeCursor).htot = s.htot := rfl
@[simp] theorem State.closeCursor_hnsym (s : State) : (s.closeCursor).hnsym = s.hnsym := rfl
@[simp] theorem State.closeCursor_hc0 (s : State) : (s.closeCursor).hc0 = s.hc0 := rfl
@[simp] theorem State.closeCursor_hc1 (s : State) : (s.closeCursor).hc1 = s.hc1 := rfl
@[simp] theorem State.closeCursor_win (s : State) : (s.closeCursor).win = s.win := rfl
@[simp] theorem State.closeCursor_kstate (s : State) : (s.closeCursor).kstate = s.kstate := rfl
@[simp] theorem State.closeCursor_kpos (s : State) : (s.closeCursor).kpos = s.kpos := rfl
@[simp] theorem State.closeCursor_mem (s : State) : (s.closeCursor).mem = s.mem := rfl
@[simp] theorem State.closeCursor_cmd (s : State) : (s.closeCursor).cmd = s.cmd := rfl
@[simp] theorem State.closeCursor_memSize (s : State) : (s.closeCursor).memSize = s.memSize := rfl
@[simp] theorem State.closeCursor_cmdLen (s : State) : (s.closeCursor).cmdLen = s.cmdLen := rfl

@[simp] theorem State.openCursor_cp (s : State) (ord : BitOrder) : (s.openCursor ord).cp = s.cp := rfl
@[simp] theorem State.openCursor_cfg (s : State) (ord : BitOrder) : (s.openCursor ord).cfg = s.cfg := rfl
@[simp] theorem State.openCursor_run (s : State) (ord : BitOrder) : (s.openCursor ord).run = s.run := rfl
@[simp] theorem State.openCursor_last (s : State) (ord : BitOrder) : (s.openCursor ord).last = s.last := rfl
@[simp] theorem State.openCursor_tsticky (s : State) (ord : BitOrder) : (s.openCursor ord).tsticky = s.tsticky := rfl
@[simp] theorem State.openCursor_cause (s : State) (ord : BitOrder) : (s.openCursor ord).cause = s.cause := rfl
@[simp] theorem State.openCursor_einfo (s : State) (ord : BitOrder) : (s.openCursor ord).einfo = s.einfo := rfl
@[simp] theorem State.openCursor_ecp (s : State) (ord : BitOrder) : (s.openCursor ord).ecp = s.ecp := rfl
@[simp] theorem State.openCursor_produced (s : State) (ord : BitOrder) :
    (s.openCursor ord).produced = s.produced := rfl
@[simp] theorem State.openCursor_res (s : State) (ord : BitOrder) : (s.openCursor ord).res = s.res := rfl
@[simp] theorem State.openCursor_got (s : State) (ord : BitOrder) : (s.openCursor ord).got = s.got := rfl
@[simp] theorem State.openCursor_eoi (s : State) (ord : BitOrder) : (s.openCursor ord).eoi = s.eoi := rfl
@[simp] theorem State.openCursor_cap (s : State) (ord : BitOrder) : (s.openCursor ord).cap = s.cap := rfl
@[simp] theorem State.openCursor_bbuf (s : State) (ord : BitOrder) : (s.openCursor ord).bbuf = 0 := rfl
@[simp] theorem State.openCursor_bcnt (s : State) (ord : BitOrder) : (s.openCursor ord).bcnt = 0 := rfl
@[simp] theorem State.openCursor_bord (s : State) (ord : BitOrder) : (s.openCursor ord).bord = ord := rfl
@[simp] theorem State.openCursor_bopen (s : State) (ord : BitOrder) : (s.openCursor ord).bopen = true := rfl
@[simp] theorem State.openCursor_wcur (s : State) (ord : BitOrder) : (s.openCursor ord).wcur = s.wcur := rfl
@[simp] theorem State.openCursor_hroot (s : State) (ord : BitOrder) : (s.openCursor ord).hroot = s.hroot := rfl
@[simp] theorem State.openCursor_hnext (s : State) (ord : BitOrder) : (s.openCursor ord).hnext = s.hnext := rfl
@[simp] theorem State.openCursor_hvalid (s : State) (ord : BitOrder) : (s.openCursor ord).hvalid = s.hvalid := rfl
@[simp] theorem State.openCursor_hmode (s : State) (ord : BitOrder) : (s.openCursor ord).hmode = s.hmode := rfl
@[simp] theorem State.openCursor_htovf (s : State) (ord : BitOrder) : (s.openCursor ord).htovf = s.htovf := rfl
@[simp] theorem State.openCursor_htot (s : State) (ord : BitOrder) : (s.openCursor ord).htot = s.htot := rfl
@[simp] theorem State.openCursor_hnsym (s : State) (ord : BitOrder) : (s.openCursor ord).hnsym = s.hnsym := rfl
@[simp] theorem State.openCursor_hc0 (s : State) (ord : BitOrder) : (s.openCursor ord).hc0 = s.hc0 := rfl
@[simp] theorem State.openCursor_hc1 (s : State) (ord : BitOrder) : (s.openCursor ord).hc1 = s.hc1 := rfl
@[simp] theorem State.openCursor_win (s : State) (ord : BitOrder) : (s.openCursor ord).win = s.win := rfl
@[simp] theorem State.openCursor_kstate (s : State) (ord : BitOrder) : (s.openCursor ord).kstate = s.kstate := rfl
@[simp] theorem State.openCursor_kpos (s : State) (ord : BitOrder) : (s.openCursor ord).kpos = s.kpos := rfl
@[simp] theorem State.openCursor_mem (s : State) (ord : BitOrder) : (s.openCursor ord).mem = s.mem := rfl
@[simp] theorem State.openCursor_cmd (s : State) (ord : BitOrder) : (s.openCursor ord).cmd = s.cmd := rfl
@[simp] theorem State.openCursor_memSize (s : State) (ord : BitOrder) : (s.openCursor ord).memSize = s.memSize := rfl
@[simp] theorem State.openCursor_cmdLen (s : State) (ord : BitOrder) : (s.openCursor ord).cmdLen = s.cmdLen := rfl

@[simp] theorem State.setBits_cp (s : State) (buf : Byte) (cnt : BitVec 4) : (s.setBits buf cnt).cp = s.cp := rfl
@[simp] theorem State.setBits_cfg (s : State) (buf : Byte) (cnt : BitVec 4) : (s.setBits buf cnt).cfg = s.cfg := rfl
@[simp] theorem State.setBits_run (s : State) (buf : Byte) (cnt : BitVec 4) : (s.setBits buf cnt).run = s.run := rfl
@[simp] theorem State.setBits_last (s : State) (buf : Byte) (cnt : BitVec 4) :
    (s.setBits buf cnt).last = s.last := rfl
@[simp] theorem State.setBits_tsticky (s : State) (buf : Byte) (cnt : BitVec 4) :
    (s.setBits buf cnt).tsticky = s.tsticky := rfl
@[simp] theorem State.setBits_cause (s : State) (buf : Byte) (cnt : BitVec 4) :
    (s.setBits buf cnt).cause = s.cause := rfl
@[simp] theorem State.setBits_einfo (s : State) (buf : Byte) (cnt : BitVec 4) :
    (s.setBits buf cnt).einfo = s.einfo := rfl
@[simp] theorem State.setBits_ecp (s : State) (buf : Byte) (cnt : BitVec 4) : (s.setBits buf cnt).ecp = s.ecp := rfl
@[simp] theorem State.setBits_produced (s : State) (buf : Byte) (cnt : BitVec 4) :
    (s.setBits buf cnt).produced = s.produced := rfl
@[simp] theorem State.setBits_res (s : State) (buf : Byte) (cnt : BitVec 4) : (s.setBits buf cnt).res = s.res := rfl
@[simp] theorem State.setBits_got (s : State) (buf : Byte) (cnt : BitVec 4) : (s.setBits buf cnt).got = s.got := rfl
@[simp] theorem State.setBits_eoi (s : State) (buf : Byte) (cnt : BitVec 4) : (s.setBits buf cnt).eoi = s.eoi := rfl
@[simp] theorem State.setBits_cap (s : State) (buf : Byte) (cnt : BitVec 4) : (s.setBits buf cnt).cap = s.cap := rfl
@[simp] theorem State.setBits_bbuf (s : State) (buf : Byte) (cnt : BitVec 4) : (s.setBits buf cnt).bbuf = buf := rfl
@[simp] theorem State.setBits_bcnt (s : State) (buf : Byte) (cnt : BitVec 4) : (s.setBits buf cnt).bcnt = cnt := rfl
@[simp] theorem State.setBits_bord (s : State) (buf : Byte) (cnt : BitVec 4) :
    (s.setBits buf cnt).bord = s.bord := rfl
@[simp] theorem State.setBits_bopen (s : State) (buf : Byte) (cnt : BitVec 4) :
    (s.setBits buf cnt).bopen = s.bopen := rfl
@[simp] theorem State.setBits_wcur (s : State) (buf : Byte) (cnt : BitVec 4) :
    (s.setBits buf cnt).wcur = s.wcur := rfl
@[simp] theorem State.setBits_hroot (s : State) (buf : Byte) (cnt : BitVec 4) :
    (s.setBits buf cnt).hroot = s.hroot := rfl
@[simp] theorem State.setBits_hnext (s : State) (buf : Byte) (cnt : BitVec 4) :
    (s.setBits buf cnt).hnext = s.hnext := rfl
@[simp] theorem State.setBits_hvalid (s : State) (buf : Byte) (cnt : BitVec 4) :
    (s.setBits buf cnt).hvalid = s.hvalid := rfl
@[simp] theorem State.setBits_hmode (s : State) (buf : Byte) (cnt : BitVec 4) :
    (s.setBits buf cnt).hmode = s.hmode := rfl
@[simp] theorem State.setBits_htovf (s : State) (buf : Byte) (cnt : BitVec 4) :
    (s.setBits buf cnt).htovf = s.htovf := rfl
@[simp] theorem State.setBits_htot (s : State) (buf : Byte) (cnt : BitVec 4) :
    (s.setBits buf cnt).htot = s.htot := rfl
@[simp] theorem State.setBits_hnsym (s : State) (buf : Byte) (cnt : BitVec 4) :
    (s.setBits buf cnt).hnsym = s.hnsym := rfl
@[simp] theorem State.setBits_hc0 (s : State) (buf : Byte) (cnt : BitVec 4) : (s.setBits buf cnt).hc0 = s.hc0 := rfl
@[simp] theorem State.setBits_hc1 (s : State) (buf : Byte) (cnt : BitVec 4) : (s.setBits buf cnt).hc1 = s.hc1 := rfl
@[simp] theorem State.setBits_win (s : State) (buf : Byte) (cnt : BitVec 4) : (s.setBits buf cnt).win = s.win := rfl
@[simp] theorem State.setBits_kstate (s : State) (buf : Byte) (cnt : BitVec 4) :
    (s.setBits buf cnt).kstate = s.kstate := rfl
@[simp] theorem State.setBits_kpos (s : State) (buf : Byte) (cnt : BitVec 4) :
    (s.setBits buf cnt).kpos = s.kpos := rfl
@[simp] theorem State.setBits_mem (s : State) (buf : Byte) (cnt : BitVec 4) : (s.setBits buf cnt).mem = s.mem := rfl
@[simp] theorem State.setBits_cmd (s : State) (buf : Byte) (cnt : BitVec 4) : (s.setBits buf cnt).cmd = s.cmd := rfl
@[simp] theorem State.setBits_memSize (s : State) (buf : Byte) (cnt : BitVec 4) :
    (s.setBits buf cnt).memSize = s.memSize := rfl
@[simp] theorem State.setBits_cmdLen (s : State) (buf : Byte) (cnt : BitVec 4) :
    (s.setBits buf cnt).cmdLen = s.cmdLen := rfl

@[simp] theorem State.setResult_cp (s : State) (res : Word) (got : BitVec 6) (eoi cap : Bool) :
    (s.setResult res got eoi cap).cp = s.cp := rfl
@[simp] theorem State.setResult_cfg (s : State) (res : Word) (got : BitVec 6) (eoi cap : Bool) :
    (s.setResult res got eoi cap).cfg = s.cfg := rfl
@[simp] theorem State.setResult_run (s : State) (res : Word) (got : BitVec 6) (eoi cap : Bool) :
    (s.setResult res got eoi cap).run = s.run := rfl
@[simp] theorem State.setResult_last (s : State) (res : Word) (got : BitVec 6) (eoi cap : Bool) :
    (s.setResult res got eoi cap).last = s.last := rfl
@[simp] theorem State.setResult_tsticky (s : State) (res : Word) (got : BitVec 6) (eoi cap : Bool) :
    (s.setResult res got eoi cap).tsticky = s.tsticky := rfl
@[simp] theorem State.setResult_cause (s : State) (res : Word) (got : BitVec 6) (eoi cap : Bool) :
    (s.setResult res got eoi cap).cause = s.cause := rfl
@[simp] theorem State.setResult_einfo (s : State) (res : Word) (got : BitVec 6) (eoi cap : Bool) :
    (s.setResult res got eoi cap).einfo = s.einfo := rfl
@[simp] theorem State.setResult_ecp (s : State) (res : Word) (got : BitVec 6) (eoi cap : Bool) :
    (s.setResult res got eoi cap).ecp = s.ecp := rfl
@[simp] theorem State.setResult_produced (s : State) (res : Word) (got : BitVec 6) (eoi cap : Bool) :
    (s.setResult res got eoi cap).produced = s.produced := rfl
@[simp] theorem State.setResult_res (s : State) (res : Word) (got : BitVec 6) (eoi cap : Bool) :
    (s.setResult res got eoi cap).res = res := rfl
@[simp] theorem State.setResult_got (s : State) (res : Word) (got : BitVec 6) (eoi cap : Bool) :
    (s.setResult res got eoi cap).got = got := rfl
@[simp] theorem State.setResult_eoi (s : State) (res : Word) (got : BitVec 6) (eoi cap : Bool) :
    (s.setResult res got eoi cap).eoi = eoi := rfl
@[simp] theorem State.setResult_cap (s : State) (res : Word) (got : BitVec 6) (eoi cap : Bool) :
    (s.setResult res got eoi cap).cap = cap := rfl
@[simp] theorem State.setResult_bbuf (s : State) (res : Word) (got : BitVec 6) (eoi cap : Bool) :
    (s.setResult res got eoi cap).bbuf = s.bbuf := rfl
@[simp] theorem State.setResult_bcnt (s : State) (res : Word) (got : BitVec 6) (eoi cap : Bool) :
    (s.setResult res got eoi cap).bcnt = s.bcnt := rfl
@[simp] theorem State.setResult_bord (s : State) (res : Word) (got : BitVec 6) (eoi cap : Bool) :
    (s.setResult res got eoi cap).bord = s.bord := rfl
@[simp] theorem State.setResult_bopen (s : State) (res : Word) (got : BitVec 6) (eoi cap : Bool) :
    (s.setResult res got eoi cap).bopen = s.bopen := rfl
@[simp] theorem State.setResult_wcur (s : State) (res : Word) (got : BitVec 6) (eoi cap : Bool) :
    (s.setResult res got eoi cap).wcur = s.wcur := rfl
@[simp] theorem State.setResult_hroot (s : State) (res : Word) (got : BitVec 6) (eoi cap : Bool) :
    (s.setResult res got eoi cap).hroot = s.hroot := rfl
@[simp] theorem State.setResult_hnext (s : State) (res : Word) (got : BitVec 6) (eoi cap : Bool) :
    (s.setResult res got eoi cap).hnext = s.hnext := rfl
@[simp] theorem State.setResult_hvalid (s : State) (res : Word) (got : BitVec 6) (eoi cap : Bool) :
    (s.setResult res got eoi cap).hvalid = s.hvalid := rfl
@[simp] theorem State.setResult_hmode (s : State) (res : Word) (got : BitVec 6) (eoi cap : Bool) :
    (s.setResult res got eoi cap).hmode = s.hmode := rfl
@[simp] theorem State.setResult_htovf (s : State) (res : Word) (got : BitVec 6) (eoi cap : Bool) :
    (s.setResult res got eoi cap).htovf = s.htovf := rfl
@[simp] theorem State.setResult_htot (s : State) (res : Word) (got : BitVec 6) (eoi cap : Bool) :
    (s.setResult res got eoi cap).htot = s.htot := rfl
@[simp] theorem State.setResult_hnsym (s : State) (res : Word) (got : BitVec 6) (eoi cap : Bool) :
    (s.setResult res got eoi cap).hnsym = s.hnsym := rfl
@[simp] theorem State.setResult_hc0 (s : State) (res : Word) (got : BitVec 6) (eoi cap : Bool) :
    (s.setResult res got eoi cap).hc0 = s.hc0 := rfl
@[simp] theorem State.setResult_hc1 (s : State) (res : Word) (got : BitVec 6) (eoi cap : Bool) :
    (s.setResult res got eoi cap).hc1 = s.hc1 := rfl
@[simp] theorem State.setResult_win (s : State) (res : Word) (got : BitVec 6) (eoi cap : Bool) :
    (s.setResult res got eoi cap).win = s.win := rfl
@[simp] theorem State.setResult_kstate (s : State) (res : Word) (got : BitVec 6) (eoi cap : Bool) :
    (s.setResult res got eoi cap).kstate = s.kstate := rfl
@[simp] theorem State.setResult_kpos (s : State) (res : Word) (got : BitVec 6) (eoi cap : Bool) :
    (s.setResult res got eoi cap).kpos = s.kpos := rfl
@[simp] theorem State.setResult_mem (s : State) (res : Word) (got : BitVec 6) (eoi cap : Bool) :
    (s.setResult res got eoi cap).mem = s.mem := rfl
@[simp] theorem State.setResult_cmd (s : State) (res : Word) (got : BitVec 6) (eoi cap : Bool) :
    (s.setResult res got eoi cap).cmd = s.cmd := rfl
@[simp] theorem State.setResult_memSize (s : State) (res : Word) (got : BitVec 6) (eoi cap : Bool) :
    (s.setResult res got eoi cap).memSize = s.memSize := rfl
@[simp] theorem State.setResult_cmdLen (s : State) (res : Word) (got : BitVec 6) (eoi cap : Bool) :
    (s.setResult res got eoi cap).cmdLen = s.cmdLen := rfl

@[simp] theorem State.setProduced_cp (s : State) (n : Nat) : (s.setProduced n).cp = s.cp := rfl
@[simp] theorem State.setProduced_cfg (s : State) (n : Nat) : (s.setProduced n).cfg = s.cfg := rfl
@[simp] theorem State.setProduced_run (s : State) (n : Nat) : (s.setProduced n).run = s.run := rfl
@[simp] theorem State.setProduced_last (s : State) (n : Nat) : (s.setProduced n).last = s.last := rfl
@[simp] theorem State.setProduced_tsticky (s : State) (n : Nat) : (s.setProduced n).tsticky = s.tsticky := rfl
@[simp] theorem State.setProduced_cause (s : State) (n : Nat) : (s.setProduced n).cause = s.cause := rfl
@[simp] theorem State.setProduced_einfo (s : State) (n : Nat) : (s.setProduced n).einfo = s.einfo := rfl
@[simp] theorem State.setProduced_ecp (s : State) (n : Nat) : (s.setProduced n).ecp = s.ecp := rfl
@[simp] theorem State.setProduced_produced (s : State) (n : Nat) :
    (s.setProduced n).produced = BitVec.ofNat 32 n := rfl
@[simp] theorem State.setProduced_res (s : State) (n : Nat) : (s.setProduced n).res = s.res := rfl
@[simp] theorem State.setProduced_got (s : State) (n : Nat) : (s.setProduced n).got = s.got := rfl
@[simp] theorem State.setProduced_eoi (s : State) (n : Nat) : (s.setProduced n).eoi = s.eoi := rfl
@[simp] theorem State.setProduced_cap (s : State) (n : Nat) : (s.setProduced n).cap = s.cap := rfl
@[simp] theorem State.setProduced_bbuf (s : State) (n : Nat) : (s.setProduced n).bbuf = s.bbuf := rfl
@[simp] theorem State.setProduced_bcnt (s : State) (n : Nat) : (s.setProduced n).bcnt = s.bcnt := rfl
@[simp] theorem State.setProduced_bord (s : State) (n : Nat) : (s.setProduced n).bord = s.bord := rfl
@[simp] theorem State.setProduced_bopen (s : State) (n : Nat) : (s.setProduced n).bopen = s.bopen := rfl
@[simp] theorem State.setProduced_wcur (s : State) (n : Nat) : (s.setProduced n).wcur = s.wcur := rfl
@[simp] theorem State.setProduced_hroot (s : State) (n : Nat) : (s.setProduced n).hroot = s.hroot := rfl
@[simp] theorem State.setProduced_hnext (s : State) (n : Nat) : (s.setProduced n).hnext = s.hnext := rfl
@[simp] theorem State.setProduced_hvalid (s : State) (n : Nat) : (s.setProduced n).hvalid = s.hvalid := rfl
@[simp] theorem State.setProduced_hmode (s : State) (n : Nat) : (s.setProduced n).hmode = s.hmode := rfl
@[simp] theorem State.setProduced_htovf (s : State) (n : Nat) : (s.setProduced n).htovf = s.htovf := rfl
@[simp] theorem State.setProduced_htot (s : State) (n : Nat) : (s.setProduced n).htot = s.htot := rfl
@[simp] theorem State.setProduced_hnsym (s : State) (n : Nat) : (s.setProduced n).hnsym = s.hnsym := rfl
@[simp] theorem State.setProduced_hc0 (s : State) (n : Nat) : (s.setProduced n).hc0 = s.hc0 := rfl
@[simp] theorem State.setProduced_hc1 (s : State) (n : Nat) : (s.setProduced n).hc1 = s.hc1 := rfl
@[simp] theorem State.setProduced_win (s : State) (n : Nat) : (s.setProduced n).win = s.win := rfl
@[simp] theorem State.setProduced_kstate (s : State) (n : Nat) : (s.setProduced n).kstate = s.kstate := rfl
@[simp] theorem State.setProduced_kpos (s : State) (n : Nat) : (s.setProduced n).kpos = s.kpos := rfl
@[simp] theorem State.setProduced_mem (s : State) (n : Nat) : (s.setProduced n).mem = s.mem := rfl
@[simp] theorem State.setProduced_cmd (s : State) (n : Nat) : (s.setProduced n).cmd = s.cmd := rfl
@[simp] theorem State.setProduced_memSize (s : State) (n : Nat) : (s.setProduced n).memSize = s.memSize := rfl
@[simp] theorem State.setProduced_cmdLen (s : State) (n : Nat) : (s.setProduced n).cmdLen = s.cmdLen := rfl

@[simp] theorem State.setWindow_cp (s : State) (w : Cells Byte) (n : Nat) : (s.setWindow w n).cp = s.cp := rfl
@[simp] theorem State.setWindow_cfg (s : State) (w : Cells Byte) (n : Nat) : (s.setWindow w n).cfg = s.cfg := rfl
@[simp] theorem State.setWindow_run (s : State) (w : Cells Byte) (n : Nat) : (s.setWindow w n).run = s.run := rfl
@[simp] theorem State.setWindow_last (s : State) (w : Cells Byte) (n : Nat) : (s.setWindow w n).last = s.last := rfl
@[simp] theorem State.setWindow_tsticky (s : State) (w : Cells Byte) (n : Nat) :
    (s.setWindow w n).tsticky = s.tsticky := rfl
@[simp] theorem State.setWindow_cause (s : State) (w : Cells Byte) (n : Nat) :
    (s.setWindow w n).cause = s.cause := rfl
@[simp] theorem State.setWindow_einfo (s : State) (w : Cells Byte) (n : Nat) :
    (s.setWindow w n).einfo = s.einfo := rfl
@[simp] theorem State.setWindow_ecp (s : State) (w : Cells Byte) (n : Nat) : (s.setWindow w n).ecp = s.ecp := rfl
@[simp] theorem State.setWindow_produced (s : State) (w : Cells Byte) (n : Nat) :
    (s.setWindow w n).produced = s.produced := rfl
@[simp] theorem State.setWindow_res (s : State) (w : Cells Byte) (n : Nat) : (s.setWindow w n).res = s.res := rfl
@[simp] theorem State.setWindow_got (s : State) (w : Cells Byte) (n : Nat) : (s.setWindow w n).got = s.got := rfl
@[simp] theorem State.setWindow_eoi (s : State) (w : Cells Byte) (n : Nat) : (s.setWindow w n).eoi = s.eoi := rfl
@[simp] theorem State.setWindow_cap (s : State) (w : Cells Byte) (n : Nat) : (s.setWindow w n).cap = s.cap := rfl
@[simp] theorem State.setWindow_bbuf (s : State) (w : Cells Byte) (n : Nat) : (s.setWindow w n).bbuf = s.bbuf := rfl
@[simp] theorem State.setWindow_bcnt (s : State) (w : Cells Byte) (n : Nat) : (s.setWindow w n).bcnt = s.bcnt := rfl
@[simp] theorem State.setWindow_bord (s : State) (w : Cells Byte) (n : Nat) : (s.setWindow w n).bord = s.bord := rfl
@[simp] theorem State.setWindow_bopen (s : State) (w : Cells Byte) (n : Nat) :
    (s.setWindow w n).bopen = s.bopen := rfl
@[simp] theorem State.setWindow_wcur (s : State) (w : Cells Byte) (n : Nat) :
    (s.setWindow w n).wcur = BitVec.ofNat 17 n := rfl
@[simp] theorem State.setWindow_hroot (s : State) (w : Cells Byte) (n : Nat) :
    (s.setWindow w n).hroot = s.hroot := rfl
@[simp] theorem State.setWindow_hnext (s : State) (w : Cells Byte) (n : Nat) :
    (s.setWindow w n).hnext = s.hnext := rfl
@[simp] theorem State.setWindow_hvalid (s : State) (w : Cells Byte) (n : Nat) :
    (s.setWindow w n).hvalid = s.hvalid := rfl
@[simp] theorem State.setWindow_hmode (s : State) (w : Cells Byte) (n : Nat) :
    (s.setWindow w n).hmode = s.hmode := rfl
@[simp] theorem State.setWindow_htovf (s : State) (w : Cells Byte) (n : Nat) :
    (s.setWindow w n).htovf = s.htovf := rfl
@[simp] theorem State.setWindow_htot (s : State) (w : Cells Byte) (n : Nat) : (s.setWindow w n).htot = s.htot := rfl
@[simp] theorem State.setWindow_hnsym (s : State) (w : Cells Byte) (n : Nat) :
    (s.setWindow w n).hnsym = s.hnsym := rfl
@[simp] theorem State.setWindow_hc0 (s : State) (w : Cells Byte) (n : Nat) : (s.setWindow w n).hc0 = s.hc0 := rfl
@[simp] theorem State.setWindow_hc1 (s : State) (w : Cells Byte) (n : Nat) : (s.setWindow w n).hc1 = s.hc1 := rfl
@[simp] theorem State.setWindow_win (s : State) (w : Cells Byte) (n : Nat) : (s.setWindow w n).win = w := rfl
@[simp] theorem State.setWindow_kstate (s : State) (w : Cells Byte) (n : Nat) :
    (s.setWindow w n).kstate = s.kstate := rfl
@[simp] theorem State.setWindow_kpos (s : State) (w : Cells Byte) (n : Nat) : (s.setWindow w n).kpos = s.kpos := rfl
@[simp] theorem State.setWindow_mem (s : State) (w : Cells Byte) (n : Nat) : (s.setWindow w n).mem = s.mem := rfl
@[simp] theorem State.setWindow_cmd (s : State) (w : Cells Byte) (n : Nat) : (s.setWindow w n).cmd = s.cmd := rfl
@[simp] theorem State.setWindow_memSize (s : State) (w : Cells Byte) (n : Nat) :
    (s.setWindow w n).memSize = s.memSize := rfl
@[simp] theorem State.setWindow_cmdLen (s : State) (w : Cells Byte) (n : Nat) :
    (s.setWindow w n).cmdLen = s.cmdLen := rfl

@[simp] theorem State.beginTree_cp (s : State) (md : TreeMode) (n tot : Nat) : (s.beginTree md n tot).cp = s.cp := rfl
@[simp] theorem State.beginTree_cfg (s : State) (md : TreeMode) (n tot : Nat) :
    (s.beginTree md n tot).cfg = s.cfg := rfl
@[simp] theorem State.beginTree_run (s : State) (md : TreeMode) (n tot : Nat) :
    (s.beginTree md n tot).run = s.run := rfl
@[simp] theorem State.beginTree_last (s : State) (md : TreeMode) (n tot : Nat) :
    (s.beginTree md n tot).last = s.last := rfl
@[simp] theorem State.beginTree_tsticky (s : State) (md : TreeMode) (n tot : Nat) :
    (s.beginTree md n tot).tsticky = s.tsticky := rfl
@[simp] theorem State.beginTree_cause (s : State) (md : TreeMode) (n tot : Nat) :
    (s.beginTree md n tot).cause = s.cause := rfl
@[simp] theorem State.beginTree_einfo (s : State) (md : TreeMode) (n tot : Nat) :
    (s.beginTree md n tot).einfo = s.einfo := rfl
@[simp] theorem State.beginTree_ecp (s : State) (md : TreeMode) (n tot : Nat) :
    (s.beginTree md n tot).ecp = s.ecp := rfl
@[simp] theorem State.beginTree_produced (s : State) (md : TreeMode) (n tot : Nat) :
    (s.beginTree md n tot).produced = s.produced := rfl
@[simp] theorem State.beginTree_res (s : State) (md : TreeMode) (n tot : Nat) :
    (s.beginTree md n tot).res = s.res := rfl
@[simp] theorem State.beginTree_got (s : State) (md : TreeMode) (n tot : Nat) :
    (s.beginTree md n tot).got = s.got := rfl
@[simp] theorem State.beginTree_eoi (s : State) (md : TreeMode) (n tot : Nat) :
    (s.beginTree md n tot).eoi = s.eoi := rfl
@[simp] theorem State.beginTree_cap (s : State) (md : TreeMode) (n tot : Nat) :
    (s.beginTree md n tot).cap = s.cap := rfl
@[simp] theorem State.beginTree_bbuf (s : State) (md : TreeMode) (n tot : Nat) :
    (s.beginTree md n tot).bbuf = s.bbuf := rfl
@[simp] theorem State.beginTree_bcnt (s : State) (md : TreeMode) (n tot : Nat) :
    (s.beginTree md n tot).bcnt = s.bcnt := rfl
@[simp] theorem State.beginTree_bord (s : State) (md : TreeMode) (n tot : Nat) :
    (s.beginTree md n tot).bord = s.bord := rfl
@[simp] theorem State.beginTree_bopen (s : State) (md : TreeMode) (n tot : Nat) :
    (s.beginTree md n tot).bopen = s.bopen := rfl
@[simp] theorem State.beginTree_wcur (s : State) (md : TreeMode) (n tot : Nat) :
    (s.beginTree md n tot).wcur = s.wcur := rfl
@[simp] theorem State.beginTree_hroot (s : State) (md : TreeMode) (n tot : Nat) :
    (s.beginTree md n tot).hroot = 0xFFFFFFFF := rfl
@[simp] theorem State.beginTree_hnext (s : State) (md : TreeMode) (n tot : Nat) :
    (s.beginTree md n tot).hnext = BitVec.ofNat 32 n := rfl
@[simp] theorem State.beginTree_hvalid (s : State) (md : TreeMode) (n tot : Nat) :
    (s.beginTree md n tot).hvalid = false := rfl
@[simp] theorem State.beginTree_hmode (s : State) (md : TreeMode) (n tot : Nat) :
    (s.beginTree md n tot).hmode = md := rfl
@[simp] theorem State.beginTree_htovf (s : State) (md : TreeMode) (n tot : Nat) :
    (s.beginTree md n tot).htovf = decide (2 ^ 32 ≤ tot) := rfl
@[simp] theorem State.beginTree_htot (s : State) (md : TreeMode) (n tot : Nat) :
    (s.beginTree md n tot).htot = BitVec.ofNat 40 tot := rfl
@[simp] theorem State.beginTree_hnsym (s : State) (md : TreeMode) (n tot : Nat) :
    (s.beginTree md n tot).hnsym = BitVec.ofNat 9 n := rfl
@[simp] theorem State.beginTree_hc0 (s : State) (md : TreeMode) (n tot : Nat) :
    (s.beginTree md n tot).hc0 = s.hc0 := rfl
@[simp] theorem State.beginTree_hc1 (s : State) (md : TreeMode) (n tot : Nat) :
    (s.beginTree md n tot).hc1 = s.hc1 := rfl
@[simp] theorem State.beginTree_win (s : State) (md : TreeMode) (n tot : Nat) :
    (s.beginTree md n tot).win = s.win := rfl
@[simp] theorem State.beginTree_kstate (s : State) (md : TreeMode) (n tot : Nat) :
    (s.beginTree md n tot).kstate = s.kstate := rfl
@[simp] theorem State.beginTree_kpos (s : State) (md : TreeMode) (n tot : Nat) :
    (s.beginTree md n tot).kpos = s.kpos := rfl
@[simp] theorem State.beginTree_mem (s : State) (md : TreeMode) (n tot : Nat) :
    (s.beginTree md n tot).mem = s.mem := rfl
@[simp] theorem State.beginTree_cmd (s : State) (md : TreeMode) (n tot : Nat) :
    (s.beginTree md n tot).cmd = s.cmd := rfl
@[simp] theorem State.beginTree_memSize (s : State) (md : TreeMode) (n tot : Nat) :
    (s.beginTree md n tot).memSize = s.memSize := rfl
@[simp] theorem State.beginTree_cmdLen (s : State) (md : TreeMode) (n tot : Nat) :
    (s.beginTree md n tot).cmdLen = s.cmdLen := rfl

@[simp] theorem State.setTree_cp (s : State) (root : Word) (next : Nat) (c0 c1 : Cells Node) :
    (s.setTree root next c0 c1).cp = s.cp := rfl
@[simp] theorem State.setTree_cfg (s : State) (root : Word) (next : Nat) (c0 c1 : Cells Node) :
    (s.setTree root next c0 c1).cfg = s.cfg := rfl
@[simp] theorem State.setTree_run (s : State) (root : Word) (next : Nat) (c0 c1 : Cells Node) :
    (s.setTree root next c0 c1).run = s.run := rfl
@[simp] theorem State.setTree_last (s : State) (root : Word) (next : Nat) (c0 c1 : Cells Node) :
    (s.setTree root next c0 c1).last = s.last := rfl
@[simp] theorem State.setTree_tsticky (s : State) (root : Word) (next : Nat) (c0 c1 : Cells Node) :
    (s.setTree root next c0 c1).tsticky = s.tsticky := rfl
@[simp] theorem State.setTree_cause (s : State) (root : Word) (next : Nat) (c0 c1 : Cells Node) :
    (s.setTree root next c0 c1).cause = s.cause := rfl
@[simp] theorem State.setTree_einfo (s : State) (root : Word) (next : Nat) (c0 c1 : Cells Node) :
    (s.setTree root next c0 c1).einfo = s.einfo := rfl
@[simp] theorem State.setTree_ecp (s : State) (root : Word) (next : Nat) (c0 c1 : Cells Node) :
    (s.setTree root next c0 c1).ecp = s.ecp := rfl
@[simp] theorem State.setTree_produced (s : State) (root : Word) (next : Nat) (c0 c1 : Cells Node) :
    (s.setTree root next c0 c1).produced = s.produced := rfl
@[simp] theorem State.setTree_res (s : State) (root : Word) (next : Nat) (c0 c1 : Cells Node) :
    (s.setTree root next c0 c1).res = s.res := rfl
@[simp] theorem State.setTree_got (s : State) (root : Word) (next : Nat) (c0 c1 : Cells Node) :
    (s.setTree root next c0 c1).got = s.got := rfl
@[simp] theorem State.setTree_eoi (s : State) (root : Word) (next : Nat) (c0 c1 : Cells Node) :
    (s.setTree root next c0 c1).eoi = s.eoi := rfl
@[simp] theorem State.setTree_cap (s : State) (root : Word) (next : Nat) (c0 c1 : Cells Node) :
    (s.setTree root next c0 c1).cap = s.cap := rfl
@[simp] theorem State.setTree_bbuf (s : State) (root : Word) (next : Nat) (c0 c1 : Cells Node) :
    (s.setTree root next c0 c1).bbuf = s.bbuf := rfl
@[simp] theorem State.setTree_bcnt (s : State) (root : Word) (next : Nat) (c0 c1 : Cells Node) :
    (s.setTree root next c0 c1).bcnt = s.bcnt := rfl
@[simp] theorem State.setTree_bord (s : State) (root : Word) (next : Nat) (c0 c1 : Cells Node) :
    (s.setTree root next c0 c1).bord = s.bord := rfl
@[simp] theorem State.setTree_bopen (s : State) (root : Word) (next : Nat) (c0 c1 : Cells Node) :
    (s.setTree root next c0 c1).bopen = s.bopen := rfl
@[simp] theorem State.setTree_wcur (s : State) (root : Word) (next : Nat) (c0 c1 : Cells Node) :
    (s.setTree root next c0 c1).wcur = s.wcur := rfl
@[simp] theorem State.setTree_hroot (s : State) (root : Word) (next : Nat) (c0 c1 : Cells Node) :
    (s.setTree root next c0 c1).hroot = root := rfl
@[simp] theorem State.setTree_hnext (s : State) (root : Word) (next : Nat) (c0 c1 : Cells Node) :
    (s.setTree root next c0 c1).hnext = BitVec.ofNat 32 next := rfl
@[simp] theorem State.setTree_hvalid (s : State) (root : Word) (next : Nat) (c0 c1 : Cells Node) :
    (s.setTree root next c0 c1).hvalid = true := rfl
@[simp] theorem State.setTree_hmode (s : State) (root : Word) (next : Nat) (c0 c1 : Cells Node) :
    (s.setTree root next c0 c1).hmode = s.hmode := rfl
@[simp] theorem State.setTree_htovf (s : State) (root : Word) (next : Nat) (c0 c1 : Cells Node) :
    (s.setTree root next c0 c1).htovf = s.htovf := rfl
@[simp] theorem State.setTree_htot (s : State) (root : Word) (next : Nat) (c0 c1 : Cells Node) :
    (s.setTree root next c0 c1).htot = s.htot := rfl
@[simp] theorem State.setTree_hnsym (s : State) (root : Word) (next : Nat) (c0 c1 : Cells Node) :
    (s.setTree root next c0 c1).hnsym = s.hnsym := rfl
@[simp] theorem State.setTree_hc0 (s : State) (root : Word) (next : Nat) (c0 c1 : Cells Node) :
    (s.setTree root next c0 c1).hc0 = c0 := rfl
@[simp] theorem State.setTree_hc1 (s : State) (root : Word) (next : Nat) (c0 c1 : Cells Node) :
    (s.setTree root next c0 c1).hc1 = c1 := rfl
@[simp] theorem State.setTree_win (s : State) (root : Word) (next : Nat) (c0 c1 : Cells Node) :
    (s.setTree root next c0 c1).win = s.win := rfl
@[simp] theorem State.setTree_kstate (s : State) (root : Word) (next : Nat) (c0 c1 : Cells Node) :
    (s.setTree root next c0 c1).kstate = s.kstate := rfl
@[simp] theorem State.setTree_kpos (s : State) (root : Word) (next : Nat) (c0 c1 : Cells Node) :
    (s.setTree root next c0 c1).kpos = s.kpos := rfl
@[simp] theorem State.setTree_mem (s : State) (root : Word) (next : Nat) (c0 c1 : Cells Node) :
    (s.setTree root next c0 c1).mem = s.mem := rfl
@[simp] theorem State.setTree_cmd (s : State) (root : Word) (next : Nat) (c0 c1 : Cells Node) :
    (s.setTree root next c0 c1).cmd = s.cmd := rfl
@[simp] theorem State.setTree_memSize (s : State) (root : Word) (next : Nat) (c0 c1 : Cells Node) :
    (s.setTree root next c0 c1).memSize = s.memSize := rfl
@[simp] theorem State.setTree_cmdLen (s : State) (root : Word) (next : Nat) (c0 c1 : Cells Node) :
    (s.setTree root next c0 c1).cmdLen = s.cmdLen := rfl

@[simp] theorem State.consumeTree_cp (s : State) : (s.consumeTree).cp = s.cp := rfl
@[simp] theorem State.consumeTree_cfg (s : State) : (s.consumeTree).cfg = s.cfg := rfl
@[simp] theorem State.consumeTree_run (s : State) : (s.consumeTree).run = s.run := rfl
@[simp] theorem State.consumeTree_last (s : State) : (s.consumeTree).last = s.last := rfl
@[simp] theorem State.consumeTree_tsticky (s : State) : (s.consumeTree).tsticky = s.tsticky := rfl
@[simp] theorem State.consumeTree_cause (s : State) : (s.consumeTree).cause = s.cause := rfl
@[simp] theorem State.consumeTree_einfo (s : State) : (s.consumeTree).einfo = s.einfo := rfl
@[simp] theorem State.consumeTree_ecp (s : State) : (s.consumeTree).ecp = s.ecp := rfl
@[simp] theorem State.consumeTree_produced (s : State) : (s.consumeTree).produced = s.produced := rfl
@[simp] theorem State.consumeTree_res (s : State) : (s.consumeTree).res = s.res := rfl
@[simp] theorem State.consumeTree_got (s : State) : (s.consumeTree).got = s.got := rfl
@[simp] theorem State.consumeTree_eoi (s : State) : (s.consumeTree).eoi = s.eoi := rfl
@[simp] theorem State.consumeTree_cap (s : State) : (s.consumeTree).cap = s.cap := rfl
@[simp] theorem State.consumeTree_bbuf (s : State) : (s.consumeTree).bbuf = s.bbuf := rfl
@[simp] theorem State.consumeTree_bcnt (s : State) : (s.consumeTree).bcnt = s.bcnt := rfl
@[simp] theorem State.consumeTree_bord (s : State) : (s.consumeTree).bord = s.bord := rfl
@[simp] theorem State.consumeTree_bopen (s : State) : (s.consumeTree).bopen = s.bopen := rfl
@[simp] theorem State.consumeTree_wcur (s : State) : (s.consumeTree).wcur = s.wcur := rfl
@[simp] theorem State.consumeTree_hroot (s : State) : (s.consumeTree).hroot = s.hroot := rfl
@[simp] theorem State.consumeTree_hnext (s : State) : (s.consumeTree).hnext = s.hnext := rfl
@[simp] theorem State.consumeTree_hvalid (s : State) : (s.consumeTree).hvalid = false := rfl
@[simp] theorem State.consumeTree_hmode (s : State) : (s.consumeTree).hmode = s.hmode := rfl
@[simp] theorem State.consumeTree_htovf (s : State) : (s.consumeTree).htovf = s.htovf := rfl
@[simp] theorem State.consumeTree_htot (s : State) : (s.consumeTree).htot = s.htot := rfl
@[simp] theorem State.consumeTree_hnsym (s : State) : (s.consumeTree).hnsym = s.hnsym := rfl
@[simp] theorem State.consumeTree_hc0 (s : State) : (s.consumeTree).hc0 = s.hc0 := rfl
@[simp] theorem State.consumeTree_hc1 (s : State) : (s.consumeTree).hc1 = s.hc1 := rfl
@[simp] theorem State.consumeTree_win (s : State) : (s.consumeTree).win = s.win := rfl
@[simp] theorem State.consumeTree_kstate (s : State) : (s.consumeTree).kstate = s.kstate := rfl
@[simp] theorem State.consumeTree_kpos (s : State) : (s.consumeTree).kpos = s.kpos := rfl
@[simp] theorem State.consumeTree_mem (s : State) : (s.consumeTree).mem = s.mem := rfl
@[simp] theorem State.consumeTree_cmd (s : State) : (s.consumeTree).cmd = s.cmd := rfl
@[simp] theorem State.consumeTree_memSize (s : State) : (s.consumeTree).memSize = s.memSize := rfl
@[simp] theorem State.consumeTree_cmdLen (s : State) : (s.consumeTree).cmdLen = s.cmdLen := rfl

@[simp] theorem State.setCipher_cp (s : State) (ks : Word) (n : Nat) : (s.setCipher ks n).cp = s.cp := rfl
@[simp] theorem State.setCipher_cfg (s : State) (ks : Word) (n : Nat) : (s.setCipher ks n).cfg = s.cfg := rfl
@[simp] theorem State.setCipher_run (s : State) (ks : Word) (n : Nat) : (s.setCipher ks n).run = s.run := rfl
@[simp] theorem State.setCipher_last (s : State) (ks : Word) (n : Nat) : (s.setCipher ks n).last = s.last := rfl
@[simp] theorem State.setCipher_tsticky (s : State) (ks : Word) (n : Nat) :
    (s.setCipher ks n).tsticky = s.tsticky := rfl
@[simp] theorem State.setCipher_cause (s : State) (ks : Word) (n : Nat) : (s.setCipher ks n).cause = s.cause := rfl
@[simp] theorem State.setCipher_einfo (s : State) (ks : Word) (n : Nat) : (s.setCipher ks n).einfo = s.einfo := rfl
@[simp] theorem State.setCipher_ecp (s : State) (ks : Word) (n : Nat) : (s.setCipher ks n).ecp = s.ecp := rfl
@[simp] theorem State.setCipher_produced (s : State) (ks : Word) (n : Nat) :
    (s.setCipher ks n).produced = s.produced := rfl
@[simp] theorem State.setCipher_res (s : State) (ks : Word) (n : Nat) : (s.setCipher ks n).res = s.res := rfl
@[simp] theorem State.setCipher_got (s : State) (ks : Word) (n : Nat) : (s.setCipher ks n).got = s.got := rfl
@[simp] theorem State.setCipher_eoi (s : State) (ks : Word) (n : Nat) : (s.setCipher ks n).eoi = s.eoi := rfl
@[simp] theorem State.setCipher_cap (s : State) (ks : Word) (n : Nat) : (s.setCipher ks n).cap = s.cap := rfl
@[simp] theorem State.setCipher_bbuf (s : State) (ks : Word) (n : Nat) : (s.setCipher ks n).bbuf = s.bbuf := rfl
@[simp] theorem State.setCipher_bcnt (s : State) (ks : Word) (n : Nat) : (s.setCipher ks n).bcnt = s.bcnt := rfl
@[simp] theorem State.setCipher_bord (s : State) (ks : Word) (n : Nat) : (s.setCipher ks n).bord = s.bord := rfl
@[simp] theorem State.setCipher_bopen (s : State) (ks : Word) (n : Nat) : (s.setCipher ks n).bopen = s.bopen := rfl
@[simp] theorem State.setCipher_wcur (s : State) (ks : Word) (n : Nat) : (s.setCipher ks n).wcur = s.wcur := rfl
@[simp] theorem State.setCipher_hroot (s : State) (ks : Word) (n : Nat) : (s.setCipher ks n).hroot = s.hroot := rfl
@[simp] theorem State.setCipher_hnext (s : State) (ks : Word) (n : Nat) : (s.setCipher ks n).hnext = s.hnext := rfl
@[simp] theorem State.setCipher_hvalid (s : State) (ks : Word) (n : Nat) : (s.setCipher ks n).hvalid = s.hvalid := rfl
@[simp] theorem State.setCipher_hmode (s : State) (ks : Word) (n : Nat) : (s.setCipher ks n).hmode = s.hmode := rfl
@[simp] theorem State.setCipher_htovf (s : State) (ks : Word) (n : Nat) : (s.setCipher ks n).htovf = s.htovf := rfl
@[simp] theorem State.setCipher_htot (s : State) (ks : Word) (n : Nat) : (s.setCipher ks n).htot = s.htot := rfl
@[simp] theorem State.setCipher_hnsym (s : State) (ks : Word) (n : Nat) : (s.setCipher ks n).hnsym = s.hnsym := rfl
@[simp] theorem State.setCipher_hc0 (s : State) (ks : Word) (n : Nat) : (s.setCipher ks n).hc0 = s.hc0 := rfl
@[simp] theorem State.setCipher_hc1 (s : State) (ks : Word) (n : Nat) : (s.setCipher ks n).hc1 = s.hc1 := rfl
@[simp] theorem State.setCipher_win (s : State) (ks : Word) (n : Nat) : (s.setCipher ks n).win = s.win := rfl
@[simp] theorem State.setCipher_kstate (s : State) (ks : Word) (n : Nat) : (s.setCipher ks n).kstate = ks := rfl
@[simp] theorem State.setCipher_kpos (s : State) (ks : Word) (n : Nat) :
    (s.setCipher ks n).kpos = BitVec.ofNat 32 n := rfl
@[simp] theorem State.setCipher_mem (s : State) (ks : Word) (n : Nat) : (s.setCipher ks n).mem = s.mem := rfl
@[simp] theorem State.setCipher_cmd (s : State) (ks : Word) (n : Nat) : (s.setCipher ks n).cmd = s.cmd := rfl
@[simp] theorem State.setCipher_memSize (s : State) (ks : Word) (n : Nat) :
    (s.setCipher ks n).memSize = s.memSize := rfl
@[simp] theorem State.setCipher_cmdLen (s : State) (ks : Word) (n : Nat) : (s.setCipher ks n).cmdLen = s.cmdLen := rfl

@[simp] theorem State.setCmd_cp (s : State) (c : Cells Word) : (s.setCmd c).cp = s.cp := rfl
@[simp] theorem State.setCmd_cfg (s : State) (c : Cells Word) : (s.setCmd c).cfg = s.cfg := rfl
@[simp] theorem State.setCmd_run (s : State) (c : Cells Word) : (s.setCmd c).run = s.run := rfl
@[simp] theorem State.setCmd_last (s : State) (c : Cells Word) : (s.setCmd c).last = s.last := rfl
@[simp] theorem State.setCmd_tsticky (s : State) (c : Cells Word) : (s.setCmd c).tsticky = s.tsticky := rfl
@[simp] theorem State.setCmd_cause (s : State) (c : Cells Word) : (s.setCmd c).cause = s.cause := rfl
@[simp] theorem State.setCmd_einfo (s : State) (c : Cells Word) : (s.setCmd c).einfo = s.einfo := rfl
@[simp] theorem State.setCmd_ecp (s : State) (c : Cells Word) : (s.setCmd c).ecp = s.ecp := rfl
@[simp] theorem State.setCmd_produced (s : State) (c : Cells Word) : (s.setCmd c).produced = s.produced := rfl
@[simp] theorem State.setCmd_res (s : State) (c : Cells Word) : (s.setCmd c).res = s.res := rfl
@[simp] theorem State.setCmd_got (s : State) (c : Cells Word) : (s.setCmd c).got = s.got := rfl
@[simp] theorem State.setCmd_eoi (s : State) (c : Cells Word) : (s.setCmd c).eoi = s.eoi := rfl
@[simp] theorem State.setCmd_cap (s : State) (c : Cells Word) : (s.setCmd c).cap = s.cap := rfl
@[simp] theorem State.setCmd_bbuf (s : State) (c : Cells Word) : (s.setCmd c).bbuf = s.bbuf := rfl
@[simp] theorem State.setCmd_bcnt (s : State) (c : Cells Word) : (s.setCmd c).bcnt = s.bcnt := rfl
@[simp] theorem State.setCmd_bord (s : State) (c : Cells Word) : (s.setCmd c).bord = s.bord := rfl
@[simp] theorem State.setCmd_bopen (s : State) (c : Cells Word) : (s.setCmd c).bopen = s.bopen := rfl
@[simp] theorem State.setCmd_wcur (s : State) (c : Cells Word) : (s.setCmd c).wcur = s.wcur := rfl
@[simp] theorem State.setCmd_hroot (s : State) (c : Cells Word) : (s.setCmd c).hroot = s.hroot := rfl
@[simp] theorem State.setCmd_hnext (s : State) (c : Cells Word) : (s.setCmd c).hnext = s.hnext := rfl
@[simp] theorem State.setCmd_hvalid (s : State) (c : Cells Word) : (s.setCmd c).hvalid = s.hvalid := rfl
@[simp] theorem State.setCmd_hmode (s : State) (c : Cells Word) : (s.setCmd c).hmode = s.hmode := rfl
@[simp] theorem State.setCmd_htovf (s : State) (c : Cells Word) : (s.setCmd c).htovf = s.htovf := rfl
@[simp] theorem State.setCmd_htot (s : State) (c : Cells Word) : (s.setCmd c).htot = s.htot := rfl
@[simp] theorem State.setCmd_hnsym (s : State) (c : Cells Word) : (s.setCmd c).hnsym = s.hnsym := rfl
@[simp] theorem State.setCmd_hc0 (s : State) (c : Cells Word) : (s.setCmd c).hc0 = s.hc0 := rfl
@[simp] theorem State.setCmd_hc1 (s : State) (c : Cells Word) : (s.setCmd c).hc1 = s.hc1 := rfl
@[simp] theorem State.setCmd_win (s : State) (c : Cells Word) : (s.setCmd c).win = s.win := rfl
@[simp] theorem State.setCmd_kstate (s : State) (c : Cells Word) : (s.setCmd c).kstate = s.kstate := rfl
@[simp] theorem State.setCmd_kpos (s : State) (c : Cells Word) : (s.setCmd c).kpos = s.kpos := rfl
@[simp] theorem State.setCmd_mem (s : State) (c : Cells Word) : (s.setCmd c).mem = s.mem := rfl
@[simp] theorem State.setCmd_cmd (s : State) (c : Cells Word) : (s.setCmd c).cmd = c := rfl
@[simp] theorem State.setCmd_memSize (s : State) (c : Cells Word) : (s.setCmd c).memSize = s.memSize := rfl
@[simp] theorem State.setCmd_cmdLen (s : State) (c : Cells Word) : (s.setCmd c).cmdLen = s.cmdLen := rfl

@[simp] theorem State.endComplete_cp (s : State) : (s.endComplete).cp = s.cp + 1 := rfl
@[simp] theorem State.endComplete_cfg (s : State) : (s.endComplete).cfg = s.cfg := rfl
@[simp] theorem State.endComplete_run (s : State) : (s.endComplete).run = s.run := rfl
@[simp] theorem State.endComplete_last (s : State) : (s.endComplete).last = .complete := rfl
@[simp] theorem State.endComplete_tsticky (s : State) : (s.endComplete).tsticky = s.tsticky := rfl
@[simp] theorem State.endComplete_cause (s : State) : (s.endComplete).cause = s.cause := rfl
@[simp] theorem State.endComplete_einfo (s : State) : (s.endComplete).einfo = s.einfo := rfl
@[simp] theorem State.endComplete_ecp (s : State) : (s.endComplete).ecp = s.ecp := rfl
@[simp] theorem State.endComplete_produced (s : State) : (s.endComplete).produced = s.produced := rfl
@[simp] theorem State.endComplete_res (s : State) : (s.endComplete).res = s.res := rfl
@[simp] theorem State.endComplete_got (s : State) : (s.endComplete).got = s.got := rfl
@[simp] theorem State.endComplete_eoi (s : State) : (s.endComplete).eoi = s.eoi := rfl
@[simp] theorem State.endComplete_cap (s : State) : (s.endComplete).cap = s.cap := rfl
@[simp] theorem State.endComplete_bbuf (s : State) : (s.endComplete).bbuf = s.bbuf := rfl
@[simp] theorem State.endComplete_bcnt (s : State) : (s.endComplete).bcnt = s.bcnt := rfl
@[simp] theorem State.endComplete_bord (s : State) : (s.endComplete).bord = s.bord := rfl
@[simp] theorem State.endComplete_bopen (s : State) : (s.endComplete).bopen = s.bopen := rfl
@[simp] theorem State.endComplete_wcur (s : State) : (s.endComplete).wcur = s.wcur := rfl
@[simp] theorem State.endComplete_hroot (s : State) : (s.endComplete).hroot = s.hroot := rfl
@[simp] theorem State.endComplete_hnext (s : State) : (s.endComplete).hnext = s.hnext := rfl
@[simp] theorem State.endComplete_hvalid (s : State) : (s.endComplete).hvalid = s.hvalid := rfl
@[simp] theorem State.endComplete_hmode (s : State) : (s.endComplete).hmode = s.hmode := rfl
@[simp] theorem State.endComplete_htovf (s : State) : (s.endComplete).htovf = s.htovf := rfl
@[simp] theorem State.endComplete_htot (s : State) : (s.endComplete).htot = s.htot := rfl
@[simp] theorem State.endComplete_hnsym (s : State) : (s.endComplete).hnsym = s.hnsym := rfl
@[simp] theorem State.endComplete_hc0 (s : State) : (s.endComplete).hc0 = s.hc0 := rfl
@[simp] theorem State.endComplete_hc1 (s : State) : (s.endComplete).hc1 = s.hc1 := rfl
@[simp] theorem State.endComplete_win (s : State) : (s.endComplete).win = s.win := rfl
@[simp] theorem State.endComplete_kstate (s : State) : (s.endComplete).kstate = s.kstate := rfl
@[simp] theorem State.endComplete_kpos (s : State) : (s.endComplete).kpos = s.kpos := rfl
@[simp] theorem State.endComplete_mem (s : State) : (s.endComplete).mem = s.mem := rfl
@[simp] theorem State.endComplete_cmd (s : State) : (s.endComplete).cmd = s.cmd := rfl
@[simp] theorem State.endComplete_memSize (s : State) : (s.endComplete).memSize = s.memSize := rfl
@[simp] theorem State.endComplete_cmdLen (s : State) : (s.endComplete).cmdLen = s.cmdLen := rfl

@[simp] theorem State.endTruncated_cp (s : State) (c : Cause) (info : Word) :
    (s.endTruncated c info).cp = s.cp + 1 := rfl
@[simp] theorem State.endTruncated_cfg (s : State) (c : Cause) (info : Word) :
    (s.endTruncated c info).cfg = s.cfg := rfl
@[simp] theorem State.endTruncated_run (s : State) (c : Cause) (info : Word) :
    (s.endTruncated c info).run = s.run := rfl
@[simp] theorem State.endTruncated_last (s : State) (c : Cause) (info : Word) :
    (s.endTruncated c info).last = .truncated := rfl
@[simp] theorem State.endTruncated_tsticky (s : State) (c : Cause) (info : Word) :
    (s.endTruncated c info).tsticky = true := rfl
@[simp] theorem State.endTruncated_cause (s : State) (c : Cause) (info : Word) :
    (s.endTruncated c info).cause = some c := rfl
@[simp] theorem State.endTruncated_einfo (s : State) (c : Cause) (info : Word) :
    (s.endTruncated c info).einfo = info := rfl
@[simp] theorem State.endTruncated_ecp (s : State) (c : Cause) (info : Word) :
    (s.endTruncated c info).ecp = s.cp := rfl
@[simp] theorem State.endTruncated_produced (s : State) (c : Cause) (info : Word) :
    (s.endTruncated c info).produced = s.produced := rfl
@[simp] theorem State.endTruncated_res (s : State) (c : Cause) (info : Word) :
    (s.endTruncated c info).res = s.res := rfl
@[simp] theorem State.endTruncated_got (s : State) (c : Cause) (info : Word) :
    (s.endTruncated c info).got = s.got := rfl
@[simp] theorem State.endTruncated_eoi (s : State) (c : Cause) (info : Word) :
    (s.endTruncated c info).eoi = s.eoi := rfl
@[simp] theorem State.endTruncated_cap (s : State) (c : Cause) (info : Word) :
    (s.endTruncated c info).cap = s.cap := rfl
@[simp] theorem State.endTruncated_bbuf (s : State) (c : Cause) (info : Word) :
    (s.endTruncated c info).bbuf = s.bbuf := rfl
@[simp] theorem State.endTruncated_bcnt (s : State) (c : Cause) (info : Word) :
    (s.endTruncated c info).bcnt = s.bcnt := rfl
@[simp] theorem State.endTruncated_bord (s : State) (c : Cause) (info : Word) :
    (s.endTruncated c info).bord = s.bord := rfl
@[simp] theorem State.endTruncated_bopen (s : State) (c : Cause) (info : Word) :
    (s.endTruncated c info).bopen = s.bopen := rfl
@[simp] theorem State.endTruncated_wcur (s : State) (c : Cause) (info : Word) :
    (s.endTruncated c info).wcur = s.wcur := rfl
@[simp] theorem State.endTruncated_hroot (s : State) (c : Cause) (info : Word) :
    (s.endTruncated c info).hroot = s.hroot := rfl
@[simp] theorem State.endTruncated_hnext (s : State) (c : Cause) (info : Word) :
    (s.endTruncated c info).hnext = s.hnext := rfl
@[simp] theorem State.endTruncated_hvalid (s : State) (c : Cause) (info : Word) :
    (s.endTruncated c info).hvalid = s.hvalid := rfl
@[simp] theorem State.endTruncated_hmode (s : State) (c : Cause) (info : Word) :
    (s.endTruncated c info).hmode = s.hmode := rfl
@[simp] theorem State.endTruncated_htovf (s : State) (c : Cause) (info : Word) :
    (s.endTruncated c info).htovf = s.htovf := rfl
@[simp] theorem State.endTruncated_htot (s : State) (c : Cause) (info : Word) :
    (s.endTruncated c info).htot = s.htot := rfl
@[simp] theorem State.endTruncated_hnsym (s : State) (c : Cause) (info : Word) :
    (s.endTruncated c info).hnsym = s.hnsym := rfl
@[simp] theorem State.endTruncated_hc0 (s : State) (c : Cause) (info : Word) :
    (s.endTruncated c info).hc0 = s.hc0 := rfl
@[simp] theorem State.endTruncated_hc1 (s : State) (c : Cause) (info : Word) :
    (s.endTruncated c info).hc1 = s.hc1 := rfl
@[simp] theorem State.endTruncated_win (s : State) (c : Cause) (info : Word) :
    (s.endTruncated c info).win = s.win := rfl
@[simp] theorem State.endTruncated_kstate (s : State) (c : Cause) (info : Word) :
    (s.endTruncated c info).kstate = s.kstate := rfl
@[simp] theorem State.endTruncated_kpos (s : State) (c : Cause) (info : Word) :
    (s.endTruncated c info).kpos = s.kpos := rfl
@[simp] theorem State.endTruncated_mem (s : State) (c : Cause) (info : Word) :
    (s.endTruncated c info).mem = s.mem := rfl
@[simp] theorem State.endTruncated_cmd (s : State) (c : Cause) (info : Word) :
    (s.endTruncated c info).cmd = s.cmd := rfl
@[simp] theorem State.endTruncated_memSize (s : State) (c : Cause) (info : Word) :
    (s.endTruncated c info).memSize = s.memSize := rfl
@[simp] theorem State.endTruncated_cmdLen (s : State) (c : Cause) (info : Word) :
    (s.endTruncated c info).cmdLen = s.cmdLen := rfl

@[simp] theorem State.takeCorrupt_cp (s : State) (c : Cause) (info : Word) : (s.takeCorrupt c info).cp = s.cp := rfl
@[simp] theorem State.takeCorrupt_cfg (s : State) (c : Cause) (info : Word) :
    (s.takeCorrupt c info).cfg = s.cfg := rfl
@[simp] theorem State.takeCorrupt_run (s : State) (c : Cause) (info : Word) :
    (s.takeCorrupt c info).run = .stopped := rfl
@[simp] theorem State.takeCorrupt_last (s : State) (c : Cause) (info : Word) :
    (s.takeCorrupt c info).last = .corrupt := rfl
@[simp] theorem State.takeCorrupt_tsticky (s : State) (c : Cause) (info : Word) :
    (s.takeCorrupt c info).tsticky = s.tsticky := rfl
@[simp] theorem State.takeCorrupt_cause (s : State) (c : Cause) (info : Word) :
    (s.takeCorrupt c info).cause = some c := rfl
@[simp] theorem State.takeCorrupt_einfo (s : State) (c : Cause) (info : Word) :
    (s.takeCorrupt c info).einfo = info := rfl
@[simp] theorem State.takeCorrupt_ecp (s : State) (c : Cause) (info : Word) : (s.takeCorrupt c info).ecp = s.cp := rfl
@[simp] theorem State.takeCorrupt_produced (s : State) (c : Cause) (info : Word) :
    (s.takeCorrupt c info).produced = s.produced := rfl
@[simp] theorem State.takeCorrupt_res (s : State) (c : Cause) (info : Word) :
    (s.takeCorrupt c info).res = s.res := rfl
@[simp] theorem State.takeCorrupt_got (s : State) (c : Cause) (info : Word) :
    (s.takeCorrupt c info).got = s.got := rfl
@[simp] theorem State.takeCorrupt_eoi (s : State) (c : Cause) (info : Word) :
    (s.takeCorrupt c info).eoi = s.eoi := rfl
@[simp] theorem State.takeCorrupt_cap (s : State) (c : Cause) (info : Word) :
    (s.takeCorrupt c info).cap = s.cap := rfl
@[simp] theorem State.takeCorrupt_bbuf (s : State) (c : Cause) (info : Word) :
    (s.takeCorrupt c info).bbuf = s.bbuf := rfl
@[simp] theorem State.takeCorrupt_bcnt (s : State) (c : Cause) (info : Word) :
    (s.takeCorrupt c info).bcnt = s.bcnt := rfl
@[simp] theorem State.takeCorrupt_bord (s : State) (c : Cause) (info : Word) :
    (s.takeCorrupt c info).bord = s.bord := rfl
@[simp] theorem State.takeCorrupt_bopen (s : State) (c : Cause) (info : Word) :
    (s.takeCorrupt c info).bopen = s.bopen := rfl
@[simp] theorem State.takeCorrupt_wcur (s : State) (c : Cause) (info : Word) :
    (s.takeCorrupt c info).wcur = s.wcur := rfl
@[simp] theorem State.takeCorrupt_hroot (s : State) (c : Cause) (info : Word) :
    (s.takeCorrupt c info).hroot = s.hroot := rfl
@[simp] theorem State.takeCorrupt_hnext (s : State) (c : Cause) (info : Word) :
    (s.takeCorrupt c info).hnext = s.hnext := rfl
@[simp] theorem State.takeCorrupt_hvalid (s : State) (c : Cause) (info : Word) :
    (s.takeCorrupt c info).hvalid = s.hvalid := rfl
@[simp] theorem State.takeCorrupt_hmode (s : State) (c : Cause) (info : Word) :
    (s.takeCorrupt c info).hmode = s.hmode := rfl
@[simp] theorem State.takeCorrupt_htovf (s : State) (c : Cause) (info : Word) :
    (s.takeCorrupt c info).htovf = s.htovf := rfl
@[simp] theorem State.takeCorrupt_htot (s : State) (c : Cause) (info : Word) :
    (s.takeCorrupt c info).htot = s.htot := rfl
@[simp] theorem State.takeCorrupt_hnsym (s : State) (c : Cause) (info : Word) :
    (s.takeCorrupt c info).hnsym = s.hnsym := rfl
@[simp] theorem State.takeCorrupt_hc0 (s : State) (c : Cause) (info : Word) :
    (s.takeCorrupt c info).hc0 = s.hc0 := rfl
@[simp] theorem State.takeCorrupt_hc1 (s : State) (c : Cause) (info : Word) :
    (s.takeCorrupt c info).hc1 = s.hc1 := rfl
@[simp] theorem State.takeCorrupt_win (s : State) (c : Cause) (info : Word) :
    (s.takeCorrupt c info).win = s.win := rfl
@[simp] theorem State.takeCorrupt_kstate (s : State) (c : Cause) (info : Word) :
    (s.takeCorrupt c info).kstate = s.kstate := rfl
@[simp] theorem State.takeCorrupt_kpos (s : State) (c : Cause) (info : Word) :
    (s.takeCorrupt c info).kpos = s.kpos := rfl
@[simp] theorem State.takeCorrupt_mem (s : State) (c : Cause) (info : Word) :
    (s.takeCorrupt c info).mem = s.mem := rfl
@[simp] theorem State.takeCorrupt_cmd (s : State) (c : Cause) (info : Word) :
    (s.takeCorrupt c info).cmd = s.cmd := rfl
@[simp] theorem State.takeCorrupt_memSize (s : State) (c : Cause) (info : Word) :
    (s.takeCorrupt c info).memSize = s.memSize := rfl
@[simp] theorem State.takeCorrupt_cmdLen (s : State) (c : Cause) (info : Word) :
    (s.takeCorrupt c info).cmdLen = s.cmdLen := rfl

@[simp] theorem State.endHalt_cp (s : State) : (s.endHalt).cp = s.cp := rfl
@[simp] theorem State.endHalt_cfg (s : State) : (s.endHalt).cfg = s.cfg := rfl
@[simp] theorem State.endHalt_run (s : State) : (s.endHalt).run = .done := rfl
@[simp] theorem State.endHalt_last (s : State) : (s.endHalt).last = s.last := rfl
@[simp] theorem State.endHalt_tsticky (s : State) : (s.endHalt).tsticky = s.tsticky := rfl
@[simp] theorem State.endHalt_cause (s : State) : (s.endHalt).cause = s.cause := rfl
@[simp] theorem State.endHalt_einfo (s : State) : (s.endHalt).einfo = s.einfo := rfl
@[simp] theorem State.endHalt_ecp (s : State) : (s.endHalt).ecp = s.ecp := rfl
@[simp] theorem State.endHalt_produced (s : State) : (s.endHalt).produced = s.produced := rfl
@[simp] theorem State.endHalt_res (s : State) : (s.endHalt).res = s.res := rfl
@[simp] theorem State.endHalt_got (s : State) : (s.endHalt).got = s.got := rfl
@[simp] theorem State.endHalt_eoi (s : State) : (s.endHalt).eoi = s.eoi := rfl
@[simp] theorem State.endHalt_cap (s : State) : (s.endHalt).cap = s.cap := rfl
@[simp] theorem State.endHalt_bbuf (s : State) : (s.endHalt).bbuf = s.bbuf := rfl
@[simp] theorem State.endHalt_bcnt (s : State) : (s.endHalt).bcnt = s.bcnt := rfl
@[simp] theorem State.endHalt_bord (s : State) : (s.endHalt).bord = s.bord := rfl
@[simp] theorem State.endHalt_bopen (s : State) : (s.endHalt).bopen = s.bopen := rfl
@[simp] theorem State.endHalt_wcur (s : State) : (s.endHalt).wcur = s.wcur := rfl
@[simp] theorem State.endHalt_hroot (s : State) : (s.endHalt).hroot = s.hroot := rfl
@[simp] theorem State.endHalt_hnext (s : State) : (s.endHalt).hnext = s.hnext := rfl
@[simp] theorem State.endHalt_hvalid (s : State) : (s.endHalt).hvalid = s.hvalid := rfl
@[simp] theorem State.endHalt_hmode (s : State) : (s.endHalt).hmode = s.hmode := rfl
@[simp] theorem State.endHalt_htovf (s : State) : (s.endHalt).htovf = s.htovf := rfl
@[simp] theorem State.endHalt_htot (s : State) : (s.endHalt).htot = s.htot := rfl
@[simp] theorem State.endHalt_hnsym (s : State) : (s.endHalt).hnsym = s.hnsym := rfl
@[simp] theorem State.endHalt_hc0 (s : State) : (s.endHalt).hc0 = s.hc0 := rfl
@[simp] theorem State.endHalt_hc1 (s : State) : (s.endHalt).hc1 = s.hc1 := rfl
@[simp] theorem State.endHalt_win (s : State) : (s.endHalt).win = s.win := rfl
@[simp] theorem State.endHalt_kstate (s : State) : (s.endHalt).kstate = s.kstate := rfl
@[simp] theorem State.endHalt_kpos (s : State) : (s.endHalt).kpos = s.kpos := rfl
@[simp] theorem State.endHalt_mem (s : State) : (s.endHalt).mem = s.mem := rfl
@[simp] theorem State.endHalt_cmd (s : State) : (s.endHalt).cmd = s.cmd := rfl
@[simp] theorem State.endHalt_memSize (s : State) : (s.endHalt).memSize = s.memSize := rfl
@[simp] theorem State.endHalt_cmdLen (s : State) : (s.endHalt).cmdLen = s.cmdLen := rfl

@[simp] theorem State.start_cp (s : State) : (s.start).cp = 0 := rfl
@[simp] theorem State.start_cfg (s : State) : (s.start).cfg = s.cfg := rfl
@[simp] theorem State.start_run (s : State) : (s.start).run = .busy := rfl
@[simp] theorem State.start_last (s : State) : (s.start).last = .none := rfl
@[simp] theorem State.start_tsticky (s : State) : (s.start).tsticky = false := rfl
@[simp] theorem State.start_cause (s : State) : (s.start).cause = none := rfl
@[simp] theorem State.start_einfo (s : State) : (s.start).einfo = 0 := rfl
@[simp] theorem State.start_ecp (s : State) : (s.start).ecp = 0 := rfl
@[simp] theorem State.start_produced (s : State) : (s.start).produced = 0 := rfl
@[simp] theorem State.start_res (s : State) : (s.start).res = 0 := rfl
@[simp] theorem State.start_got (s : State) : (s.start).got = 0 := rfl
@[simp] theorem State.start_eoi (s : State) : (s.start).eoi = false := rfl
@[simp] theorem State.start_cap (s : State) : (s.start).cap = false := rfl
@[simp] theorem State.start_bbuf (s : State) : (s.start).bbuf = 0 := rfl
@[simp] theorem State.start_bcnt (s : State) : (s.start).bcnt = 0 := rfl
@[simp] theorem State.start_bord (s : State) : (s.start).bord = .msb := rfl
@[simp] theorem State.start_bopen (s : State) : (s.start).bopen = false := rfl
@[simp] theorem State.start_wcur (s : State) : (s.start).wcur = 0 := rfl
@[simp] theorem State.start_hroot (s : State) : (s.start).hroot = 0xFFFFFFFF := rfl
@[simp] theorem State.start_hnext (s : State) : (s.start).hnext = 0 := rfl
@[simp] theorem State.start_hvalid (s : State) : (s.start).hvalid = false := rfl
@[simp] theorem State.start_hmode (s : State) : (s.start).hmode = .weights := rfl
@[simp] theorem State.start_htovf (s : State) : (s.start).htovf = false := rfl
@[simp] theorem State.start_htot (s : State) : (s.start).htot = 0 := rfl
@[simp] theorem State.start_hnsym (s : State) : (s.start).hnsym = s.hnsym := rfl
@[simp] theorem State.start_hc0 (s : State) : (s.start).hc0 = s.hc0 := rfl
@[simp] theorem State.start_hc1 (s : State) : (s.start).hc1 = s.hc1 := rfl
@[simp] theorem State.start_win (s : State) : (s.start).win = s.win := rfl
@[simp] theorem State.start_kstate (s : State) : (s.start).kstate = 0 := rfl
@[simp] theorem State.start_kpos (s : State) : (s.start).kpos = 0 := rfl
@[simp] theorem State.start_mem (s : State) : (s.start).mem = s.mem := rfl
@[simp] theorem State.start_cmd (s : State) : (s.start).cmd = s.cmd := rfl
@[simp] theorem State.start_memSize (s : State) : (s.start).memSize = s.memSize := rfl
@[simp] theorem State.start_cmdLen (s : State) : (s.start).cmdLen = s.cmdLen := rfl

/-! Accessors that read none of the updated fields. -/

@[simp] theorem State.setMem_csr (s : State) (m : List Host.Cell) (q : Fin 34) : (s.setMem m).csr q = s.csr q := rfl
@[simp] theorem State.setMem_csrNat (s : State) (m : List Host.Cell) (q : Fin 34) :
    (s.setMem m).csrNat q = s.csrNat q := rfl
@[simp] theorem State.setMem_base (s : State) (m : List Host.Cell) (g : Region) :
    (s.setMem m).base g = s.base g := rfl
@[simp] theorem State.setMem_len (s : State) (m : List Host.Cell) (g : Region) : (s.setMem m).len g = s.len g := rfl
@[simp] theorem State.setMem_litpol (s : State) (m : List Host.Cell) : (s.setMem m).litpol = s.litpol := rfl
@[simp] theorem State.setMem_twolvl (s : State) (m : List Host.Cell) : (s.setMem m).twolvl = s.twolvl := rfl
@[simp] theorem State.setMem_shortpol (s : State) (m : List Host.Cell) : (s.setMem m).shortpol = s.shortpol := rfl
@[simp] theorem State.setMem_under (s : State) (m : List Host.Cell) : (s.setMem m).under = s.under := rfl
@[simp] theorem State.setMem_tableMode (s : State) (m : List Host.Cell) : (s.setMem m).tableMode = s.tableMode := rfl
@[simp] theorem State.setMem_channels (s : State) (m : List Host.Cell) : (s.setMem m).channels = s.channels := rfl
@[simp] theorem State.setMem_vdelta (s : State) (m : List Host.Cell) : (s.setMem m).vdelta = s.vdelta := rfl
@[simp] theorem State.setMem_lane (s : State) (m : List Host.Cell) (c : Nat) : (s.setMem m).lane c = s.lane c := rfl
@[simp] theorem State.setMem_alphaLane (s : State) (m : List Host.Cell) : (s.setMem m).alphaLane = s.alphaLane := rfl
@[simp] theorem State.setMem_alphaBits (s : State) (m : List Host.Cell) : (s.setMem m).alphaBits = s.alphaBits := rfl
@[simp] theorem State.setMem_npix (s : State) (m : List Host.Cell) : (s.setMem m).npix = s.npix := rfl
@[simp] theorem State.setMem_bytesLeft (s : State) (m : List Host.Cell) : (s.setMem m).bytesLeft = s.bytesLeft := rfl
@[simp] theorem State.setMem_bitsLeft (s : State) (m : List Host.Cell) : (s.setMem m).bitsLeft = s.bitsLeft := rfl

@[simp] theorem State.setCsr_byteAt (s : State) (r : Fin 34) (v : Word) (a : Nat) :
    (s.setCsr r v).byteAt a = s.byteAt a := rfl

@[simp] theorem State.closeCursor_csr (s : State) (q : Fin 34) : (s.closeCursor).csr q = s.csr q := rfl
@[simp] theorem State.closeCursor_csrNat (s : State) (q : Fin 34) : (s.closeCursor).csrNat q = s.csrNat q := rfl
@[simp] theorem State.closeCursor_base (s : State) (g : Region) : (s.closeCursor).base g = s.base g := rfl
@[simp] theorem State.closeCursor_len (s : State) (g : Region) : (s.closeCursor).len g = s.len g := rfl
@[simp] theorem State.closeCursor_litpol (s : State) : (s.closeCursor).litpol = s.litpol := rfl
@[simp] theorem State.closeCursor_twolvl (s : State) : (s.closeCursor).twolvl = s.twolvl := rfl
@[simp] theorem State.closeCursor_shortpol (s : State) : (s.closeCursor).shortpol = s.shortpol := rfl
@[simp] theorem State.closeCursor_under (s : State) : (s.closeCursor).under = s.under := rfl
@[simp] theorem State.closeCursor_tableMode (s : State) : (s.closeCursor).tableMode = s.tableMode := rfl
@[simp] theorem State.closeCursor_channels (s : State) : (s.closeCursor).channels = s.channels := rfl
@[simp] theorem State.closeCursor_vdelta (s : State) : (s.closeCursor).vdelta = s.vdelta := rfl
@[simp] theorem State.closeCursor_lane (s : State) (c : Nat) : (s.closeCursor).lane c = s.lane c := rfl
@[simp] theorem State.closeCursor_alphaLane (s : State) : (s.closeCursor).alphaLane = s.alphaLane := rfl
@[simp] theorem State.closeCursor_alphaBits (s : State) : (s.closeCursor).alphaBits = s.alphaBits := rfl
@[simp] theorem State.closeCursor_npix (s : State) : (s.closeCursor).npix = s.npix := rfl
@[simp] theorem State.closeCursor_byteAt (s : State) (a : Nat) : (s.closeCursor).byteAt a = s.byteAt a := rfl
@[simp] theorem State.closeCursor_regionByte (s : State) (g : Region) (k : Nat) :
    (s.closeCursor).regionByte g k = s.regionByte g k := rfl
@[simp] theorem State.closeCursor_bytesLeft (s : State) : (s.closeCursor).bytesLeft = s.bytesLeft := rfl
@[simp] theorem State.closeCursor_unloadedBits (s : State) : (s.closeCursor).unloadedBits = s.unloadedBits := rfl

@[simp] theorem State.openCursor_csr (s : State) (ord : BitOrder) (q : Fin 34) :
    (s.openCursor ord).csr q = s.csr q := rfl
@[simp] theorem State.openCursor_csrNat (s : State) (ord : BitOrder) (q : Fin 34) :
    (s.openCursor ord).csrNat q = s.csrNat q := rfl
@[simp] theorem State.openCursor_base (s : State) (ord : BitOrder) (g : Region) :
    (s.openCursor ord).base g = s.base g := rfl
@[simp] theorem State.openCursor_len (s : State) (ord : BitOrder) (g : Region) :
    (s.openCursor ord).len g = s.len g := rfl
@[simp] theorem State.openCursor_litpol (s : State) (ord : BitOrder) : (s.openCursor ord).litpol = s.litpol := rfl
@[simp] theorem State.openCursor_twolvl (s : State) (ord : BitOrder) : (s.openCursor ord).twolvl = s.twolvl := rfl
@[simp] theorem State.openCursor_shortpol (s : State) (ord : BitOrder) :
    (s.openCursor ord).shortpol = s.shortpol := rfl
@[simp] theorem State.openCursor_under (s : State) (ord : BitOrder) : (s.openCursor ord).under = s.under := rfl
@[simp] theorem State.openCursor_tableMode (s : State) (ord : BitOrder) :
    (s.openCursor ord).tableMode = s.tableMode := rfl
@[simp] theorem State.openCursor_channels (s : State) (ord : BitOrder) :
    (s.openCursor ord).channels = s.channels := rfl
@[simp] theorem State.openCursor_vdelta (s : State) (ord : BitOrder) : (s.openCursor ord).vdelta = s.vdelta := rfl
@[simp] theorem State.openCursor_lane (s : State) (ord : BitOrder) (c : Nat) :
    (s.openCursor ord).lane c = s.lane c := rfl
@[simp] theorem State.openCursor_alphaLane (s : State) (ord : BitOrder) :
    (s.openCursor ord).alphaLane = s.alphaLane := rfl
@[simp] theorem State.openCursor_alphaBits (s : State) (ord : BitOrder) :
    (s.openCursor ord).alphaBits = s.alphaBits := rfl
@[simp] theorem State.openCursor_npix (s : State) (ord : BitOrder) : (s.openCursor ord).npix = s.npix := rfl
@[simp] theorem State.openCursor_byteAt (s : State) (ord : BitOrder) (a : Nat) :
    (s.openCursor ord).byteAt a = s.byteAt a := rfl
@[simp] theorem State.openCursor_regionByte (s : State) (ord : BitOrder) (g : Region) (k : Nat) :
    (s.openCursor ord).regionByte g k = s.regionByte g k := rfl
@[simp] theorem State.openCursor_bytesLeft (s : State) (ord : BitOrder) :
    (s.openCursor ord).bytesLeft = s.bytesLeft := rfl

@[simp] theorem State.setBits_csr (s : State) (buf : Byte) (cnt : BitVec 4) (q : Fin 34) :
    (s.setBits buf cnt).csr q = s.csr q := rfl
@[simp] theorem State.setBits_csrNat (s : State) (buf : Byte) (cnt : BitVec 4) (q : Fin 34) :
    (s.setBits buf cnt).csrNat q = s.csrNat q := rfl
@[simp] theorem State.setBits_base (s : State) (buf : Byte) (cnt : BitVec 4) (g : Region) :
    (s.setBits buf cnt).base g = s.base g := rfl
@[simp] theorem State.setBits_len (s : State) (buf : Byte) (cnt : BitVec 4) (g : Region) :
    (s.setBits buf cnt).len g = s.len g := rfl
@[simp] theorem State.setBits_litpol (s : State) (buf : Byte) (cnt : BitVec 4) :
    (s.setBits buf cnt).litpol = s.litpol := rfl
@[simp] theorem State.setBits_twolvl (s : State) (buf : Byte) (cnt : BitVec 4) :
    (s.setBits buf cnt).twolvl = s.twolvl := rfl
@[simp] theorem State.setBits_shortpol (s : State) (buf : Byte) (cnt : BitVec 4) :
    (s.setBits buf cnt).shortpol = s.shortpol := rfl
@[simp] theorem State.setBits_under (s : State) (buf : Byte) (cnt : BitVec 4) :
    (s.setBits buf cnt).under = s.under := rfl
@[simp] theorem State.setBits_tableMode (s : State) (buf : Byte) (cnt : BitVec 4) :
    (s.setBits buf cnt).tableMode = s.tableMode := rfl
@[simp] theorem State.setBits_channels (s : State) (buf : Byte) (cnt : BitVec 4) :
    (s.setBits buf cnt).channels = s.channels := rfl
@[simp] theorem State.setBits_vdelta (s : State) (buf : Byte) (cnt : BitVec 4) :
    (s.setBits buf cnt).vdelta = s.vdelta := rfl
@[simp] theorem State.setBits_lane (s : State) (buf : Byte) (cnt : BitVec 4) (c : Nat) :
    (s.setBits buf cnt).lane c = s.lane c := rfl
@[simp] theorem State.setBits_alphaLane (s : State) (buf : Byte) (cnt : BitVec 4) :
    (s.setBits buf cnt).alphaLane = s.alphaLane := rfl
@[simp] theorem State.setBits_alphaBits (s : State) (buf : Byte) (cnt : BitVec 4) :
    (s.setBits buf cnt).alphaBits = s.alphaBits := rfl
@[simp] theorem State.setBits_npix (s : State) (buf : Byte) (cnt : BitVec 4) :
    (s.setBits buf cnt).npix = s.npix := rfl
@[simp] theorem State.setBits_byteAt (s : State) (buf : Byte) (cnt : BitVec 4) (a : Nat) :
    (s.setBits buf cnt).byteAt a = s.byteAt a := rfl
@[simp] theorem State.setBits_regionByte (s : State) (buf : Byte) (cnt : BitVec 4) (g : Region) (k : Nat) :
    (s.setBits buf cnt).regionByte g k = s.regionByte g k := rfl
@[simp] theorem State.setBits_bytesLeft (s : State) (buf : Byte) (cnt : BitVec 4) :
    (s.setBits buf cnt).bytesLeft = s.bytesLeft := rfl
@[simp] theorem State.setBits_unloadedBits (s : State) (buf : Byte) (cnt : BitVec 4) :
    (s.setBits buf cnt).unloadedBits = s.unloadedBits := rfl

@[simp] theorem State.setResult_csr (s : State) (res : Word) (got : BitVec 6) (eoi cap : Bool) (q : Fin 34) :
    (s.setResult res got eoi cap).csr q = s.csr q := rfl
@[simp] theorem State.setResult_csrNat (s : State) (res : Word) (got : BitVec 6) (eoi cap : Bool) (q : Fin 34) :
    (s.setResult res got eoi cap).csrNat q = s.csrNat q := rfl
@[simp] theorem State.setResult_base (s : State) (res : Word) (got : BitVec 6) (eoi cap : Bool) (g : Region) :
    (s.setResult res got eoi cap).base g = s.base g := rfl
@[simp] theorem State.setResult_len (s : State) (res : Word) (got : BitVec 6) (eoi cap : Bool) (g : Region) :
    (s.setResult res got eoi cap).len g = s.len g := rfl
@[simp] theorem State.setResult_litpol (s : State) (res : Word) (got : BitVec 6) (eoi cap : Bool) :
    (s.setResult res got eoi cap).litpol = s.litpol := rfl
@[simp] theorem State.setResult_twolvl (s : State) (res : Word) (got : BitVec 6) (eoi cap : Bool) :
    (s.setResult res got eoi cap).twolvl = s.twolvl := rfl
@[simp] theorem State.setResult_shortpol (s : State) (res : Word) (got : BitVec 6) (eoi cap : Bool) :
    (s.setResult res got eoi cap).shortpol = s.shortpol := rfl
@[simp] theorem State.setResult_under (s : State) (res : Word) (got : BitVec 6) (eoi cap : Bool) :
    (s.setResult res got eoi cap).under = s.under := rfl
@[simp] theorem State.setResult_tableMode (s : State) (res : Word) (got : BitVec 6) (eoi cap : Bool) :
    (s.setResult res got eoi cap).tableMode = s.tableMode := rfl
@[simp] theorem State.setResult_channels (s : State) (res : Word) (got : BitVec 6) (eoi cap : Bool) :
    (s.setResult res got eoi cap).channels = s.channels := rfl
@[simp] theorem State.setResult_vdelta (s : State) (res : Word) (got : BitVec 6) (eoi cap : Bool) :
    (s.setResult res got eoi cap).vdelta = s.vdelta := rfl
@[simp] theorem State.setResult_lane (s : State) (res : Word) (got : BitVec 6) (eoi cap : Bool) (c : Nat) :
    (s.setResult res got eoi cap).lane c = s.lane c := rfl
@[simp] theorem State.setResult_alphaLane (s : State) (res : Word) (got : BitVec 6) (eoi cap : Bool) :
    (s.setResult res got eoi cap).alphaLane = s.alphaLane := rfl
@[simp] theorem State.setResult_alphaBits (s : State) (res : Word) (got : BitVec 6) (eoi cap : Bool) :
    (s.setResult res got eoi cap).alphaBits = s.alphaBits := rfl
@[simp] theorem State.setResult_npix (s : State) (res : Word) (got : BitVec 6) (eoi cap : Bool) :
    (s.setResult res got eoi cap).npix = s.npix := rfl
@[simp] theorem State.setResult_byteAt (s : State) (res : Word) (got : BitVec 6) (eoi cap : Bool) (a : Nat) :
    (s.setResult res got eoi cap).byteAt a = s.byteAt a := rfl
@[simp] theorem State.setResult_regionByte (s : State) (res : Word) (got : BitVec 6) (eoi cap : Bool) (g : Region) (k : Nat) :
    (s.setResult res got eoi cap).regionByte g k = s.regionByte g k := rfl
@[simp] theorem State.setResult_bytesLeft (s : State) (res : Word) (got : BitVec 6) (eoi cap : Bool) :
    (s.setResult res got eoi cap).bytesLeft = s.bytesLeft := rfl
@[simp] theorem State.setResult_bitsLeft (s : State) (res : Word) (got : BitVec 6) (eoi cap : Bool) :
    (s.setResult res got eoi cap).bitsLeft = s.bitsLeft := rfl
@[simp] theorem State.setResult_unloadedBits (s : State) (res : Word) (got : BitVec 6) (eoi cap : Bool) :
    (s.setResult res got eoi cap).unloadedBits = s.unloadedBits := rfl
@[simp] theorem State.setResult_pendingBits (s : State) (res : Word) (got : BitVec 6) (eoi cap : Bool) :
    (s.setResult res got eoi cap).pendingBits = s.pendingBits := rfl

@[simp] theorem State.setProduced_csr (s : State) (n : Nat) (q : Fin 34) : (s.setProduced n).csr q = s.csr q := rfl
@[simp] theorem State.setProduced_csrNat (s : State) (n : Nat) (q : Fin 34) :
    (s.setProduced n).csrNat q = s.csrNat q := rfl
@[simp] theorem State.setProduced_base (s : State) (n : Nat) (g : Region) : (s.setProduced n).base g = s.base g := rfl
@[simp] theorem State.setProduced_len (s : State) (n : Nat) (g : Region) : (s.setProduced n).len g = s.len g := rfl
@[simp] theorem State.setProduced_litpol (s : State) (n : Nat) : (s.setProduced n).litpol = s.litpol := rfl
@[simp] theorem State.setProduced_twolvl (s : State) (n : Nat) : (s.setProduced n).twolvl = s.twolvl := rfl
@[simp] theorem State.setProduced_shortpol (s : State) (n : Nat) : (s.setProduced n).shortpol = s.shortpol := rfl
@[simp] theorem State.setProduced_under (s : State) (n : Nat) : (s.setProduced n).under = s.under := rfl
@[simp] theorem State.setProduced_tableMode (s : State) (n : Nat) : (s.setProduced n).tableMode = s.tableMode := rfl
@[simp] theorem State.setProduced_channels (s : State) (n : Nat) : (s.setProduced n).channels = s.channels := rfl
@[simp] theorem State.setProduced_vdelta (s : State) (n : Nat) : (s.setProduced n).vdelta = s.vdelta := rfl
@[simp] theorem State.setProduced_lane (s : State) (n : Nat) (c : Nat) : (s.setProduced n).lane c = s.lane c := rfl
@[simp] theorem State.setProduced_alphaLane (s : State) (n : Nat) : (s.setProduced n).alphaLane = s.alphaLane := rfl
@[simp] theorem State.setProduced_alphaBits (s : State) (n : Nat) : (s.setProduced n).alphaBits = s.alphaBits := rfl
@[simp] theorem State.setProduced_npix (s : State) (n : Nat) : (s.setProduced n).npix = s.npix := rfl
@[simp] theorem State.setProduced_byteAt (s : State) (n : Nat) (a : Nat) :
    (s.setProduced n).byteAt a = s.byteAt a := rfl
@[simp] theorem State.setProduced_regionByte (s : State) (n : Nat) (g : Region) (k : Nat) :
    (s.setProduced n).regionByte g k = s.regionByte g k := rfl
@[simp] theorem State.setProduced_bytesLeft (s : State) (n : Nat) : (s.setProduced n).bytesLeft = s.bytesLeft := rfl
@[simp] theorem State.setProduced_bitsLeft (s : State) (n : Nat) : (s.setProduced n).bitsLeft = s.bitsLeft := rfl
@[simp] theorem State.setProduced_unloadedBits (s : State) (n : Nat) :
    (s.setProduced n).unloadedBits = s.unloadedBits := rfl
@[simp] theorem State.setProduced_pendingBits (s : State) (n : Nat) :
    (s.setProduced n).pendingBits = s.pendingBits := rfl

@[simp] theorem State.setWindow_csr (s : State) (w : Cells Byte) (n : Nat) (q : Fin 34) :
    (s.setWindow w n).csr q = s.csr q := rfl
@[simp] theorem State.setWindow_csrNat (s : State) (w : Cells Byte) (n : Nat) (q : Fin 34) :
    (s.setWindow w n).csrNat q = s.csrNat q := rfl
@[simp] theorem State.setWindow_base (s : State) (w : Cells Byte) (n : Nat) (g : Region) :
    (s.setWindow w n).base g = s.base g := rfl
@[simp] theorem State.setWindow_len (s : State) (w : Cells Byte) (n : Nat) (g : Region) :
    (s.setWindow w n).len g = s.len g := rfl
@[simp] theorem State.setWindow_litpol (s : State) (w : Cells Byte) (n : Nat) :
    (s.setWindow w n).litpol = s.litpol := rfl
@[simp] theorem State.setWindow_twolvl (s : State) (w : Cells Byte) (n : Nat) :
    (s.setWindow w n).twolvl = s.twolvl := rfl
@[simp] theorem State.setWindow_shortpol (s : State) (w : Cells Byte) (n : Nat) :
    (s.setWindow w n).shortpol = s.shortpol := rfl
@[simp] theorem State.setWindow_under (s : State) (w : Cells Byte) (n : Nat) :
    (s.setWindow w n).under = s.under := rfl
@[simp] theorem State.setWindow_tableMode (s : State) (w : Cells Byte) (n : Nat) :
    (s.setWindow w n).tableMode = s.tableMode := rfl
@[simp] theorem State.setWindow_channels (s : State) (w : Cells Byte) (n : Nat) :
    (s.setWindow w n).channels = s.channels := rfl
@[simp] theorem State.setWindow_vdelta (s : State) (w : Cells Byte) (n : Nat) :
    (s.setWindow w n).vdelta = s.vdelta := rfl
@[simp] theorem State.setWindow_lane (s : State) (w : Cells Byte) (n : Nat) (c : Nat) :
    (s.setWindow w n).lane c = s.lane c := rfl
@[simp] theorem State.setWindow_alphaLane (s : State) (w : Cells Byte) (n : Nat) :
    (s.setWindow w n).alphaLane = s.alphaLane := rfl
@[simp] theorem State.setWindow_alphaBits (s : State) (w : Cells Byte) (n : Nat) :
    (s.setWindow w n).alphaBits = s.alphaBits := rfl
@[simp] theorem State.setWindow_npix (s : State) (w : Cells Byte) (n : Nat) : (s.setWindow w n).npix = s.npix := rfl
@[simp] theorem State.setWindow_byteAt (s : State) (w : Cells Byte) (n : Nat) (a : Nat) :
    (s.setWindow w n).byteAt a = s.byteAt a := rfl
@[simp] theorem State.setWindow_regionByte (s : State) (w : Cells Byte) (n : Nat) (g : Region) (k : Nat) :
    (s.setWindow w n).regionByte g k = s.regionByte g k := rfl
@[simp] theorem State.setWindow_bytesLeft (s : State) (w : Cells Byte) (n : Nat) :
    (s.setWindow w n).bytesLeft = s.bytesLeft := rfl
@[simp] theorem State.setWindow_bitsLeft (s : State) (w : Cells Byte) (n : Nat) :
    (s.setWindow w n).bitsLeft = s.bitsLeft := rfl
@[simp] theorem State.setWindow_unloadedBits (s : State) (w : Cells Byte) (n : Nat) :
    (s.setWindow w n).unloadedBits = s.unloadedBits := rfl
@[simp] theorem State.setWindow_pendingBits (s : State) (w : Cells Byte) (n : Nat) :
    (s.setWindow w n).pendingBits = s.pendingBits := rfl

@[simp] theorem State.beginTree_csr (s : State) (md : TreeMode) (n tot : Nat) (q : Fin 34) :
    (s.beginTree md n tot).csr q = s.csr q := rfl
@[simp] theorem State.beginTree_csrNat (s : State) (md : TreeMode) (n tot : Nat) (q : Fin 34) :
    (s.beginTree md n tot).csrNat q = s.csrNat q := rfl
@[simp] theorem State.beginTree_base (s : State) (md : TreeMode) (n tot : Nat) (g : Region) :
    (s.beginTree md n tot).base g = s.base g := rfl
@[simp] theorem State.beginTree_len (s : State) (md : TreeMode) (n tot : Nat) (g : Region) :
    (s.beginTree md n tot).len g = s.len g := rfl
@[simp] theorem State.beginTree_litpol (s : State) (md : TreeMode) (n tot : Nat) :
    (s.beginTree md n tot).litpol = s.litpol := rfl
@[simp] theorem State.beginTree_twolvl (s : State) (md : TreeMode) (n tot : Nat) :
    (s.beginTree md n tot).twolvl = s.twolvl := rfl
@[simp] theorem State.beginTree_shortpol (s : State) (md : TreeMode) (n tot : Nat) :
    (s.beginTree md n tot).shortpol = s.shortpol := rfl
@[simp] theorem State.beginTree_under (s : State) (md : TreeMode) (n tot : Nat) :
    (s.beginTree md n tot).under = s.under := rfl
@[simp] theorem State.beginTree_tableMode (s : State) (md : TreeMode) (n tot : Nat) :
    (s.beginTree md n tot).tableMode = s.tableMode := rfl
@[simp] theorem State.beginTree_channels (s : State) (md : TreeMode) (n tot : Nat) :
    (s.beginTree md n tot).channels = s.channels := rfl
@[simp] theorem State.beginTree_vdelta (s : State) (md : TreeMode) (n tot : Nat) :
    (s.beginTree md n tot).vdelta = s.vdelta := rfl
@[simp] theorem State.beginTree_lane (s : State) (md : TreeMode) (n tot : Nat) (c : Nat) :
    (s.beginTree md n tot).lane c = s.lane c := rfl
@[simp] theorem State.beginTree_alphaLane (s : State) (md : TreeMode) (n tot : Nat) :
    (s.beginTree md n tot).alphaLane = s.alphaLane := rfl
@[simp] theorem State.beginTree_alphaBits (s : State) (md : TreeMode) (n tot : Nat) :
    (s.beginTree md n tot).alphaBits = s.alphaBits := rfl
@[simp] theorem State.beginTree_npix (s : State) (md : TreeMode) (n tot : Nat) :
    (s.beginTree md n tot).npix = s.npix := rfl
@[simp] theorem State.beginTree_byteAt (s : State) (md : TreeMode) (n tot : Nat) (a : Nat) :
    (s.beginTree md n tot).byteAt a = s.byteAt a := rfl
@[simp] theorem State.beginTree_regionByte (s : State) (md : TreeMode) (n tot : Nat) (g : Region) (k : Nat) :
    (s.beginTree md n tot).regionByte g k = s.regionByte g k := rfl
@[simp] theorem State.beginTree_bytesLeft (s : State) (md : TreeMode) (n tot : Nat) :
    (s.beginTree md n tot).bytesLeft = s.bytesLeft := rfl
@[simp] theorem State.beginTree_bitsLeft (s : State) (md : TreeMode) (n tot : Nat) :
    (s.beginTree md n tot).bitsLeft = s.bitsLeft := rfl
@[simp] theorem State.beginTree_unloadedBits (s : State) (md : TreeMode) (n tot : Nat) :
    (s.beginTree md n tot).unloadedBits = s.unloadedBits := rfl
@[simp] theorem State.beginTree_pendingBits (s : State) (md : TreeMode) (n tot : Nat) :
    (s.beginTree md n tot).pendingBits = s.pendingBits := rfl

@[simp] theorem State.setTree_csr (s : State) (root : Word) (next : Nat) (c0 c1 : Cells Node) (q : Fin 34) :
    (s.setTree root next c0 c1).csr q = s.csr q := rfl
@[simp] theorem State.setTree_csrNat (s : State) (root : Word) (next : Nat) (c0 c1 : Cells Node) (q : Fin 34) :
    (s.setTree root next c0 c1).csrNat q = s.csrNat q := rfl
@[simp] theorem State.setTree_base (s : State) (root : Word) (next : Nat) (c0 c1 : Cells Node) (g : Region) :
    (s.setTree root next c0 c1).base g = s.base g := rfl
@[simp] theorem State.setTree_len (s : State) (root : Word) (next : Nat) (c0 c1 : Cells Node) (g : Region) :
    (s.setTree root next c0 c1).len g = s.len g := rfl
@[simp] theorem State.setTree_litpol (s : State) (root : Word) (next : Nat) (c0 c1 : Cells Node) :
    (s.setTree root next c0 c1).litpol = s.litpol := rfl
@[simp] theorem State.setTree_twolvl (s : State) (root : Word) (next : Nat) (c0 c1 : Cells Node) :
    (s.setTree root next c0 c1).twolvl = s.twolvl := rfl
@[simp] theorem State.setTree_shortpol (s : State) (root : Word) (next : Nat) (c0 c1 : Cells Node) :
    (s.setTree root next c0 c1).shortpol = s.shortpol := rfl
@[simp] theorem State.setTree_under (s : State) (root : Word) (next : Nat) (c0 c1 : Cells Node) :
    (s.setTree root next c0 c1).under = s.under := rfl
@[simp] theorem State.setTree_tableMode (s : State) (root : Word) (next : Nat) (c0 c1 : Cells Node) :
    (s.setTree root next c0 c1).tableMode = s.tableMode := rfl
@[simp] theorem State.setTree_channels (s : State) (root : Word) (next : Nat) (c0 c1 : Cells Node) :
    (s.setTree root next c0 c1).channels = s.channels := rfl
@[simp] theorem State.setTree_vdelta (s : State) (root : Word) (next : Nat) (c0 c1 : Cells Node) :
    (s.setTree root next c0 c1).vdelta = s.vdelta := rfl
@[simp] theorem State.setTree_lane (s : State) (root : Word) (next : Nat) (c0 c1 : Cells Node) (c : Nat) :
    (s.setTree root next c0 c1).lane c = s.lane c := rfl
@[simp] theorem State.setTree_alphaLane (s : State) (root : Word) (next : Nat) (c0 c1 : Cells Node) :
    (s.setTree root next c0 c1).alphaLane = s.alphaLane := rfl
@[simp] theorem State.setTree_alphaBits (s : State) (root : Word) (next : Nat) (c0 c1 : Cells Node) :
    (s.setTree root next c0 c1).alphaBits = s.alphaBits := rfl
@[simp] theorem State.setTree_npix (s : State) (root : Word) (next : Nat) (c0 c1 : Cells Node) :
    (s.setTree root next c0 c1).npix = s.npix := rfl
@[simp] theorem State.setTree_byteAt (s : State) (root : Word) (next : Nat) (c0 c1 : Cells Node) (a : Nat) :
    (s.setTree root next c0 c1).byteAt a = s.byteAt a := rfl
@[simp] theorem State.setTree_regionByte (s : State) (root : Word) (next : Nat) (c0 c1 : Cells Node) (g : Region) (k : Nat) :
    (s.setTree root next c0 c1).regionByte g k = s.regionByte g k := rfl
@[simp] theorem State.setTree_bytesLeft (s : State) (root : Word) (next : Nat) (c0 c1 : Cells Node) :
    (s.setTree root next c0 c1).bytesLeft = s.bytesLeft := rfl
@[simp] theorem State.setTree_bitsLeft (s : State) (root : Word) (next : Nat) (c0 c1 : Cells Node) :
    (s.setTree root next c0 c1).bitsLeft = s.bitsLeft := rfl
@[simp] theorem State.setTree_unloadedBits (s : State) (root : Word) (next : Nat) (c0 c1 : Cells Node) :
    (s.setTree root next c0 c1).unloadedBits = s.unloadedBits := rfl
@[simp] theorem State.setTree_pendingBits (s : State) (root : Word) (next : Nat) (c0 c1 : Cells Node) :
    (s.setTree root next c0 c1).pendingBits = s.pendingBits := rfl

@[simp] theorem State.consumeTree_csr (s : State) (q : Fin 34) : (s.consumeTree).csr q = s.csr q := rfl
@[simp] theorem State.consumeTree_csrNat (s : State) (q : Fin 34) : (s.consumeTree).csrNat q = s.csrNat q := rfl
@[simp] theorem State.consumeTree_base (s : State) (g : Region) : (s.consumeTree).base g = s.base g := rfl
@[simp] theorem State.consumeTree_len (s : State) (g : Region) : (s.consumeTree).len g = s.len g := rfl
@[simp] theorem State.consumeTree_litpol (s : State) : (s.consumeTree).litpol = s.litpol := rfl
@[simp] theorem State.consumeTree_twolvl (s : State) : (s.consumeTree).twolvl = s.twolvl := rfl
@[simp] theorem State.consumeTree_shortpol (s : State) : (s.consumeTree).shortpol = s.shortpol := rfl
@[simp] theorem State.consumeTree_under (s : State) : (s.consumeTree).under = s.under := rfl
@[simp] theorem State.consumeTree_tableMode (s : State) : (s.consumeTree).tableMode = s.tableMode := rfl
@[simp] theorem State.consumeTree_channels (s : State) : (s.consumeTree).channels = s.channels := rfl
@[simp] theorem State.consumeTree_vdelta (s : State) : (s.consumeTree).vdelta = s.vdelta := rfl
@[simp] theorem State.consumeTree_lane (s : State) (c : Nat) : (s.consumeTree).lane c = s.lane c := rfl
@[simp] theorem State.consumeTree_alphaLane (s : State) : (s.consumeTree).alphaLane = s.alphaLane := rfl
@[simp] theorem State.consumeTree_alphaBits (s : State) : (s.consumeTree).alphaBits = s.alphaBits := rfl
@[simp] theorem State.consumeTree_npix (s : State) : (s.consumeTree).npix = s.npix := rfl
@[simp] theorem State.consumeTree_byteAt (s : State) (a : Nat) : (s.consumeTree).byteAt a = s.byteAt a := rfl
@[simp] theorem State.consumeTree_regionByte (s : State) (g : Region) (k : Nat) :
    (s.consumeTree).regionByte g k = s.regionByte g k := rfl
@[simp] theorem State.consumeTree_bytesLeft (s : State) : (s.consumeTree).bytesLeft = s.bytesLeft := rfl
@[simp] theorem State.consumeTree_bitsLeft (s : State) : (s.consumeTree).bitsLeft = s.bitsLeft := rfl
@[simp] theorem State.consumeTree_unloadedBits (s : State) : (s.consumeTree).unloadedBits = s.unloadedBits := rfl
@[simp] theorem State.consumeTree_pendingBits (s : State) : (s.consumeTree).pendingBits = s.pendingBits := rfl

@[simp] theorem State.setCipher_csr (s : State) (ks : Word) (n : Nat) (q : Fin 34) :
    (s.setCipher ks n).csr q = s.csr q := rfl
@[simp] theorem State.setCipher_csrNat (s : State) (ks : Word) (n : Nat) (q : Fin 34) :
    (s.setCipher ks n).csrNat q = s.csrNat q := rfl
@[simp] theorem State.setCipher_base (s : State) (ks : Word) (n : Nat) (g : Region) :
    (s.setCipher ks n).base g = s.base g := rfl
@[simp] theorem State.setCipher_len (s : State) (ks : Word) (n : Nat) (g : Region) :
    (s.setCipher ks n).len g = s.len g := rfl
@[simp] theorem State.setCipher_litpol (s : State) (ks : Word) (n : Nat) : (s.setCipher ks n).litpol = s.litpol := rfl
@[simp] theorem State.setCipher_twolvl (s : State) (ks : Word) (n : Nat) : (s.setCipher ks n).twolvl = s.twolvl := rfl
@[simp] theorem State.setCipher_shortpol (s : State) (ks : Word) (n : Nat) :
    (s.setCipher ks n).shortpol = s.shortpol := rfl
@[simp] theorem State.setCipher_under (s : State) (ks : Word) (n : Nat) : (s.setCipher ks n).under = s.under := rfl
@[simp] theorem State.setCipher_tableMode (s : State) (ks : Word) (n : Nat) :
    (s.setCipher ks n).tableMode = s.tableMode := rfl
@[simp] theorem State.setCipher_channels (s : State) (ks : Word) (n : Nat) :
    (s.setCipher ks n).channels = s.channels := rfl
@[simp] theorem State.setCipher_vdelta (s : State) (ks : Word) (n : Nat) : (s.setCipher ks n).vdelta = s.vdelta := rfl
@[simp] theorem State.setCipher_lane (s : State) (ks : Word) (n : Nat) (c : Nat) :
    (s.setCipher ks n).lane c = s.lane c := rfl
@[simp] theorem State.setCipher_alphaLane (s : State) (ks : Word) (n : Nat) :
    (s.setCipher ks n).alphaLane = s.alphaLane := rfl
@[simp] theorem State.setCipher_alphaBits (s : State) (ks : Word) (n : Nat) :
    (s.setCipher ks n).alphaBits = s.alphaBits := rfl
@[simp] theorem State.setCipher_npix (s : State) (ks : Word) (n : Nat) : (s.setCipher ks n).npix = s.npix := rfl
@[simp] theorem State.setCipher_byteAt (s : State) (ks : Word) (n : Nat) (a : Nat) :
    (s.setCipher ks n).byteAt a = s.byteAt a := rfl
@[simp] theorem State.setCipher_regionByte (s : State) (ks : Word) (n : Nat) (g : Region) (k : Nat) :
    (s.setCipher ks n).regionByte g k = s.regionByte g k := rfl
@[simp] theorem State.setCipher_bytesLeft (s : State) (ks : Word) (n : Nat) :
    (s.setCipher ks n).bytesLeft = s.bytesLeft := rfl
@[simp] theorem State.setCipher_bitsLeft (s : State) (ks : Word) (n : Nat) :
    (s.setCipher ks n).bitsLeft = s.bitsLeft := rfl
@[simp] theorem State.setCipher_unloadedBits (s : State) (ks : Word) (n : Nat) :
    (s.setCipher ks n).unloadedBits = s.unloadedBits := rfl
@[simp] theorem State.setCipher_pendingBits (s : State) (ks : Word) (n : Nat) :
    (s.setCipher ks n).pendingBits = s.pendingBits := rfl

@[simp] theorem State.setCmd_csr (s : State) (c : Cells Word) (q : Fin 34) : (s.setCmd c).csr q = s.csr q := rfl
@[simp] theorem State.setCmd_csrNat (s : State) (c : Cells Word) (q : Fin 34) :
    (s.setCmd c).csrNat q = s.csrNat q := rfl
@[simp] theorem State.setCmd_base (s : State) (c : Cells Word) (g : Region) : (s.setCmd c).base g = s.base g := rfl
@[simp] theorem State.setCmd_len (s : State) (c : Cells Word) (g : Region) : (s.setCmd c).len g = s.len g := rfl
@[simp] theorem State.setCmd_litpol (s : State) (c : Cells Word) : (s.setCmd c).litpol = s.litpol := rfl
@[simp] theorem State.setCmd_twolvl (s : State) (c : Cells Word) : (s.setCmd c).twolvl = s.twolvl := rfl
@[simp] theorem State.setCmd_shortpol (s : State) (c : Cells Word) : (s.setCmd c).shortpol = s.shortpol := rfl
@[simp] theorem State.setCmd_under (s : State) (c : Cells Word) : (s.setCmd c).under = s.under := rfl
@[simp] theorem State.setCmd_tableMode (s : State) (c : Cells Word) : (s.setCmd c).tableMode = s.tableMode := rfl
@[simp] theorem State.setCmd_channels (s : State) (c : Cells Word) : (s.setCmd c).channels = s.channels := rfl
@[simp] theorem State.setCmd_vdelta (s : State) (c : Cells Word) : (s.setCmd c).vdelta = s.vdelta := rfl
@[simp] theorem State.setCmd_lane (s : State) (c : Cells Word) (ch : Nat) : (s.setCmd c).lane ch = s.lane ch := rfl
@[simp] theorem State.setCmd_alphaLane (s : State) (c : Cells Word) : (s.setCmd c).alphaLane = s.alphaLane := rfl
@[simp] theorem State.setCmd_alphaBits (s : State) (c : Cells Word) : (s.setCmd c).alphaBits = s.alphaBits := rfl
@[simp] theorem State.setCmd_npix (s : State) (c : Cells Word) : (s.setCmd c).npix = s.npix := rfl
@[simp] theorem State.setCmd_byteAt (s : State) (c : Cells Word) (a : Nat) : (s.setCmd c).byteAt a = s.byteAt a := rfl
@[simp] theorem State.setCmd_regionByte (s : State) (c : Cells Word) (g : Region) (k : Nat) :
    (s.setCmd c).regionByte g k = s.regionByte g k := rfl
@[simp] theorem State.setCmd_bytesLeft (s : State) (c : Cells Word) : (s.setCmd c).bytesLeft = s.bytesLeft := rfl
@[simp] theorem State.setCmd_bitsLeft (s : State) (c : Cells Word) : (s.setCmd c).bitsLeft = s.bitsLeft := rfl
@[simp] theorem State.setCmd_unloadedBits (s : State) (c : Cells Word) :
    (s.setCmd c).unloadedBits = s.unloadedBits := rfl
@[simp] theorem State.setCmd_pendingBits (s : State) (c : Cells Word) :
    (s.setCmd c).pendingBits = s.pendingBits := rfl

@[simp] theorem State.endComplete_csr (s : State) (q : Fin 34) : (s.endComplete).csr q = s.csr q := rfl
@[simp] theorem State.endComplete_csrNat (s : State) (q : Fin 34) : (s.endComplete).csrNat q = s.csrNat q := rfl
@[simp] theorem State.endComplete_base (s : State) (g : Region) : (s.endComplete).base g = s.base g := rfl
@[simp] theorem State.endComplete_len (s : State) (g : Region) : (s.endComplete).len g = s.len g := rfl
@[simp] theorem State.endComplete_litpol (s : State) : (s.endComplete).litpol = s.litpol := rfl
@[simp] theorem State.endComplete_twolvl (s : State) : (s.endComplete).twolvl = s.twolvl := rfl
@[simp] theorem State.endComplete_shortpol (s : State) : (s.endComplete).shortpol = s.shortpol := rfl
@[simp] theorem State.endComplete_under (s : State) : (s.endComplete).under = s.under := rfl
@[simp] theorem State.endComplete_tableMode (s : State) : (s.endComplete).tableMode = s.tableMode := rfl
@[simp] theorem State.endComplete_channels (s : State) : (s.endComplete).channels = s.channels := rfl
@[simp] theorem State.endComplete_vdelta (s : State) : (s.endComplete).vdelta = s.vdelta := rfl
@[simp] theorem State.endComplete_lane (s : State) (c : Nat) : (s.endComplete).lane c = s.lane c := rfl
@[simp] theorem State.endComplete_alphaLane (s : State) : (s.endComplete).alphaLane = s.alphaLane := rfl
@[simp] theorem State.endComplete_alphaBits (s : State) : (s.endComplete).alphaBits = s.alphaBits := rfl
@[simp] theorem State.endComplete_npix (s : State) : (s.endComplete).npix = s.npix := rfl
@[simp] theorem State.endComplete_byteAt (s : State) (a : Nat) : (s.endComplete).byteAt a = s.byteAt a := rfl
@[simp] theorem State.endComplete_regionByte (s : State) (g : Region) (k : Nat) :
    (s.endComplete).regionByte g k = s.regionByte g k := rfl
@[simp] theorem State.endComplete_bytesLeft (s : State) : (s.endComplete).bytesLeft = s.bytesLeft := rfl
@[simp] theorem State.endComplete_bitsLeft (s : State) : (s.endComplete).bitsLeft = s.bitsLeft := rfl
@[simp] theorem State.endComplete_unloadedBits (s : State) : (s.endComplete).unloadedBits = s.unloadedBits := rfl
@[simp] theorem State.endComplete_pendingBits (s : State) : (s.endComplete).pendingBits = s.pendingBits := rfl

@[simp] theorem State.endTruncated_csr (s : State) (c : Cause) (info : Word) (q : Fin 34) :
    (s.endTruncated c info).csr q = s.csr q := rfl
@[simp] theorem State.endTruncated_csrNat (s : State) (c : Cause) (info : Word) (q : Fin 34) :
    (s.endTruncated c info).csrNat q = s.csrNat q := rfl
@[simp] theorem State.endTruncated_base (s : State) (c : Cause) (info : Word) (g : Region) :
    (s.endTruncated c info).base g = s.base g := rfl
@[simp] theorem State.endTruncated_len (s : State) (c : Cause) (info : Word) (g : Region) :
    (s.endTruncated c info).len g = s.len g := rfl
@[simp] theorem State.endTruncated_litpol (s : State) (c : Cause) (info : Word) :
    (s.endTruncated c info).litpol = s.litpol := rfl
@[simp] theorem State.endTruncated_twolvl (s : State) (c : Cause) (info : Word) :
    (s.endTruncated c info).twolvl = s.twolvl := rfl
@[simp] theorem State.endTruncated_shortpol (s : State) (c : Cause) (info : Word) :
    (s.endTruncated c info).shortpol = s.shortpol := rfl
@[simp] theorem State.endTruncated_under (s : State) (c : Cause) (info : Word) :
    (s.endTruncated c info).under = s.under := rfl
@[simp] theorem State.endTruncated_tableMode (s : State) (c : Cause) (info : Word) :
    (s.endTruncated c info).tableMode = s.tableMode := rfl
@[simp] theorem State.endTruncated_channels (s : State) (c : Cause) (info : Word) :
    (s.endTruncated c info).channels = s.channels := rfl
@[simp] theorem State.endTruncated_vdelta (s : State) (c : Cause) (info : Word) :
    (s.endTruncated c info).vdelta = s.vdelta := rfl
@[simp] theorem State.endTruncated_lane (s : State) (c : Cause) (info : Word) (ch : Nat) :
    (s.endTruncated c info).lane ch = s.lane ch := rfl
@[simp] theorem State.endTruncated_alphaLane (s : State) (c : Cause) (info : Word) :
    (s.endTruncated c info).alphaLane = s.alphaLane := rfl
@[simp] theorem State.endTruncated_alphaBits (s : State) (c : Cause) (info : Word) :
    (s.endTruncated c info).alphaBits = s.alphaBits := rfl
@[simp] theorem State.endTruncated_npix (s : State) (c : Cause) (info : Word) :
    (s.endTruncated c info).npix = s.npix := rfl
@[simp] theorem State.endTruncated_byteAt (s : State) (c : Cause) (info : Word) (a : Nat) :
    (s.endTruncated c info).byteAt a = s.byteAt a := rfl
@[simp] theorem State.endTruncated_regionByte (s : State) (c : Cause) (info : Word) (g : Region) (k : Nat) :
    (s.endTruncated c info).regionByte g k = s.regionByte g k := rfl
@[simp] theorem State.endTruncated_bytesLeft (s : State) (c : Cause) (info : Word) :
    (s.endTruncated c info).bytesLeft = s.bytesLeft := rfl
@[simp] theorem State.endTruncated_bitsLeft (s : State) (c : Cause) (info : Word) :
    (s.endTruncated c info).bitsLeft = s.bitsLeft := rfl
@[simp] theorem State.endTruncated_unloadedBits (s : State) (c : Cause) (info : Word) :
    (s.endTruncated c info).unloadedBits = s.unloadedBits := rfl
@[simp] theorem State.endTruncated_pendingBits (s : State) (c : Cause) (info : Word) :
    (s.endTruncated c info).pendingBits = s.pendingBits := rfl

@[simp] theorem State.takeCorrupt_csr (s : State) (c : Cause) (info : Word) (q : Fin 34) :
    (s.takeCorrupt c info).csr q = s.csr q := rfl
@[simp] theorem State.takeCorrupt_csrNat (s : State) (c : Cause) (info : Word) (q : Fin 34) :
    (s.takeCorrupt c info).csrNat q = s.csrNat q := rfl
@[simp] theorem State.takeCorrupt_base (s : State) (c : Cause) (info : Word) (g : Region) :
    (s.takeCorrupt c info).base g = s.base g := rfl
@[simp] theorem State.takeCorrupt_len (s : State) (c : Cause) (info : Word) (g : Region) :
    (s.takeCorrupt c info).len g = s.len g := rfl
@[simp] theorem State.takeCorrupt_litpol (s : State) (c : Cause) (info : Word) :
    (s.takeCorrupt c info).litpol = s.litpol := rfl
@[simp] theorem State.takeCorrupt_twolvl (s : State) (c : Cause) (info : Word) :
    (s.takeCorrupt c info).twolvl = s.twolvl := rfl
@[simp] theorem State.takeCorrupt_shortpol (s : State) (c : Cause) (info : Word) :
    (s.takeCorrupt c info).shortpol = s.shortpol := rfl
@[simp] theorem State.takeCorrupt_under (s : State) (c : Cause) (info : Word) :
    (s.takeCorrupt c info).under = s.under := rfl
@[simp] theorem State.takeCorrupt_tableMode (s : State) (c : Cause) (info : Word) :
    (s.takeCorrupt c info).tableMode = s.tableMode := rfl
@[simp] theorem State.takeCorrupt_channels (s : State) (c : Cause) (info : Word) :
    (s.takeCorrupt c info).channels = s.channels := rfl
@[simp] theorem State.takeCorrupt_vdelta (s : State) (c : Cause) (info : Word) :
    (s.takeCorrupt c info).vdelta = s.vdelta := rfl
@[simp] theorem State.takeCorrupt_lane (s : State) (c : Cause) (info : Word) (ch : Nat) :
    (s.takeCorrupt c info).lane ch = s.lane ch := rfl
@[simp] theorem State.takeCorrupt_alphaLane (s : State) (c : Cause) (info : Word) :
    (s.takeCorrupt c info).alphaLane = s.alphaLane := rfl
@[simp] theorem State.takeCorrupt_alphaBits (s : State) (c : Cause) (info : Word) :
    (s.takeCorrupt c info).alphaBits = s.alphaBits := rfl
@[simp] theorem State.takeCorrupt_npix (s : State) (c : Cause) (info : Word) :
    (s.takeCorrupt c info).npix = s.npix := rfl
@[simp] theorem State.takeCorrupt_byteAt (s : State) (c : Cause) (info : Word) (a : Nat) :
    (s.takeCorrupt c info).byteAt a = s.byteAt a := rfl
@[simp] theorem State.takeCorrupt_regionByte (s : State) (c : Cause) (info : Word) (g : Region) (k : Nat) :
    (s.takeCorrupt c info).regionByte g k = s.regionByte g k := rfl
@[simp] theorem State.takeCorrupt_bytesLeft (s : State) (c : Cause) (info : Word) :
    (s.takeCorrupt c info).bytesLeft = s.bytesLeft := rfl
@[simp] theorem State.takeCorrupt_bitsLeft (s : State) (c : Cause) (info : Word) :
    (s.takeCorrupt c info).bitsLeft = s.bitsLeft := rfl
@[simp] theorem State.takeCorrupt_unloadedBits (s : State) (c : Cause) (info : Word) :
    (s.takeCorrupt c info).unloadedBits = s.unloadedBits := rfl
@[simp] theorem State.takeCorrupt_pendingBits (s : State) (c : Cause) (info : Word) :
    (s.takeCorrupt c info).pendingBits = s.pendingBits := rfl

@[simp] theorem State.endHalt_csr (s : State) (q : Fin 34) : (s.endHalt).csr q = s.csr q := rfl
@[simp] theorem State.endHalt_csrNat (s : State) (q : Fin 34) : (s.endHalt).csrNat q = s.csrNat q := rfl
@[simp] theorem State.endHalt_base (s : State) (g : Region) : (s.endHalt).base g = s.base g := rfl
@[simp] theorem State.endHalt_len (s : State) (g : Region) : (s.endHalt).len g = s.len g := rfl
@[simp] theorem State.endHalt_litpol (s : State) : (s.endHalt).litpol = s.litpol := rfl
@[simp] theorem State.endHalt_twolvl (s : State) : (s.endHalt).twolvl = s.twolvl := rfl
@[simp] theorem State.endHalt_shortpol (s : State) : (s.endHalt).shortpol = s.shortpol := rfl
@[simp] theorem State.endHalt_under (s : State) : (s.endHalt).under = s.under := rfl
@[simp] theorem State.endHalt_tableMode (s : State) : (s.endHalt).tableMode = s.tableMode := rfl
@[simp] theorem State.endHalt_channels (s : State) : (s.endHalt).channels = s.channels := rfl
@[simp] theorem State.endHalt_vdelta (s : State) : (s.endHalt).vdelta = s.vdelta := rfl
@[simp] theorem State.endHalt_lane (s : State) (c : Nat) : (s.endHalt).lane c = s.lane c := rfl
@[simp] theorem State.endHalt_alphaLane (s : State) : (s.endHalt).alphaLane = s.alphaLane := rfl
@[simp] theorem State.endHalt_alphaBits (s : State) : (s.endHalt).alphaBits = s.alphaBits := rfl
@[simp] theorem State.endHalt_npix (s : State) : (s.endHalt).npix = s.npix := rfl
@[simp] theorem State.endHalt_byteAt (s : State) (a : Nat) : (s.endHalt).byteAt a = s.byteAt a := rfl
@[simp] theorem State.endHalt_regionByte (s : State) (g : Region) (k : Nat) :
    (s.endHalt).regionByte g k = s.regionByte g k := rfl
@[simp] theorem State.endHalt_bytesLeft (s : State) : (s.endHalt).bytesLeft = s.bytesLeft := rfl
@[simp] theorem State.endHalt_bitsLeft (s : State) : (s.endHalt).bitsLeft = s.bitsLeft := rfl
@[simp] theorem State.endHalt_unloadedBits (s : State) : (s.endHalt).unloadedBits = s.unloadedBits := rfl
@[simp] theorem State.endHalt_pendingBits (s : State) : (s.endHalt).pendingBits = s.pendingBits := rfl

@[simp] theorem State.start_csr (s : State) (q : Fin 34) : (s.start).csr q = s.csr q := rfl
@[simp] theorem State.start_csrNat (s : State) (q : Fin 34) : (s.start).csrNat q = s.csrNat q := rfl
@[simp] theorem State.start_base (s : State) (g : Region) : (s.start).base g = s.base g := rfl
@[simp] theorem State.start_len (s : State) (g : Region) : (s.start).len g = s.len g := rfl
@[simp] theorem State.start_litpol (s : State) : (s.start).litpol = s.litpol := rfl
@[simp] theorem State.start_twolvl (s : State) : (s.start).twolvl = s.twolvl := rfl
@[simp] theorem State.start_shortpol (s : State) : (s.start).shortpol = s.shortpol := rfl
@[simp] theorem State.start_under (s : State) : (s.start).under = s.under := rfl
@[simp] theorem State.start_tableMode (s : State) : (s.start).tableMode = s.tableMode := rfl
@[simp] theorem State.start_channels (s : State) : (s.start).channels = s.channels := rfl
@[simp] theorem State.start_vdelta (s : State) : (s.start).vdelta = s.vdelta := rfl
@[simp] theorem State.start_lane (s : State) (c : Nat) : (s.start).lane c = s.lane c := rfl
@[simp] theorem State.start_alphaLane (s : State) : (s.start).alphaLane = s.alphaLane := rfl
@[simp] theorem State.start_alphaBits (s : State) : (s.start).alphaBits = s.alphaBits := rfl
@[simp] theorem State.start_npix (s : State) : (s.start).npix = s.npix := rfl
@[simp] theorem State.start_byteAt (s : State) (a : Nat) : (s.start).byteAt a = s.byteAt a := rfl
@[simp] theorem State.start_regionByte (s : State) (g : Region) (k : Nat) :
    (s.start).regionByte g k = s.regionByte g k := rfl
@[simp] theorem State.start_bytesLeft (s : State) : (s.start).bytesLeft = s.bytesLeft := rfl

/-! What no outcome touches (R131). -/

@[simp] theorem applyEnding_cfg (r : Ending) (s : State) : (applyEnding r s).cfg = s.cfg := by cases r <;> rfl
@[simp] theorem applyEnding_produced (r : Ending) (s : State) : (applyEnding r s).produced = s.produced := by cases r <;> rfl
@[simp] theorem applyEnding_res (r : Ending) (s : State) : (applyEnding r s).res = s.res := by cases r <;> rfl
@[simp] theorem applyEnding_got (r : Ending) (s : State) : (applyEnding r s).got = s.got := by cases r <;> rfl
@[simp] theorem applyEnding_eoi (r : Ending) (s : State) : (applyEnding r s).eoi = s.eoi := by cases r <;> rfl
@[simp] theorem applyEnding_cap (r : Ending) (s : State) : (applyEnding r s).cap = s.cap := by cases r <;> rfl
@[simp] theorem applyEnding_bbuf (r : Ending) (s : State) : (applyEnding r s).bbuf = s.bbuf := by cases r <;> rfl
@[simp] theorem applyEnding_bcnt (r : Ending) (s : State) : (applyEnding r s).bcnt = s.bcnt := by cases r <;> rfl
@[simp] theorem applyEnding_bord (r : Ending) (s : State) : (applyEnding r s).bord = s.bord := by cases r <;> rfl
@[simp] theorem applyEnding_bopen (r : Ending) (s : State) : (applyEnding r s).bopen = s.bopen := by cases r <;> rfl
@[simp] theorem applyEnding_wcur (r : Ending) (s : State) : (applyEnding r s).wcur = s.wcur := by cases r <;> rfl
@[simp] theorem applyEnding_hroot (r : Ending) (s : State) : (applyEnding r s).hroot = s.hroot := by cases r <;> rfl
@[simp] theorem applyEnding_hnext (r : Ending) (s : State) : (applyEnding r s).hnext = s.hnext := by cases r <;> rfl
@[simp] theorem applyEnding_hvalid (r : Ending) (s : State) : (applyEnding r s).hvalid = s.hvalid := by cases r <;> rfl
@[simp] theorem applyEnding_hmode (r : Ending) (s : State) : (applyEnding r s).hmode = s.hmode := by cases r <;> rfl
@[simp] theorem applyEnding_htovf (r : Ending) (s : State) : (applyEnding r s).htovf = s.htovf := by cases r <;> rfl
@[simp] theorem applyEnding_htot (r : Ending) (s : State) : (applyEnding r s).htot = s.htot := by cases r <;> rfl
@[simp] theorem applyEnding_hnsym (r : Ending) (s : State) : (applyEnding r s).hnsym = s.hnsym := by cases r <;> rfl
@[simp] theorem applyEnding_hc0 (r : Ending) (s : State) : (applyEnding r s).hc0 = s.hc0 := by cases r <;> rfl
@[simp] theorem applyEnding_hc1 (r : Ending) (s : State) : (applyEnding r s).hc1 = s.hc1 := by cases r <;> rfl
@[simp] theorem applyEnding_win (r : Ending) (s : State) : (applyEnding r s).win = s.win := by cases r <;> rfl
@[simp] theorem applyEnding_kstate (r : Ending) (s : State) : (applyEnding r s).kstate = s.kstate := by cases r <;> rfl
@[simp] theorem applyEnding_kpos (r : Ending) (s : State) : (applyEnding r s).kpos = s.kpos := by cases r <;> rfl
@[simp] theorem applyEnding_mem (r : Ending) (s : State) : (applyEnding r s).mem = s.mem := by cases r <;> rfl
@[simp] theorem applyEnding_cmd (r : Ending) (s : State) : (applyEnding r s).cmd = s.cmd := by cases r <;> rfl
@[simp] theorem applyEnding_memSize (r : Ending) (s : State) : (applyEnding r s).memSize = s.memSize := by cases r <;> rfl
@[simp] theorem applyEnding_cmdLen (r : Ending) (s : State) : (applyEnding r s).cmdLen = s.cmdLen := by cases r <;> rfl
@[simp] theorem applyEnding_csr (r : Ending) (s : State) (q : Fin 34) :
    (applyEnding r s).csr q = s.csr q := by cases r <;> rfl
@[simp] theorem applyEnding_csrNat (r : Ending) (s : State) (q : Fin 34) :
    (applyEnding r s).csrNat q = s.csrNat q := by cases r <;> rfl
@[simp] theorem applyEnding_base (r : Ending) (s : State) (g : Region) :
    (applyEnding r s).base g = s.base g := by cases r <;> rfl
@[simp] theorem applyEnding_len (r : Ending) (s : State) (g : Region) :
    (applyEnding r s).len g = s.len g := by cases r <;> rfl
@[simp] theorem applyEnding_litpol (r : Ending) (s : State) :
    (applyEnding r s).litpol = s.litpol := by cases r <;> rfl
@[simp] theorem applyEnding_twolvl (r : Ending) (s : State) :
    (applyEnding r s).twolvl = s.twolvl := by cases r <;> rfl
@[simp] theorem applyEnding_shortpol (r : Ending) (s : State) :
    (applyEnding r s).shortpol = s.shortpol := by cases r <;> rfl
@[simp] theorem applyEnding_under (r : Ending) (s : State) :
    (applyEnding r s).under = s.under := by cases r <;> rfl
@[simp] theorem applyEnding_tableMode (r : Ending) (s : State) :
    (applyEnding r s).tableMode = s.tableMode := by cases r <;> rfl
@[simp] theorem applyEnding_channels (r : Ending) (s : State) :
    (applyEnding r s).channels = s.channels := by cases r <;> rfl
@[simp] theorem applyEnding_vdelta (r : Ending) (s : State) :
    (applyEnding r s).vdelta = s.vdelta := by cases r <;> rfl
@[simp] theorem applyEnding_lane (r : Ending) (s : State) (c : Nat) :
    (applyEnding r s).lane c = s.lane c := by cases r <;> rfl
@[simp] theorem applyEnding_alphaLane (r : Ending) (s : State) :
    (applyEnding r s).alphaLane = s.alphaLane := by cases r <;> rfl
@[simp] theorem applyEnding_alphaBits (r : Ending) (s : State) :
    (applyEnding r s).alphaBits = s.alphaBits := by cases r <;> rfl
@[simp] theorem applyEnding_npix (r : Ending) (s : State) :
    (applyEnding r s).npix = s.npix := by cases r <;> rfl
@[simp] theorem applyEnding_byteAt (r : Ending) (s : State) (a : Nat) :
    (applyEnding r s).byteAt a = s.byteAt a := by cases r <;> rfl
@[simp] theorem applyEnding_regionByte (r : Ending) (s : State) (g : Region) (k : Nat) :
    (applyEnding r s).regionByte g k = s.regionByte g k := by cases r <;> rfl
@[simp] theorem applyEnding_bytesLeft (r : Ending) (s : State) :
    (applyEnding r s).bytesLeft = s.bytesLeft := by cases r <;> rfl
@[simp] theorem applyEnding_bitsLeft (r : Ending) (s : State) :
    (applyEnding r s).bitsLeft = s.bitsLeft := by cases r <;> rfl
@[simp] theorem applyEnding_unloadedBits (r : Ending) (s : State) :
    (applyEnding r s).unloadedBits = s.unloadedBits := by cases r <;> rfl
@[simp] theorem applyEnding_pendingBits (r : Ending) (s : State) :
    (applyEnding r s).pendingBits = s.pendingBits := by cases r <;> rfl

/-! A configuration CSR after a write of one. -/

theorem State.setCsr_csr (s : State) (r q : Fin 34) (v : Word) :
    (s.setCsr r v).csr q = if r = q then v else s.csr q := by
  simp [State.csr, State.setCsr, Vector.getElem_set, Fin.ext_iff]

@[simp] theorem State.setCsr_csr_self (s : State) (r : Fin 34) (v : Word) : (s.setCsr r v).csr r = v := by
  simp [State.setCsr_csr]

theorem State.setCsr_csr_ne (s : State) {r q : Fin 34} (v : Word) (h : r ≠ q) : (s.setCsr r v).csr q = s.csr q := by
  simp [State.setCsr_csr, h]

theorem State.setCsr_csrNat_ne (s : State) {r q : Fin 34} (v : Word) (h : r ≠ q) :
    (s.setCsr r v).csrNat q = s.csrNat q := by
  simp [State.csrNat, State.setCsr_csr_ne s v h]

/-- Writing back the value a CSR holds changes nothing. -/
@[simp] theorem State.setCsr_csr_same (s : State) (r : Fin 34) : s.setCsr r (s.csr r) = s := by
  simp [State.csr, State.setCsr]

/-- The last of two writes of one CSR counts. -/
@[simp] theorem State.setCsr_setCsr (s : State) (r : Fin 34) (v w : Word) : (s.setCsr r v).setCsr r w = s.setCsr r w := by
  simp [State.setCsr]

theorem State.csrNat_lt (s : State) (r : Fin 34) : s.csrNat r < 2 ^ 32 := (s.csr r).isLt

theorem State.len_lt (s : State) (g : Region) : s.len g < 2 ^ 32 := s.csrNat_lt _

theorem State.base_lt (s : State) (g : Region) : s.base g < 2 ^ 32 := s.csrNat_lt _

end Sys2Proof.Machine
end

