-- ==== Sys2Proof/Laws/Memory.lean ====
section
/-! SUPPORT. The sparse arrays and MEM: a read after a write, what a write leaves alone, the canonical form, and what each
MEM operation can answer. -/

namespace Sys2Proof.Machine

/-! Sparse arrays. -/

/-- A read after a write: the written value at its index, the old entry elsewhere. -/
theorem cellRead_cellWrite {α : Type} (c : Cells α) (a x : Nat) (v : α) :
    cellRead (cellWrite c a v) x = if x = a then some v else cellRead c x := by
  induction c with
  | nil => simp [cellWrite, cellRead]
  | cons e c ih =>
    obtain ⟨b, w⟩ := e
    simp only [cellWrite]
    split
    · simp only [cellRead]
    · split
      · subst_vars; simp only [cellRead]; split <;> rfl
      · simp only [cellRead, ih]
        split <;> split <;> first | rfl | omega

@[simp] theorem cellRead_cellWrite_self {α : Type} (c : Cells α) (a : Nat) (v : α) :
    cellRead (cellWrite c a v) a = some v := by
  simp [cellRead_cellWrite]

theorem cellRead_cellWrite_ne {α : Type} (c : Cells α) {a x : Nat} (v : α) (h : x ≠ a) :
    cellRead (cellWrite c a v) x = cellRead c x := by
  simp [cellRead_cellWrite, h]

theorem cellRead_cellRun {α : Type} (v : α) (c : Cells α) (n i x : Nat) :
    cellRead (cellRun v c n i) x = if i ≤ x ∧ x < i + n then some v else cellRead c x := by
  induction n generalizing i with
  | zero => simp only [cellRun]; split <;> first | rfl | omega
  | succ n ih =>
    simp only [cellRun, cellRead, ih]
    split <;> split <;> first | rfl | omega | (split <;> first | rfl | omega)

theorem cellRead_filter_ge {α : Type} (c : Cells α) (n x : Nat) (h : n ≤ x) :
    cellRead (c.filter (fun e => decide (n ≤ e.1))) x = cellRead c x := by
  induction c with
  | nil => rfl
  | cons e c ih =>
    obtain ⟨b, w⟩ := e
    by_cases hb : n ≤ b
    · simp [cellRead, hb, ih]
    · have : x ≠ b := by omega
      simp [cellRead, hb, ih, this]

/-- A read after a fill: the fill value below the bound, the old entry above it. -/
theorem cellRead_cellFill {α : Type} (c : Cells α) (n x : Nat) (v : α) :
    cellRead (cellFill c n v) x = if x < n then some v else cellRead c x := by
  simp only [cellFill, cellRead_cellRun]
  split
  · simp_all
  · rename_i h
    have hx : ¬ x < n := by omega
    simp [hx, cellRead_filter_ge c n x (by omega)]

theorem cellWrite_keys {α : Type} (c : Cells α) (a : Nat) (v : α) (x : Nat) :
    x ∈ (cellWrite c a v).map Prod.fst ↔ x = a ∨ x ∈ c.map Prod.fst := by
  induction c with
  | nil => simp [cellWrite]
  | cons e c ih =>
    obtain ⟨b, w⟩ := e
    simp only [cellWrite]
    split
    · simp
    · split
      · subst_vars; simp
      · simp only [List.map_cons, List.mem_cons, ih]; tauto

/-- A write inside the array's size keeps the canonical form. -/
theorem cellsWf_cellWrite {α : Type} {size : Nat} {c : Cells α} (h : CellsWf size c) {a : Nat} (v : α)
    (ha : a < size) : CellsWf size (cellWrite c a v) := by
  refine ⟨?_, fun x hx => ?_⟩
  · obtain ⟨h, -⟩ := h
    induction c with
    | nil => simp [cellWrite]
    | cons e c ih =>
      obtain ⟨b, w⟩ := e
      simp only [List.map_cons, List.pairwise_cons] at h
      simp only [cellWrite]
      split
      · rename_i hab
        simp only [List.map_cons, List.pairwise_cons, List.mem_cons, forall_eq_or_imp]
        exact ⟨⟨hab, fun x hx => Nat.lt_trans hab (h.1 x hx)⟩, h.1, h.2⟩
      · split
        · subst_vars
          simpa only [List.map_cons, List.pairwise_cons] using h
        · simp only [List.map_cons, List.pairwise_cons]
          refine ⟨fun x hx => ?_, ih h.2⟩
          rcases (cellWrite_keys c a v x).1 hx with rfl | hx
          · omega
          · exact h.1 x hx
  · rcases (cellWrite_keys c a v x).1 hx with rfl | hx
    · exact ha
    · exact h.2 x hx

theorem cellRun_keys {α : Type} (v : α) (c : Cells α) (n i x : Nat) :
    x ∈ (cellRun v c n i).map Prod.fst ↔ (i ≤ x ∧ x < i + n) ∨ x ∈ c.map Prod.fst := by
  induction n generalizing i with
  | zero => simp only [cellRun]; constructor <;> [exact Or.inr; (rintro (h | h) <;> [omega; exact h])]
  | succ n ih =>
    simp only [cellRun, List.map_cons, List.mem_cons, ih]
    constructor
    · rintro (rfl | h | h)
      · left; omega
      · left; omega
      · right; exact h
    · rintro (h | h)
      · by_cases hx : x = i
        · left; exact hx
        · right; left; omega
      · right; right; exact h

/-- A fill inside the array's size keeps the canonical form. -/
theorem cellsWf_cellFill {α : Type} {size : Nat} {c : Cells α} (h : CellsWf size c) {n : Nat} (v : α)
    (hn : n ≤ size) : CellsWf size (cellFill c n v) := by
  have hf : ∀ x ∈ (c.filter (fun e => decide (n ≤ e.1))).map Prod.fst, n ≤ x ∧ x ∈ c.map Prod.fst := by
    intro x hx
    simp only [List.mem_map, List.mem_filter, decide_eq_true_eq] at hx ⊢
    obtain ⟨e, ⟨he, hne⟩, rfl⟩ := hx
    exact ⟨hne, e, he, rfl⟩
  have hs : ((c.filter (fun e => decide (n ≤ e.1))).map Prod.fst).Pairwise (· < ·) :=
    h.1.sublist (List.Sublist.map _ List.filter_sublist)
  have hrun : ∀ m i, i + m ≤ n →
      ((cellRun v (c.filter (fun e => decide (n ≤ e.1))) m i).map Prod.fst).Pairwise (· < ·) := by
    intro m
    induction m with
    | zero => intro i _; exact hs
    | succ m ih =>
      intro i hi
      simp only [cellRun, List.map_cons, List.pairwise_cons]
      refine ⟨fun x hx => ?_, ih (i + 1) (by omega)⟩
      rcases (cellRun_keys v _ m (i + 1) x).1 hx with hx | hx
      · omega
      · have := (hf x hx).1; omega
  refine ⟨hrun n 0 (by omega), fun x hx => ?_⟩
  rcases (cellRun_keys v _ n 0 x).1 hx with hx | hx
  · omega
  · exact h.2 x (hf x hx).2

/-! MEM. -/

@[simp] theorem State.setMem_byteAt_write (s : State) (a x : Nat) (b : Byte) :
    (s.setMem (cellWrite s.mem a b)).byteAt x = if x = a then some b else s.byteAt x :=
  cellRead_cellWrite s.mem a x b

/-- What a read of MEM can answer (R70, R88). -/
theorem readMem_cases (s : State) (a : Nat) :
    (a < s.memSize ∧ ∃ b, s.byteAt a = some b ∧ readMem s a = .ok b) ∨
    (a < s.memSize ∧ s.byteAt a = none ∧ readMem s a = .error (.unwrittenMem a)) ∨
    (s.memSize ≤ a ∧ readMem s a = .error (.noSuchMem a)) := by
  unfold readMem
  split
  · rename_i h
    cases hb : s.byteAt a with
    | none => exact .inr (.inl ⟨h, rfl, rfl⟩)
    | some b => exact .inl ⟨h, b, rfl, rfl⟩
  · exact .inr (.inr ⟨by omega, rfl⟩)

theorem readMem_eq_ok_iff (s : State) (a : Nat) (b : Byte) :
    readMem s a = .ok b ↔ a < s.memSize ∧ s.byteAt a = some b := by
  rcases readMem_cases s a with ⟨h, b', hb, he⟩ | ⟨h, hb, he⟩ | ⟨h, he⟩
  · rw [he, hb]; simp [h]
  · rw [he, hb]; simp
  · rw [he]; simp; omega

/-- A read of a written byte inside MEM answers it. -/
theorem readMem_ok {s : State} {a : Nat} {b : Byte} (h : a < s.memSize) (hb : s.byteAt a = some b) :
    readMem s a = .ok b := (readMem_eq_ok_iff s a b).2 ⟨h, hb⟩

/-- A read depends on nothing but MEM and its size. -/
theorem readMem_congr {s t : State} (hm : t.mem = s.mem) (hs : t.memSize = s.memSize) (a : Nat) :
    readMem t a = readMem s a := by
  simp [readMem, State.byteAt, hm, hs]

/-- What a write of MEM can answer (R70). -/
theorem writeMem_cases (s : State) (a : Nat) (b : Byte) :
    (a < s.memSize ∧ writeMem s a b = .ok (s.setMem (cellWrite s.mem a b))) ∨
    (s.memSize ≤ a ∧ writeMem s a b = .error (.noSuchMem a)) := by
  unfold writeMem
  split
  · exact .inl ⟨by assumption, rfl⟩
  · exact .inr ⟨by omega, rfl⟩

theorem writeMem_ok {s : State} {a : Nat} {b : Byte} (h : a < s.memSize) :
    writeMem s a b = .ok (s.setMem (cellWrite s.mem a b)) := by
  simp [writeMem, h]

theorem writeMem_eq_ok {s s' : State} {a : Nat} {b : Byte} (h : writeMem s a b = .ok s') :
    a < s.memSize ∧ s' = s.setMem (cellWrite s.mem a b) := by
  rcases writeMem_cases s a b with ⟨ha, he⟩ | ⟨ha, he⟩
  · rw [he] at h; cases h; exact ⟨ha, rfl⟩
  · rw [he] at h; cases h

theorem writeMem_eq_error {s : State} {a : Nat} {b : Byte} {f : Fault} (h : writeMem s a b = .error f) :
    s.memSize ≤ a ∧ f = .noSuchMem a := by
  rcases writeMem_cases s a b with ⟨ha, he⟩ | ⟨ha, he⟩
  · rw [he] at h; cases h
  · rw [he] at h; cases h; exact ⟨ha, rfl⟩

theorem readMem_eq_error {s : State} {a : Nat} {f : Fault} (h : readMem s a = .error f) :
    (a < s.memSize ∧ s.byteAt a = none ∧ f = .unwrittenMem a) ∨ (s.memSize ≤ a ∧ f = .noSuchMem a) := by
  rcases readMem_cases s a with ⟨ha, b', hb, he⟩ | ⟨ha, hb, he⟩ | ⟨ha, he⟩ <;> rw [he] at h <;> cases h
  · exact .inl ⟨ha, hb, rfl⟩
  · exact .inr ⟨ha, rfl⟩

/-- What a 32-bit read can answer (R73). -/
theorem readMem32_eq_ok_iff (s : State) (a : Nat) (w : Word) :
    readMem32 s a = .ok w ↔ ∃ b0 b1 b2 b3, readMem s a = .ok b0 ∧ readMem s (a + 1) = .ok b1 ∧
      readMem s (a + 2) = .ok b2 ∧ readMem s (a + 3) = .ok b3 ∧ w = littleEndian32 b0 b1 b2 b3 := by
  unfold readMem32
  cases readMem s a <;> simp
  cases readMem s (a + 1) <;> simp
  cases readMem s (a + 2) <;> simp
  cases readMem s (a + 3) <;> simp [eq_comm]

/-- A 32-bit read fails where one of its bytes does. -/
theorem readMem32_eq_error {s : State} {a : Nat} {f : Fault} (h : readMem32 s a = .error f) :
    ∃ k, k < 4 ∧ readMem s (a + k) = .error f := by
  unfold readMem32 at h
  cases h0 : readMem s a with
  | error f0 => simp only [h0] at h; cases h; exact ⟨0, by omega, h0⟩
  | ok b0 =>
    cases h1 : readMem s (a + 1) with
    | error f1 => simp only [h0, h1] at h; cases h; exact ⟨1, by omega, h1⟩
    | ok b1 =>
      cases h2 : readMem s (a + 2) with
      | error f2 => simp only [h0, h1, h2] at h; cases h; exact ⟨2, by omega, h2⟩
      | ok b2 =>
        cases h3 : readMem s (a + 3) with
        | error f3 => simp only [h0, h1, h2, h3] at h; cases h; exact ⟨3, by omega, h3⟩
        | ok b3 => simp [h0, h1, h2, h3] at h

theorem readMem32_congr {s t : State} (hm : t.mem = s.mem) (hs : t.memSize = s.memSize) (a : Nat) :
    readMem32 t a = readMem32 s a := by
  simp [readMem32, readMem_congr hm hs]

/-- A written region inside MEM reads as its bytes. -/
theorem readMem_region {s : State} {g : Region} (hi : s.Inside g) (hr : s.Readable g) {k : Nat} (hk : k < s.len g) :
    readMem s (s.base g + k) = .ok (s.regionByte g k) := by
  have h := hr k hk
  rw [Option.isSome_iff_exists] at h
  obtain ⟨b, hb⟩ := h
  refine readMem_ok (by unfold State.Inside at hi; omega) ?_
  simp [State.regionByte, hb]

/-- A written table inside MEM reads as its 32-bit entries (R73). -/
theorem readMem32_table {s : State} (hi : s.Inside .table) (hr : s.Readable .table) {i : Nat}
    (hk : 4 * i + 3 < s.len .table) : readMem32 s (s.base .table + 4 * i) = .ok (s.tableEntry i) := by
  rw [readMem32_eq_ok_iff]
  refine ⟨_, _, _, _, readMem_region hi hr (k := 4 * i) (by omega), ?_, ?_, ?_, rfl⟩
  · exact readMem_region hi hr (k := 4 * i + 1) (by omega)
  · exact readMem_region hi hr (k := 4 * i + 2) (by omega)
  · exact readMem_region hi hr (k := 4 * i + 3) (by omega)

end Sys2Proof.Machine
end

