-- ==== Sys2Proof/Laws/Outcome.lean ====
section
/-! SUPPORT. What `checked`, `conclude` and the outcomes can do, once. -/

namespace Sys2Proof.Machine

/-! Checks. -/

@[simp] theorem firstFailure_nil : firstFailure [] = none := rfl

@[simp] theorem firstFailure_cons (bad : Bool) (c : Cause) (info : Word) (rest : List Check) :
    firstFailure ((bad, c, info) :: rest) = if bad then some (c, info) else firstFailure rest := rfl

/-- No check fails exactly where every condition is false. -/
theorem firstFailure_eq_none_iff (cs : List Check) : firstFailure cs = none ↔ ∀ c ∈ cs, c.1 = false := by
  induction cs with
  | nil => simp
  | cons c cs ih =>
    obtain ⟨bad, c, info⟩ := c
    cases bad <;> simp [ih]

theorem firstFailure_append (cs ds : List Check) :
    firstFailure (cs ++ ds) = (firstFailure cs).or (firstFailure ds) := by
  induction cs with
  | nil => simp
  | cons c cs ih =>
    obtain ⟨bad, c, info⟩ := c
    cases bad <;> simp [ih]

/-- A failing check is one of the list. -/
theorem firstFailure_mem {cs : List Check} {c : Cause} {info : Word} (h : firstFailure cs = some (c, info)) :
    (true, c, info) ∈ cs := by
  induction cs with
  | nil => simp at h
  | cons d cs ih =>
    obtain ⟨bad, c', info'⟩ := d
    cases bad <;> simp at h
    · exact List.mem_cons_of_mem _ (ih h)
    · obtain ⟨rfl, rfl⟩ := h; exact List.mem_cons_self

/-- What a checked body can answer: Corrupt by the first failing check with nothing changed, or what the body does. -/
theorem checked_cases (cs : List Check) (s : State) (body : Effect) :
    (∃ c info, firstFailure cs = some (c, info) ∧ checked cs s body = .ok (s, .corrupt c info)) ∨
    (firstFailure cs = none ∧ checked cs s body = body) := by
  unfold checked
  split
  · rename_i c info h; exact .inl ⟨c, info, h, rfl⟩
  · rename_i h; exact .inr ⟨h, rfl⟩

theorem checked_pass {cs : List Check} (h : firstFailure cs = none) (s : State) (body : Effect) :
    checked cs s body = body := by
  simp [checked, h]

theorem checked_fail {cs : List Check} {c : Cause} {info : Word} (h : firstFailure cs = some (c, info)) (s : State)
    (body : Effect) : checked cs s body = .ok (s, .corrupt c info) := by
  simp [checked, h]

@[simp] theorem insideCheck_fst (s : State) (g : Region) : (s.insideCheck g).1 = s.regionOutside g := rfl

@[simp] theorem disjointCheck_fst (s : State) (g h : Region) : (s.disjointCheck g h).1 = s.overlaps g h := rfl

@[simp] theorem cursorCheck_fst (s : State) : s.cursorCheck.1 = !s.bopen := rfl

@[simp] theorem badCfg_fst (b : Bool) (r : Fin 34) : (badCfg b r).1 = b := rfl

/-- The region-in-memory check passes exactly where the region lies inside MEM (R77). -/
theorem regionOutside_eq_false_iff (s : State) (g : Region) : s.regionOutside g = false ↔ s.Inside g := by
  simp [State.regionOutside]

/-- Two regions that do not overlap share no address (R78). -/
theorem disjoint_separate {s : State} {g h : Region} (hd : s.Disjoint g h) {i j : Nat} (hi : i < s.len g)
    (hj : j < s.len h) : s.base g + i ≠ s.base h + j := by
  have hd : s.overlaps g h = false := hd
  simp only [State.overlaps, Bool.and_eq_false_iff, decide_eq_false_iff_not] at hd
  omega

/-- An index names a configuration CSR exactly where it is at most 0x21 (R23). -/
theorem cfgIndex_eq_some_iff (i : BitVec 8) (r : Fin 34) : cfgIndex i = some r ↔ i.toNat = r.val := by
  unfold cfgIndex
  split
  · constructor
    · intro h; cases h; rfl
    · intro h; congr 1; exact Fin.ext h
  · rename_i h
    constructor
    · intro h'; cases h'
    · intro h'; omega

theorem cfgIndex_eq_none_iff (i : BitVec 8) : cfgIndex i = none ↔ 0x21 < i.toNat := by
  unfold cfgIndex
  split <;> simp <;> omega

/-! Outcomes. -/

@[simp] theorem conclude_ok (s : State) (r : Ending) : conclude (.ok (s, r)) = .next (applyEnding r s) := rfl

@[simp] theorem conclude_error (f : Fault) : conclude (.error f) = .fault f := rfl

@[simp] theorem applyEnding_complete (s : State) : applyEnding .complete s = s.endComplete := rfl

@[simp] theorem applyEnding_truncated (c : Cause) (info : Word) (s : State) :
    applyEnding (.truncated c info) s = s.endTruncated c info := rfl

@[simp] theorem applyEnding_corrupt (c : Cause) (info : Word) (s : State) :
    applyEnding (.corrupt c info) s = s.takeCorrupt c info := rfl

@[simp] theorem applyEnding_halt (s : State) : applyEnding .halt s = s.endHalt := rfl

/-- What a command's conclusion can be: the outcome applied, or its effect's fault; never a refusal. -/
theorem conclude_cases (e : Effect) :
    (∃ s r, e = .ok (s, r) ∧ conclude e = .next (applyEnding r s)) ∨ (∃ f, e = .error f ∧ conclude e = .fault f) := by
  cases e with
  | error f => exact .inr ⟨f, rfl, rfl⟩
  | ok p => exact .inl ⟨p.1, p.2, rfl, rfl⟩

/-- Where a command answers a next state, its effect did not fault and its outcome was applied. -/
theorem conclude_eq_next {e : Effect} {t : State} (h : conclude e = .next t) :
    ∃ s r, e = .ok (s, r) ∧ t = applyEnding r s := by
  rcases conclude_cases e with ⟨s, r, he, hc⟩ | ⟨f, he, hc⟩
  · rw [hc, Host.Outcome.next.injEq] at h
    exact ⟨s, r, he, h.symm⟩
  · rw [hc] at h; simp only [reduceCtorEq] at h

/-- Where a command stops with a fault, its effect faulted. -/
theorem conclude_eq_fault {e : Effect} {f : Fault} (h : conclude e = .fault f) : e = .error f := by
  rcases conclude_cases e with ⟨s, r, he, hc⟩ | ⟨g, he, hc⟩
  · rw [hc] at h; simp only [reduceCtorEq] at h
  · rw [hc, Host.Outcome.fault.injEq] at h
    rw [he, h]

/-- No command is refused. -/
theorem conclude_ne_refused (e : Effect) (r : Refusal) : conclude e ≠ .refused r := by
  rcases conclude_cases e with ⟨s, r', -, hc⟩ | ⟨f, -, hc⟩ <;> rw [hc] <;> simp only [ne_eq, reduceCtorEq, not_false_eq_true]

/-! Packed words. -/

/-- The value of two fields side by side: the lower one, and the upper one times its place. -/
theorem toNat_append {n m : Nat} (a : BitVec n) (b : BitVec m) : (a ++ b).toNat = a.toNat * 2 ^ m + b.toNat := by
  rw [BitVec.toNat_append, ← Nat.shiftLeft_add_eq_or_of_lt b.isLt, Nat.shiftLeft_eq]

end Sys2Proof.Machine
end

