-- ==== Sys2Proof/Laws/BitReader.lean ====
section
/-! SUPPORT. What next_bit, read_bits and count_unary can do, once: where the cursor goes, what they read, and what they
leave alone; and, on a cursor that is ready to read, what they answer as functions of the pending bits. -/

namespace Sys2Proof.Machine

/-! The cursor's own registers. -/

/-- Only the cursor's registers (IN_POS, BBUF, BCNT) differ. -/
def State.MovedTo (s t : State) : Prop := ∃ p b c, t = (s.setCsr IN_POS p).setBits b c

theorem movedTo_refl (s : State) : s.MovedTo s := ⟨s.csr IN_POS, s.bbuf, s.bcnt, by rw [State.setCsr_csr_same]; rfl⟩

theorem movedTo_trans {s t u : State} (h : s.MovedTo t) (h' : t.MovedTo u) : s.MovedTo u := by
  obtain ⟨p, b, c, rfl⟩ := h
  obtain ⟨p', b', c', rfl⟩ := h'
  refine ⟨p', b', c', ?_⟩
  show ((s.setCsr IN_POS p).setCsr IN_POS p').setBits b' c' = _
  rw [State.setCsr_setCsr]

theorem movedTo_setBits (s : State) (b : Byte) (c : BitVec 4) : s.MovedTo (s.setBits b c) :=
  ⟨s.csr IN_POS, b, c, by rw [State.setCsr_csr_same]⟩

theorem movedTo_afterBits (s : State) (k : Nat) : s.MovedTo (s.afterBits k) := by
  unfold State.afterBits
  split
  · exact movedTo_setBits _ _ _
  · exact ⟨_, _, _, rfl⟩

theorem baseReg_ne_inPos (g : Region) : IN_POS ≠ g.baseReg := by
  cases g <;> first | decide | (rename_i c; fin_cases c <;> decide)

theorem lenReg_ne_inPos (g : Region) : IN_POS ≠ g.lenReg := by
  cases g <;> first | decide | (rename_i c; fin_cases c <;> decide)

/-- What a moved cursor leaves alone. -/
theorem movedTo_frame {s t : State} (h : s.MovedTo t) :
    t.mem = s.mem ∧ t.memSize = s.memSize ∧ t.bord = s.bord ∧ t.bopen = s.bopen ∧
      (∀ r, r ≠ IN_POS → t.csr r = s.csr r) ∧ (∀ g, t.base g = s.base g) ∧ (∀ g, t.len g = s.len g) := by
  obtain ⟨p, b, c, rfl⟩ := h
  refine ⟨rfl, rfl, rfl, rfl, fun r hr => ?_, fun g => ?_, fun g => ?_⟩
  · exact State.setCsr_csr_ne s p (Ne.symm hr)
  · exact State.setCsr_csrNat_ne s p (baseReg_ne_inPos g)
  · exact State.setCsr_csrNat_ne s p (lenReg_ne_inPos g)

theorem movedTo_byteAt {s t : State} (h : s.MovedTo t) (a : Nat) : t.byteAt a = s.byteAt a := by
  obtain ⟨p, b, c, rfl⟩ := h; rfl

theorem movedTo_regionByte {s t : State} (h : s.MovedTo t) (g : Region) (k : Nat) :
    t.regionByte g k = s.regionByte g k := by
  simp [State.regionByte, movedTo_byteAt h, (movedTo_frame h).2.2.2.2.2.1]

/-! next_bit, in any state. -/

/-- What next_bit can answer (R150): a bit with nothing but the cursor changed, end of input exactly where no bit is
buffered and no input byte is left, or the fault of the byte it loads. -/
theorem nextBit_cases (s : State) :
    (∃ b s', nextBit s = .bit b s' ∧ s.MovedTo s') ∨
    (nextBit s = .eoi ∧ s.bcnt = 0 ∧ s.csrNat IN_LEN ≤ s.csrNat IN_POS) ∨
    (∃ f, nextBit s = .fault f ∧ s.csrNat IN_POS < s.csrNat IN_LEN ∧
      readMem s (s.base .input + s.csrNat IN_POS) = .error f) := by
  unfold nextBit
  split
  · split
    · exact .inr (.inl ⟨rfl, by assumption, by assumption⟩)
    · split
      · rename_i f hf; exact .inr (.inr ⟨f, rfl, by omega, hf⟩)
      · refine .inl ?_
        unfold deliverBit
        split <;> exact ⟨_, _, rfl, _, _, _, rfl⟩
  · refine .inl ?_
    unfold deliverBit
    split <;> exact ⟨_, _, rfl, movedTo_setBits _ _ _⟩

/-- Where next_bit answers a bit, only the cursor has moved. -/
theorem nextBit_bit {s s' : State} {b : Bool} (h : nextBit s = .bit b s') : s.MovedTo s' := by
  rcases nextBit_cases s with ⟨b', t, ht, hm⟩ | ⟨ht, -⟩ | ⟨f, ht, -⟩ <;> rw [ht] at h <;> cases h
  exact hm

/-- read_bits moves nothing but the cursor. -/
theorem readBitsFrom_bits {n : Nat} {v w : Word} {got got' : Nat} {e : Bool} {s s' : State}
    (h : readBitsFrom n v got s = .bits w got' e s') : s.MovedTo s' := by
  induction n generalizing v got s with
  | zero => simp only [readBitsFrom] at h; cases h; exact movedTo_refl _
  | succ n ih =>
    simp only [readBitsFrom] at h
    split at h
    · cases h
    · cases h; exact movedTo_refl _
    · rename_i hb; exact movedTo_trans (nextBit_bit hb) (ih h)

theorem readBits_bits {n got : Nat} {w : Word} {e : Bool} {s s' : State} (h : readBits n s = .bits w got e s') :
    s.MovedTo s' := readBitsFrom_bits h

/-- count_unary moves nothing but the cursor. -/
theorem countUnaryFrom_run {room k k' : Nat} {c e : Bool} {s s' : State}
    (h : countUnaryFrom room k s = .run k' c e s') : s.MovedTo s' := by
  induction room generalizing k s with
  | zero => simp only [countUnaryFrom] at h; cases h; exact movedTo_refl _
  | succ n ih =>
    simp only [countUnaryFrom] at h
    split at h
    · cases h
    · cases h; exact movedTo_refl _
    · rename_i hb; cases h; exact nextBit_bit hb
    · rename_i hb; exact movedTo_trans (nextBit_bit hb) (ih h)

theorem countUnary_run {k : Nat} {c e : Bool} {s s' : State} (h : countUnary s = .run k c e s') : s.MovedTo s' :=
  countUnaryFrom_run h

/-- read_bits faults only where next_bit does, on a cursor that has only moved. -/
theorem readBitsFrom_fault {n : Nat} {v : Word} {got : Nat} {f : Fault} {s : State}
    (h : readBitsFrom n v got s = .fault f) : ∃ t, s.MovedTo t ∧ nextBit t = .fault f := by
  induction n generalizing v got s with
  | zero => simp [readBitsFrom] at h
  | succ n ih =>
    simp only [readBitsFrom] at h
    split at h
    · rename_i hf; cases h; exact ⟨s, movedTo_refl s, hf⟩
    · cases h
    · rename_i hb
      obtain ⟨t, ht, hf⟩ := ih h
      exact ⟨t, movedTo_trans (nextBit_bit hb) ht, hf⟩

/-- count_unary faults only where next_bit does, on a cursor that has only moved. -/
theorem countUnaryFrom_fault {room k : Nat} {f : Fault} {s : State} (h : countUnaryFrom room k s = .fault f) :
    ∃ t, s.MovedTo t ∧ nextBit t = .fault f := by
  induction room generalizing k s with
  | zero => simp [countUnaryFrom] at h
  | succ n ih =>
    simp only [countUnaryFrom] at h
    split at h
    · rename_i hf; cases h; exact ⟨s, movedTo_refl s, hf⟩
    · cases h
    · cases h
    · rename_i hb
      obtain ⟨t, ht, hf⟩ := ih h
      exact ⟨t, movedTo_trans (nextBit_bit hb) ht, hf⟩

/-! The pending bits. -/

@[simp] theorem byteBits_length (ord : BitOrder) (b : Byte) : (byteBits ord b).length = 8 := by
  cases ord <;> rfl

/-- Delivering one bit of a byte leaves the others in order and a 0 behind them. -/
theorem byteBits_shiftOut_one (ord : BitOrder) (b : Byte) :
    byteBits ord (shiftOut ord b 1) = (byteBits ord b).tail ++ [false] := by
  cases ord <;> simp [byteBits, shiftOut]

theorem shiftOut_zero (ord : BitOrder) (b : Byte) : shiftOut ord b 0 = b := by
  cases ord <;> simp [shiftOut]

theorem shiftOut_shiftOut (ord : BitOrder) (b : Byte) (j k : Nat) :
    shiftOut ord (shiftOut ord b j) k = shiftOut ord b (j + k) := by
  cases ord <;> simp [shiftOut, BitVec.shiftLeft_add, BitVec.shiftRight_add]

theorem State.unloadedBits_length (s : State) : s.unloadedBits.length = 8 * s.bytesLeft := by
  simp [State.unloadedBits, List.length_flatMap, Nat.mul_comm]

/-- There are as many pending bits as next_bit can still deliver. -/
theorem State.pendingBits_length {s : State} (h : s.bcnt.toNat ≤ 8) : s.pendingBits.length = s.bitsLeft := by
  simp [State.pendingBits, State.unloadedBits_length, State.bitsLeft, State.bytesLeft, h]

theorem State.afterBits_zero (s : State) : s.afterBits 0 = s := by
  simp only [State.afterBits, Nat.zero_le, if_true, shiftOut_zero, Nat.sub_zero, BitVec.ofNat_toNat,
    BitVec.setWidth_eq]
  rfl

/-! next_bit on a cursor that is ready to read. -/

theorem State.afterBits_one_of_empty {s : State} (h : s.bcnt = 0) :
    s.afterBits 1 = (s.setCsr IN_POS (s.csr IN_POS + 1)).setBits
      (shiftOut s.bord (s.regionByte .input (s.csrNat IN_POS)) 1) 7 := by
  simp [State.afterBits, h]

theorem State.afterBits_one_of_buffered {s : State} (h : s.bcnt ≠ 0) :
    s.afterBits 1 = s.setBits (shiftOut s.bord s.bbuf 1) (s.bcnt - 1) := by
  have h1 : 1 ≤ s.bcnt.toNat := by
    have : s.bcnt.toNat ≠ 0 := fun h0 => h (BitVec.eq_of_toNat_eq (by simpa using h0))
    omega
  rw [State.afterBits, if_pos h1]
  congr 1
  apply BitVec.eq_of_toNat_eq
  have := s.bcnt.isLt
  rw [BitVec.toNat_sub_of_le (by simpa [BitVec.le_def] using h1)]
  simp
  omega

/-- The pending bits of an empty buffer: those of the first unloaded byte, then the others. -/
theorem State.unloadedBits_cons {s : State} (h : s.csrNat IN_POS < s.csrNat IN_LEN) :
    s.unloadedBits = byteBits s.bord (s.regionByte .input (s.csrNat IN_POS)) ++
      (List.range (s.bytesLeft - 1)).flatMap
        (fun k => byteBits s.bord (s.regionByte .input (s.csrNat IN_POS + 1 + k))) := by
  have hb : s.bytesLeft = s.bytesLeft - 1 + 1 := by simp only [State.bytesLeft]; omega
  rw [State.unloadedBits, hb, List.range_succ_eq_map, List.flatMap_cons, List.flatMap_map]
  simp only [Nat.add_zero, Nat.add_sub_cancel]
  congr 2
  funext k
  congr 2
  simp only [Nat.succ_eq_add_one]
  omega

theorem csrNat_inPos_succ {s : State} (h : s.csrNat IN_POS < s.csrNat IN_LEN) :
    (s.setCsr IN_POS (s.csr IN_POS + 1)).csrNat IN_POS = s.csrNat IN_POS + 1 := by
  have := s.csrNat_lt IN_LEN
  simp only [State.csrNat, State.setCsr_csr_self, BitVec.toNat_add]
  simp only [State.csrNat] at h this
  simp
  omega

/-- The unloaded bits once one more byte has been loaded. -/
theorem State.unloadedBits_load {s : State} (h : s.csrNat IN_POS < s.csrNat IN_LEN) (b : Byte) (c : BitVec 4) :
    ((s.setCsr IN_POS (s.csr IN_POS + 1)).setBits b c).unloadedBits =
      (List.range (s.bytesLeft - 1)).flatMap
        (fun k => byteBits s.bord (s.regionByte .input (s.csrNat IN_POS + 1 + k))) := by
  rw [State.setBits_unloadedBits]
  simp only [State.unloadedBits, State.bytesLeft, csrNat_inPos_succ h]
  rw [State.setCsr_csrNat_ne s _ (by decide : IN_POS ≠ IN_LEN)]
  have : s.csrNat IN_LEN - (s.csrNat IN_POS + 1) = s.csrNat IN_LEN - s.csrNat IN_POS - 1 := by omega
  rw [this]
  congr 1
  funext k
  rw [movedTo_regionByte (⟨_, s.bbuf, s.bcnt, rfl⟩ : s.MovedTo (s.setCsr IN_POS (s.csr IN_POS + 1)))]
  rfl

/-- With no pending bit next_bit answers end of input (R150). -/
theorem nextBit_eoi {s : State} (hr : s.ReadyToRead) (h : s.pendingBits = []) : nextBit s = .eoi := by
  obtain ⟨⟨-, -, -⟩, h8, -⟩ := hr
  have hl := State.pendingBits_length h8
  rw [h, State.bitsLeft] at hl
  simp only [List.length_nil] at hl
  have hc : s.bcnt = 0 := BitVec.eq_of_toNat_eq (by simp; omega)
  rw [nextBit, if_pos hc, if_pos (by omega)]

/-- With a pending bit next_bit answers the first one and leaves the others pending (R150). -/
theorem nextBit_pending {s : State} (hr : s.ReadyToRead) {b : Bool} {bs : List Bool} (h : s.pendingBits = b :: bs) :
    nextBit s = .bit b (s.afterBits 1) ∧ (s.afterBits 1).pendingBits = bs ∧ (s.afterBits 1).ReadyToRead := by
  obtain ⟨⟨ho, hi, hp⟩, h8, hw⟩ := hr
  by_cases hc : s.bcnt = 0
  · have hlt : s.csrNat IN_POS < s.csrNat IN_LEN := by
      have hl := State.pendingBits_length h8
      rw [h, State.bitsLeft, hc] at hl
      simp at hl
      omega
    have hrd : readMem s (s.base .input + s.csrNat IN_POS) = .ok (s.regionByte .input (s.csrNat IN_POS)) := by
      have h0 := hw 0 (by simp only [State.bytesLeft]; omega)
      rw [Option.isSome_iff_exists] at h0
      obtain ⟨v, hv⟩ := h0
      have hin : s.base .input + s.len .input ≤ s.memSize := hi
      have hlen : s.len .input = s.csrNat IN_LEN := rfl
      refine (readMem_eq_ok_iff _ _ _).2 ⟨by omega, ?_⟩
      rw [Nat.add_zero] at hv
      simp [State.regionByte, hv]
    rw [State.pendingBits, hc, State.unloadedBits_cons hlt] at h
    simp only [show (0 : BitVec 4).toNat = 0 from rfl, List.take_zero, List.nil_append] at h
    have hb : b = (byteBits s.bord (s.regionByte .input (s.csrNat IN_POS))).head (by
        intro h0; have := congrArg List.length h0; simp at this) ∧
        bs = (byteBits s.bord (s.regionByte .input (s.csrNat IN_POS))).tail ++ (List.range (s.bytesLeft - 1)).flatMap
        (fun k => byteBits s.bord (s.regionByte .input (s.csrNat IN_POS + 1 + k))) := by
      have hh : ∀ l : List Bool, (hl : l.length = 8) → ∀ r, l ++ r = b :: bs →
          b = l.head (by intro h0; simp [h0] at hl) ∧ bs = l.tail ++ r := by
        intro l hl r hlr
        cases l with
        | nil => simp at hl
        | cons x l => simp only [List.cons_append, List.cons.injEq] at hlr; simp [hlr.1, ← hlr.2]
      exact hh _ (by simp) _ h
    refine ⟨?_, ?_, ?_⟩
    · rw [nextBit, if_pos hc, if_neg (by omega), hrd]
      simp only [deliverBit, State.afterBits_one_of_empty hc, hb.1]
      simp only [State.setCsr_bord]
      cases s.bord <;> rfl
    · rw [State.afterBits_one_of_empty hc, State.pendingBits, State.unloadedBits_load hlt, hb.2]
      congr 1
      simp only [State.setBits_bcnt, State.setBits_bord, State.setBits_bbuf, State.setCsr_bord, byteBits_shiftOut_one]
      generalize hg : byteBits s.bord (s.regionByte .input (s.csrNat IN_POS)) = l
      have hl : l.length = 8 := by rw [← hg]; simp
      show ((l.tail ++ [false]).take 7) = l.tail
      rw [List.take_append_of_le_length (by simp [hl])]
      exact List.take_of_length_le (by simp [hl])
    · rw [State.afterBits_one_of_empty hc]
      have hbs : ((s.setCsr IN_POS (s.csr IN_POS + 1)).setBits
          (shiftOut s.bord (s.regionByte .input (s.csrNat IN_POS)) 1) 7).base .input = s.base .input :=
        State.setCsr_csrNat_ne s _ (baseReg_ne_inPos .input)
      have hls : ((s.setCsr IN_POS (s.csr IN_POS + 1)).setBits
          (shiftOut s.bord (s.regionByte .input (s.csrNat IN_POS)) 1) 7).csrNat IN_LEN = s.csrNat IN_LEN :=
        State.setCsr_csrNat_ne s _ (lenReg_ne_inPos .input)
      have hps : ((s.setCsr IN_POS (s.csr IN_POS + 1)).setBits
          (shiftOut s.bord (s.regionByte .input (s.csrNat IN_POS)) 1) 7).csrNat IN_POS = s.csrNat IN_POS + 1 :=
        csrNat_inPos_succ hlt
      refine ⟨⟨ho, ?_, ?_⟩, by simp, ?_⟩
      · show _ + _ ≤ _
        rw [hbs]
        show s.base .input + State.csrNat _ IN_LEN ≤ s.memSize
        rw [hls]; exact hi
      · rw [hls, hps]; exact hlt
      · intro k hk
        rw [State.bytesLeft, hls, hps] at hk
        rw [hbs, hps]
        have := hw (k + 1) (by simp only [State.bytesLeft]; omega)
        rw [show s.base .input + (s.csrNat IN_POS + 1 + k) = s.base .input + (s.csrNat IN_POS + (k + 1)) by omega]
        exact this
  · have h1 : 1 ≤ s.bcnt.toNat := by
      have : s.bcnt.toNat ≠ 0 := fun h0 => hc (BitVec.eq_of_toNat_eq (by simpa using h0))
      omega
    have hsub : (s.bcnt - 1).toNat = s.bcnt.toNat - 1 := by
      rw [BitVec.toNat_sub_of_le (by simpa [BitVec.le_def] using h1)]; rfl
    rw [State.pendingBits] at h
    have hh : ∀ l : List Bool, (hl : l.length = 8) → ∀ r, l.take s.bcnt.toNat ++ r = b :: bs →
        b = l.head (by intro h0; simp [h0] at hl) ∧ bs = (l.tail ++ [false]).take (s.bcnt.toNat - 1) ++ r := by
      intro l hl r hlr
      cases l with
      | nil => simp at hl
      | cons x l =>
        obtain ⟨c, hc'⟩ : ∃ c, s.bcnt.toNat = c + 1 := ⟨s.bcnt.toNat - 1, by omega⟩
        rw [hc'] at hlr ⊢
        simp only [List.take_succ_cons, List.cons_append, List.cons.injEq] at hlr
        simp only [List.length_cons] at hl
        rw [List.tail_cons, Nat.add_sub_cancel, List.take_append_of_le_length (by omega)]
        exact ⟨hlr.1.symm, hlr.2.symm⟩
    obtain ⟨hb, hbs⟩ := hh _ (by simp) _ h
    refine ⟨?_, ?_, ?_⟩
    · rw [nextBit, if_neg hc]
      simp only [deliverBit, State.afterBits_one_of_buffered hc, hb]
      cases s.bord <;> rfl
    · rw [State.afterBits_one_of_buffered hc, State.pendingBits, hbs]
      simp only [State.setBits_bcnt, State.setBits_bord, State.setBits_bbuf, State.setBits_unloadedBits,
        byteBits_shiftOut_one, hsub]
    · rw [State.afterBits_one_of_buffered hc]
      refine ⟨⟨ho, hi, hp⟩, ?_, hw⟩
      simp only [State.setBits_bcnt, hsub]
      omega

/-! Several bits on a cursor that is ready to read. -/

theorem State.afterBits_of_le {s : State} {k : Nat} (h : k ≤ s.bcnt.toNat) :
    s.afterBits k = s.setBits (shiftOut s.bord s.bbuf k) (BitVec.ofNat 4 (s.bcnt.toNat - k)) := if_pos h

theorem State.afterBits_of_gt {s : State} {k : Nat} (h : s.bcnt.toNat < k) :
    s.afterBits k =
      (s.setCsr IN_POS (s.csr IN_POS + BitVec.ofNat 32 ((k - s.bcnt.toNat + 7) / 8))).setBits
        (shiftOut s.bord (s.regionByte .input (s.csrNat IN_POS + ((k - s.bcnt.toNat + 7) / 8 - 1)))
          (8 - (8 * ((k - s.bcnt.toNat + 7) / 8) - (k - s.bcnt.toNat))))
        (BitVec.ofNat 4 (8 * ((k - s.bcnt.toNat + 7) / 8) - (k - s.bcnt.toNat))) := if_neg (by omega)

theorem bcnt_of_ofNat {s : State} {c : Nat} (hc : c < 16) (h : s.bcnt = BitVec.ofNat 4 c) : s.bcnt.toNat = c := by
  rw [h]; simp; omega

/-- Consuming one bit after `k` is consuming `k + 1` bits. -/
theorem State.afterBits_succ {s : State} {k : Nat} (h8 : s.bcnt.toNat ≤ 8) (hk : k < s.bitsLeft) :
    (s.afterBits k).afterBits 1 = s.afterBits (k + 1) := by
  rw [State.bitsLeft] at hk
  rcases Nat.lt_trichotomy k s.bcnt.toNat with h | h | h
  · rw [State.afterBits_of_le (Nat.le_of_lt h), State.afterBits_of_le (by omega : k + 1 ≤ s.bcnt.toNat)]
    have hc : ((s.setBits (shiftOut s.bord s.bbuf k) (BitVec.ofNat 4 (s.bcnt.toNat - k)))).bcnt.toNat =
        s.bcnt.toNat - k := bcnt_of_ofNat (by omega) rfl
    rw [State.afterBits_of_le (by omega)]
    simp only [hc, State.setBits_bord, State.setBits_bbuf, shiftOut_shiftOut]
    rw [show s.bcnt.toNat - k - 1 = s.bcnt.toNat - (k + 1) by omega]
    rfl
  · subst h
    rw [State.afterBits_of_le (Nat.le_refl _), State.afterBits_of_gt (by omega : s.bcnt.toNat < s.bcnt.toNat + 1)]
    have hc : ((s.setBits (shiftOut s.bord s.bbuf s.bcnt.toNat)
        (BitVec.ofNat 4 (s.bcnt.toNat - s.bcnt.toNat)))).bcnt.toNat = 0 := by simp
    rw [State.afterBits_of_gt (by omega)]
    simp only [hc]
    have e1 : s.bcnt.toNat + 1 - s.bcnt.toNat = 1 := by omega
    simp only [e1, Nat.sub_zero]
    rfl
  · obtain ⟨m, rfl⟩ : ∃ m, k = s.bcnt.toNat + m := ⟨k - s.bcnt.toNat, by omega⟩
    have e1 : s.bcnt.toNat + m - s.bcnt.toNat = m := by omega
    have e2 : s.bcnt.toNat + m + 1 - s.bcnt.toNat = m + 1 := by omega
    have hlen := s.csrNat_lt IN_LEN
    rw [State.afterBits_of_gt h, State.afterBits_of_gt (by omega : s.bcnt.toNat < s.bcnt.toNat + m + 1)]
    simp only [e1, e2]
    generalize hq : (m + 7) / 8 = q
    obtain ⟨t, ht⟩ : ∃ t, t = (s.setCsr IN_POS (s.csr IN_POS + BitVec.ofNat 32 q)).setBits
        (shiftOut s.bord (s.regionByte .input (s.csrNat IN_POS + (q - 1))) (8 - (8 * q - m)))
        (BitVec.ofNat 4 (8 * q - m)) := ⟨_, rfl⟩
    rw [← ht]
    have hc : t.bcnt.toNat = 8 * q - m := bcnt_of_ofNat (by omega) (by rw [ht]; rfl)
    have hord : t.bord = s.bord := by rw [ht]; rfl
    have hbuf : t.bbuf = shiftOut s.bord (s.regionByte .input (s.csrNat IN_POS + (q - 1))) (8 - (8 * q - m)) := by
      rw [ht]; rfl
    have hcsr : t.csr IN_POS = s.csr IN_POS + BitVec.ofNat 32 q := by rw [ht]; simp
    have hpos : t.csrNat IN_POS = s.csrNat IN_POS + q := by
      simp only [State.csrNat] at hk hlen ⊢
      rw [hcsr, BitVec.toNat_add, BitVec.toNat_ofNat]
      omega
    have hbyte : ∀ j, t.regionByte .input j = s.regionByte .input j :=
      fun j => movedTo_regionByte (by rw [ht]; exact ⟨_, _, _, rfl⟩) _ _
    by_cases hr : 8 * q - m = 0
    · have hq' : (m + 1 + 7) / 8 = q + 1 := by omega
      rw [State.afterBits_of_gt (by omega), hq', hc, hr, hpos, hcsr, hord, hbyte]
      have e3 : 8 * (q + 1) - (m + 1) = 7 := by omega
      rw [e3, BitVec.add_assoc, show (1 - 0 + 7) / 8 = 1 from rfl, ← BitVec.ofNat_add,
        show s.csrNat IN_POS + q + (1 - 1) = s.csrNat IN_POS + (q + 1 - 1) by omega, ht]
      show ((s.setCsr IN_POS _).setCsr IN_POS _).setBits _ _ = _
      rw [State.setCsr_setCsr]
    · have hq' : (m + 1 + 7) / 8 = q := by omega
      rw [State.afterBits_of_le (by omega), hq', hc, hord, hbuf, shiftOut_shiftOut,
        show 8 - (8 * q - m) + 1 = 8 - (8 * q - (m + 1)) by omega,
        show 8 * q - m - 1 = 8 * q - (m + 1) by omega, ht]
      rfl

/-- After `k` bits the cursor is still ready to read and has lost exactly the first `k` pending bits. -/
theorem State.afterBits_pending {s : State} (hr : s.ReadyToRead) {k : Nat} (hk : k ≤ s.pendingBits.length) :
    (s.afterBits k).ReadyToRead ∧ (s.afterBits k).pendingBits = s.pendingBits.drop k := by
  induction k with
  | zero => rw [State.afterBits_zero]; exact ⟨hr, rfl⟩
  | succ k ih =>
    obtain ⟨hrk, hpk⟩ := ih (by omega)
    have hlt : k < s.bitsLeft := by rw [← State.pendingBits_length hr.2.1]; exact hk
    rw [← State.afterBits_succ hr.2.1 hlt]
    have hd : s.pendingBits.drop k = s.pendingBits[k] :: s.pendingBits.drop (k + 1) :=
      List.drop_eq_getElem_cons hk
    rw [hd] at hpk
    obtain ⟨-, hp, hr'⟩ := nextBit_pending hrk hpk
    exact ⟨hr', hp⟩

/-- next_bit after `k` bits (R150). -/
theorem nextBit_afterBits {s : State} (hr : s.ReadyToRead) {k : Nat} (hk : k < s.pendingBits.length) :
    nextBit (s.afterBits k) = .bit s.pendingBits[k] (s.afterBits (k + 1)) := by
  obtain ⟨hrk, hpk⟩ := State.afterBits_pending hr (Nat.le_of_lt hk)
  rw [List.drop_eq_getElem_cons hk] at hpk
  rw [(nextBit_pending hrk hpk).1, State.afterBits_succ hr.2.1 (by rw [← State.pendingBits_length hr.2.1]; exact hk)]

/-- next_bit with every pending bit consumed (R150). -/
theorem nextBit_afterAll {s : State} (hr : s.ReadyToRead) : nextBit (s.afterBits s.pendingBits.length) = .eoi := by
  obtain ⟨hrk, hpk⟩ := State.afterBits_pending hr (Nat.le_refl _)
  exact nextBit_eoi hrk (by simpa using hpk)

/-- One step of read_bits' composition on values (R151). -/
theorem composeBit (x : Nat) (b : Bool) :
    ((BitVec.ofNat 32 x) <<< 1) ||| (BitVec.ofBool b).setWidth 32 = BitVec.ofNat 32 (2 * x + b.toNat) := by
  have hdis : ((BitVec.ofNat 32 x) <<< 1) &&& (BitVec.ofBool b).setWidth 32 = 0 := by
    ext i hi
    simp only [BitVec.getElem_and, BitVec.getElem_shiftLeft, BitVec.getElem_setWidth, BitVec.getLsbD_ofBool]
    by_cases h : i = 0 <;> simp [h]
  rw [← BitVec.add_eq_or_of_and_eq_zero _ _ hdis]
  apply BitVec.eq_of_toNat_eq
  cases b <;> simp [BitVec.toNat_shiftLeft, Nat.shiftLeft_eq] <;> omega

/-- The value of read_bits so far, continued over a list of bits (R151). -/
def bitsValueFrom (v : Nat) (bs : List Bool) : Nat := bs.foldl (fun v b => 2 * v + b.toNat) v

/-- read_bits on a ready cursor, from any value and count so far (R151). -/
theorem readBitsFrom_ready {s : State} (hr : s.ReadyToRead) (n v got : Nat) :
    readBitsFrom n (BitVec.ofNat 32 v) got s =
      if n ≤ s.pendingBits.length then
        .bits (BitVec.ofNat 32 (bitsValueFrom v (s.pendingBits.take n))) (got + n) false (s.afterBits n)
      else
        .bits (BitVec.ofNat 32 (bitsValueFrom v s.pendingBits)) (got + s.pendingBits.length) true
          (s.afterBits s.pendingBits.length) := by
  suffices h : ∀ j, j ≤ s.pendingBits.length → ∀ v got, readBitsFrom n (BitVec.ofNat 32 v) got (s.afterBits j) =
      if n ≤ s.pendingBits.length - j then
        .bits (BitVec.ofNat 32 (bitsValueFrom v ((s.pendingBits.drop j).take n))) (got + n) false (s.afterBits (j + n))
      else
        .bits (BitVec.ofNat 32 (bitsValueFrom v (s.pendingBits.drop j))) (got + (s.pendingBits.length - j)) true
          (s.afterBits s.pendingBits.length) by
    have := h 0 (Nat.zero_le _) v got
    simpa only [State.afterBits_zero, Nat.sub_zero, List.drop_zero, Nat.zero_add] using this
  induction n with
  | zero => intro j hj v got; simp [readBitsFrom, bitsValueFrom]
  | succ n ih =>
    intro j hj v got
    rcases Nat.lt_or_eq_of_le hj with h | h
    · simp only [readBitsFrom, nextBit_afterBits hr h, composeBit]
      rw [ih (j + 1) h]
      have hd : s.pendingBits.drop j = s.pendingBits[j] :: s.pendingBits.drop (j + 1) := List.drop_eq_getElem_cons h
      rw [hd]
      by_cases hn : n + 1 ≤ s.pendingBits.length - j
      · rw [if_pos hn, if_pos (by omega), List.take_succ_cons]
        simp only [bitsValueFrom, List.foldl_cons]
        rw [show got + 1 + n = got + (n + 1) by omega, show j + 1 + n = j + (n + 1) by omega]
      · rw [if_neg hn, if_neg (by omega)]
        simp only [bitsValueFrom, List.foldl_cons]
        rw [show got + 1 + (s.pendingBits.length - (j + 1)) = got + (s.pendingBits.length - j) by omega]
    · subst h
      simp only [readBitsFrom, nextBit_afterAll hr, Nat.sub_self, List.drop_length]
      rw [if_neg (by omega)]
      simp [bitsValueFrom]

/-- read_bits(n) on a ready cursor (R151): the first `n` pending bits, or all of them and end of input. -/
theorem readBits_ready {s : State} (hr : s.ReadyToRead) (n : Nat) :
    readBits n s =
      if n ≤ s.pendingBits.length then
        .bits (BitVec.ofNat 32 (bitsValue (s.pendingBits.take n))) n false (s.afterBits n)
      else
        .bits (BitVec.ofNat 32 (bitsValue s.pendingBits)) s.pendingBits.length true (s.afterBits s.pendingBits.length) := by
  have h := readBitsFrom_ready hr n 0 0
  simp only [Nat.zero_add] at h
  exact h

/-- The value of `n` bits is below 2^n. -/
theorem bitsValue_lt (bs : List Bool) : bitsValue bs < 2 ^ bs.length := by
  suffices h : ∀ v, bitsValueFrom v bs < (v + 1) * 2 ^ bs.length by simpa [bitsValueFrom, bitsValue] using h 0
  induction bs with
  | nil => intro v; simp [bitsValueFrom]
  | cons b bs ih =>
    intro v
    have := ih (2 * v + b.toNat)
    simp only [bitsValueFrom, List.foldl_cons, List.length_cons, Nat.pow_succ] at this ⊢
    have hb : b.toNat ≤ 1 := Bool.toNat_le b
    calc _ < (2 * v + b.toNat + 1) * 2 ^ bs.length := this
      _ ≤ (2 * v + 1 + 1) * 2 ^ bs.length := Nat.mul_le_mul_right _ (by omega)
      _ = _ := by ring

/-- count_unary on a ready cursor, with `j` pending bits consumed and `k` ones counted (R152). -/
theorem countUnaryFrom_ready {s : State} (hr : s.ReadyToRead) (room : Nat) :
    ∀ j k, j ≤ s.pendingBits.length → countUnaryFrom room k (s.afterBits j) =
      let r := (((s.pendingBits.drop j).take room).takeWhile (fun b => b)).length
      if r = room then .run (k + r) true false (s.afterBits (j + r))
      else if j + r = s.pendingBits.length then .run (k + r) false true (s.afterBits (j + r))
      else .run (k + r) false false (s.afterBits (j + r + 1)) := by
  induction room with
  | zero => intro j k hj; simp [countUnaryFrom]
  | succ room ih =>
    intro j k hj
    rcases Nat.lt_or_eq_of_le hj with h | h
    · have hd : s.pendingBits.drop j = s.pendingBits[j] :: s.pendingBits.drop (j + 1) := List.drop_eq_getElem_cons h
      simp only [countUnaryFrom, nextBit_afterBits hr h, hd, List.take_succ_cons]
      cases hb : s.pendingBits[j] with
      | false => 
        simp only [List.takeWhile_cons, Bool.false_eq_true, if_false, List.length_nil, Nat.add_zero]
        rw [if_neg (by omega), if_neg (by omega)]
      | true =>
        simp only [List.takeWhile_cons, if_true, List.length_cons]
        rw [ih (j + 1) (k + 1) h]
        simp only [Nat.add_right_cancel_iff]
        generalize (((s.pendingBits.drop (j + 1)).take room).takeWhile (fun b => b)).length = r
        rw [show j + 1 + r = j + (r + 1) by omega, show k + 1 + r = k + (r + 1) by omega]
    · subst h
      simp only [countUnaryFrom, nextBit_afterAll hr, List.drop_length, List.take_nil, List.takeWhile_nil,
        List.length_nil, Nat.add_zero]
      rw [if_neg (by omega)]
      rfl

/-- count_unary on a ready cursor (R152). -/
theorem countUnary_ready {s : State} (hr : s.ReadyToRead) :
    countUnary s =
      if onesRun s.pendingBits = UNARY_CAP then .run UNARY_CAP true false (s.afterBits UNARY_CAP)
      else if onesRun s.pendingBits = s.pendingBits.length then
        .run (onesRun s.pendingBits) false true (s.afterBits (onesRun s.pendingBits))
      else .run (onesRun s.pendingBits) false false (s.afterBits (onesRun s.pendingBits + 1)) := by
  have h := countUnaryFrom_ready hr UNARY_CAP 0 0 (Nat.zero_le _)
  simp only [State.afterBits_zero, Nat.zero_add, List.drop_zero] at h
  rw [countUnary, h]
  change (if onesRun s.pendingBits = UNARY_CAP then
      UnaryRead.run (onesRun s.pendingBits) true false (s.afterBits (onesRun s.pendingBits)) else _) = _
  by_cases h' : onesRun s.pendingBits = UNARY_CAP
  · rw [if_pos h', if_pos h', h']
  · rw [if_neg h', if_neg h']; rfl

end Sys2Proof.Machine
end

