-- ==== Sys2Proof/Laws/Store.lean ====
section
/-! SUPPORT. What the loops that store to MEM can do, once: which bytes they may change, and that MEM keeps its canonical
form. -/

namespace Sys2Proof.Machine

/-- Nothing but MEM bytes at `lo .. hi - 1` differs; no byte becomes unwritten; the canonical form is kept. -/
def State.StoredTo (s t : State) (lo hi : Nat) : Prop :=
  ∃ m, t = s.setMem m ∧ (∀ a, a < lo ∨ hi ≤ a → cellRead m a = s.byteAt a) ∧
    (∀ a, (s.byteAt a).isSome = true → (cellRead m a).isSome = true) ∧
    (CellsWf s.memSize s.mem → CellsWf s.memSize m)

theorem storedTo_refl (s : State) (lo hi : Nat) : s.StoredTo s lo hi :=
  ⟨s.mem, rfl, fun _ _ => rfl, fun _ h => h, fun h => h⟩

theorem storedTo_trans {s t u : State} {lo hi : Nat} (h : s.StoredTo t lo hi) (h' : t.StoredTo u lo hi) :
    s.StoredTo u lo hi := by
  obtain ⟨m, rfl, ho, hs, hw⟩ := h
  obtain ⟨m', rfl, ho', hs', hw'⟩ := h'
  refine ⟨m', rfl, fun a ha => ?_, fun a ha => hs' a (hs a ha), fun h => hw' (hw h)⟩
  rw [ho' a ha]; exact ho a ha

theorem storedTo_mono {s t : State} {lo hi lo' hi' : Nat} (h : s.StoredTo t lo hi) (hl : lo' ≤ lo) (hh : hi ≤ hi') :
    s.StoredTo t lo' hi' := by
  obtain ⟨m, rfl, ho, hs, hw⟩ := h
  exact ⟨m, rfl, fun a ha => ho a (by omega), hs, hw⟩

/-- Storing one byte. -/
theorem storedTo_writeMem {s t : State} {a : Nat} {b : Byte} (h : writeMem s a b = .ok t) : s.StoredTo t a (a + 1) := by
  obtain ⟨ha, rfl⟩ := writeMem_eq_ok h
  refine ⟨_, rfl, fun x hx => ?_, fun x hx => ?_, fun hw => cellsWf_cellWrite hw b ha⟩
  · exact cellRead_cellWrite_ne _ _ (by omega)
  · rw [cellRead_cellWrite]; split <;> simp_all [State.byteAt]

/-- What a store leaves alone. -/
theorem storedTo_byteAt {s t : State} {lo hi a : Nat} (h : s.StoredTo t lo hi) (ha : a < lo ∨ hi ≤ a) :
    t.byteAt a = s.byteAt a := by
  obtain ⟨m, rfl, ho, -, -⟩ := h; exact ho a ha

/-! OC.COPY's loop. -/

/-- overlap_copy stores to its destination only (R170). -/
theorem storedTo_overlapCopy {src dst n i : Nat} {s t : State} (h : overlapCopy src dst n i s = .ok t) :
    s.StoredTo t (dst + i) (dst + (i + n)) := by
  induction n generalizing i s with
  | zero => simp only [overlapCopy] at h; cases h; exact storedTo_refl _ _ _
  | succ n ih =>
    simp only [overlapCopy] at h
    split at h
    · cases h
    · split at h
      · cases h
      · rename_i hw
        exact storedTo_trans (storedTo_mono (storedTo_writeMem hw) (by omega) (by omega))
          (storedTo_mono (ih h) (by omega) (by omega))

/-! PP.ASM's and PP.ALPHA's loops. -/

/-- The channels of one pixel are stored inside that pixel (R231), for lanes below the channel count. -/
theorem storedTo_asmPixel {p n c : Nat} {s t : State} (h : asmPixel p n c s = .ok t)
    (hl : ∀ d, c ≤ d → d < c + n → s.lane d < s.channels) :
    s.StoredTo t (s.base .output + p * s.channels) (s.base .output + (p + 1) * s.channels) := by
  induction n generalizing c s with
  | zero => simp only [asmPixel] at h; cases h; exact storedTo_refl _ _ _
  | succ n ih =>
    simp only [asmPixel] at h
    split at h
    · cases h
    · split at h
      · cases h
      · rename_i s' hw
        have hlane := hl c (Nat.le_refl _) (by omega)
        have hadd : (p + 1) * s.channels = p * s.channels + s.channels := by ring
        have h1 := storedTo_mono (storedTo_writeMem hw) (lo' := s.base .output + p * s.channels)
          (hi' := s.base .output + (p + 1) * s.channels) (by omega) (by omega)
        obtain ⟨m, rfl, -⟩ := id h1
        exact storedTo_trans h1 (ih h (fun d hd hd' => hl d (by omega) (by omega)))

/-- The pixels are stored inside the image (R231). -/
theorem storedTo_asmImage {n p : Nat} {s t : State} (h : asmImage n p s = .ok t)
    (hl : ∀ d, d < s.channels → s.lane d < s.channels) :
    s.StoredTo t (s.base .output + p * s.channels) (s.base .output + (p + n) * s.channels) := by
  induction n generalizing p s with
  | zero => simp only [asmImage] at h; cases h; exact storedTo_refl _ _ _
  | succ n ih =>
    simp only [asmImage] at h
    split at h
    · cases h
    · rename_i s' hp
      have h1 := storedTo_asmPixel hp (fun d _ hd => hl d (by omega))
      have ha : (p + 1) * s.channels ≤ (p + (n + 1)) * s.channels := Nat.mul_le_mul_right _ (by omega)
      have hb : p * s.channels ≤ (p + 1) * s.channels := Nat.mul_le_mul_right _ (by omega)
      obtain ⟨m, rfl, -⟩ := id h1
      have h2 := ih h hl
      rw [show p + 1 + n = p + (n + 1) by omega] at h2
      exact storedTo_trans (storedTo_mono h1 (by omega) (by omega)) (storedTo_mono h2 (by simpa using hb) (Nat.le_refl _))

/-- One run of PP.ALPHA stores inside the pixels it covers (R234). -/
theorem storedTo_fillAlpha {a : Byte} {n p : Nat} {s t : State} (h : fillAlpha a n p s = .ok t)
    (hl : s.alphaLane < s.channels) :
    s.StoredTo t (s.base .output + p * s.channels) (s.base .output + (p + n) * s.channels) := by
  induction n generalizing p s with
  | zero => simp only [fillAlpha] at h; cases h; exact storedTo_refl _ _ _
  | succ n ih =>
    simp only [fillAlpha] at h
    split at h
    · cases h
    · rename_i s' hw
      have e1 : (p + 1) * s.channels = p * s.channels + s.channels := by ring
      have e2 : (p + 1) * s.channels ≤ (p + (n + 1)) * s.channels := Nat.mul_le_mul_right _ (by omega)
      have h1 := storedTo_mono (storedTo_writeMem hw) (lo' := s.base .output + p * s.channels)
        (hi' := s.base .output + (p + (n + 1)) * s.channels) (by omega) (by omega)
      obtain ⟨m, rfl, -⟩ := id h1
      have h2 := ih h hl
      rw [show p + 1 + n = p + (n + 1) by omega] at h2
      exact storedTo_trans h1 (storedTo_mono h2 (by simp; omega) (Nat.le_refl _))

/-! The cipher commands' loop. -/

/-- The in-place transform stores to the bytes it transforms (R260). -/
theorem storedTo_transformLoop {gen : State → Word → Nat → Except Fault (Byte × Word)} {pre : Byte → Byte} {bias : Bool}
    {n i : Nat} {g g' : Word} {s t : State} (h : transformLoop gen pre bias n i g s = .ok (g', t)) :
    s.StoredTo t (s.base .output + i) (s.base .output + (i + n)) := by
  induction n generalizing i g s with
  | zero => simp only [transformLoop] at h; cases h; exact storedTo_refl _ _ _
  | succ n ih =>
    simp only [transformLoop] at h
    split at h
    · cases h
    · split at h
      · cases h
      · split at h
        · cases h
        · rename_i hw
          have h1 := storedTo_mono (storedTo_writeMem hw) (lo' := s.base .output + i)
            (hi' := s.base .output + (i + (n + 1))) (by omega) (by omega)
          obtain ⟨m, rfl, -⟩ := id h1
          exact storedTo_trans h1 (storedTo_mono (ih h) (by simp) (by simp; omega))

end Sys2Proof.Machine
end

