-- ==== Sys2Proof/Laws/Huffman.lean ====
section
/-! SUPPORT. What the pieces of HUF.BLDW, HUF.BLDL and HUF.DEC can do, once. -/

namespace Sys2Proof.Machine

/-! Reading the tables. -/

/-- The weights of a written table inside MEM (R201). -/
theorem readWeights_ready {s : State} (hi : s.Inside .table) (hr : s.Readable .table) (n i : Nat)
    (h : 4 * (i + n) ≤ s.len .table) :
    readWeights s n i = .ok ((List.range n).map (fun k => (s.tableEntry (i + k)).toNat)) := by
  induction n generalizing i with
  | zero => rfl
  | succ n ih =>
    rw [readWeights, readMem32_table hi hr (by omega)]
    simp only [ih (i + 1) (by omega)]
    rw [List.range_succ_eq_map, List.map_cons, List.map_map]
    congr 2
    apply List.map_congr_left
    intro k _
    simp only [Function.comp_apply, Nat.succ_eq_add_one]
    congr 2
    omega

/-- The lengths of a written table inside MEM: all of them, or the first one above 32 (R203, R205). -/
theorem readLengths_ready {s : State} (hi : s.Inside .table) (hr : s.Readable .table) (n i : Nat)
    (h : i + n ≤ s.len .table) :
    ((∀ k, k < n → (s.regionByte .table (i + k)).toNat ≤ 32) ∧
      readLengths s n i = .lengths ((List.range n).map (fun k => (s.regionByte .table (i + k)).toNat))) ∨
    ∃ k, k < n ∧ 32 < (s.regionByte .table (i + k)).toNat ∧
      (∀ j, j < k → (s.regionByte .table (i + j)).toNat ≤ 32) ∧ readLengths s n i = .tooLong (i + k) := by
  induction n generalizing i with
  | zero => exact .inl ⟨fun k hk => absurd hk (Nat.not_lt_zero k), rfl⟩
  | succ n ih =>
    have hstep : readLengths s (n + 1) i =
        if HLEN_MAX < (s.regionByte .table i).toNat then .tooLong i
        else match readLengths s n (i + 1) with
          | .fault f => .fault f
          | .tooLong j => .tooLong j
          | .lengths ls => .lengths ((s.regionByte .table i).toNat :: ls) := by
      rewrite [readLengths, readMem_region hi hr (by omega)]
      rfl
    have hmax : HLEN_MAX = 32 := rfl
    rw [hmax] at hstep
    by_cases hb : 32 < (s.regionByte .table i).toNat
    · refine .inr ⟨0, by omega, hb, fun j hj => absurd hj (Nat.not_lt_zero j), ?_⟩
      rw [hstep, if_pos hb]; rfl
    · rw [hstep, if_neg hb]
      rcases ih (i + 1) (by omega) with ⟨hall, he⟩ | ⟨k, hk, hbad, hall, he⟩
      · refine .inl ⟨fun k hk => ?_, ?_⟩
        · cases k with
          | zero => rw [Nat.add_zero]; omega
          | succ k =>
            have := hall k (by omega)
            rwa [show i + 1 + k = i + (k + 1) by omega] at this
        · rw [he]
          simp only [List.range_succ_eq_map, List.map_cons, List.map_map, Nat.add_zero]
          congr 2
          apply List.map_congr_left
          intro k _
          simp only [Function.comp_apply, Nat.succ_eq_add_one]
          congr 2
          omega
      · refine .inr ⟨k + 1, by omega, ?_, fun j hj => ?_, ?_⟩
        · rwa [show i + (k + 1) = i + 1 + k by omega]
        · cases j with
          | zero => rw [Nat.add_zero]; omega
          | succ j =>
            have := hall j (by omega)
            rwa [show i + 1 + j = i + (j + 1) by omega] at this
        · rw [he]; simp only [LengthsRead.tooLong.injEq]; omega

/-! Selecting live nodes. -/

/-- `x` is no heavier than `y`, the index deciding among equals (R202). -/
def LighterEq (x y : LiveNode) : Prop := x.1 < y.1 ∨ (x.1 = y.1 ∧ x.2 ≤ y.2)

theorem lighter_eq_true_iff (x y : LiveNode) : lighter x y = true ↔ x.1 < y.1 ∨ (x.1 = y.1 ∧ x.2 < y.2) := by
  simp [lighter]

/-- The lightest of a node and a list is one of them, and no heavier than any (R202). -/
theorem lightest_spec (m : LiveNode) (xs : List LiveNode) :
    (lightest m xs = m ∨ lightest m xs ∈ xs) ∧ LighterEq (lightest m xs) m ∧ ∀ x ∈ xs, LighterEq (lightest m xs) x := by
  induction xs generalizing m with
  | nil => exact ⟨.inl rfl, .inr ⟨rfl, Nat.le_refl _⟩, by simp⟩
  | cons x xs ih =>
    obtain ⟨hm, hle, hall⟩ := ih (if lighter x m then x else m)
    rw [lightest]
    cases hx : lighter x m with
    | true =>
      rw [hx] at hm hle hall
      simp only [if_true] at hm hle hall ⊢
      have := (lighter_eq_true_iff x m).1 hx
      refine ⟨.inr (by simpa using hm), ?_, fun y hy => ?_⟩
      · unfold LighterEq at hle ⊢; omega
      · rcases List.mem_cons.1 hy with rfl | hy
        · exact hle
        · exact hall y hy
    | false =>
      rw [hx] at hm hle hall
      simp only [Bool.false_eq_true, if_false] at hm hle hall ⊢
      have hn : ¬ (x.1 < m.1 ∨ (x.1 = m.1 ∧ x.2 < m.2)) := by
        rw [← lighter_eq_true_iff, hx]; exact Bool.false_ne_true
      refine ⟨?_, hle, fun y hy => ?_⟩
      · rcases hm with hm | hm
        · exact .inl hm
        · exact .inr (List.mem_cons_of_mem _ hm)
      · rcases List.mem_cons.1 hy with rfl | hy
        · unfold LighterEq at hle ⊢; omega
        · exact hall y hy

/-- takeLightest takes a lightest live node out of a nonempty list, and nothing else (R202). -/
theorem takeLightest_spec {live rest : List LiveNode} {a : LiveNode} (h : takeLightest live = some (a, rest)) :
    a ∈ live ∧ (∀ x ∈ live, LighterEq a x) ∧ rest = live.erase a := by
  cases live with
  | nil => cases h
  | cons x xs =>
    simp only [takeLightest, Option.some.injEq, Prod.mk.injEq] at h
    obtain ⟨rfl, rfl⟩ := h
    obtain ⟨hm, hle, hall⟩ := lightest_spec x xs
    refine ⟨?_, fun y hy => ?_, rfl⟩
    · rcases hm with hm | hm
      · rw [hm]; exact List.mem_cons_self
      · exact List.mem_cons_of_mem _ hm
    · rcases List.mem_cons.1 hy with rfl | hy
      · exact hle
      · exact hall y hy

theorem takeLightest_isSome {live : List LiveNode} (h : live ≠ []) :
    ∃ a rest, takeLightest live = some (a, rest) ∧ rest.length + 1 = live.length := by
  cases live with
  | nil => exact absurd rfl h
  | cons x xs =>
    have hs := takeLightest_spec (live := x :: xs) rfl
    refine ⟨_, _, rfl, ?_⟩
    rw [List.length_erase_of_mem hs.1]
    simp

/-- The merge loop makes one internal node for each live node but the last (R202). -/
theorem mergeLoop_next {fuel : Nat} {live : List LiveNode} {t : TreeBuild} (h : live.length ≤ fuel) :
    (mergeLoop fuel live t).next = t.next + (live.length - 1) := by
  induction fuel generalizing live t with
  | zero => simp only [mergeLoop]; omega
  | succ fuel ih =>
    rw [mergeLoop]
    by_cases h0 : live = []
    · subst h0; simp [takeLightest]
    · obtain ⟨a, rest, ha, hla⟩ := takeLightest_isSome h0
      rw [ha]
      simp only
      by_cases h1 : rest = []
      · subst h1
        simp only [takeLightest]
        simp only [List.length_nil] at hla
        omega
      · obtain ⟨b, rest', hb, hlb⟩ := takeLightest_isSome h1
        rw [hb]
        simp only
        rw [ih (by simp; omega)]
        simp [TreeBuild.merge]
        omega

/-! Walking and decoding. -/

/-- A walk moves nothing but the cursor (R206). -/
theorem movedTo_walk {pol : Bool} {fuel n : Nat} {s : State} :
    (∀ m t, walk pol fuel n s = .leaf m t → s.MovedTo t ∧ m < s.hnsym.toNat) ∧
      (∀ t, walk pol fuel n s = .eoi t → s.MovedTo t) := by
  induction fuel generalizing n s with
  | zero =>
    unfold walk
    refine ⟨fun m t h => ?_, fun t h => ?_⟩ <;> split at h <;> cases h
    · exact ⟨movedTo_refl _, by assumption⟩
    · exact movedTo_refl _
  | succ fuel ih =>
    unfold walk
    refine ⟨fun m t h => ?_, fun t h => ?_⟩
    · split at h
      · cases h; exact ⟨movedTo_refl _, by assumption⟩
      · simp only at h
        split at h
        · cases h
        · cases h
        · rename_i hb
          split at h
          · cases h
          · obtain ⟨hm, hlt⟩ := ih.1 _ _ h
            have hb' := nextBit_bit hb
            refine ⟨movedTo_trans hb' hm, ?_⟩
            obtain ⟨p, b, c, rfl⟩ := hb'
            exact hlt
    · split at h
      · cases h
      · simp only at h
        split at h
        · cases h
        · cases h; exact movedTo_refl _
        · rename_i hb
          split at h
          · cases h
          · exact movedTo_trans (nextBit_bit hb) (ih.2 _ h)

/-- The bits after a walk are what is left when the bits it took are dropped. -/
theorem refWalk_some {s : State} {pol : Bool} {bs rest : List Bool} {n m : Nat}
    (h : refWalk s pol bs n = some (m, rest)) : ∃ k, k ≤ bs.length ∧ rest = bs.drop k := by
  induction bs generalizing n with
  | nil =>
    simp only [refWalk] at h
    split at h <;> cases h
    exact ⟨0, Nat.le_refl _, rfl⟩
  | cons b bs ih =>
    simp only [refWalk] at h
    split at h
    · cases h; exact ⟨0, Nat.zero_le _, rfl⟩
    · obtain ⟨k, hk, hr⟩ := ih h
      exact ⟨k + 1, by simp only [List.length_cons]; omega, by simpa using hr⟩

/-- A walk on a ready cursor and a listed tree (R206): where the input reaches, the leaf and the cursor after it. -/
theorem walk_ready {s : State} (hr : s.ReadyToRead) (ht : s.TreeListed) (pol : Bool) (fuel : Nat) :
    ∀ j n, j ≤ s.pendingBits.length → s.pendingBits.length - j ≤ fuel → n < s.hnext.toNat →
      walk pol fuel n (s.afterBits j) =
        match refWalk s pol (s.pendingBits.drop j) n with
        | none => .eoi (s.afterBits s.pendingBits.length)
        | some (m, rest) => .leaf m (s.afterBits (s.pendingBits.length - rest.length)) := by
  have hfr : ∀ k, (s.afterBits k).hnsym = s.hnsym ∧ ∀ c m, (s.afterBits k).child c m = s.child c m := by
    intro k
    obtain ⟨p, b, c, he⟩ := movedTo_afterBits s k
    rw [he]
    exact ⟨rfl, fun _ _ => rfl⟩
  induction fuel with
  | zero =>
    intro j n hj hf hn
    obtain rfl : j = s.pendingBits.length := by omega
    unfold walk
    rw [List.drop_length, (hfr _).1]
    simp only [refWalk]
    split <;> simp
  | succ fuel ih =>
    intro j n hj hf hn
    unfold walk
    rw [(hfr _).1]
    rcases Nat.lt_or_eq_of_le hj with h | h
    · rw [List.drop_eq_getElem_cons h]
      simp only [refWalk, nextBit_afterBits hr h]
      split
      · simp only [List.length_cons, List.length_drop]
        congr 2
        omega
      · rename_i hnn
        rw [(hfr _).2]
        have hc := ht.2 n hn (by omega) (s.pendingBits[j] != pol)
        cases hch : s.child (s.pendingBits[j] != pol) n with
        | none => rw [hch] at hc; simp at hc
        | some m =>
          rw [hch] at hc
          simp only [Option.any_some, decide_eq_true_eq] at hc
          simp only [Option.getD_some]
          exact ih (j + 1) m.toNat h (by omega) hc
    · subst h
      rw [List.drop_length]
      simp only [refWalk, nextBit_afterAll hr]
      split <;> simp

/-- What HUF.DEC's symbol loop can do (R206): it ends after `j` more symbols with PRODUCED = k + j, having changed only
their output bytes and the cursor; Complete with all `m`, Truncated with fewer. -/
theorem decodeSymbols_ok {pol : Bool} {m k : Nat} {s t : State} {r : Ending} (h : decodeSymbols pol m k s = .ok (t, r)) :
    ∃ j u v, s.StoredTo u (s.base .output + k) (s.base .output + (k + j)) ∧ u.MovedTo v ∧ t = v.setProduced (k + j) ∧
      ((r = .complete ∧ j = m) ∨ (r = .truncated .tEoi (BitVec.ofNat 32 (k + j)) ∧ j < m)) := by
  induction m generalizing k s with
  | zero =>
    simp only [decodeSymbols] at h
    cases h
    exact ⟨0, s, s, storedTo_refl _ _ _, movedTo_refl _, rfl, .inl ⟨rfl, rfl⟩⟩
  | succ m ih =>
    simp only [decodeSymbols] at h
    split at h
    · cases h
    · rename_i s' hw
      cases h
      exact ⟨0, s, s', storedTo_refl _ _ _, movedTo_walk.2 _ hw, rfl, .inr ⟨rfl, by omega⟩⟩
    · rename_i n s' hw
      have hm := (movedTo_walk.1 _ _ hw).1
      split at h
      · cases h
      · rename_i s'' hs
        obtain ⟨j, u, v, h1, h2, ht, hr⟩ := ih h
        obtain ⟨p, b, c, rfl⟩ := hm
        have hb : ((s.setCsr IN_POS p).setBits b c).base .output = s.base .output :=
          State.setCsr_csrNat_ne s p (baseReg_ne_inPos .output)
        rw [hb] at hs
        obtain ⟨ha, rfl⟩ := writeMem_eq_ok hs
        have hb' : (((s.setCsr IN_POS p).setBits b c).setMem
            (cellWrite ((s.setCsr IN_POS p).setBits b c).mem (s.base .output + k) (BitVec.ofNat 8 n))).base .output =
            s.base .output := hb
        rw [hb'] at h1
        obtain ⟨mm, rfl, ho, hsome, hwf⟩ := h1
        refine ⟨j + 1, s.setMem mm, v, ⟨mm, rfl, fun a ha' => ?_, fun a hsa => ?_, fun hcw => ?_⟩, ?_, ?_, ?_⟩
        · rw [ho a (by omega)]
          exact cellRead_cellWrite_ne _ _ (by omega)
        · apply hsome
          show (cellRead (cellWrite s.mem _ _) a).isSome = true
          rw [cellRead_cellWrite]
          split
          · rfl
          · exact hsa
        · exact hwf (cellsWf_cellWrite hcw _ ha)
        · obtain ⟨p', b', c', rfl⟩ := h2
          refine ⟨p', b', c', ?_⟩
          show (((s.setCsr IN_POS p).setCsr IN_POS p').setMem mm).setBits b' c' = _
          rw [State.setCsr_setCsr]
          rfl
        · rw [ht]; congr 1; omega
        · rcases hr with ⟨rfl, rfl⟩ | ⟨rfl, hlt⟩
          · exact .inl ⟨rfl, rfl⟩
          · exact .inr ⟨by rw [show k + 1 + j = k + (j + 1) by omega], by omega⟩

end Sys2Proof.Machine
end

