-- ==== Sys2Proof/Laws/Lz.lean ====
section
/-! SUPPORT. What the pieces of LZ.DEC can do, once: tokens as functions of the pending bits, distances, the plan of a
match, the bytes a match produces, and what each of them leaves alone. -/

namespace Sys2Proof.Machine

/-! The configuration does not move with the cursor. -/

theorem State.afterBits_csr (s : State) (k : Nat) {r : Fin 34} (h : r ≠ IN_POS) : (s.afterBits k).csr r = s.csr r :=
  (movedTo_frame (movedTo_afterBits s k)).2.2.2.2.1 r h

@[simp] theorem State.afterBits_litpol (s : State) (k : Nat) : (s.afterBits k).litpol = s.litpol := by
  simp only [State.litpol, s.afterBits_csr k (by decide : LZ_CTRL ≠ IN_POS)]

@[simp] theorem State.afterBits_twolvl (s : State) (k : Nat) : (s.afterBits k).twolvl = s.twolvl := by
  simp only [State.twolvl, s.afterBits_csr k (by decide : LZ_CTRL ≠ IN_POS)]

@[simp] theorem State.afterBits_shortpol (s : State) (k : Nat) : (s.afterBits k).shortpol = s.shortpol := by
  simp only [State.shortpol, s.afterBits_csr k (by decide : LZ_CTRL ≠ IN_POS)]

@[simp] theorem State.afterBits_under (s : State) (k : Nat) : (s.afterBits k).under = s.under := by
  simp only [State.under, s.afterBits_csr k (by decide : LZ_CTRL ≠ IN_POS)]

@[simp] theorem State.afterBits_tableMode (s : State) (k : Nat) : (s.afterBits k).tableMode = s.tableMode := by
  simp only [State.tableMode, s.afterBits_csr k (by decide : LZ_CTRL ≠ IN_POS)]

/-- Consuming `k` bits after `j` is consuming `j + k`. -/
theorem State.afterBits_add {s : State} (hr : s.ReadyToRead) {j k : Nat} (h : j + k ≤ s.pendingBits.length) :
    (s.afterBits j).afterBits k = s.afterBits (j + k) := by
  induction k with
  | zero => exact State.afterBits_zero _
  | succ k ih =>
    obtain ⟨hrj, hpj⟩ := State.afterBits_pending hr (by omega : j ≤ s.pendingBits.length)
    have hl : k < (s.afterBits j).bitsLeft := by
      rw [← State.pendingBits_length hrj.2.1, hpj, List.length_drop]; omega
    rw [← State.afterBits_succ hrj.2.1 hl, ih (by omega)]
    exact State.afterBits_succ hr.2.1 (by rw [← State.pendingBits_length hr.2.1]; omega)

/-! Tokens. -/

/-- The answer of read_token for a token and the cursor after it. -/
def tokenRead : RefToken → State → TokenRead
  | .literal b, s => .literal b s
  | .copy br o l, s => .copy br o l s

/-- The bits after a field are what is left when its bits are dropped. -/
theorem refField_some {n v : Nat} {bs rest : List Bool} (h : refField n bs = some (v, rest)) :
    n ≤ bs.length ∧ v = bitsValue (bs.take n) ∧ rest = bs.drop n := by
  unfold refField at h
  split at h
  · cases h; exact ⟨by assumption, rfl, rfl⟩
  · cases h

/-- A token takes at least one bit, and the rest is what is left when its bits are dropped (R174). -/
theorem refToken_some {s : State} {bs rest : List Bool} {t : RefToken} (h : refToken s bs = some (t, rest)) :
    ∃ k, 0 < k ∧ k ≤ bs.length ∧ rest = bs.drop k := by
  have hm : ∀ br bs1 (t : RefToken) rest, refMatch br bs1 = some (t, rest) →
      ∃ k, k ≤ bs1.length ∧ rest = bs1.drop k := by
    intro br bs1 t rest h
    unfold refMatch at h
    split at h
    · cases h
    · rename_i o bs2 h1
      obtain ⟨ha, -, rfl⟩ := refField_some h1
      split at h
      · cases h
      · rename_i l bs3 h2
        obtain ⟨hb, -, rfl⟩ := refField_some h2
        cases h
        simp only [List.length_drop] at hb
        exact ⟨offB br + lenB br, by omega, by rw [List.drop_drop]⟩
  unfold refToken at h
  split at h
  · cases h
  · rename_i c1 bs1
    split at h
    · split at h
      · cases h
      · rename_i v bs2 h1
        obtain ⟨ha, -, rfl⟩ := refField_some h1
        cases h
        exact ⟨9, by omega, by simp only [List.length_cons]; omega, by simp⟩
    · split at h
      · split at h
        · cases h
        · rename_i c2 bs2
          obtain ⟨k, hk, hr⟩ := hm _ _ _ _ h
          exact ⟨k + 2, by omega, by simp only [List.length_cons]; omega, by simpa using hr⟩
      · obtain ⟨k, hk, hr⟩ := hm _ _ _ _ h
        exact ⟨k + 1, by omega, by simp only [List.length_cons]; omega, by simpa using hr⟩

theorem bitsOf_lt (v : Word) (lo width : Nat) : bitsOf v lo width < 2 ^ width := Nat.mod_lt _ (Nat.two_pow_pos _)

/-- The fields of a match on a ready cursor (R174). -/
theorem readMatch_ready {s : State} (hr : s.ReadyToRead) (br : Word) :
    readMatch br s =
      match refMatch br s.pendingBits with
      | none => .eoi (s.afterBits s.pendingBits.length)
      | some (t, rest) => tokenRead t (s.afterBits (s.pendingBits.length - rest.length)) := by
  have hval : ∀ n, n < 32 → ∀ bs : List Bool, (BitVec.ofNat 32 (bitsValue (bs.take n))).toNat = bitsValue (bs.take n) := by
    intro n hn bs
    have h1 := bitsValue_lt (bs.take n)
    have h2 : (bs.take n).length ≤ n := List.length_take_le n bs
    have h3 : 2 ^ (bs.take n).length ≤ 2 ^ 32 := Nat.pow_le_pow_right (by omega) (by omega)
    rw [BitVec.toNat_ofNat, Nat.mod_eq_of_lt (by omega)]
  have ho : offB br < 32 := bitsOf_lt br 0 5
  have hl : lenB br < 32 := bitsOf_lt br 5 5
  unfold readMatch refMatch refField
  rw [readBits_ready hr]
  by_cases h1 : offB br ≤ s.pendingBits.length
  · obtain ⟨hr1, hp1⟩ := State.afterBits_pending hr h1
    simp only [if_pos h1]
    rw [readBits_ready hr1, hp1, List.length_drop]
    by_cases h2 : lenB br ≤ s.pendingBits.length - offB br
    · simp only [if_pos h2, tokenRead, hval _ ho, hval _ hl, List.length_drop]
      rw [State.afterBits_add hr (by omega)]
      congr 2
      omega
    · simp only [if_neg h2]
      rw [State.afterBits_add hr (by omega)]
      congr 2
      omega
  · simp only [if_neg h1]

/-- read_token on a ready cursor (R174). -/
theorem readToken_ready {s : State} (hr : s.ReadyToRead) :
    readToken s =
      match refToken s s.pendingBits with
      | none => .eoi (s.afterBits s.pendingBits.length)
      | some (t, rest) => tokenRead t (s.afterBits (s.pendingBits.length - rest.length)) := by
  have hmatch : ∀ br j, j ≤ s.pendingBits.length → readMatch br (s.afterBits j) =
      match refMatch br (s.pendingBits.drop j) with
      | none => .eoi (s.afterBits s.pendingBits.length)
      | some (t, rest) => tokenRead t (s.afterBits (s.pendingBits.length - rest.length)) := by
    intro br j hj
    obtain ⟨hrj, hpj⟩ := State.afterBits_pending hr hj
    rw [readMatch_ready hrj, hpj]
    cases hm : refMatch br (s.pendingBits.drop j) with
    | none =>
      simp only [List.length_drop]
      rw [State.afterBits_add hr (by omega)]
      congr 2; omega
    | some p =>
      obtain ⟨t, rest⟩ := p
      have hle : rest.length ≤ (s.pendingBits.drop j).length := by
        unfold refMatch at hm
        split at hm
        · cases hm
        · rename_i h1
          obtain ⟨-, -, rfl⟩ := refField_some h1
          split at hm
          · cases hm
          · rename_i h2
            obtain ⟨-, -, rfl⟩ := refField_some h2
            cases hm
            simp only [List.length_drop]; omega
      simp only [List.length_drop] at hle ⊢
      rw [State.afterBits_add hr (by omega)]
      congr 2; omega
  unfold readToken refToken
  cases hp : s.pendingBits with
  | nil => rw [nextBit_eoi hr hp]; simp only [List.length_nil, State.afterBits_zero]
  | cons c1 bs1 =>
    have hlen : s.pendingBits.length = bs1.length + 1 := by rw [hp]; rfl
    have hd1 : s.pendingBits.drop 1 = bs1 := by rw [hp]; rfl
    obtain ⟨hn1, hp1, hr1⟩ := nextBit_pending hr hp
    rw [hn1]
    simp only
    by_cases hlit : c1 = s.litpol
    · rw [if_pos hlit, if_pos hlit]
      unfold readLiteral refField
      rw [readBits_ready hr1, hp1]
      by_cases h8 : 8 ≤ bs1.length
      · simp only [if_pos h8, tokenRead, List.length_cons, List.length_drop]
        rw [State.afterBits_add hr (by omega)]
        congr 1
        · apply BitVec.eq_of_toNat_eq; simp
        · congr 1; omega
      · simp only [if_neg h8, List.length_cons]
        rw [State.afterBits_add hr (by omega)]
        congr 2; omega
    · rw [if_neg hlit, if_neg hlit]
      by_cases htwo : s.twolvl = true
      · rw [if_pos htwo, if_pos htwo]
        cases bs1 with
        | nil => rw [nextBit_eoi hr1 hp1]; rfl
        | cons c2 bs2 =>
          obtain ⟨hn2, -, -⟩ := nextBit_pending hr1 hp1
          rw [hn2]
          simp only
          rw [State.afterBits_add hr (by rw [hlen]; simp)]
          have := hmatch (if c2 = s.shortpol then s.csr LZ_SHORT else s.csr LZ_LONG) 2 (by rw [hlen]; simp)
          rw [show s.pendingBits.drop 2 = bs2 by rw [hp]; rfl] at this
          rw [this, hp]
      · rw [if_neg htwo, if_neg htwo]
        have := hmatch (s.csr LZ_LONG) 1 (by omega)
        rw [hd1] at this
        rw [this, hp]

/-! Distances and plans. -/

/-- The table entry a TABLE-mode distance is read from lies inside the table. -/
theorem matchDistance_ready {s : State} (hi : s.tableMode = true → s.Inside .table ∧ s.Readable .table)
    (br : Word) (o : Nat) :
    matchDistance br o s =
      match refDistance s (o + distBias br) with
      | .error (c, info) => .bad c info
      | .ok d => .ok d := by
  unfold matchDistance refDistance
  split
  · rename_i ht
    obtain ⟨hin, hrd⟩ := hi ht
    split
    · rfl
    · rename_i hlt
      rw [readMem32_table hin hrd (by omega)]
      simp only
      split <;> rfl
  · split <;> rfl

/-- A planned copy stays inside the requested output (R177). -/
theorem planMatch_copy {br : Word} {o l opos d n : Nat} {s : State} (h : planMatch br o l opos s = .copy d n)
    (hlt : opos ≤ s.len .output) : opos + n ≤ s.len .output := by
  unfold planMatch at h
  split at h
  · cases h
  · cases h
  · split at h
    · cases h
    · split at h
      · cases h
      · split at h
        · split at h
          · cases h; omega
          · cases h
        · cases h; omega

/-- A match that ends the command ends it Truncated by the early-stop rule or Corrupt (R175 to R177). -/
theorem planMatch_stop {br : Word} {o l opos : Nat} {s : State} {r : Ending} (h : planMatch br o l opos s = .stop r) :
    r = .truncated .tLzStop (BitVec.ofNat 32 opos) ∨ (∃ info, r = .corrupt .eBounds info) ∨
      (∃ info, r = .corrupt .eLzDist info) ∨ (∃ info, r = .corrupt .eLzUnder info) ∨
      (∃ info, r = .corrupt .eLzOver info) := by
  unfold planMatch at h
  split at h
  · cases h
  · rename_i c info hd
    cases h
    unfold matchDistance at hd
    split at hd
    · split at hd
      · cases hd; exact .inr (.inl ⟨_, rfl⟩)
      · split at hd
        · cases hd
        · split at hd
          · cases hd; exact .inr (.inr (.inl ⟨_, rfl⟩))
          · cases hd
    · split at hd
      · cases hd; exact .inr (.inr (.inl ⟨_, rfl⟩))
      · cases hd
  · split at h
    · cases h; exact .inl rfl
    · split at h
      · cases h; exact .inr (.inr (.inr (.inl ⟨_, rfl⟩)))
      · split at h
        · split at h
          · cases h
          · cases h; exact .inr (.inr (.inr (.inr ⟨_, rfl⟩)))
        · cases h

/-! Producing bytes. -/

/-- Nothing but the MEM bytes at `lo .. hi - 1`, the window and the cursor differs; MEM keeps its canonical form. -/
def State.LzTo (s t : State) (lo hi : Nat) : Prop :=
  ∃ m w c p b n, t = (((s.setMem m).setWindow w c).setCsr IN_POS p).setBits b n ∧
    (∀ a, a < lo ∨ hi ≤ a → cellRead m a = s.byteAt a) ∧
    (∀ a, (s.byteAt a).isSome = true → (cellRead m a).isSome = true) ∧
    (CellsWf s.memSize s.mem → CellsWf s.memSize m)

theorem lzTo_of_movedTo {s t : State} (h : s.MovedTo t) (lo hi : Nat) : s.LzTo t lo hi := by
  obtain ⟨p, b, n, rfl⟩ := h
  refine ⟨s.mem, s.win, s.wcur.toNat, p, b, n, ?_, fun _ _ => rfl, fun _ h => h, fun h => h⟩
  have : (s.setMem s.mem).setWindow s.win s.wcur.toNat = s := by
    simp only [State.setWindow, BitVec.ofNat_toNat, BitVec.setWidth_eq]; rfl
  rw [this]

theorem lzTo_of_storedTo {s t : State} {lo hi : Nat} (h : s.StoredTo t lo hi) (w : Cells Byte) (c : Nat) :
    s.LzTo (t.setWindow w c) lo hi := by
  obtain ⟨m, rfl, ho, hs, hw⟩ := h
  refine ⟨m, w, c, s.csr IN_POS, s.bbuf, s.bcnt, ?_, ho, hs, hw⟩
  show (s.setMem m).setWindow w c = (((s.setCsr IN_POS (s.csr IN_POS)).setMem m).setWindow w c).setBits s.bbuf s.bcnt
  rw [State.setCsr_csr_same]
  rfl

theorem lzTo_storedTo {s t : State} {lo hi : Nat} (h : s.StoredTo t lo hi) : s.LzTo t lo hi := by
  have h' := lzTo_of_storedTo h t.win t.wcur.toNat
  have : t.setWindow t.win t.wcur.toNat = t := by
    simp only [State.setWindow, BitVec.ofNat_toNat, BitVec.setWidth_eq]
  rwa [this] at h'

theorem lzTo_trans {s t u : State} {lo hi : Nat} (h : s.LzTo t lo hi) (h' : t.LzTo u lo hi) : s.LzTo u lo hi := by
  obtain ⟨m, w, c, p, b, n, rfl, ho, hs, hw⟩ := h
  obtain ⟨m', w', c', p', b', n', rfl, ho', hs', hw'⟩ := h'
  refine ⟨m', w', c', p', b', n', ?_, fun a ha => ?_, fun a ha => hs' a (hs a ha), fun h => hw' (hw h)⟩
  · show ((((s.setCsr IN_POS p).setCsr IN_POS p').setMem m').setWindow w' c').setBits b' n' = _
    rw [State.setCsr_setCsr]
    rfl
  · rw [ho' a ha]; exact ho a ha

theorem lzTo_mono {s t : State} {lo hi lo' hi' : Nat} (h : s.LzTo t lo hi) (hl : lo' ≤ lo) (hh : hi ≤ hi') :
    s.LzTo t lo' hi' := by
  obtain ⟨m, w, c, p, b, n, rfl, ho, hs, hw⟩ := h
  exact ⟨m, w, c, p, b, n, rfl, fun a ha => ho a (by omega), hs, hw⟩

/-- What LZ.DEC's pieces leave alone. -/
theorem lzTo_frame {s t : State} {lo hi : Nat} (h : s.LzTo t lo hi) :
    t.memSize = s.memSize ∧ t.bord = s.bord ∧ t.bopen = s.bopen ∧ (∀ r, r ≠ IN_POS → t.csr r = s.csr r) ∧
      (∀ g, t.base g = s.base g) ∧ (∀ g, t.len g = s.len g) := by
  obtain ⟨m, w, c, p, b, n, rfl, -, -, -⟩ := h
  refine ⟨rfl, rfl, rfl, fun r hr => ?_, fun g => ?_, fun g => ?_⟩
  · exact State.setCsr_csr_ne s p (Ne.symm hr)
  · exact State.setCsr_csrNat_ne s p (baseReg_ne_inPos g)
  · exact State.setCsr_csrNat_ne s p (lenReg_ne_inPos g)

/-- put stores one byte of the output and mirrors it into the window in DIST mode (R178). -/
theorem putByte_cases {opos : Nat} {b : Byte} {s t : State} (h : putByte opos b s = .ok t) :
    s.base .output + opos < s.memSize ∧
      t = if s.tableMode then s.setMem (cellWrite s.mem (s.base .output + opos) b)
        else (s.setMem (cellWrite s.mem (s.base .output + opos) b)).setWindow (cellWrite s.win s.wcur.toNat b)
          ((s.wcur.toNat + 1) % s.csrNat LZ_WCAP) := by
  unfold putByte at h
  split at h
  · cases h
  · rename_i s' hw
    obtain ⟨ha, rfl⟩ := writeMem_eq_ok hw
    refine ⟨ha, ?_⟩
    split at h <;> cases h
    · rw [if_pos (by assumption)]
    · rw [if_neg (by assumption)]

theorem lzTo_putByte {opos : Nat} {b : Byte} {s t : State} (h : putByte opos b s = .ok t) :
    s.LzTo t (s.base .output + opos) (s.base .output + (opos + 1)) := by
  obtain ⟨ha, rfl⟩ := putByte_cases h
  have hst := storedTo_writeMem (writeMem_ok (s := s) (b := b) ha)
  split
  · exact lzTo_storedTo hst
  · exact lzTo_of_storedTo hst _ _

/-- copy_match stores to the bytes it produces (R178). -/
theorem lzTo_copyMatch {d n opos : Nat} {s t : State} (h : copyMatch d n opos s = .ok t) :
    s.LzTo t (s.base .output + opos) (s.base .output + (opos + n)) := by
  induction n generalizing opos s with
  | zero => simp only [copyMatch] at h; cases h; exact lzTo_of_movedTo (movedTo_refl _) _ _
  | succ n ih =>
    simp only [copyMatch] at h
    split at h
    · cases h
    · split at h
      · cases h
      · rename_i hp
        have h1 := lzTo_putByte hp
        have hb := (lzTo_frame h1).2.2.2.2.1 .output
        exact lzTo_trans (lzTo_mono h1 (Nat.le_refl _) (by omega)) (lzTo_mono (ih h) (by omega) (by omega))

/-! The cursor a token leaves, in any state. -/

theorem movedTo_readMatch {br : Word} {s : State} :
    (∀ br' o l t, readMatch br s = .copy br' o l t → s.MovedTo t) ∧ (∀ t, readMatch br s = .eoi t → s.MovedTo t) ∧
      (∀ b t, readMatch br s = .literal b t → s.MovedTo t) := by
  unfold readMatch
  refine ⟨fun br' o l t h => ?_, fun t h => ?_, fun b t h => ?_⟩
  all_goals
    split at h
    · cases h
    · rename_i h1
      first
        | (cases h; exact readBits_bits h1)
        | cases h
    · rename_i h1
      split at h
      · cases h
      · rename_i h2
        first
          | (cases h; exact movedTo_trans (readBits_bits h1) (readBits_bits h2))
          | cases h
      · rename_i h2
        first
          | (cases h; exact movedTo_trans (readBits_bits h1) (readBits_bits h2))
          | cases h

/-- read_token moves nothing but the cursor (R174). -/
theorem movedTo_readToken {s : State} :
    (∀ br o l t, readToken s = .copy br o l t → s.MovedTo t) ∧ (∀ t, readToken s = .eoi t → s.MovedTo t) ∧
      (∀ b t, readToken s = .literal b t → s.MovedTo t) := by
  have hlit : ∀ u : State, (∀ br o l t, readLiteral u = .copy br o l t → u.MovedTo t) ∧
      (∀ t, readLiteral u = .eoi t → u.MovedTo t) ∧ (∀ b t, readLiteral u = .literal b t → u.MovedTo t) := by
    intro u
    unfold readLiteral
    refine ⟨fun br' o l t h => ?_, fun t h => ?_, fun b t h => ?_⟩
    all_goals
      split at h
      · cases h
      · rename_i h1
        first
          | (cases h; exact readBits_bits h1)
          | cases h
      · rename_i h1
        first
          | (cases h; exact readBits_bits h1)
          | cases h
  unfold readToken
  refine ⟨fun br' o l t h => ?_, fun t h => ?_, fun b t h => ?_⟩
  all_goals
    split at h
    · cases h
    · first
        | (cases h; exact movedTo_refl _)
        | cases h
    · rename_i h1
      split at h
      · first
          | exact movedTo_trans (nextBit_bit h1) ((hlit _).1 _ _ _ _ h)
          | exact movedTo_trans (nextBit_bit h1) ((hlit _).2.1 _ h)
          | exact movedTo_trans (nextBit_bit h1) ((hlit _).2.2 _ _ h)
      · split at h
        · split at h
          · cases h
          · first
              | (cases h; exact nextBit_bit h1)
              | cases h
          · rename_i h2
            first
              | exact movedTo_trans (movedTo_trans (nextBit_bit h1) (nextBit_bit h2)) (movedTo_readMatch.1 _ _ _ _ h)
              | exact movedTo_trans (movedTo_trans (nextBit_bit h1) (nextBit_bit h2)) (movedTo_readMatch.2.1 _ h)
              | exact movedTo_trans (movedTo_trans (nextBit_bit h1) (nextBit_bit h2)) (movedTo_readMatch.2.2 _ _ h)
        · first
            | exact movedTo_trans (nextBit_bit h1) (movedTo_readMatch.1 _ _ _ _ h)
            | exact movedTo_trans (nextBit_bit h1) (movedTo_readMatch.2.1 _ h)
            | exact movedTo_trans (nextBit_bit h1) (movedTo_readMatch.2.2 _ _ h)

/-! The loop. -/

/-- What the loop of LZ.DEC can do (R179): it ends after `k` bytes with PRODUCED = k <= OUT_LEN, having changed only the
output bytes up to `k`, the window and the cursor; Complete exactly with the whole output, Truncated with `k` as its
information, or Corrupt. -/
theorem lzLoop_ok {fuel opos : Nat} {s t : State} {r : Ending} (h : lzLoop fuel opos s = .ok (t, r))
    (hle : opos ≤ s.len .output) :
    ∃ u k, t = u.setProduced k ∧ opos ≤ k ∧ k ≤ s.len .output ∧
      s.LzTo u (s.base .output + opos) (s.base .output + k) ∧
      ((r = .complete ∧ k = s.len .output) ∨ r = .truncated .tEoi (BitVec.ofNat 32 k) ∨
        r = .truncated .tLzStop (BitVec.ofNat 32 k) ∨ ∃ c info, r = .corrupt c info) := by
  induction fuel generalizing opos s with
  | zero =>
    unfold lzLoop at h
    split at h
    · cases h
      exact ⟨s, opos, rfl, Nat.le_refl _, hle, lzTo_of_movedTo (movedTo_refl _) _ _, .inl ⟨rfl, by omega⟩⟩
    · cases h
      exact ⟨s, opos, rfl, Nat.le_refl _, hle, lzTo_of_movedTo (movedTo_refl _) _ _, .inr (.inl rfl)⟩
  | succ fuel ih =>
    unfold lzLoop at h
    split at h
    · cases h
      exact ⟨s, opos, rfl, Nat.le_refl _, hle, lzTo_of_movedTo (movedTo_refl _) _ _, .inl ⟨rfl, by omega⟩⟩
    · rename_i hlt
      simp only at h
      split at h
      · cases h
      · rename_i s1 ht
        cases h
        exact ⟨s1, opos, rfl, Nat.le_refl _, hle, lzTo_of_movedTo (movedTo_readToken.2.1 _ ht) _ _, .inr (.inl rfl)⟩
      · rename_i b s1 ht
        have hm := movedTo_readToken.2.2 _ _ ht
        have hf := movedTo_frame hm
        split at h
        · cases h
        · rename_i s2 hp
          have h1 := lzTo_trans (lzTo_of_movedTo hm (s.base .output + opos) (s.base .output + (opos + 1)))
            (lzTo_mono (lzTo_putByte hp) (by rw [hf.2.2.2.2.2.1]) (by rw [hf.2.2.2.2.2.1]))
          have hf1 := lzTo_frame h1
          obtain ⟨u, k, rfl, hk1, hk2, h2, hr⟩ := ih h (by rw [hf1.2.2.2.2.2]; omega)
          rw [hf1.2.2.2.2.1, hf1.2.2.2.2.2] at *
          exact ⟨u, k, rfl, by omega, hk2, lzTo_trans (lzTo_mono h1 (Nat.le_refl _) (by omega))
            (lzTo_mono h2 (by omega) (Nat.le_refl _)), hr⟩
      · rename_i br o l s1 ht
        have hm := movedTo_readToken.1 _ _ _ _ ht
        have hf := movedTo_frame hm
        split at h
        · cases h
        · rename_i r' hp
          cases h
          refine ⟨s1, opos, rfl, Nat.le_refl _, hle, lzTo_of_movedTo hm _ _, ?_⟩
          rcases planMatch_stop hp with rfl | ⟨i, rfl⟩ | ⟨i, rfl⟩ | ⟨i, rfl⟩ | ⟨i, rfl⟩
          · exact .inr (.inr (.inl rfl))
          all_goals exact .inr (.inr (.inr ⟨_, _, rfl⟩))
        · rename_i d n hp
          have hn := planMatch_copy hp (by rw [hf.2.2.2.2.2.2]; exact hle)
          rw [hf.2.2.2.2.2.2] at hn
          split at h
          · cases h
          · rename_i s2 hc
            have h1 := lzTo_trans (lzTo_of_movedTo hm (s.base .output + opos) (s.base .output + (opos + n)))
              (lzTo_mono (lzTo_copyMatch hc) (by rw [hf.2.2.2.2.2.1]) (by rw [hf.2.2.2.2.2.1]))
            have hf1 := lzTo_frame h1
            obtain ⟨u, k, rfl, hk1, hk2, h2, hr⟩ := ih h (by rw [hf1.2.2.2.2.2]; omega)
            rw [hf1.2.2.2.2.1, hf1.2.2.2.2.2] at *
            exact ⟨u, k, rfl, by omega, hk2, lzTo_trans (lzTo_mono h1 (Nat.le_refl _) (by omega))
              (lzTo_mono h2 (by omega) (Nat.le_refl _)), hr⟩

end Sys2Proof.Machine
end

