-- ==== Sys2Proof/Laws/PerInstr.lean ====
section
/-! SUPPORT. The statements made per instruction: the word of every command lies in its own row of the opcode map
(spec/30_encoding.md R105). -/

namespace Sys2Proof.Laws.Encoding

/-- The row of R105 a command belongs to: its match and its mask. -/
def row : Instr → Word × Word
  | .halt => (0x01000000, 0xFFFFFFFF)
  | .setlo _ _ => (0x10000000, 0xFF000000)
  | .sethi _ _ => (0x11000000, 0xFF000000)
  | .brOpen _ => (0x20000000, 0xFFFFFFFE)
  | .brBit => (0x21000000, 0xFFFFFFFF)
  | .brBits _ => (0x22000000, 0xFFFFFFC0)
  | .brUnary => (0x23000000, 0xFFFFFFFF)
  | .ocCopy => (0x30000000, 0xFFFFFFFF)
  | .lzDec => (0x31000000, 0xFFFFFFFF)
  | .hufBldw => (0x40000000, 0xFFFFFFFF)
  | .hufBldl => (0x41000000, 0xFFFFFFFF)
  | .hufDec => (0x42000000, 0xFFFFFFFF)
  | .ppAsm => (0x50000000, 0xFFFFFFFF)
  | .ppAlpha => (0x51000000, 0xFFFFFFFF)
  | .ksLcg _ => (0x60000000, 0xFFFFFFFE)
  | .ksPm _ => (0x61000000, 0xFFFFFFFE)
  | .ksHash _ => (0x62000000, 0xFFFFFFFE)
  | .ksRaw _ => (0x63000000, 0xFFFFFFFE)

/-- The word of a command, masked by its row's mask, is its row's match (R105). -/
def Statement (i : Instr) : Prop := encode i &&& (row i).2 = (row i).1

/-- A format S word masked to its opcode byte (R102). -/
theorem wordS_and (op csr : BitVec 8) (imm : BitVec 16) : wordS op csr imm &&& 0xFF000000 = wordZ op := by
  apply BitVec.eq_of_getLsbD_eq
  intro i hi
  unfold wordS wordZ
  rw [BitVec.getLsbD_and, BitVec.getLsbD_append, BitVec.getLsbD_append, BitVec.getLsbD_append]
  interval_cases i <;> simp

theorem halt : Statement .halt := by unfold Statement; decide
theorem setlo (csr : BitVec 8) (imm : BitVec 16) : Statement (.setlo csr imm) := wordS_and 0x10 csr imm
theorem sethi (csr : BitVec 8) (imm : BitVec 16) : Statement (.sethi csr imm) := wordS_and 0x11 csr imm
theorem brOpen (ord : BitOrder) : Statement (.brOpen ord) := by cases ord <;> (unfold Statement; decide)
theorem brBit : Statement .brBit := by unfold Statement; decide
theorem brBits (n : BitVec 6) : Statement (.brBits n) := by revert n; unfold Statement; decide
theorem brUnary : Statement .brUnary := by unfold Statement; decide
theorem ocCopy : Statement .ocCopy := by unfold Statement; decide
theorem lzDec : Statement .lzDec := by unfold Statement; decide
theorem hufBldw : Statement .hufBldw := by unfold Statement; decide
theorem hufBldl : Statement .hufBldl := by unfold Statement; decide
theorem hufDec : Statement .hufDec := by unfold Statement; decide
theorem ppAsm : Statement .ppAsm := by unfold Statement; decide
theorem ppAlpha : Statement .ppAlpha := by unfold Statement; decide
theorem ksLcg (bias : Bool) : Statement (.ksLcg bias) := by cases bias <;> (unfold Statement; decide)
theorem ksPm (bias : Bool) : Statement (.ksPm bias) := by cases bias <;> (unfold Statement; decide)
theorem ksHash (bias : Bool) : Statement (.ksHash bias) := by cases bias <;> (unfold Statement; decide)
theorem ksRaw (bias : Bool) : Statement (.ksRaw bias) := by cases bias <;> (unfold Statement; decide)

end Sys2Proof.Laws.Encoding
end

