-- ==== Sys2Proof/Tests/Slice0.lean ====
section
/-! SUPPORT. Tests: the refusals of WellFormed, words written out from spec/30_encoding.md R105, one step of each command on
the examples of its rule (expected values from spec/, the source of each in its comment), and a witness for the hypotheses
of every statement. -/

namespace Sys2Proof.Tests

open Sys2Proof.Machine Sys2Proof.Claims

/- One test at a time: checked side by side, so many kernel evaluations hold more thread stacks than check.sh's memory limit. -/
set_option Elab.async false

/-! ## Helpers -/

/-- Bytes in MEM from an address on. -/
def bytesAt (a : Nat) (bytes : List Nat) : List Host.Cell := bytes.zipIdx.map (fun e => (a + e.2, BitVec.ofNat 8 e.1))

/-- A run in progress on an instance with 64 bytes and 4 command words, with the given configuration and MEM. -/
def at64 (cfg : List (Fin 34 × Nat)) (mem : List Host.Cell) : State :=
  { State.reset with
    run := .busy
    memSize := 64
    cmdLen := 4
    mem := mem
    cfg := cfg.foldl (fun v p => v.set p.1 (BitVec.ofNat 32 p.2)) (Vector.replicate 34 0) }

/-- The same with an open cursor. -/
def reading (ord : BitOrder) (cfg : List (Fin 34 × Nat)) (mem : List Host.Cell) : State :=
  { at64 cfg mem with bopen := true, bord := ord }

/-- The next state, or the reset state where there is none. -/
def after (o : Host.Outcome State Fault Refusal) : State :=
  match o with
  | .next t => t
  | .fault _ => State.reset
  | .refused _ => State.reset

/-- The recorded outcome of a next state. -/
def lastOf (o : Host.Outcome State Fault Refusal) : Option (LastOutcome × Option Cause) :=
  match o with
  | .next t => some (t.last, t.cause)
  | .fault _ => none
  | .refused _ => none

/-- A step whose recorded outcome is known answers a next state with it. -/
theorem lastOf_spec {o : Host.Outcome State Fault Refusal} {l : LastOutcome} {c : Option Cause}
    (h : lastOf o = some (l, c)) : ∃ t, o = .next t ∧ t.last = l ∧ t.cause = c := by
  cases o with
  | next t =>
    simp only [lastOf, Option.some.injEq, Prod.mk.injEq] at h
    exact ⟨t, rfl, h.1, h.2⟩
  | fault f => simp [lastOf] at h
  | refused r => simp [lastOf] at h

/-- The step answers a next state with the property. -/
def meets (o : Host.Outcome State Fault Refusal) (p : State → Bool) : Bool :=
  match o with
  | .next t => p t
  | .fault _ => false
  | .refused _ => false

/-- A step that meets a property answers a next state with it. -/
theorem meets_spec {o : Host.Outcome State Fault Refusal} {p : State → Bool} (h : meets o p = true) :
    ∃ t, o = .next t ∧ p t = true := by
  cases o with
  | next t => exact ⟨t, rfl, h⟩
  | fault f => simp [meets] at h
  | refused r => simp [meets] at h

/-! ## WellFormed -/

/-- R104 admits n = 0 .. 32; 33 is refused. -/
theorem test_wf_refuses_count : Instr.wellFormed (.brBits 33) = false ∧ Instr.wellFormed (.brBits 32) = true := by decide

/-! ## Decoding: every row of R105, the word written out bit by bit -/

theorem test_decode_halt : decode 0b00000001000000000000000000000000 = .ok .halt := by decide
theorem test_decode_setlo : decode 0b00010000000000111011111011101111 = .ok (.setlo 3 0xBEEF) := by decide
theorem test_decode_sethi : decode 0b00010001000000111101111010101101 = .ok (.sethi 3 0xDEAD) := by decide
theorem test_decode_brOpen : decode 0b00100000000000000000000000000001 = .ok (.brOpen .lsb) := by decide
theorem test_decode_brBit : decode 0b00100001000000000000000000000000 = .ok .brBit := by decide
theorem test_decode_brBits : decode 0b00100010000000000000000000010101 = .ok (.brBits 21) := by decide
theorem test_decode_brUnary : decode 0b00100011000000000000000000000000 = .ok .brUnary := by decide
theorem test_decode_ocCopy : decode 0b00110000000000000000000000000000 = .ok .ocCopy := by decide
theorem test_decode_lzDec : decode 0b00110001000000000000000000000000 = .ok .lzDec := by decide
theorem test_decode_hufBldw : decode 0b01000000000000000000000000000000 = .ok .hufBldw := by decide
theorem test_decode_hufBldl : decode 0b01000001000000000000000000000000 = .ok .hufBldl := by decide
theorem test_decode_hufDec : decode 0b01000010000000000000000000000000 = .ok .hufDec := by decide
theorem test_decode_ppAsm : decode 0b01010000000000000000000000000000 = .ok .ppAsm := by decide
theorem test_decode_ppAlpha : decode 0b01010001000000000000000000000000 = .ok .ppAlpha := by decide
theorem test_decode_ksLcg : decode 0b01100000000000000000000000000001 = .ok (.ksLcg true) := by decide
theorem test_decode_ksPm : decode 0b01100001000000000000000000000000 = .ok (.ksPm false) := by decide
theorem test_decode_ksHash : decode 0b01100010000000000000000000000001 = .ok (.ksHash true) := by decide
theorem test_decode_ksRaw : decode 0b01100011000000000000000000000000 = .ok (.ksRaw false) := by decide

/-- R107: the all-zero word, an unassigned opcode, a nonzero zero-field, n = 33. -/
theorem test_decode_refuses : decode 0 = .error .unknownOpcode ∧ decode 0x12000000 = .error .unknownOpcode ∧
    decode 0x60000002 = .error .nonzeroField ∧ decode 0x01000001 = .error .nonzeroField ∧
    decode 0x22000021 = .error .badBitCount := by decide

/-- decodeTableWord reads the table's numbering: bit 0 is the word's least significant bit. -/
theorem test_decodeTableWord : decodeTableWord 32 0x1003BEEF = some (.setlo 3 0xBEEF) := by decide

/-! ## One step of each command -/

/-- R132: STATUS = 2, CP stays. -/
theorem test_halt : (after (exec .halt (at64 [] []))).statusWord = 2 ∧ (after (exec .halt (at64 [] []))).cp = 0 := by
  decide +kernel

/-- withFetchWord places a word where the next step runs it. -/
theorem test_withFetchWord : (after (step (State.reset.withFetchWord 32 0x01000000))).statusWord = 2 := by decide +kernel

/-- R133's example: 1003BEEF. -/
theorem test_setlo : (after (exec (.setlo 3 0xBEEF) (at64 [(OUT_BASE, 0xDEAD0000)] []))).csr OUT_BASE = 0xBEEF := by
  decide +kernel

/-- R25: a write of IN_LEN closes the cursor; of OUT_BASE not. -/
theorem test_setlo_closes : (after (exec (.setlo 1 4) (reading .lsb [] []))).bopen = false ∧
    (after (exec (.setlo 3 4) (reading .lsb [] []))).bopen = true := by decide +kernel

/-- R134's example: after 1003BEEF, 1103DEAD. -/
theorem test_sethi : (after (exec (.sethi 3 0xDEAD) (at64 [(OUT_BASE, 0xBEEF)] []))).csr OUT_BASE = 0xDEADBEEF := by
  decide +kernel

/-- R134: index 0x22 is refused with E_ILLCSR. -/
theorem test_sethi_illegal : (after (exec (.sethi 0x22 1) (at64 [] []))).causeWord = 2 ∧
    (after (exec (.sethi 0x22 1) (at64 [] []))).einfo = 0x22 := by decide +kernel

/-- R153's example: BSTATE = 0x3000. -/
theorem test_brOpen : (after (exec (.brOpen .lsb) (at64 [(IN_LEN, 2)] []))).bstateWord = 0x3000 := by decide +kernel

/-- R154's example: B4, MSB-first. -/
theorem test_brBit : (after (exec .brBit (reading .msb [(IN_LEN, 1)] (bytesAt 0 [0xB4])))).res = 1 ∧
    (after (exec .brBit (reading .msb [(IN_LEN, 1)] (bytesAt 0 [0xB4])))).bstateWord = 0x2768 := by decide +kernel

/-- R155's examples: 3 bits of B4 3C, MSB-first and LSB-first. -/
theorem test_brBits_msb : (after (exec (.brBits 3) (reading .msb [(IN_LEN, 2)] (bytesAt 0 [0xB4, 0x3C])))).res = 5 ∧
    (after (exec (.brBits 3) (reading .msb [(IN_LEN, 2)] (bytesAt 0 [0xB4, 0x3C])))).bstateWord = 0x25A0 := by
  decide +kernel

theorem test_brBits_lsb : (after (exec (.brBits 3) (reading .lsb [(IN_LEN, 2)] (bytesAt 0 [0xB4, 0x3C])))).res = 1 ∧
    (after (exec (.brBits 3) (reading .lsb [(IN_LEN, 2)] (bytesAt 0 [0xB4, 0x3C])))).bstateWord = 0x3516 := by
  decide +kernel

/-- R156's example, with the test instance UNARY_MAP(k) = k + 1: E0, MSB-first. -/
theorem test_brUnary :
    (after (conclude (brUnaryEffect (fun k => BitVec.ofNat 32 (k + 1)) (reading .msb [(IN_LEN, 1)] (bytesAt 0 [0xE0]))))).res
      = 4 ∧ (after (exec .brUnary (reading .msb [(IN_LEN, 1)] (bytesAt 0 [0xE0])))).rinfoWord = 3 := by decide +kernel

/-- R171's example: ABCDEFGH becomes ABABABAH. -/
theorem test_ocCopy :
    (after (exec .ocCopy (at64 [(OUT_LEN, 8), (OC_DST, 2), (OC_LEN, 5)]
      (bytesAt 0 [0x41, 0x42, 0x43, 0x44, 0x45, 0x46, 0x47, 0x48])))).regionBytes .output =
      [0x41, 0x42, 0x41, 0x42, 0x41, 0x42, 0x41, 0x48] := by decide +kernel

/-- Scenario C of R179: input A0 80 with C = 4096 and WINIT = 4078, here with C = 8 and WINIT = 6. -/
def scenarioC : State :=
  reading .msb [(IN_LEN, 2), (OUT_BASE, 32), (OUT_LEN, 1), (LZ_WCAP, 8), (LZ_WINIT, 6), (LZ_CTRL, 1)]
    (bytesAt 0 [0xA0, 0x80])

theorem test_lzDec : (after (exec .lzDec scenarioC)).regionBytes .output = [0x41] ∧
    (after (exec .lzDec scenarioC)).wcurWord = 7 ∧ (after (exec .lzDec scenarioC)).csr IN_POS = 2 ∧
    (after (exec .lzDec scenarioC)).bcnt = 7 := by decide +kernel

/-- R178: a literal A, then a match of distance 1 and length 3 repeats it; 1 01000001 0 0000 0001 with OFFB = 4, LENB = 4,
LENBIAS = 2, DISTBIAS = 1. -/
def shortCycle : State :=
  reading .msb [(IN_LEN, 3), (OUT_BASE, 32), (OUT_LEN, 4), (LZ_WCAP, 3), (LZ_CTRL, 1),
    (LZ_LONG, 4 + 4 * 32 + 2 * 1024 + 2 ^ 18)] (bytesAt 0 [0xA0, 0x80, 0x40])

theorem test_lzDec_cycle : (after (exec .lzDec shortCycle)).regionBytes .output = [0x41, 0x41, 0x41, 0x41] ∧
    (after (exec .lzDec shortCycle)).wcur = 1 := by decide +kernel

/-- Scenario B of R202: weights 5 and 3. -/
def scenarioB : State := at64 [(TBL_BASE, 16), (TBL_LEN, 8), (HUF_N, 2)] (bytesAt 16 [5, 0, 0, 0, 3, 0, 0, 0])

theorem test_hufBldw : (after (exec .hufBldw scenarioB)).hroot = 2 ∧ (after (exec .hufBldw scenarioB)).hnext = 3 ∧
    (after (exec .hufBldw scenarioB)).htotal = 8 ∧ (after (exec .hufBldw scenarioB)).hc0 = [(2, 0)] ∧
    (after (exec .hufBldw scenarioB)).hc1 = [(2, 1)] := by decide +kernel

/-- R205's example: lengths 1, 2, 3, 3. -/
def fourLengths : State := at64 [(TBL_BASE, 16), (TBL_LEN, 4), (HUF_N, 4)] (bytesAt 16 [1, 2, 3, 3])

theorem test_hufBldl : (after (exec .hufBldl fourLengths)).hroot = 4 ∧ (after (exec .hufBldl fourLengths)).hnext = 7 ∧
    (after (exec .hufBldl fourLengths)).hc0 = [(4, 0), (5, 1), (6, 2)] ∧
    (after (exec .hufBldl fourLengths)).hc1 = [(4, 5), (5, 6), (6, 3)] := by decide +kernel

/-- Scenario B of R206: the tree of weights 5 and 3 on input 49. -/
def scenarioBDecode : State :=
  { reading .msb [(IN_LEN, 1), (OUT_BASE, 32), (OUT_LEN, 8), (TBL_BASE, 16), (TBL_LEN, 8), (HUF_N, 2)]
      (bytesAt 0 [0x49] ++ bytesAt 16 [5, 0, 0, 0, 3, 0, 0, 0]) with
    hvalid := true, htot := 8, hnsym := 2, hroot := 2, hnext := 3, hc0 := [(2, 0)], hc1 := [(2, 1)] }

theorem test_hufDec : (after (exec .hufDec scenarioBDecode)).regionBytes .output = [0, 1, 0, 0, 1, 0, 0, 1] ∧
    (after (exec .hufDec scenarioBDecode)).csr IN_POS = 1 ∧ (after (exec .hufDec scenarioBDecode)).bcnt = 0 ∧
    (after (exec .hufDec scenarioBDecode)).produced = 8 ∧ (after (exec .hufDec scenarioBDecode)).hvalid = false := by
  decide +kernel

/-- Scenario D of R231: three 2x2 planes, lanes 0, 1, 2. -/
def scenarioD : State :=
  at64 [(OUT_BASE, 32), (OUT_LEN, 12), (PL0_BASE, 0), (PL0_LEN, 4), (PL1_BASE, 4), (PL1_LEN, 4), (PL2_BASE, 8),
    (PL2_LEN, 4), (PP_W, 2), (PP_H, 2), (PP_FMT, 3 + 64 + 512)] (bytesAt 0 [1, 2, 3, 4, 5, 6, 7, 8, 9, 10, 11, 12])

theorem test_ppAsm : (after (exec .ppAsm scenarioD)).regionBytes .output =
    [1, 5, 9, 2, 6, 10, 3, 7, 11, 4, 8, 12] := by decide +kernel

/-- R232: one column of six rows in bands of two; the second row of each band is a sum. -/
def deltaColumn : State :=
  at64 [(OUT_BASE, 32), (OUT_LEN, 6), (PL0_LEN, 6), (PP_W, 1), (PP_H, 6), (PP_FMT, 1 + 8)]
    (bytesAt 0 [1, 2, 10, 250, 7, 8])

theorem test_ppAsm_delta : (after (exec .ppAsm deltaColumn)).regionBytes .output = [1, 3, 10, 4, 7, 15] := by
  decide +kernel

/-- R234's example: cc = 4, ALANE = 3, ABITS = 8, 2x2, runs FF*3 and 80*1. -/
def alphaImage : State :=
  at64 [(OUT_BASE, 32), (OUT_LEN, 16), (TBL_LEN, 8), (PP_W, 2), (PP_H, 2), (PP_FMT, 4 + 3 * 4096 + 8 * 65536)]
    (bytesAt 0 [0xFF, 3, 0, 0, 0x80, 1, 0, 0])

theorem test_ppAlpha : (List.range 4).map (fun p => (after (exec .ppAlpha alphaImage)).byteAt (32 + (4 * p + 3))) =
    [some 0xFF, some 0xFF, some 0xFF, some 0x80] ∧ (after (exec .ppAlpha alphaImage)).produced = 4 := by decide +kernel

/-- Scenario A of R262: seed 0, one zero byte. -/
def scenarioA : State := at64 [(OUT_LEN, 1)] (bytesAt 0 [0])

theorem test_ksLcg : (after (exec (.ksLcg false) scenarioA)).regionBytes .output = [0x26] ∧
    (after (exec (.ksLcg false) scenarioA)).kstate = 0x00269EC3 := by decide +kernel

/-- R264's example with PM_MULT = 16807: seed 1, keystream A7 F1 D9. -/
theorem test_ksPm : (after (conclude (cipherEffect (pmGen 16807) id false 1 id
    (at64 [(OUT_LEN, 3)] (bytesAt 0 [0, 0, 0]))))).regionBytes .output = [0xA7, 0xF1, 0xD9] := by decide +kernel

/-- V-KS-13 of spec/95_test_vectors.md, with its toy HASHFN: empty key, KS_CTR0 = 5, BIAS. -/
theorem test_ksHash :
    (after (conclude (ksHashEffect (fun key ctr j => hexAscii (BitVec.ofNat 4 (ctr.toNat + j + key.length))) true
      (at64 [(OUT_LEN, 3), (KS_CTR0, 5)] (bytesAt 0 [0x61, 0x62, 0x63]))))).regionBytes .output = [0xD4, 0xD4, 0xD4] ∧
    (after (exec (.ksHash true) (at64 [(OUT_LEN, 3), (KS_CTR0, 5)] (bytesAt 0 [0x61, 0x62, 0x63])))).kstate = 6 := by
  decide +kernel

/-- V-KS-15 and V-KS-17: HELLO! under KEY, plain, and rotated by 3 with BIAS. -/
def hello (rot : Nat) : State :=
  at64 [(OUT_LEN, 6), (KEY_BASE, 8), (KEY_LEN, 3), (KS_ROT, rot)]
    (bytesAt 0 [0x48, 0x45, 0x4C, 0x4C, 0x4F, 0x21] ++ bytesAt 8 [0x4B, 0x45, 0x59])

theorem test_ksRaw : (after (exec (.ksRaw false) (hello 0))).regionBytes .output = [0x03, 0x00, 0x15, 0x07, 0x0A, 0x78] := by
  decide +kernel

theorem test_ksRaw_rotated : (after (exec (.ksRaw true) (hello 3))).regionBytes .output =
    [0x89, 0xEF, 0xBB, 0xA9, 0xBF, 0xD0] := by decide +kernel

/-- R88, 93 U1: a read of a byte that nothing has written stops the model. -/
theorem test_unwritten_read : exec .brBit (reading .msb [(IN_LEN, 1)] []) = .fault (.unwrittenMem 0) := rfl

/-! ## Witnesses: concrete states and operands that meet the hypotheses of each statement -/

/-! Encoding and the run cycle. -/

/-- A run whose next command word is `w`. -/
def fetching (w : Word) : State := { at64 [] [] with cmd := [(3, w)], cp := 3 }

theorem witness_DecodeInvertsEncode : Instr.wellFormed (.brBits 32) = true ∧ Instr.wellFormed (.setlo 0xFF 0xFFFF) = true := by
  decide

theorem witness_EncodeInvertsDecode : decode 0x22000020 = .ok (.brBits 32) := by decide

theorem witness_LegalWordsAreTheTable : (0x01000000, 0xFFFFFFFF) ∈ opcodeRows ∧
    (0x01000000 : Word) &&& 0xFFFFFFFF = 0x01000000 := by decide

theorem witness_StepRunsDecodedCommand : (fetching 0x01000000).run = .busy ∧
    (fetching 0x01000000).cp.toNat < (fetching 0x01000000).cmdLen ∧
    cellRead (fetching 0x01000000).cmd (fetching 0x01000000).cp.toNat = some 0x01000000 ∧
    decode 0x01000000 = .ok .halt := by decide +kernel

theorem witness_RunCycle : State.reset.run ≠ .busy ∧
    ({ at64 [] [] with cp := 4 }.run = .busy ∧ { at64 [] [] with cp := 4 }.cmdLen ≤ { at64 [] [] with cp := 4 }.cp.toNat) ∧
    ((fetching 0x22000020).cp.toNat < (fetching 0x22000020).cmdLen ∧
      cellRead (fetching 0x22000020).cmd (fetching 0x22000020).cp.toNat = some 0x22000020 ∧ LegalWord 0x22000020) := by
  unfold LegalWord
  decide +kernel

theorem witness_HaltEndsRun : (State.reset.last = .none ∧ State.reset.tsticky = false) ∧
    { at64 [] [] with cp := 4 }.run = .busy ∧ { at64 [] [] with cp := 4 }.cp.toNat = { at64 [] [] with cp := 4 }.cmdLen := by
  decide +kernel

theorem witness_IllegalWordStopsRun : (fetching 0x22000021).run = .busy ∧
    (fetching 0x22000021).cp.toNat < (fetching 0x22000021).cmdLen ∧
    cellRead (fetching 0x22000021).cmd (fetching 0x22000021).cp.toNat = some 0x22000021 ∧ ¬ LegalWord 0x22000021 := by
  unfold LegalWord
  decide +kernel

/-! Outcomes. -/

/-- A cursor at the end of its input. -/
def drained : State := reading .msb [] []

theorem witness_OutcomeIsRecorded : (∃ t, exec .halt (at64 [] []) = .next t ∧ t.last = .none ∧ t.cause = none) ∧
    (∃ t, exec (.brBits 0) drained = .next t ∧ t.last = .complete ∧ t.cause = none) ∧
    (∃ t, exec .brBit drained = .next t ∧ t.last = .truncated ∧ t.cause = some .tEoi) ∧
    (∃ t, exec .brBit (at64 [] []) = .next t ∧ t.last = .corrupt ∧ t.cause = some .eBadSeq) :=
  ⟨lastOf_spec (by decide +kernel), lastOf_spec (by decide +kernel), lastOf_spec (by decide +kernel),
    lastOf_spec (by decide +kernel)⟩

/-- LZ.DEC in TABLE mode with one table entry, 0, and a match at offset slot 0. -/
def lzTable (slot : Nat) : State :=
  reading .msb [(IN_LEN, 3), (OUT_BASE, 32), (OUT_LEN, 2), (LZ_CTRL, 0x29), (TBL_BASE, 16), (TBL_LEN, 4),
    (LZ_LONG, 4 + 4 * 32 + 1 * 1024)] (bytesAt 0 [0xA0, slot * 4, 0x00] ++ bytesAt 16 [0, 0, 0, 0])

theorem witness_CausesPerCommand : (∃ t, exec .lzDec (lzTable 1) = .next t ∧ t.last = .corrupt ∧ t.cause = some .eBounds) ∧
    (∃ t, exec .brUnary drained = .next t ∧ t.last = .truncated ∧ t.cause = some .tEoi) ∧
    (∃ t, step { at64 [] [] with cp := 4 } = .next t ∧ t.last = .corrupt ∧ t.cause = some .eCmdEnd) ∧
    { at64 [] [] with cp := 4 }.fetch = .pastEnd :=
  ⟨lastOf_spec (by decide +kernel), lastOf_spec (by decide +kernel), lastOf_spec (by decide +kernel), by decide +kernel⟩

theorem witness_StaticFailureChangesNothing :
    (∃ t, exec .ocCopy (at64 [(OUT_BASE, 65)] []) = .next t ∧ t.last = .corrupt ∧ t.cause = some .eBadCfg) ∧
    (∃ t, exec .hufDec drained = .next t ∧ t.last = .corrupt ∧ t.cause = some .eBadSeq) ∧
    (∃ t, exec .ppAsm (at64 [(PP_FMT, 1), (PP_W, 1), (PP_H, 1), (OUT_LEN, 1)] []) = .next t ∧ t.last = .corrupt ∧
      t.cause = some .ePlane) ∧
    (∃ t, exec (.setlo 0x22 0) (at64 [] []) = .next t ∧ t.last = .corrupt ∧ t.cause = some .eIllCsr) ∧
    (∃ t, exec .hufDec { scenarioBDecode with htot := 7 } = .next t ∧ t.last = .corrupt ∧ t.cause = some .eHTable) ∧
    (∃ t, exec .hufDec (scenarioBDecode.setCsr HUF_POL 2) = .next t ∧ t.last = .corrupt ∧ t.cause = some .eBadCfg) :=
  ⟨lastOf_spec (by decide +kernel), lastOf_spec (by decide +kernel), lastOf_spec (by decide +kernel),
    lastOf_spec (by decide +kernel), lastOf_spec (by decide +kernel), lastOf_spec (by decide +kernel)⟩

/-! Configuration. -/

theorem witness_SetloWritesConfiguration : (2 : BitVec 8).toNat = IN_POS.val ∧ (3 : BitVec 8).toNat = OUT_BASE.val ∧
    (0x21 : BitVec 8).toNat = KS_ROT.val ∧ 0x21 < (0x22 : BitVec 8).toNat := by decide

theorem witness_SethiWritesConfiguration : (2 : BitVec 8).toNat = IN_POS.val ∧ (3 : BitVec 8).toNat = OUT_BASE.val ∧
    (0x21 : BitVec 8).toNat = KS_ROT.val ∧ 0x21 < (0x22 : BitVec 8).toNat := by decide

theorem witness_SetLoadsWord : (0x21 : BitVec 8).toNat = KS_ROT.val ∧ (7 : Word).extractLsb' 16 16 = 0 ∧ IN_BASE ≠ KS_ROT := by
  decide

/-! The bit reader. -/

theorem witness_BrOpenOpensCursor : ¬ (at64 [(IN_BASE, 64), (IN_LEN, 1)] []).Inside .input ∧
    ((at64 [(IN_LEN, 1), (IN_POS, 2)] []).Inside .input ∧
      (at64 [(IN_LEN, 1), (IN_POS, 2)] []).csrNat IN_LEN < (at64 [(IN_LEN, 1), (IN_POS, 2)] []).csrNat IN_POS) ∧
    ((at64 [(IN_BASE, 63), (IN_LEN, 1), (IN_POS, 1)] []).Inside .input ∧
      (at64 [(IN_BASE, 63), (IN_LEN, 1), (IN_POS, 1)] []).csrNat IN_POS ≤
        (at64 [(IN_BASE, 63), (IN_LEN, 1), (IN_POS, 1)] []).csrNat IN_LEN) := by decide +kernel

/-- An open cursor over the given bytes. -/
def source (ord : BitOrder) (bytes : List Nat) : State := reading ord [(IN_LEN, bytes.length)] (bytesAt 0 bytes)

theorem witness_BrBitReadsOneBit : (at64 [] []).bopen = false ∧
    ((source .msb [0x80]).ReadyToRead ∧ (source .msb [0x80]).pendingBits = true :: List.replicate 7 false) ∧
    (drained.ReadyToRead ∧ drained.pendingBits = []) := by decide +kernel

theorem witness_BrBitsReadsBits : (32 < (33 : BitVec 6).toNat ∧ (32 : BitVec 6).toNat ≤ 32) ∧ (at64 [] []).bopen = false ∧
    ((source .lsb [1, 2, 3, 4]).ReadyToRead ∧ (0 : BitVec 6).toNat ≤ (source .lsb [1, 2, 3, 4]).pendingBits.length ∧
      (32 : BitVec 6).toNat ≤ 32 ∧ (32 : BitVec 6).toNat ≤ (source .lsb [1, 2, 3, 4]).pendingBits.length) ∧
    ((source .msb [5]).ReadyToRead ∧ (source .msb [5]).pendingBits.length < (9 : BitVec 6).toNat) := by decide +kernel

theorem witness_BrUnaryCountsOnes : (at64 [] []).bopen = false ∧
    ((source .lsb [0xFF, 0xFF, 0xFF, 0x7F]).ReadyToRead ∧
      (source .lsb [0xFF, 0xFF, 0xFF, 0x7F]).pendingBits = List.replicate 31 true ++ false :: []) ∧
    ((source .msb [0xFF, 0xFF, 0xFF, 0xFF]).ReadyToRead ∧
      (source .msb [0xFF, 0xFF, 0xFF, 0xFF]).pendingBits = List.replicate 32 true ++ []) ∧
    ((source .msb [0xFF]).ReadyToRead ∧ (source .msb [0xFF]).pendingBits = List.replicate 8 true) := by decide +kernel

theorem witness_BitComposition : (source .lsb [1, 2, 3, 4]).ReadyToRead ∧
    (9 : BitVec 6).toNat + (23 : BitVec 6).toNat ≤ 32 ∧
    (9 : BitVec 6).toNat + (23 : BitVec 6).toNat ≤ (source .lsb [1, 2, 3, 4]).pendingBits.length := by decide +kernel

theorem witness_OpenedCursorBits : ∃ t, exec (.brOpen .msb) (at64 [(IN_LEN, 2), (IN_POS, 1)] (bytesAt 0 [1, 2])) = .next t ∧
    t.last = .complete ∧ t.cause = none := lastOf_spec (by decide +kernel)

/-! OC.COPY and LZ.DEC. -/

theorem witness_OcCopyChecks : ocCopyRejects (at64 [(OUT_BASE, 60), (OUT_LEN, 5)] []) = some (.eBadCfg, 3) ∧
    ocCopyRejects (at64 [(OUT_LEN, 5), (OC_SRC, 4), (OC_LEN, 2)] []) = some (.eBounds, 0x19) ∧
    ocCopyRejects (at64 [(OUT_LEN, 5), (OC_DST, 4), (OC_LEN, 2)] []) = some (.eBounds, 0x1A) := by decide +kernel

/-- OC.COPY over six bytes. -/
def copying (src dst : Nat) : State :=
  at64 [(OUT_BASE, 58), (OUT_LEN, 6), (OC_SRC, src), (OC_DST, dst), (OC_LEN, 4)] (bytesAt 58 [1, 2, 3, 4, 5, 6])

theorem witness_OcCopyRepeatsShortCycles : (ocCopyRejects (copying 0 2) = none ∧ (copying 0 2).Readable .output) ∧
    (ocCopyRejects (copying 2 0) = none ∧ (copying 2 0).Readable .output) := by decide +kernel

/-- shortCycle with some registers changed. -/
def lzWith (cfg : List (Fin 34 × Nat)) : State :=
  cfg.foldl (fun s p => s.setCsr p.1 (BitVec.ofNat 32 p.2)) shortCycle

theorem witness_LzStaticChecks : lzRejects { shortCycle with bopen := false } = some (.eBadSeq, 0) ∧
    ([[(LZ_CTRL, 0x40)], [(LZ_CTRL, 0x18)], [(LZ_CTRL, 0x20)], [(LZ_WCAP, 0)], [(LZ_WCAP, 65537)], [(LZ_WINIT, 3)],
      [(LZ_WFILL, 256)], [(LZ_LONG, 2 ^ 26)], [(LZ_CTRL, 2), (LZ_SHORT, 25)], [(LZ_CTRL, 0x28), (TBL_LEN, 2)],
      [(OUT_BASE, 61)], [(LZ_CTRL, 0x28), (TBL_LEN, 4), (TBL_BASE, 61)], [(OUT_BASE, 2)],
      [(LZ_CTRL, 0x28), (TBL_LEN, 4), (TBL_BASE, 35)]].map (fun cfg => lzRejects (lzWith cfg))) =
      [some (.eBadCfg, 0x14), some (.eBadCfg, 0x14), some (.eBadCfg, 0x14), some (.eBadCfg, 0x11), some (.eBadCfg, 0x11),
        some (.eBadCfg, 0x12), some (.eBadCfg, 0x13), some (.eBadCfg, 0x15), some (.eBadCfg, 0x16), some (.eBadCfg, 6),
        some (.eBadCfg, 3), some (.eBadCfg, 5), some (.eBadCfg, 0), some (.eBadCfg, 5)] := by decide +kernel

theorem witness_LzDecComputesReference :
    (lzRejects shortCycle = none ∧ shortCycle.ReadyToRead ∧ shortCycle.tableMode = false ∧
      1 ≤ shortCycle.csrNat LZ_WCAP ∧ shortCycle.csrNat LZ_WCAP < (refLz shortCycle).out.length) ∧
    (lzRejects scenarioC = none ∧ scenarioC.ReadyToRead ∧ scenarioC.tableMode = false ∧
      (refLz scenarioC).out.length < scenarioC.csrNat LZ_WCAP) ∧
    (lzRejects (lzTable 0) = none ∧ (lzTable 0).ReadyToRead ∧ (lzTable 0).tableMode = true ∧
      (lzTable 0).Readable .table) := by decide +kernel

theorem witness_LzLiteralsRoundTrip : lzRejects scenarioC = none ∧ scenarioC.ReadyToRead ∧
    scenarioC.pendingBits = literalBits scenarioC [0x41] ++ List.replicate 7 false ∧
    ([0x41] : List Byte).length = scenarioC.len .output := by decide +kernel

theorem witness_LzWindowMirrorsOutput : (lzRejects shortCycle = none ∧ shortCycle.tableMode = false) ∧
    ∃ t, exec .lzDec shortCycle = .next t ∧ decide (1 ≤ 3 ∧ 3 ≤ t.produced.toNat ∧ 3 ≤ shortCycle.csrNat LZ_WCAP) = true :=
  ⟨by decide +kernel, meets_spec (by decide +kernel)⟩

theorem witness_LzWinitUnobservable : (lzRejects scenarioC = none ∧ lzRejects (scenarioC.setCsr LZ_WINIT 0) = none) ∧
    ∃ t, exec .lzDec scenarioC = .next t ∧ t.last = .complete ∧ t.cause = none :=
  ⟨by decide +kernel, lastOf_spec (by decide +kernel)⟩

theorem witness_LzPartialOutput :
    (lzRejects shortCycle = none ∧ ∃ t, exec .lzDec shortCycle = .next t ∧ t.last = .complete ∧ t.cause = none) ∧
    (lzRejects (lzWith [(OUT_LEN, 5)]) = none ∧
      ∃ t, exec .lzDec (lzWith [(OUT_LEN, 5)]) = .next t ∧ t.last = .truncated ∧ t.cause = some .tEoi) ∧
    (lzRejects (lzTable 1) = none ∧ (lzTable 1).under = 1 ∧
      ∃ t, exec .lzDec (lzTable 1) = .next t ∧ t.last = .corrupt ∧ t.cause = some .eBounds) :=
  ⟨⟨by decide +kernel, lastOf_spec (by decide +kernel)⟩, ⟨by decide +kernel, lastOf_spec (by decide +kernel)⟩,
    ⟨by decide +kernel, by decide +kernel, lastOf_spec (by decide +kernel)⟩⟩

/-! Huffman. -/

/-- A build over byte-sized weights. -/
def weighing (weights : List Nat) : State :=
  at64 [(TBL_BASE, 16), (TBL_LEN, 4 * weights.length), (HUF_N, weights.length)]
    (bytesAt 16 (weights.flatMap (fun w => [w, 0, 0, 0])))

/-- A build over code lengths. -/
def measuring (lengths : List Nat) : State :=
  at64 [(TBL_BASE, 16), (TBL_LEN, lengths.length), (HUF_N, lengths.length)] (bytesAt 16 lengths)

theorem witness_TreeBuilderChecks : buildRejects (at64 [(HUF_N, 257)] []) 4 = some (.eBadCfg, 0x17) ∧
    buildRejects (at64 [(HUF_N, 2), (TBL_LEN, 7)] []) 4 = some (.eHTable, 7) ∧
    buildRejects (at64 [(HUF_N, 2), (TBL_LEN, 8), (TBL_BASE, 57)] []) 4 = some (.eBadCfg, 5) ∧
    buildRejects (at64 [] []) 1 = some (.eBadCfg, 0x17) ∧
    buildRejects (at64 [(HUF_N, 2), (TBL_LEN, 8)] []) 1 = some (.eHTable, 8) ∧
    buildRejects (at64 [(HUF_N, 2), (TBL_LEN, 2), (TBL_BASE, 63)] []) 1 = some (.eBadCfg, 5) := by decide +kernel

theorem witness_HufBldwRegisters : (buildRejects (weighing [0, 0]) 4 = none ∧ (weighing [0, 0]).Readable .table ∧
      usedSymbols (weighing [0, 0]) (weight (weighing [0, 0])) = 0) ∧
    (buildRejects (weighing [0, 8]) 4 = none ∧ (weighing [0, 8]).Readable .table ∧
      usedSymbols (weighing [0, 8]) (weight (weighing [0, 8])) = 1) ∧
    (buildRejects (weighing [2, 0, 1, 1]) 4 = none ∧ (weighing [2, 0, 1, 1]).Readable .table ∧
      2 ≤ usedSymbols (weighing [2, 0, 1, 1]) (weight (weighing [2, 0, 1, 1]))) := by decide +kernel

theorem witness_HufBldwMergesLightest : ∃ t, exec .hufBldw (weighing [2, 0, 1, 1]) = .next t ∧
    decide (t.last = .complete ∧ t.hroot ≠ 0xFFFFFFFF ∧ 4 < t.hnext.toNat) = true := meets_spec (by decide +kernel)

theorem witness_BuiltTreesAreListed :
    (∃ t, exec .hufBldw (weighing [2, 0, 1, 1]) = .next t ∧
      decide (t.last = .complete ∧ t.hnsym.toNat ≤ 5 ∧ 5 < t.hnext.toNat ∧ t.child false 5 ≠ none) = true) ∧
    ∃ t, exec .hufBldl (measuring [1, 2, 3, 3]) = .next t ∧ t.last = .complete ∧ t.cause = none :=
  ⟨meets_spec (by decide +kernel), lastOf_spec (by decide +kernel)⟩

theorem witness_HuffmanDeterminism : (∃ t, exec .hufBldw scenarioB = .next t ∧ t.last = .complete ∧ t.cause = none) ∧
    (∃ t, exec .hufBldw (scenarioB.setCsr OUT_LEN 9) = .next t ∧ t.last = .complete ∧ t.cause = none) ∧
    scenarioB.csr HUF_N = (scenarioB.setCsr OUT_LEN 9).csr HUF_N ∧
    ∀ i, i < scenarioB.csrNat HUF_N → weight scenarioB i = weight (scenarioB.setCsr OUT_LEN 9) i :=
  ⟨lastOf_spec (by decide +kernel), lastOf_spec (by decide +kernel), by decide +kernel, by decide +kernel⟩

/-- The Kraft sum of a build, in units of 2 ^ -32. -/
def kraft (s : State) : Nat :=
  ((List.range (s.csrNat HUF_N)).map (fun i => if codeLength s i = 0 then 0 else 2 ^ (32 - codeLength s i))).sum

theorem witness_HufBldlOutcomes :
    ([[1, 33], [0, 0], [1, 2], [1, 1, 1], [1, 2, 3, 3], [1, 0, 1]].map (fun l => decide
      (buildRejects (measuring l) 1 = none ∧ (measuring l).Readable .table))) = List.replicate 6 true ∧
    (32 < codeLength (measuring [1, 33]) 1 ∧ ∀ j, j < 1 → codeLength (measuring [1, 33]) j ≤ 32) ∧
    (∀ i, i < (measuring [0, 0]).csrNat HUF_N → codeLength (measuring [0, 0]) i = 0) ∧
    ([[1, 2], [1, 1, 1], [1, 2, 3, 3], [1, 0, 1]].map (fun l => decide
      (usedSymbols (measuring l) (codeLength (measuring l)) ≠ 0 ∧
        ∀ i, i < (measuring l).csrNat HUF_N → codeLength (measuring l) i ≤ 32))) = List.replicate 4 true ∧
    kraft (measuring [1, 2]) ≠ 2 ^ 32 ∧ kraft (measuring [1, 1, 1]) ≠ 2 ^ 32 ∧ kraft (measuring [1, 2, 3, 3]) = 2 ^ 32 ∧
    kraft (measuring [1, 0, 1]) = 2 ^ 32 := by decide +kernel

theorem witness_HufBldlDecodesCanonicalCodes :
    (∃ t, exec .hufBldl (measuring [1, 2, 3, 3]) = .next t ∧ t.last = .complete ∧ t.cause = none) ∧
    3 < (measuring [1, 2, 3, 3]).csrNat HUF_N ∧ codeLength (measuring [1, 2, 3, 3]) 3 ≠ 0 :=
  ⟨lastOf_spec (by decide +kernel), by decide +kernel⟩

theorem witness_HufDecChecks : drained.hvalid = false ∧ (at64 [] []).bopen = false ∧
    (scenarioBDecode.bopen = true ∧ scenarioBDecode.hvalid = true) ∧
    hufDecRejects (scenarioBDecode.setCsr HUF_POL 2) = some (.eBadCfg, 0x18) ∧
    hufDecRejects (scenarioBDecode.setCsr OUT_BASE 57) = some (.eBadCfg, 3) ∧
    hufDecRejects (scenarioBDecode.setCsr OUT_BASE 0) = some (.eBadCfg, 0) ∧
    (hufDecRejects { scenarioBDecode with htot := 7 } = none ∧
      hufTreeRejects { scenarioBDecode with htot := 7 } = some (.eHTable, 7)) ∧
    (hufDecRejects { scenarioBDecode with hroot := 0xFFFFFFFF } = none ∧
      hufTreeRejects { scenarioBDecode with hroot := 0xFFFFFFFF } = some (.eHTable, 0x101)) := by decide +kernel

/-- The tree of scenario B built from lengths, so that OUT_LEN is free, and more output than the input has symbols for. -/
def shortInput : State := { scenarioBDecode.setCsr OUT_LEN 9 with hmode := .lengths }

theorem witness_HufDecComputesReference : (scenarioBDecode.hvalid = true ∧ hufDecRejects scenarioBDecode = none ∧
      hufTreeRejects scenarioBDecode = none ∧ scenarioBDecode.ReadyToRead ∧ scenarioBDecode.TreeListed ∧
      (refSymbols scenarioBDecode false 8 scenarioBDecode.pendingBits).1.length = scenarioBDecode.len .output) ∧
    (shortInput.hvalid = true ∧ hufDecRejects shortInput = none ∧ hufTreeRejects shortInput = none ∧
      shortInput.ReadyToRead ∧ shortInput.TreeListed ∧
      (refSymbols shortInput false 9 shortInput.pendingBits).1.length ≠ shortInput.len .output) := by decide +kernel

/-- A build of weights 0 and 8 with a cursor open, then a decode. -/
def oneSymbol : State :=
  { weighing [0, 8] with bopen := true, cfg := ((weighing [0, 8]).cfg.set OUT_LEN 8).set OUT_BASE 32 }

/-- A build of lengths 1, 2, 3, 3 with a cursor open over a byte, then a decode of more symbols than it holds. -/
def fourSymbols : State :=
  { measuring [1, 2, 3, 3] with
    bopen := true
    cfg := (((measuring [1, 2, 3, 3]).cfg.set OUT_LEN 8).set OUT_BASE 32).set IN_LEN 1
    mem := bytesAt 0 [0xB7] ++ bytesAt 16 [1, 2, 3, 3] }

theorem witness_DecodedSymbolsOccur : (∃ t, exec .hufBldw oneSymbol = .next t ∧ decide (t.last = .complete ∧
      meets (exec .hufDec t) (fun u => decide (u.last ≠ .corrupt ∧ 0 < u.produced.toNat ∧
        u.byteAt (oneSymbol.base .output + 0) = some 1)) = true) = true) ∧
    ∃ t, exec .hufBldl fourSymbols = .next t ∧ decide (t.last = .complete ∧
      meets (exec .hufDec t) (fun u => decide (u.last = .truncated ∧ u.produced = 3 ∧
        u.byteAt (fourSymbols.base .output + 1) = some 2)) = true) = true :=
  ⟨meets_spec (by decide +kernel), meets_spec (by decide +kernel)⟩

theorem witness_OneSymbolNeedsNoBits : usedSymbols oneSymbol (weight oneSymbol) = 1 ∧
    ∃ t, exec .hufBldw oneSymbol = .next t ∧ decide (t.last = .complete ∧ t.bopen = true ∧ hufDecRejects t = none ∧
      t.htot.toNat = t.len .output) = true := ⟨by decide +kernel, meets_spec (by decide +kernel)⟩

/-! Planar. -/

/-- A state with some registers changed. -/
def changed (s : State) (cfg : List (Fin 34 × Nat)) : State :=
  cfg.foldl (fun s p => s.setCsr p.1 (BitVec.ofNat 32 p.2)) s

theorem witness_PlanarChecks :
    ([[(PP_FMT, 2 ^ 14)], [(PP_FMT, 5)], [(PP_FMT, 3)], [(PP_FMT, 3 + 64 + 512 + 8)], [(OUT_LEN, 11)], [(PL2_LEN, 3)],
      [(OUT_BASE, 53)], [(PL1_BASE, 61)], [(PL2_BASE, 43)]].map (fun cfg => ppAsmRejects (changed scenarioD cfg))) =
      [some (.eBadCfg, 0x1E), some (.eBadCfg, 0x1E), some (.eBadCfg, 0x1E), some (.eBadCfg, 0x1D), some (.eBadCfg, 4),
        some (.ePlane, 2), some (.eBadCfg, 3), some (.eBadCfg, 0x0B), some (.eBadCfg, 0x0D)] ∧
    ([[(PP_FMT, 2 ^ 20)], [(PP_FMT, 0)], [(PP_FMT, 3 + 3 * 4096)], [(PP_FMT, 4 + 3 * 4096 + 6 * 65536)], [(OUT_LEN, 15)],
      [(TBL_LEN, 6)], [(OUT_BASE, 49)], [(TBL_BASE, 57)], [(TBL_BASE, 47)]].map
        (fun cfg => ppAlphaRejects (changed alphaImage cfg))) =
      [some (.eBadCfg, 0x1E), some (.eBadCfg, 0x1E), some (.eBadCfg, 0x1E), some (.eBadCfg, 0x1E), some (.eBadCfg, 4),
        some (.eBadCfg, 6), some (.eBadCfg, 3), some (.eBadCfg, 5), some (.eBadCfg, 5)] := by decide +kernel

theorem witness_PpAsmSumsColumns : (ppAsmRejects scenarioD = none ∧ scenarioD.vdelta = false ∧
      ∀ c : Fin 4, c.val < scenarioD.channels → ∀ k, k < scenarioD.npix →
        (scenarioD.byteAt (scenarioD.base (.plane c) + k)).isSome = true) ∧
    (ppAsmRejects deltaColumn = none ∧ deltaColumn.vdelta = true ∧
      ∀ c : Fin 4, c.val < deltaColumn.channels → ∀ k, k < deltaColumn.npix →
        (deltaColumn.byteAt (deltaColumn.base (.plane c) + k)).isSome = true) := by decide +kernel

theorem witness_PpAlphaLaysRuns : ppAlphaRejects alphaImage = none ∧ alphaImage.Readable .table ∧
    (∀ e ∈ alphaEntries alphaImage, alphaImage.alphaBits = 8 ∨ e.toNat % 256 < 2 ^ alphaImage.alphaBits) ∧
    ((alphaEntries alphaImage).map (fun e => e.toNat / 256)).sum = alphaImage.npix :=
  ⟨by decide +kernel, by decide +kernel, fun _ _ => .inl (by decide +kernel), by decide +kernel⟩

/-! Ciphers. -/

theorem witness_CipherChecks : streamRejects (at64 [(OUT_BASE, 65)] []) = some (.eBadCfg, 3) ∧
    ([[(OUT_BASE, 59)], [(KEY_BASE, 62)], [(KEY_BASE, 5)]].map (fun cfg => ksHashRejects (changed (hello 0) cfg))) =
      [some (.eBadCfg, 3), some (.eBadCfg, 7), some (.eBadCfg, 7)] ∧
    ([[(KEY_LEN, 0)], [(KS_ROT, 8)], [(OUT_BASE, 59)], [(KEY_BASE, 62)], [(KEY_BASE, 5)]].map
        (fun cfg => ksRawRejects (changed (hello 0) cfg))) =
      [some (.eBadCfg, 8), some (.eBadCfg, 0x21), some (.eBadCfg, 3), some (.eBadCfg, 7), some (.eBadCfg, 7)] := by
  decide +kernel

theorem witness_KsLcgTransform : scenarioA.Inside .output ∧ scenarioA.Readable .output := by decide +kernel

theorem witness_KsPmTransform : (hello 0).Inside .output ∧ (hello 0).Readable .output := by decide +kernel

theorem witness_KsHashTransform : ksHashRejects (hello 0) = none ∧ (hello 0).Readable .output ∧ (hello 0).Readable .key := by
  decide +kernel

theorem witness_KsRawTransform : ksRawRejects (hello 7) = none ∧ (hello 7).Readable .output ∧ (hello 7).Readable .key := by
  decide +kernel

theorem witness_CipherInvolution : (isCipher (.ksRaw true) = true ∧ (hello 0).csr KS_ROT = 0 ∧
      ∃ t, exec (.ksRaw true) (hello 0) = .next t ∧ t.last = .complete ∧ t.cause = none) ∧
    isCipher (.ksPm false) = true ∧ ∃ t, exec (.ksPm false) (hello 0) = .next t ∧ t.last = .complete ∧ t.cause = none :=
  ⟨⟨by decide, by decide +kernel, lastOf_spec (by decide +kernel)⟩, by decide, lastOf_spec (by decide +kernel)⟩

/-! The whole machine. -/

theorem witness_OnlyOutputIsWritten : (hello 0).OutsideOut ((hello 0).len .output) 6 ∧
    ∃ t, exec (.ksRaw false) (hello 0) = .next t ∧ t.last = .complete ∧ t.cause = none :=
  ⟨by decide +kernel, lastOf_spec (by decide +kernel)⟩

theorem witness_ConfigurationIsKept : readsBits .ocCopy = false ∧
    ∃ t, exec .ocCopy (copying 0 2) = .next t ∧ t.last = .complete ∧ t.cause = none :=
  ⟨by decide, lastOf_spec (by decide +kernel)⟩

theorem witness_RegisterOwners : (writesResult .ocCopy = false ∧ writesCursor .ocCopy = false ∧ buildsTree .ocCopy = false ∧
      isCipher .ocCopy = false ∧ isData .hufBldw = false) ∧
    (∃ t, exec .ocCopy (copying 0 2) = .next t ∧ t.last = .complete ∧ t.cause = none) ∧
    ∃ t, exec .hufBldw scenarioB = .next t ∧ t.last = .complete ∧ t.cause = none :=
  ⟨by decide, lastOf_spec (by decide +kernel), lastOf_spec (by decide +kernel)⟩

/-- A run about to read a bit. -/
def reader : State := { source .msb [0x80] with cmd := [(3, 0x21000000)], cp := 3 }

theorem witness_StepKeepsInvariant : reader.Inv ∧ ∃ t, step reader = .next t ∧ t.last = .complete ∧ t.cause = none :=
  ⟨by decide +kernel, lastOf_spec (by decide +kernel)⟩

theorem witness_HostKeepsInvariant : State.Inv { State.reset with run := .done } ∧
    (hostStart State.reset).isSome = true ∧ (hostWriteCmd 0 1 State.reset).isSome = true ∧
    (hostWriteMem 65535 1 State.reset).isSome = true ∧ (hostWriteCsr 0x21 1 State.reset).isSome = true := by decide +kernel

theorem witness_EveryRunStops : reader.cmdLen < 2 ^ 32 ∧ reader.cp.toNat ≤ reader.cmdLen ∧
    ∃ t, Host.Core.run Sys2Proof.core (reader.cmdLen - reader.cp.toNat + 1) reader = .next t ∧ t.last = .corrupt ∧
      t.cause = some .eCmdEnd :=
  ⟨by decide +kernel, by decide +kernel, lastOf_spec (by decide +kernel)⟩

theorem witness_OnlyUnwrittenReadsFault :
    ({ reader with mem := [] }.Inv ∧ { reader with mem := [] }.hvalid = false ∧
      step { reader with mem := [] } = .fault (.unwrittenMem 0)) ∧
    ({ reader with cmd := [] }.Inv ∧ { reader with cmd := [] }.hvalid = false ∧
      step { reader with cmd := [] } = .fault (.unwrittenCmd 3)) := by
  refine ⟨⟨by decide +kernel, by decide +kernel, rfl⟩, ⟨by decide +kernel, by decide +kernel, rfl⟩⟩

theorem witness_ResetValues : (0x21 : BitVec 8).toNat = KS_ROT.val ∧
    (0x40 ≤ (0x40 : BitVec 8).toNat ∧ (0x4F : BitVec 8).toNat ≤ 0x4F ∧ (0x4F : BitVec 8).toNat ≠ 0x49) ∧
    (0x21 < (0x22 : BitVec 8).toNat ∧ (0x3F : BitVec 8).toNat < 0x40) ∧ 0x4F < (0x50 : BitVec 8).toNat := by decide

theorem witness_StartValues : State.reset.run ≠ .busy ∧ ({ State.reset with run := .stopped } : State).run ≠ .busy := by decide

theorem witness_HostInterface : (at64 [] []).run = .busy ∧ State.reset.run ≠ .busy ∧
    (State.reset.cmdLen ≤ 65536 ∧ 65535 < State.reset.cmdLen) ∧ (State.reset.memSize ≤ 65536 ∧ 65535 < State.reset.memSize) ∧
    ((0x21 : BitVec 8).toNat = KS_ROT.val ∧ 0x21 < (0x22 : BitVec 8).toNat) ∧
    cellRead { fetching 0x01000000 with run := .done }.cmd 3 = some 0x01000000 ∧ scenarioA.byteAt 0 = some 0 := by
  decide +kernel

/-- R35, R36, R39: the packed words of a stopped run, by hand: RUN 3, LAST 3, TSTICKY 1; E_CMDEND; BBUF A5, BCNT 5, LSB-first,
open. -/
theorem test_packed_words :
    let s : State := { State.reset with
      run := .stopped, last := .corrupt, tsticky := true, cause := some .eCmdEnd, bbuf := 0xA5, bcnt := 5, bord := .lsb,
      bopen := true }
    s.readCsr 0x40 = 0x1F ∧ s.readCsr 0x41 = 12 ∧ s.readCsr 0x47 = 0x35A5 := by decide +kernel

end Sys2Proof.Tests
end

/-! The open parameters of spec/00_scope.md R5 and R6: what Machine/Params.lean lets be said of them whatever the opaque
constants of Config.lean are. Each law has a lemma of its own (ALPHA_EXPAND has no law), and the obligation puts them together. -/

namespace Sys2Proof.Machine

@[simp] theorem unaryMap_zero : unaryMap 0 = 1 := if_pos rfl

/-- A byte that is the ASCII code of '0' to '9' or of 'a' to 'f' (R6 (c)). -/
def IsLowerHex (b : Byte) : Prop := (0x30 ≤ b.toNat ∧ b.toNat ≤ 0x39) ∨ (0x61 ≤ b.toNat ∧ b.toNat ≤ 0x66)

theorem hexAscii_toNat_of_lt {d : BitVec 4} (h : d.toNat < 10) : (hexAscii d).toNat = 0x30 + d.toNat := by
  rw [hexAscii, if_pos h, BitVec.toNat_ofNat]
  omega

theorem hexAscii_toNat_of_le {d : BitVec 4} (h : 10 ≤ d.toNat) : (hexAscii d).toNat = 0x57 + d.toNat := by
  rw [hexAscii, if_neg (Nat.not_lt.mpr h), BitVec.toNat_ofNat]
  omega

/-- A decimal digit lands in the first range, any other of the sixteen in the second. -/
theorem isLowerHex_hexAscii (d : BitVec 4) : IsLowerHex (hexAscii d) := by
  rcases Nat.lt_or_ge d.toNat 10 with hlt | hge
  · left
    rw [hexAscii_toNat_of_lt hlt]
    omega
  · right
    rw [hexAscii_toNat_of_le hge]
    omega

theorem isLowerHex_hashFn (key : List Byte) (ctr : Word) (j : Nat) : IsLowerHex (hashFn key ctr j) :=
  isLowerHex_hexAscii _

theorem one_le_pmMult : 1 ≤ pmMult := Nat.le_add_right 1 _

/-- The residue is below PM_MOD - 1, so one more is below PM_MOD. -/
theorem pmMult_lt_PM_MOD : pmMult < PM_MOD := by
  have hres : Config.freePmMult % (PM_MOD - 1) < PM_MOD - 1 := Nat.mod_lt _ (by decide)
  unfold pmMult
  omega

/-- Settles O49 (it holds): one lemma for each law of R5 and R6. -/
theorem openParameterLaws : Obligations.OpenParameterLaws :=
  ⟨unaryMap_zero, isLowerHex_hashFn, one_le_pmMult, pmMult_lt_PM_MOD⟩

end Sys2Proof.Machine

/-! What a command can do, once for all commands: its effect apart from the outcome, and an inversion of that effect. -/

namespace Sys2Proof.Machine
open Sys2Proof.Claims

/-- What each command does before its outcome is applied (R130). -/
def effectOf : Instr → State → Effect
  | .halt, s => .ok (s, .halt)
  | .setlo csr imm, s => setConfig csr (fun _ => 0#16 ++ imm) s
  | .sethi csr imm, s => setConfig csr (fun old => imm ++ old.extractLsb' 0 16) s
  | .brOpen ord, s => checked (brOpenChecks s) s (.ok (s.openCursor ord, .complete))
  | .brBit, s => checked [s.cursorCheck] s (brBitEffect s)
  | .brBits n, s => checked [s.cursorCheck] s (brBitsEffect n.toNat s)
  | .brUnary, s => checked [s.cursorCheck] s (brUnaryEffect unaryMap s)
  | .ocCopy, s => checked (ocCopyChecks s) s (ocCopyEffect s)
  | .lzDec, s => checked (lzDecChecks s) s (lzLoop s.bitsLeft 0 ((lzInit s).setProduced 0))
  | .hufBldw, s => checked (hufBldwChecks s) s (hufBldwEffect s)
  | .hufBldl, s => checked (hufBldlChecks s) s (hufBldlEffect s)
  | .hufDec, s => checked [(!s.bopen || !s.hvalid, .eBadSeq, 0)] s (hufDecEffect s.consumeTree)
  | .ppAsm, s => checked (ppAsmChecks s) s (ppAsmEffect s)
  | .ppAlpha, s =>
    checked (ppAlphaChecks s) s (alphaRuns alphaExpand (s.len .table / 4) 0 0 (s.setProduced 0))
  | .ksLcg bias, s => checked [s.insideCheck .output] s (cipherEffect lcgGen id bias (s.csr KS_SEED) id s)
  | .ksPm bias, s => checked [s.insideCheck .output] s (cipherEffect (pmGen pmMult) id bias (s.csr KS_SEED) id s)
  | .ksHash bias, s => checked (ksHashChecks s) s (ksHashEffect hashFn bias s)
  | .ksRaw bias, s =>
    checked (ksRawChecks s) s (cipherEffect rawGen (fun x => rotl8 x (s.csrNat KS_ROT)) bias 0 (fun _ => 0) s)

/-- Every command is its effect, concluded. -/
theorem exec_eq_conclude (i : Instr) (s : State) : exec i s = conclude (effectOf i s) := by cases i <;> rfl

/-! Sequences of primitive steps. -/

/-- One bit is delivered (R150). -/
def BitStep (s t : State) : Prop := ∃ b, nextBit s = .bit b t

/-- One byte of OUT is stored. -/
def StoreStep (s t : State) : Prop := ∃ k b, k < s.len .output ∧ writeMem s (s.base .output + k) b = .ok t

/-- One byte is put (R178). -/
def PutStep (s t : State) : Prop := ∃ k b, k < s.len .output ∧ putByte k b s = .ok t

/-- Some bits are delivered. -/
abbrev State.ReadsTo : State → State → Prop := Relation.ReflTransGen BitStep

/-- Some bits are delivered and some bytes of OUT stored: the course of HUF.DEC (R206). -/
abbrev State.DecodesTo : State → State → Prop := Relation.ReflTransGen (fun s t => BitStep s t ∨ StoreStep s t)

/-- Some bits are delivered and some bytes put: the course of LZ.DEC (R179). -/
abbrev State.UnpacksTo : State → State → Prop := Relation.ReflTransGen (fun s t => BitStep s t ∨ PutStep s t)

theorem readsTo_bit {s t : State} {b : Bool} (h : nextBit s = .bit b t) : s.ReadsTo t := .single ⟨b, h⟩

theorem decodesTo_of_readsTo {s t : State} (h : s.ReadsTo t) : s.DecodesTo t :=
  Relation.ReflTransGen.mono (fun _ _ => Or.inl) _ _ h

theorem unpacksTo_of_readsTo {s t : State} (h : s.ReadsTo t) : s.UnpacksTo t :=
  Relation.ReflTransGen.mono (fun _ _ => Or.inl) _ _ h

theorem movedTo_of_readsTo {s t : State} (h : s.ReadsTo t) : s.MovedTo t := by
  induction h with
  | refl => exact movedTo_refl s
  | tail _ hstep ih =>
    obtain ⟨b, hb⟩ := hstep
    exact movedTo_trans ih (nextBit_bit hb)

theorem readsTo_readBitsFrom {n got got' : Nat} {v w : Word} {e : Bool} {s t : State}
    (h : readBitsFrom n v got s = .bits w got' e t) : s.ReadsTo t := by
  induction n generalizing v got s with
  | zero => simp only [readBitsFrom] at h; cases h; exact .refl
  | succ n ih =>
    simp only [readBitsFrom] at h
    split at h
    · cases h
    · cases h; exact .refl
    · rename_i hb; exact (readsTo_bit hb).trans (ih h)

theorem readsTo_readBits {n got : Nat} {w : Word} {e : Bool} {s t : State} (h : readBits n s = .bits w got e t) :
    s.ReadsTo t := readsTo_readBitsFrom h

theorem readsTo_countUnaryFrom {room k k' : Nat} {c e : Bool} {s t : State}
    (h : countUnaryFrom room k s = .run k' c e t) : s.ReadsTo t := by
  induction room generalizing k s with
  | zero => simp only [countUnaryFrom] at h; cases h; exact .refl
  | succ n ih =>
    simp only [countUnaryFrom] at h
    split at h
    · cases h
    · cases h; exact .refl
    · rename_i hb; cases h; exact readsTo_bit hb
    · rename_i hb; exact (readsTo_bit hb).trans (ih h)

/-- The cursor a token ends with; there is none where reading it faults. -/
def TokenRead.cursor : TokenRead → Option State
  | .literal _ s => some s
  | .copy _ _ _ s => some s
  | .eoi s => some s
  | .fault _ => none

theorem readsTo_readMatch {br : Word} {s t : State} (h : (readMatch br s).cursor = some t) : s.ReadsTo t := by
  unfold readMatch at h
  split at h
  · cases h
  · rename_i h1; cases h; exact readsTo_readBits h1
  · rename_i h1
    have hoff := readsTo_readBits h1
    split at h
    · cases h
    all_goals
      rename_i h2
      cases h
      exact hoff.trans (readsTo_readBits h2)

theorem readsTo_readLiteral {s t : State} (h : (readLiteral s).cursor = some t) : s.ReadsTo t := by
  unfold readLiteral at h
  split at h
  · cases h
  all_goals
    rename_i h1
    cases h
    exact readsTo_readBits h1

theorem readsTo_readToken {s t : State} (h : (readToken s).cursor = some t) : s.ReadsTo t := by
  unfold readToken at h
  split at h
  · cases h
  · cases h; exact .refl
  · rename_i hb
    have h1 := readsTo_bit hb
    split at h
    · exact h1.trans (readsTo_readLiteral h)
    · split at h
      · split at h
        · cases h
        · cases h; exact h1
        · rename_i hb2
          exact (h1.trans (readsTo_bit hb2)).trans (readsTo_readMatch h)
      · exact h1.trans (readsTo_readMatch h)

/-- The cursor a walk ends with; there is none where it faults. -/
def WalkEnd.cursor : WalkEnd → Option State
  | .leaf _ s => some s
  | .eoi s => some s
  | .fault _ => none

theorem readsTo_walk {pol : Bool} {fuel n : Nat} {s t : State} (h : (walk pol fuel n s).cursor = some t) :
    s.ReadsTo t := by
  induction fuel generalizing n s with
  | zero =>
    unfold walk at h
    split at h <;> (cases h; exact .refl)
  | succ fuel ih =>
    unfold walk at h
    split at h
    · cases h; exact .refl
    · simp only at h
      split at h
      · cases h
      · cases h; exact .refl
      · rename_i hb
        split at h
        · cases h
        · exact (readsTo_bit hb).trans (ih h)

/-! Frames of the sequences. -/

/-- What decoding leaves alone: only bytes of OUT are stored and only the cursor moves. -/
theorem decodesTo_frame {s t : State} (h : s.DecodesTo t) :
    ∃ u, s.StoredTo u (s.base .output) (s.base .output + s.len .output) ∧ u.MovedTo t := by
  induction h with
  | refl => exact ⟨s, storedTo_refl _ _ _, movedTo_refl s⟩
  | tail _ hstep ih =>
    obtain ⟨u, hst, hmv⟩ := ih
    rcases hstep with ⟨b, hb⟩ | ⟨k, b, hk, hw⟩
    · exact ⟨u, hst, movedTo_trans hmv (nextBit_bit hb)⟩
    · obtain ⟨m, rfl, -⟩ := id hst
      obtain ⟨-, -, -, -, -, hbase, hlen⟩ := movedTo_frame hmv
      rw [hlen] at hk
      rw [hbase] at hw
      obtain ⟨p, bb, c, rfl⟩ := hmv
      obtain ⟨ha, rfl⟩ := writeMem_eq_ok hw
      have hstore := storedTo_writeMem (writeMem_ok (s := s.setMem m) (b := b) ha)
      simp only [State.setMem_base, State.setMem_len] at hstore hk
      exact ⟨_, storedTo_trans hst (storedTo_mono hstore (by omega) (by omega)), p, bb, c, rfl⟩

/-- What unpacking leaves alone: only bytes of OUT, the window and the cursor may differ. -/
theorem lzTo_of_unpacksTo {s t : State} (h : s.UnpacksTo t) :
    s.LzTo t (s.base .output) (s.base .output + s.len .output) := by
  induction h with
  | refl => exact lzTo_of_movedTo (movedTo_refl s) _ _
  | tail _ hstep ih =>
    rcases hstep with ⟨b, hb⟩ | ⟨k, b, hk, hp⟩
    · exact lzTo_trans ih (lzTo_of_movedTo (nextBit_bit hb) _ _)
    · obtain ⟨-, -, -, -, hbase, hlen⟩ := lzTo_frame ih
      have hput := lzTo_putByte hp
      rw [hbase] at hput
      rw [hlen] at hk
      exact lzTo_trans ih (lzTo_mono hput (by omega) (by omega))

end Sys2Proof.Machine

/-! What each command leaves and how it may end. -/

namespace Sys2Proof.Machine
open Sys2Proof.Claims

/-- Only bytes of OUT have been stored. -/
abbrev State.StoredOut (s t : State) : Prop := s.StoredTo t (s.base .output) (s.base .output + s.len .output)

/-- What a command can leave before its outcome is applied: one case for each kind of change. -/
inductive Leaves (s : State) (i : Instr) : State → Prop
  /-- HALT, or a check that failed before anything was done (R132, R295). -/
  | unchanged : Leaves s i s
  /-- SETLO and SETHI (R133, R134). -/
  | configured (csr : BitVec 8) (imm : BitVec 16) (r : Fin 34) (v : Word)
      (hi : i = .setlo csr imm ∨ i = .sethi csr imm) (hr : cfgIndex csr = some r) : Leaves s i (s.writeConfig r v)
  /-- BR.OPEN (R153). -/
  | opened (ord : BitOrder) (hi : i = .brOpen ord) (hin : s.Inside .input)
      (hpos : s.csrNat IN_POS ≤ s.csrNat IN_LEN) : Leaves s i (s.openCursor ord)
  /-- BR.BIT, BR.BITS and BR.UNARY (R154 to R156). -/
  | read (u : State) (res : Word) (got : BitVec 6) (eoi cap : Bool) (hi : writesResult i = true)
      (ho : s.bopen = true) (hu : s.ReadsTo u) : Leaves s i (u.setResult res got eoi cap)
  /-- OC.COPY, PP.ASM and PP.ALPHA (R171, R231, R234). -/
  | stored (u : State) (n : Nat) (hi : isData i = true) (hu : s.StoredOut u) : Leaves s i (u.setProduced n)
  /-- KS.* (R260). -/
  | ciphered (u : State) (k : Word) (n : Nat) (hi : isCipher i = true) (hu : s.StoredOut u) :
      Leaves s i ((u.setCipher k n).setProduced n)
  /-- LZ.DEC after its checks (R179). -/
  | unpacked (u : State) (n : Nat) (hi : i = .lzDec) (hc : ∀ c ∈ lzDecChecks s, c.1 = false)
      (hu : ((lzInit s).setProduced 0).UnpacksTo u) : Leaves s i (u.setProduced n)
  /-- A builder that stops after it has begun (R205). -/
  | begun (mode : TreeMode) (n total : Nat) (hi : buildsTree i = true) (ht : total < 2 ^ 40) :
      Leaves s i (s.beginTree mode n total)
  /-- A builder that ends with a tree (R202, R205). -/
  | built (mode : TreeMode) (n total : Nat) (root : Word) (next : Nat) (hc0 hc1 : Cells Node)
      (hi : buildsTree i = true) (ht : total < 2 ^ 40) :
      Leaves s i ((s.beginTree mode n total).setTree root next hc0 hc1)
  /-- HUF.DEC that fails a check after its tree is consumed (R206). -/
  | consumed (hi : i = .hufDec) : Leaves s i s.consumeTree
  /-- HUF.DEC (R206). -/
  | decoded (u : State) (n : Nat) (hi : i = .hufDec) (ho : s.bopen = true) 
      (hu : (s.consumeTree.setProduced 0).DecodesTo u) :
      Leaves s i (u.setProduced n)

/-- The endings R293 allows a command. -/
def MayEnd (i : Instr) : Ending → Prop
  | .complete => i ≠ .halt
  | .truncated c _ => c ∈ truncatedCauses i
  | .corrupt c _ => c ∈ corruptCauses i
  | .halt => i = .halt

/-- What a command can do: what it can leave, with an ending it may have. -/
def Does (s : State) (i : Instr) (u : State) (r : Ending) : Prop := Leaves s i u ∧ MayEnd i r

/-- A checked body does what the body does, or ends Corrupt with a cause of its list and the state given to it. -/
theorem checked_does {i : Instr} {s v u : State} {r : Ending} {cs : List Check} {body : Effect}
    (h : checked cs v body = .ok (u, r)) (hv : Leaves s i v) (hcs : ∀ c ∈ cs, c.2.1 ∈ corruptCauses i)
    (hbody : (∀ c ∈ cs, c.1 = false) → body = .ok (u, r) → Does s i u r) : Does s i u r := by
  rcases checked_cases cs v body with ⟨c, info, hf, he⟩ | ⟨hf, he⟩
  · rw [he] at h
    cases h
    exact ⟨hv, hcs _ (firstFailure_mem hf)⟩
  · exact hbody ((firstFailure_eq_none_iff cs).1 hf) (he ▸ h)

/-! SETLO, SETHI and the bit reader. -/

theorem setConfig_does {i : Instr} {csr : BitVec 8} {imm : BitVec 16} {f : Word → Word} {s u : State} {r : Ending}
    (hi : i = .setlo csr imm ∨ i = .sethi csr imm) (h : setConfig csr f s = .ok (u, r)) : Does s i u r := by
  unfold setConfig at h
  split at h
  · cases h
    refine ⟨.unchanged, ?_⟩
    rcases hi with rfl | rfl <;> exact List.mem_singleton.2 rfl
  · rename_i q hq
    cases h
    refine ⟨.configured csr imm q _ hi hq, ?_⟩
    rcases hi with rfl | rfl <;> exact fun h => nomatch h

theorem brOpen_does {ord : BitOrder} {s u : State} {r : Ending} (h : effectOf (.brOpen ord) s = .ok (u, r)) :
    Does s (.brOpen ord) u r := by
  refine checked_does h .unchanged (by simp [brOpenChecks, State.insideCheck, badCfg, corruptCauses]) fun hc he => ?_
  cases he
  simp only [brOpenChecks, List.forall_mem_cons, insideCheck_fst, badCfg_fst, regionOutside_eq_false_iff,
    decide_eq_false_iff_not, Nat.not_lt] at hc
  obtain ⟨hin, hpos, -⟩ := hc
  exact ⟨.opened ord rfl hin hpos, fun h => nomatch h⟩

/-- The sequence check shared by the commands that only read bits (R154 to R156). -/
theorem reader_does {i : Instr} {s u : State} {r : Ending} {body : Effect} (hi : writesResult i = true)
    (hcorrupt : corruptCauses i = [.eBadSeq]) (h : checked [s.cursorCheck] s body = .ok (u, r))
    (hbody : body = .ok (u, r) →
      (∃ v res got eoi cap, s.ReadsTo v ∧ u = v.setResult res got eoi cap) ∧ MayEnd i r) : Does s i u r := by
  refine checked_does h .unchanged (by simp [State.cursorCheck, hcorrupt]) fun hc he => ?_
  have ho : s.bopen = true := by simpa using hc
  obtain ⟨⟨v, res, got, eoi, cap, hv, rfl⟩, hr⟩ := hbody he
  exact ⟨.read v res got eoi cap hi ho hv, hr⟩

theorem brBit_does {s u : State} {r : Ending} (h : effectOf .brBit s = .ok (u, r)) : Does s .brBit u r := by
  refine reader_does rfl rfl h fun he => ?_
  unfold brBitEffect at he
  split at he
  · cases he
  · cases he
    exact ⟨⟨s, _, _, _, _, .refl, rfl⟩, List.mem_singleton.2 rfl⟩
  · rename_i hb
    cases he
    exact ⟨⟨_, _, _, _, _, readsTo_bit hb, rfl⟩, fun h => nomatch h⟩

/-- Truncated by the end of input, or Complete (R155, R156). -/
theorem mayEnd_tEoi_or_complete {i : Instr} {e : Bool} {info : Word} (hc : i ≠ .halt) (ht : .tEoi ∈ truncatedCauses i) :
    MayEnd i (if e then .truncated .tEoi info else .complete) := by
  cases e
  · exact hc
  · exact ht

theorem brBits_does {n : BitVec 6} {s u : State} {r : Ending} (h : effectOf (.brBits n) s = .ok (u, r)) :
    Does s (.brBits n) u r := by
  refine reader_does rfl rfl h fun he => ?_
  unfold brBitsEffect at he
  split at he
  · cases he
  · rename_i hb
    cases he
    exact ⟨⟨_, _, _, _, _, readsTo_readBits hb, rfl⟩,
      mayEnd_tEoi_or_complete (fun h => nomatch h) (List.mem_singleton.2 rfl)⟩

theorem brUnary_does {s u : State} {r : Ending} (h : effectOf .brUnary s = .ok (u, r)) : Does s .brUnary u r := by
  refine reader_does rfl rfl h fun he => ?_
  unfold brUnaryEffect at he
  split at he
  · cases he
  · rename_i hb
    cases he
    exact ⟨⟨_, _, _, _, _, readsTo_countUnaryFrom hb, rfl⟩,
      mayEnd_tEoi_or_complete (fun h => nomatch h) (List.mem_singleton.2 rfl)⟩

/-! OC.COPY and LZ.DEC. -/

theorem ocCopy_does {s u : State} {r : Ending} (h : effectOf .ocCopy s = .ok (u, r)) : Does s .ocCopy u r := by
  refine checked_does h .unchanged (by simp [ocCopyChecks, State.insideCheck, badCfg, corruptCauses]) fun hc he => ?_
  simp only [ocCopyChecks, List.forall_mem_cons, decide_eq_false_iff_not, Nat.not_lt] at hc
  obtain ⟨-, -, hdst, -⟩ := hc
  unfold ocCopyEffect at he
  split at he
  · cases he
  · rename_i v hv
    cases he
    exact ⟨.stored v _ rfl (storedTo_mono (storedTo_overlapCopy hv) (by omega) (by omega)), fun h => nomatch h⟩

theorem unpacksTo_put {s t : State} {k : Nat} {b : Byte} (hk : k < s.len .output) (h : putByte k b s = .ok t) :
    s.UnpacksTo t := .single (.inr ⟨k, b, hk, h⟩)

theorem unpacksTo_len {s t : State} (h : s.UnpacksTo t) : t.len .output = s.len .output := by
  obtain ⟨-, -, -, -, -, hlen⟩ := lzTo_frame (lzTo_of_unpacksTo h)
  exact hlen _

theorem unpacksTo_copyMatch {d n opos : Nat} {s t : State} (h : copyMatch d n opos s = .ok t)
    (hn : opos + n ≤ s.len .output) : s.UnpacksTo t := by
  induction n generalizing opos s with
  | zero => simp only [copyMatch] at h; cases h; exact .refl
  | succ n ih =>
    simp only [copyMatch] at h
    split at h
    · cases h
    · split at h
      · cases h
      · rename_i hp
        have h1 := unpacksTo_put (by omega) hp
        exact h1.trans (ih h (by rw [unpacksTo_len h1]; omega))

/-- A match that ends LZ.DEC ends it as R293 allows. -/
theorem planMatch_mayEnd {br : Word} {o l opos : Nat} {s : State} {r : Ending} (h : planMatch br o l opos s = .stop r) :
    MayEnd .lzDec r := by
  rcases planMatch_stop h with rfl | ⟨_, rfl⟩ | ⟨_, rfl⟩ | ⟨_, rfl⟩ | ⟨_, rfl⟩ <;>
    simp [MayEnd, truncatedCauses, corruptCauses]

/-- The course of the loop of LZ.DEC and the ending it may have (R179). -/
theorem lzLoop_does {fuel opos : Nat} {s t : State} {r : Ending} (h : lzLoop fuel opos s = .ok (t, r)) :
    (∃ u k, s.UnpacksTo u ∧ t = u.setProduced k) ∧ MayEnd .lzDec r := by
  have hdone : MayEnd .lzDec .complete := fun h => nomatch h
  have heoi (info : Word) : MayEnd .lzDec (.truncated .tEoi info) := by simp [MayEnd, truncatedCauses]
  induction fuel generalizing opos s with
  | zero =>
    unfold lzLoop at h
    split at h
    · cases h; exact ⟨⟨s, opos, .refl, rfl⟩, hdone⟩
    · cases h; exact ⟨⟨s, opos, .refl, rfl⟩, heoi _⟩
  | succ fuel ih =>
    unfold lzLoop at h
    split at h
    · cases h; exact ⟨⟨s, opos, .refl, rfl⟩, hdone⟩
    · rename_i hlt
      simp only at h
      split at h
      · cases h
      · rename_i s1 ht
        cases h
        have h1 : s.UnpacksTo s1 := unpacksTo_of_readsTo (readsTo_readToken (by rw [ht]; rfl))
        exact ⟨⟨s1, opos, h1, rfl⟩, heoi _⟩
      · rename_i b s1 ht
        have h1 : s.UnpacksTo s1 := unpacksTo_of_readsTo (readsTo_readToken (by rw [ht]; rfl))
        split at h
        · cases h
        · rename_i s2 hp
          have h2 := h1.trans (unpacksTo_put (by rw [unpacksTo_len h1]; omega) hp)
          obtain ⟨⟨u, k, hu, rfl⟩, hr⟩ := ih h
          exact ⟨⟨u, k, h2.trans hu, rfl⟩, hr⟩
      · rename_i br o l s1 ht
        have h1 : s.UnpacksTo s1 := unpacksTo_of_readsTo (readsTo_readToken (by rw [ht]; rfl))
        split at h
        · cases h
        · rename_i r' hp
          cases h
          exact ⟨⟨s1, opos, h1, rfl⟩, planMatch_mayEnd hp⟩
        · rename_i d n hp
          split at h
          · cases h
          · rename_i s2 hcopy
            have hn := planMatch_copy hp (by rw [unpacksTo_len h1]; omega)
            have h2 := h1.trans (unpacksTo_copyMatch hcopy hn)
            obtain ⟨⟨u, k, hu, rfl⟩, hr⟩ := ih h
            exact ⟨⟨u, k, h2.trans hu, rfl⟩, hr⟩

theorem lzDec_does {s u : State} {r : Ending} (h : effectOf .lzDec s = .ok (u, r)) : Does s .lzDec u r := by
  refine checked_does h .unchanged (by
    simp [lzDecChecks, State.insideCheck, State.disjointCheck, State.cursorCheck, badCfg,
      corruptCauses]) fun hc he => ?_
  obtain ⟨⟨v, k, hv, rfl⟩, hr⟩ := lzLoop_does he
  exact ⟨.unpacked v k rfl hc hv, hr⟩

/-! HUF.*. -/

theorem sum_readWeights_le {s : State} {n i : Nat} {ws : List Nat} (h : readWeights s n i = .ok ws) :
    ws.sum ≤ n * (2 ^ 32 - 1) := by
  induction n generalizing i ws with
  | zero => simp only [readWeights] at h; cases h; simp
  | succ n ih =>
    simp only [readWeights] at h
    split at h
    · cases h
    · rename_i w _
      split at h
      · cases h
      · rename_i ws' hws
        cases h
        have := ih hws
        have := w.isLt
        rw [List.sum_cons]
        omega

theorem hufBldw_does {s u : State} {r : Ending} (h : effectOf .hufBldw s = .ok (u, r)) : Does s .hufBldw u r := by
  refine checked_does h .unchanged (by simp [hufBldwChecks, State.insideCheck, badCfg, corruptCauses]) fun hc he => ?_
  simp only [hufBldwChecks, List.forall_mem_cons, badCfg_fst, State.badAlphabet, Bool.or_eq_false_iff,
    decide_eq_false_iff_not, Nat.not_lt] at hc
  obtain ⟨⟨-, hn⟩, -⟩ := hc
  unfold hufBldwEffect at he
  split at he
  · cases he
  · rename_i ws hws
    cases he
    have hsum := sum_readWeights_le hws
    have hmax : HSYM_MAX = 256 := rfl
    exact ⟨.built _ _ _ _ _ _ _ rfl (by omega), fun h => nomatch h⟩

theorem hufBldl_does {s u : State} {r : Ending} (h : effectOf .hufBldl s = .ok (u, r)) : Does s .hufBldl u r := by
  refine checked_does h .unchanged (by simp [hufBldlChecks, State.insideCheck, badCfg, corruptCauses]) fun _ he => ?_
  have htable (info : Word) : MayEnd .hufBldl (.corrupt .eHTable info) := by simp [MayEnd, corruptCauses]
  unfold hufBldlEffect at he
  split at he
  · cases he
  · cases he
    exact ⟨.begun _ _ _ rfl (by decide), htable _⟩
  · split at he
    · cases he
      exact ⟨.built _ _ _ _ _ _ _ rfl (by decide), fun h => nomatch h⟩
    · split at he
      · cases he
        exact ⟨.begun _ _ _ rfl (by decide), htable _⟩
      · cases he
        exact ⟨.built _ _ _ _ _ _ _ rfl (by decide), fun h => nomatch h⟩

theorem decodesTo_len {s t : State} (h : s.DecodesTo t) : t.len .output = s.len .output := by
  obtain ⟨u, ⟨m, rfl, -⟩, hmv⟩ := decodesTo_frame h
  obtain ⟨-, -, -, -, -, -, hlen⟩ := movedTo_frame hmv
  exact hlen _

/-- The course of the symbol loop of HUF.DEC (R206). -/
theorem decodesTo_decodeSymbols {pol : Bool} {m k : Nat} {s t : State} {r : Ending}
    (h : decodeSymbols pol m k s = .ok (t, r)) (hk : k + m ≤ s.len .output) :
    ∃ u n, s.DecodesTo u ∧ t = u.setProduced n := by
  induction m generalizing k s with
  | zero => simp only [decodeSymbols] at h; cases h; exact ⟨s, k, .refl, rfl⟩
  | succ m ih =>
    simp only [decodeSymbols] at h
    split at h
    · cases h
    · rename_i s1 hw
      cases h
      exact ⟨s1, k, decodesTo_of_readsTo (readsTo_walk (by rw [hw]; rfl)), rfl⟩
    · rename_i n s1 hw
      have h1 : s.DecodesTo s1 := decodesTo_of_readsTo (readsTo_walk (by rw [hw]; rfl))
      split at h
      · cases h
      · rename_i s2 hs
        have h2 : s.DecodesTo s2 := h1.tail (.inr ⟨k, _, by rw [decodesTo_len h1]; omega, hs⟩)
        obtain ⟨u, n, hu, rfl⟩ := ih h (by rw [decodesTo_len h2]; omega)
        exact ⟨u, n, h2.trans hu, rfl⟩

theorem hufDec_does {s u : State} {r : Ending} (h : effectOf .hufDec s = .ok (u, r)) : Does s .hufDec u r := by
  refine checked_does h .unchanged (by simp [corruptCauses]) fun hseq h => ?_
  have ho : s.bopen = true := by
    have hs : s.bopen = true ∧ s.hvalid = true := by simpa using hseq
    exact hs.1
  refine checked_does h (.consumed rfl) (by
    simp [hufDecChecks, State.insideCheck, State.disjointCheck, badCfg, corruptCauses]) fun _ h => ?_
  refine checked_does h (.decoded (s.consumeTree.setProduced 0) 0 rfl ho .refl)
    (by simp [hufTableChecks, corruptCauses]) fun _ h => ?_
  obtain ⟨v, k, hv, rfl⟩ := decodesTo_decodeSymbols h (by simp)
  obtain ⟨j, -, -, -, -, -, hr⟩ := decodeSymbols_ok h
  refine ⟨.decoded v k rfl ho hv, ?_⟩
  rcases hr with ⟨rfl, -⟩ | ⟨rfl, -⟩
  · exact fun h => nomatch h
  · exact List.mem_singleton.2 rfl

/-! PP.*. -/

theorem lane_lt_channels {s : State} (h : s.badLanes = false) {c : Nat} (hc : c < s.channels) :
    s.lane c < s.channels := by
  have hall := List.any_eq_false.1 h c (List.mem_range.2 hc)
  simp only [Bool.or_eq_true, decide_eq_true_eq, not_or] at hall
  omega

theorem ppAsm_does {s u : State} {r : Ending} (h : effectOf .ppAsm s = .ok (u, r)) : Does s .ppAsm u r := by
  refine checked_does h .unchanged ?_ fun hc he => ?_
  · simp only [ppAsmChecks, List.forall_mem_append, List.forall_mem_cons, List.forall_mem_map]
    simp [State.insideCheck, State.disjointCheck, badCfg, corruptCauses]
  simp only [ppAsmChecks, List.forall_mem_append, List.forall_mem_cons, badCfg_fst, decide_eq_false_iff_not,
    not_not] at hc
  obtain ⟨⟨⟨⟨⟨-, -, hlanes, -, hlen, -⟩, -⟩, -⟩, -⟩, -⟩ := hc
  unfold ppAsmEffect at he
  split at he
  · cases he
  · rename_i v hv
    cases he
    have hst := storedTo_asmImage hv fun d hd => lane_lt_channels hlanes hd
    exact ⟨.stored v _ rfl (storedTo_mono hst (by simp) (by simp [hlen])), fun h => nomatch h⟩

/-- The run loop of PP.ALPHA: what it stores and the ending it may have (R234). -/
theorem alphaRuns_does {expand : Nat → Nat → Byte} {n k p : Nat} {s t : State} {r : Ending}
    (h : alphaRuns expand n k p s = .ok (t, r)) (hlane : s.alphaLane < s.channels)
    (hlen : s.len .output = s.npix * s.channels) :
    (∃ u q, s.StoredOut u ∧ t = u.setProduced q) ∧ MayEnd .ppAlpha r := by
  induction n generalizing k p s with
  | zero =>
    simp only [alphaRuns] at h
    cases h
    refine ⟨⟨s, p, storedTo_refl _ _ _, rfl⟩, ?_⟩
    split <;> simp [MayEnd, truncatedCauses]
  | succ n ih =>
    simp only [alphaRuns] at h
    split at h
    · cases h
    · rename_i e _
      split at h
      · cases h; exact ⟨⟨s, p, storedTo_refl _ _ _, rfl⟩, by simp [MayEnd, corruptCauses]⟩
      · split at h
        · cases h; exact ⟨⟨s, p, storedTo_refl _ _ _, rfl⟩, by simp [MayEnd, corruptCauses]⟩
        · rename_i hfit
          split at h
          · cases h
          · rename_i v hv
            have hrange : (p + bitsOf e 8 24) * s.channels ≤ s.npix * s.channels :=
              Nat.mul_le_mul_right _ (by omega)
            have h1 : s.StoredOut v := storedTo_mono (storedTo_fillAlpha hv hlane) (by omega) (by omega)
            obtain ⟨m, rfl, -⟩ := id h1
            obtain ⟨⟨u, q, hu, rfl⟩, hr⟩ := ih h hlane hlen
            exact ⟨⟨u, q, storedTo_trans h1 hu, rfl⟩, hr⟩

theorem ppAlpha_does {s u : State} {r : Ending} (h : effectOf .ppAlpha s = .ok (u, r)) : Does s .ppAlpha u r := by
  refine checked_does h .unchanged (by
    simp [ppAlphaChecks, State.insideCheck, State.disjointCheck, badCfg, corruptCauses]) fun hc he => ?_
  simp only [ppAlphaChecks, List.forall_mem_cons, badCfg_fst, decide_eq_false_iff_not, not_not, Nat.not_le] at hc
  obtain ⟨-, -, hlane, -, hlen, -⟩ := hc
  obtain ⟨⟨v, q, ⟨m, rfl, hm⟩, rfl⟩, hr⟩ := alphaRuns_does he hlane hlen
  exact ⟨.stored (s.setMem m) q rfl ⟨m, rfl, hm⟩, hr⟩

/-! KS.*. -/

/-- What the operation of every cipher command leaves (R260). -/
theorem cipherEffect_does {gen : State → Word → Nat → Except Fault (Byte × Word)} {pre : Byte → Byte} {bias : Bool}
    {start : Word} {final : Word → Word} {i : Instr} {s u : State} {r : Ending} (hi : isCipher i = true)
    (h : cipherEffect gen pre bias start final s = .ok (u, r)) : Does s i u r := by
  unfold cipherEffect at h
  split at h
  · cases h
  · rename_i g v hv
    cases h
    refine ⟨.ciphered v _ _ hi (storedTo_mono (storedTo_transformLoop hv) (by omega) (by omega)), ?_⟩
    rintro rfl
    cases hi

theorem ksLcg_does {bias : Bool} {s u : State} {r : Ending} (h : effectOf (.ksLcg bias) s = .ok (u, r)) :
    Does s (.ksLcg bias) u r :=
  checked_does h .unchanged (by simp [State.insideCheck, badCfg, corruptCauses]) fun _ he => cipherEffect_does rfl he

theorem ksPm_does {bias : Bool} {s u : State} {r : Ending} (h : effectOf (.ksPm bias) s = .ok (u, r)) :
    Does s (.ksPm bias) u r :=
  checked_does h .unchanged (by simp [State.insideCheck, badCfg, corruptCauses]) fun _ he => cipherEffect_does rfl he

theorem ksHash_does {bias : Bool} {s u : State} {r : Ending} (h : effectOf (.ksHash bias) s = .ok (u, r)) :
    Does s (.ksHash bias) u r := by
  refine checked_does h .unchanged (by
    simp [ksHashChecks, State.insideCheck, State.disjointCheck, badCfg, corruptCauses]) fun _ he => ?_
  unfold ksHashEffect at he
  split at he
  · cases he
  · exact cipherEffect_does rfl he

theorem ksRaw_does {bias : Bool} {s u : State} {r : Ending} (h : effectOf (.ksRaw bias) s = .ok (u, r)) :
    Does s (.ksRaw bias) u r :=
  checked_does h .unchanged (by
    simp [ksRawChecks, State.insideCheck, State.disjointCheck, badCfg, corruptCauses])
    fun _ he => cipherEffect_does rfl he

/-! Every command. -/

theorem effectOf_does {i : Instr} {s u : State} {r : Ending} (h : effectOf i s = .ok (u, r)) : Does s i u r := by
  cases i with
  | halt => cases h; exact ⟨.unchanged, rfl⟩
  | setlo csr imm => exact setConfig_does (f := fun _ => 0#16 ++ imm) (.inl rfl) h
  | sethi csr imm => exact setConfig_does (f := fun old => imm ++ old.extractLsb' 0 16) (.inr rfl) h
  | brOpen ord => exact brOpen_does h
  | brBit => exact brBit_does h
  | brBits n => exact brBits_does h
  | brUnary => exact brUnary_does h
  | ocCopy => exact ocCopy_does h
  | lzDec => exact lzDec_does h
  | hufBldw => exact hufBldw_does h
  | hufBldl => exact hufBldl_does h
  | hufDec => exact hufDec_does h
  | ppAsm => exact ppAsm_does h
  | ppAlpha => exact ppAlpha_does h
  | ksLcg bias => exact ksLcg_does h
  | ksPm bias => exact ksPm_does h
  | ksHash bias => exact ksHash_does h
  | ksRaw bias => exact ksRaw_does h

/-- What a command that answers a next state has done (R130, R131). -/
theorem exec_next {i : Instr} {s t : State} (h : exec i s = .next t) :
    ∃ u r, Leaves s i u ∧ MayEnd i r ∧ t = applyEnding r u := by
  rw [exec_eq_conclude] at h
  obtain ⟨u, r, he, rfl⟩ := conclude_eq_next h
  obtain ⟨hl, hr⟩ := effectOf_does he
  exact ⟨u, r, hl, hr, rfl⟩

end Sys2Proof.Machine

/-! What every command leaves alone: the outcome registers, the configuration, the registers it does not own. -/

namespace Sys2Proof.Machine
open Sys2Proof.Claims

/-- The registers an outcome is recorded in (R131) are the same. -/
structure SameOutcome (s u : State) : Prop where
  cp : u.cp = s.cp
  run : u.run = s.run
  tsticky : u.tsticky = s.tsticky
  cause : u.cause = s.cause
  einfo : u.einfo = s.einfo
  ecp : u.ecp = s.ecp

theorem lzInit_eq (s : State) : ∃ w c, lzInit s = s.setWindow w c := by
  unfold lzInit
  split <;> exact ⟨_, _, rfl⟩

/-- No command touches the outcome registers before its outcome is applied. -/
theorem leaves_sameOutcome {s u : State} {i : Instr} (h : Leaves s i u) : SameOutcome s u := by
  cases h with
  | unchanged => constructor <;> simp
  | configured csr imm r v =>
    unfold State.writeConfig
    split <;> constructor <;> simp
  | opened => constructor <;> simp
  | read v res got eoi cap _ _ hv =>
    obtain ⟨p, b, c, rfl⟩ := movedTo_of_readsTo hv
    constructor <;> simp
  | stored v n _ hv => obtain ⟨m, rfl, -⟩ := hv; constructor <;> simp
  | ciphered v k n _ hv => obtain ⟨m, rfl, -⟩ := hv; constructor <;> simp
  | unpacked v n _ _ hv =>
    obtain ⟨w, c, hw⟩ := lzInit_eq s
    rw [hw] at hv
    obtain ⟨m, w', c', p, b, k, rfl, -⟩ := lzTo_of_unpacksTo hv
    constructor <;> simp
  | begun => constructor <;> simp
  | built => constructor <;> simp
  | consumed => constructor <;> simp
  | decoded v n _ _ hv =>
    obtain ⟨w, ⟨m, rfl, -⟩, p, b, c, rfl⟩ := decodesTo_frame hv
    constructor <;> simp


/-- A read of CSR 0x41 gives the code of the recorded cause (R36, R291, R292). -/
theorem causeWord_toNat (s : State) : (s.readCsr 0x41).toNat = causeCode s.cause := by
  show s.causeWord.toNat = causeCode s.cause
  unfold State.causeWord
  cases s.cause with
  | none => rfl
  | some c => cases c <;> rfl

/-- Settles O8 (it holds): the ending of the inversion decides which of the four clauses applies. -/
theorem outcomeIsRecorded : Obligations.OutcomeIsRecorded := by
  refine ⟨fun i s t h => ?_, causeWord_toNat⟩
  obtain ⟨u, r, hl, hr, rfl⟩ := exec_next h
  obtain ⟨hcp, hrun, hts, hcause, heinfo, hecp⟩ := leaves_sameOutcome hl
  have hread (v : State) (c : Cause) (hv : v.cause = some c) : (v.readCsr 0x41).toNat = causeCode (some c) :=
    hv ▸ causeWord_toNat v
  cases r with
  | complete => exact .inr (.inl ⟨hr, by simp [hcp, hrun, hts, hcause, heinfo, hecp]⟩)
  | truncated c info =>
    have hi : i ≠ .halt := by rintro rfl; cases hr
    exact .inr (.inr (.inl ⟨hi, rfl, by simp [hcp], by simp [hrun], rfl, ⟨c, hr, rfl, hread _ c rfl⟩, by simp [hcp]⟩))
  | corrupt c info =>
    have hi : i ≠ .halt := by rintro rfl; cases hr
    exact .inr (.inr (.inr ⟨hi, rfl, by simp [hcp], rfl, by simp [hts], ⟨c, hr, rfl, hread _ c rfl⟩, by simp [hcp]⟩))
  | halt =>
    have hi : i = .halt := hr
    subst hi
    exact .inl ⟨rfl, Host.Outcome.next.inj h.symm⟩

/-- The owners of the special registers, in the state a command leaves before its outcome is applied. -/
def KeepsUnowned (i : Instr) (s u : State) : Prop :=
  (writesResult i = false → u.res = s.res ∧ u.got = s.got ∧ u.eoi = s.eoi ∧ u.cap = s.cap) ∧
  (writesCursor i = false → u.bbuf = s.bbuf ∧ u.bcnt = s.bcnt ∧ u.bord = s.bord ∧ u.bopen = s.bopen) ∧
  (i ≠ .lzDec → u.win = s.win ∧ u.wcur = s.wcur) ∧
  (buildsTree i = false → u.hroot = s.hroot ∧ u.hnext = s.hnext ∧ u.hmode = s.hmode ∧ u.htovf = s.htovf ∧
    u.htot = s.htot ∧ u.hnsym = s.hnsym ∧ u.hc0 = s.hc0 ∧ u.hc1 = s.hc1 ∧ (i ≠ .hufDec → u.hvalid = s.hvalid)) ∧
  (isCipher i = false → u.kstate = s.kstate ∧ u.kpos = s.kpos) ∧
  (isData i = false → u.produced = s.produced ∧ u.mem = s.mem)

theorem writesCursor_of_writesResult {i : Instr} (h : writesResult i = true) : writesCursor i = true := by
  revert h
  cases i <;> simp [writesResult, writesCursor, readsBits]

theorem isData_of_isCipher {i : Instr} (h : isCipher i = true) : isData i = true := by
  revert h
  cases i <;> simp [isCipher, isData]

theorem leaves_keepsUnowned {s u : State} {i : Instr} (h : Leaves s i u) : KeepsUnowned i s u := by
  unfold KeepsUnowned
  cases h with
  | unchanged => simp
  | configured csr imm r v hi hr =>
    have hc : writesCursor i = true := by rcases hi with rfl | rfl <;> rfl
    unfold State.writeConfig
    split <;> simp [hc]
  | opened ord hi => subst hi; simp [writesCursor]
  | read v res got eoi cap hi _ hv =>
    obtain ⟨p, b, c, rfl⟩ := movedTo_of_readsTo hv
    simp [hi, writesCursor_of_writesResult hi]
  | stored v n hi hv => obtain ⟨m, rfl, -⟩ := hv; simp [hi]
  | ciphered v k n hi hv => obtain ⟨m, rfl, -⟩ := hv; simp [hi, isData_of_isCipher hi]
  | unpacked v n hi _ hv =>
    obtain ⟨w, c, hw⟩ := lzInit_eq s
    rw [hw] at hv
    obtain ⟨m, w', c', p, b, k, rfl, -⟩ := lzTo_of_unpacksTo hv
    subst hi
    simp [writesCursor, readsBits, isData]
  | begun mode n total hi => simp [hi]
  | built mode n total root next hc0 hc1 hi => simp [hi]
  | consumed hi => subst hi; simp
  | decoded v n hi _ hv =>
    obtain ⟨w, ⟨m, rfl, -⟩, p, b, c, rfl⟩ := decodesTo_frame hv
    subst hi
    simp [writesCursor, readsBits, isData]

/-- The outcome touches none of these registers (R131). -/
theorem keepsUnowned_applyEnding {i : Instr} {s u : State} (h : KeepsUnowned i s u) (r : Ending) :
    KeepsUnowned i s (applyEnding r u) := by
  cases r <;> exact h

/-- Settles O52 (it holds): the outcome touches none of these registers, and each kind of change has its owners. -/
theorem registerOwners : Obligations.RegisterOwners := by
  intro i s t h
  obtain ⟨u, r, hl, -, rfl⟩ := exec_next h
  exact keepsUnowned_applyEnding (leaves_keepsUnowned hl) r

/-- CMD, MEM_SIZE and CMD_LEN are the same, and so is every configuration CSR but those the command names and
IN_POS under the bit reader. -/
structure KeepsConfig (i : Instr) (s u : State) : Prop where
  csr : ∀ r : Fin 34, (∀ csr imm, i = .setlo csr imm ∨ i = .sethi csr imm → csr.toNat ≠ r.val) →
    (r = IN_POS → readsBits i = false) → u.csr r = s.csr r
  cmd : u.cmd = s.cmd
  memSize : u.memSize = s.memSize
  cmdLen : u.cmdLen = s.cmdLen

/-- A command that touches no configuration CSR. -/
theorem keepsConfig_of_cfg {i : Instr} {s u : State} (hcfg : u.cfg = s.cfg) (hcmd : u.cmd = s.cmd)
    (hmem : u.memSize = s.memSize) (hlen : u.cmdLen = s.cmdLen) : KeepsConfig i s u :=
  ⟨fun r _ _ => by simp only [State.csr, hcfg], hcmd, hmem, hlen⟩

/-- A command that reads bits touches no configuration CSR but IN_POS. -/
theorem keepsConfig_of_inPos {i : Instr} {s u : State} {p : Word} (hi : readsBits i = true)
    (hcfg : u.cfg = s.cfg.set IN_POS p) (hcmd : u.cmd = s.cmd) (hmem : u.memSize = s.memSize)
    (hlen : u.cmdLen = s.cmdLen) : KeepsConfig i s u := by
  refine ⟨fun r _ hpos => ?_, hcmd, hmem, hlen⟩
  have hr : IN_POS ≠ r := by
    rintro rfl
    rw [hi] at hpos
    cases hpos rfl
  have hset : u.csr r = (s.setCsr IN_POS p).csr r := by simp only [State.csr, hcfg, State.setCsr_cfg]
  rw [hset, State.setCsr_csr_ne s p hr]

theorem readsBits_of_writesResult {i : Instr} (h : writesResult i = true) : readsBits i = true := by
  revert h
  cases i <;> simp [writesResult, readsBits]

theorem leaves_keepsConfig {s u : State} {i : Instr} (h : Leaves s i u) : KeepsConfig i s u := by
  cases h with
  | configured csr imm q v hi hq =>
    have hcsr : ∀ r : Fin 34, r ≠ q → (s.writeConfig q v).csr r = s.csr r := by
      intro r hr
      unfold State.writeConfig
      split <;> simp [State.setCsr_csr_ne s v hr.symm]
    refine ⟨fun r hname _ => hcsr r ?_, ?_, ?_, ?_⟩
    · rintro rfl
      exact hname csr imm hi ((cfgIndex_eq_some_iff csr r).1 hq)
    all_goals unfold State.writeConfig; split <;> simp
  | read v res got eoi cap hi _ hv =>
    obtain ⟨p, b, c, rfl⟩ := movedTo_of_readsTo hv
    apply keepsConfig_of_inPos (readsBits_of_writesResult hi) (p := p) <;> simp
  | unpacked v n hi _ hv =>
    obtain ⟨w, c, hw⟩ := lzInit_eq s
    rw [hw] at hv
    obtain ⟨m, w', c', p, b, k, rfl, -⟩ := lzTo_of_unpacksTo hv
    subst hi
    apply keepsConfig_of_inPos rfl (p := p) <;> simp
  | decoded v n hi _ hv =>
    obtain ⟨w, ⟨m, rfl, -⟩, p, b, c, rfl⟩ := decodesTo_frame hv
    subst hi
    apply keepsConfig_of_inPos rfl (p := p) <;> simp
  | stored v n _ hv => obtain ⟨m, rfl, -⟩ := hv; apply keepsConfig_of_cfg <;> simp
  | ciphered v k n _ hv => obtain ⟨m, rfl, -⟩ := hv; apply keepsConfig_of_cfg <;> simp
  | _ => apply keepsConfig_of_cfg <;> simp

/-- Settles O51 (it holds): by the kinds of change, the outcome touching neither configuration nor CMD. -/
theorem configurationIsKept : Obligations.ConfigurationIsKept := by
  intro i s t h
  obtain ⟨u, r, hl, -, rfl⟩ := exec_next h
  obtain ⟨hcsr, hcmd, hmem, hlen⟩ := leaves_keepsConfig hl
  refine ⟨fun q hname hpos => ?_, ?_, ?_, ?_⟩
  · rw [applyEnding_csr, hcsr q hname hpos]
  · rw [applyEnding_cmd, hcmd]
  · rw [applyEnding_memSize, hmem]
  · rw [applyEnding_cmdLen, hlen]

end Sys2Proof.Machine

/-! The invariant of every run: each primitive step keeps it, so every command and every step does. -/

namespace Sys2Proof.Machine
open Sys2Proof.Claims

/-! One delivered bit. -/

/-- A delivered bit comes from the buffer, or from the next input byte where the buffer is empty (R150). -/
theorem nextBit_bit_cases {s t : State} {b : Bool} (h : nextBit s = .bit b t) :
    (s.bcnt ≠ 0 ∧ t = s.setBits (shiftOut s.bord s.bbuf 1) (s.bcnt - 1)) ∨
    (s.csrNat IN_POS < s.csrNat IN_LEN ∧
      ∃ x, t = (s.setCsr IN_POS (s.csr IN_POS + 1)).setBits (shiftOut s.bord x 1) (8 - 1)) := by
  have hdeliver : ∀ (u : State) (x : Byte) (n : BitVec 4), deliverBit u x n = .bit b t →
      t = u.setBits (shiftOut u.bord x 1) (n - 1) := by
    intro u x n h
    unfold deliverBit at h
    cases hord : u.bord <;> (simp only [hord] at h; cases h; rfl)
  unfold nextBit at h
  split at h
  · split at h
    · cases h
    · split at h
      · cases h
      · rename_i x _
        exact .inr ⟨by omega, x, hdeliver _ x 8 h⟩
  · rename_i hc
    exact .inl ⟨hc, hdeliver _ _ _ h⟩

/-- With one bit shifted out of a buffer that is clear past its unread bits, it is still clear past them (R39). -/
theorem bufferClear_shiftOut {s : State} {x : Byte} {n : BitVec 4} (hn : 1 ≤ n.toNat)
    (h : (s.setBits x n).BufferClear) : (s.setBits (shiftOut s.bord x 1) (n - 1)).BufferClear := by
  obtain ⟨hmsb, hlsb⟩ := h
  simp only [State.setBits_bord, State.setBits_bbuf, State.setBits_bcnt] at hmsb hlsb
  have hsub : (n - 1).toNat = n.toNat - 1 := by
    rw [BitVec.toNat_sub_of_le (by simpa [BitVec.le_def] using hn)]; rfl
  refine ⟨fun hord i hi => ?_, fun hord i hi hni => ?_⟩
  · simp only [State.setBits_bord, State.setBits_bbuf, State.setBits_bcnt, hsub] at hord hi ⊢
    rw [hord, shiftOut, BitVec.getLsbD_shiftLeft]
    rcases Nat.eq_zero_or_pos i with rfl | hpos
    · simp
    · rw [hmsb hord (i - 1) (by omega), Bool.and_false]
  · simp only [State.setBits_bord, State.setBits_bbuf, State.setBits_bcnt, hsub] at hord hni ⊢
    rw [hord, shiftOut, BitVec.getLsbD_ushiftRight]
    rcases Nat.lt_or_ge (1 + i) 8 with hlt | hge
    · exact hlsb hord (1 + i) hlt (by omega)
    · exact BitVec.getLsbD_of_ge _ _ hge

/-- A full buffer has no position past its unread bits. -/
theorem bufferClear_full (s : State) (x : Byte) : (s.setBits x 8).BufferClear := by
  refine ⟨fun _ i hi => ?_, fun _ i hi hni => ?_⟩
  · simp at hi
  · simp at hni; omega

/-! The primitive steps. -/

/-- A run in the middle of a command, with a cursor that is open. -/
structure MidRead (s : State) : Prop where
  inv : s.Inv
  busy : s.run = .busy
  isOpen : s.bopen = true

/-- MEM replaced by a canonical one. -/
theorem inv_setMem {s : State} {m : List Host.Cell} (h : s.Inv) (hm : CellsWf s.memSize m) : (s.setMem m).Inv := by
  obtain ⟨hms, hcl, hcp, ⟨-, hcmd⟩, hwin, hwcur, hcur, hopen, htov⟩ := h
  exact ⟨hms, hcl, hcp, ⟨hm, hcmd⟩, hwin, hwcur, hcur, hopen, htov⟩

/-- The window and its cursor replaced inside their bounds. -/
theorem inv_setWindow {s : State} {w : Cells Byte} {c : Nat} (h : s.Inv) (hw : CellsWf WCAP_MAX w)
    (hc : c < WCAP_MAX) : (s.setWindow w c).Inv := by
  obtain ⟨hms, hcl, hcp, hwf, -, -, hcur, hopen, htov⟩ := h
  refine ⟨hms, hcl, hcp, hwf, hw, ?_, hcur, hopen, htov⟩
  have hmax : WCAP_MAX = 65536 := rfl
  simp only [State.setWindow_wcur, BitVec.toNat_ofNat]
  omega

theorem inv_storedTo {s t : State} {lo hi : Nat} (h : s.Inv) (ht : s.StoredTo t lo hi) : t.Inv := by
  obtain ⟨m, rfl, -, -, hwf⟩ := ht
  obtain ⟨-, -, -, ⟨hmem, -⟩, -⟩ := id h
  exact inv_setMem h (hwf hmem)

theorem midRead_bitStep {s t : State} (h : MidRead s) (ht : BitStep s t) : MidRead t := by
  obtain ⟨⟨hms, hcl, hcp, hwf, hwin, hwcur, ⟨h8, hclear, hclosed⟩, hopen, htov⟩, hbusy, hbo⟩ := h
  obtain ⟨b, hb⟩ := ht
  obtain ⟨-, hin, hpos⟩ := hopen hbusy hbo
  rcases nextBit_bit_cases hb with ⟨hc, rfl⟩ | ⟨hlt, x, rfl⟩
  · have h1 : 1 ≤ s.bcnt.toNat := by
      have : s.bcnt.toNat ≠ 0 := fun h0 => hc (BitVec.eq_of_toNat_eq h0)
      omega
    have hsub : (s.bcnt - 1).toNat = s.bcnt.toNat - 1 := by
      rw [BitVec.toNat_sub_of_le (by simpa [BitVec.le_def] using h1)]; rfl
    refine ⟨⟨hms, hcl, hcp, hwf, hwin, hwcur, ⟨?_, ?_, fun h => ?_⟩, fun _ _ => ⟨hbo, hin, hpos⟩, htov⟩, hbusy, hbo⟩
    · rw [State.setBits_bcnt, hsub]; omega
    · exact bufferClear_shiftOut h1 hclear
    · simp [hbo] at h
  · have hbase := State.setCsr_csrNat_ne s (s.csr IN_POS + 1) (baseReg_ne_inPos .input)
    have hlen := State.setCsr_csrNat_ne s (s.csr IN_POS + 1) (lenReg_ne_inPos .input)
    have hpos' := csrNat_inPos_succ hlt
    refine ⟨⟨hms, hcl, hcp, hwf, hwin, hwcur, ⟨by simp, ?_, fun h => ?_⟩, fun _ _ => ⟨hbo, ?_, ?_⟩, htov⟩, hbusy, hbo⟩
    · exact bufferClear_shiftOut (s := s.setCsr IN_POS _) (by decide) (bufferClear_full _ x)
    · simp [hbo] at h
    · show State.csrNat _ _ + State.csrNat _ _ ≤ _
      rw [State.setBits_csrNat, State.setBits_csrNat, hbase, hlen]
      exact hin
    · rw [State.setBits_csrNat, State.setBits_csrNat, hpos']
      exact hlt.trans_eq hlen.symm

theorem midRead_storeStep {s t : State} (h : MidRead s) (ht : StoreStep s t) : MidRead t := by
  obtain ⟨k, b, -, hw⟩ := ht
  have hst := storedTo_writeMem hw
  have hinv := inv_storedTo h.inv hst
  obtain ⟨m, rfl, -⟩ := hst
  exact ⟨hinv, h.busy, h.isOpen⟩

/-- In DIST mode LZ_WCAP is a capacity the window RAM has (R26, R173). -/
def State.WindowFits (s : State) : Prop := s.tableMode = false → 0 < s.csrNat LZ_WCAP ∧ s.csrNat LZ_WCAP ≤ WCAP_MAX

theorem midRead_putStep {s t : State} (h : MidRead s) (hfit : s.WindowFits) (ht : PutStep s t) : MidRead t := by
  obtain ⟨k, b, -, hp⟩ := ht
  obtain ⟨ha, rfl⟩ := putByte_cases hp
  have hst := storedTo_writeMem (writeMem_ok (s := s) (b := b) ha)
  have hinv := inv_storedTo h.inv hst
  split
  · exact ⟨hinv, h.busy, h.isOpen⟩
  · rename_i hdist
    obtain ⟨hpos, hle⟩ := hfit (by simpa using hdist)
    obtain ⟨-, -, -, -, hwin, hwcur, -⟩ := h.inv
    have hlt := lt_of_lt_of_le (Nat.mod_lt (s.wcur.toNat + 1) hpos) hle
    exact ⟨inv_setWindow hinv (cellsWf_cellWrite hwin b hwcur) hlt, h.busy, h.isOpen⟩

theorem midRead_readsTo {s t : State} (h : MidRead s) (ht : s.ReadsTo t) : MidRead t := by
  induction ht with
  | refl => exact h
  | tail _ hstep ih => exact midRead_bitStep ih hstep

theorem midRead_decodesTo {s t : State} (h : MidRead s) (ht : s.DecodesTo t) : MidRead t := by
  induction ht with
  | refl => exact h
  | tail _ hstep ih => exact hstep.elim (midRead_bitStep ih) (midRead_storeStep ih)

theorem windowFits_lzTo {s t : State} {lo hi : Nat} (h : s.WindowFits) (ht : s.LzTo t lo hi) : t.WindowFits := by
  obtain ⟨-, -, -, hcsr, -⟩ := lzTo_frame ht
  simpa only [State.WindowFits, State.tableMode, State.csrNat, hcsr LZ_CTRL (by decide), hcsr LZ_WCAP (by decide)]
    using h

theorem midRead_unpacksTo {s t : State} (h : MidRead s) (hfit : s.WindowFits) (ht : s.UnpacksTo t) : MidRead t := by
  induction ht with
  | refl => exact h
  | tail hto hstep ih =>
    exact hstep.elim (midRead_bitStep ih) (midRead_putStep ih (windowFits_lzTo hfit (lzTo_of_unpacksTo hto)))

/-! Every command. -/

/-- What the checks of LZ.DEC establish of the cursor and the window (R173 rows 1, 5 and 6). -/
theorem lzDecChecks_window {s : State} (h : ∀ c ∈ lzDecChecks s, c.1 = false) :
    s.bopen = true ∧ s.WindowFits ∧ (s.tableMode = false → s.csrNat LZ_WINIT < s.csrNat LZ_WCAP) := by
  simp only [lzDecChecks, List.forall_mem_cons, cursorCheck_fst, badCfg_fst, Bool.not_eq_false'] at h
  obtain ⟨hopen, -, -, -, hcap, hinit, -⟩ := h
  refine ⟨hopen, fun hd => ?_, fun hd => ?_⟩
  · simp only [hd, Bool.not_false, Bool.true_and, Bool.or_eq_false_iff, decide_eq_false_iff_not] at hcap
    omega
  · simpa [hd] using hinit

theorem lzInit_inv {s : State} (h : s.Inv) (hc : ∀ c ∈ lzDecChecks s, c.1 = false) : (lzInit s).Inv := by
  obtain ⟨-, hfit, hinit⟩ := lzDecChecks_window hc
  obtain ⟨-, -, -, -, hwin, -⟩ := id h
  unfold lzInit
  split
  · exact inv_setWindow h hwin (by decide)
  · rename_i hd
    have hd : s.tableMode = false := by simpa using hd
    obtain ⟨-, hle⟩ := hfit hd
    exact inv_setWindow h (cellsWf_cellFill hwin _ hle) (lt_of_lt_of_le (hinit hd) hle)

theorem writeConfig_inv {s : State} (h : s.Inv) (r : Fin 34) (v : Word) : (s.writeConfig r v).Inv := by
  obtain ⟨hms, hcl, hcp, hwf, hwin, hwcur, hcur, hopen, htov⟩ := h
  unfold State.writeConfig
  split
  · refine ⟨hms, hcl, hcp, hwf, hwin, hwcur, ⟨by simp, ⟨?_, ?_⟩, fun _ => ⟨rfl, rfl⟩⟩, fun _ ho => by simp at ho, htov⟩
    all_goals intros; simp
  · rename_i hr
    have hne : ∀ q : Fin 34, q.val ≤ 2 → (s.setCsr r v).csrNat q = s.csrNat q := fun q hq =>
      State.setCsr_csrNat_ne s v (by rintro rfl; exact hr hq)
    refine ⟨hms, hcl, hcp, hwf, hwin, hwcur, hcur, fun hb ho => ?_, htov⟩
    obtain ⟨-, hin, hpos⟩ := hopen hb ho
    refine ⟨ho, ?_, ?_⟩
    · show State.csrNat _ IN_BASE + State.csrNat _ IN_LEN ≤ _
      rw [hne IN_BASE (by decide), hne IN_LEN (by decide)]
      exact hin
    · rw [hne IN_POS (by decide), hne IN_LEN (by decide)]
      exact hpos

theorem openCursor_inv {s : State} (h : s.Inv) (ord : BitOrder) (hin : s.Inside .input)
    (hpos : s.csrNat IN_POS ≤ s.csrNat IN_LEN) : (s.openCursor ord).Inv := by
  obtain ⟨hms, hcl, hcp, hwf, hwin, hwcur, -, -, htov⟩ := h
  refine ⟨hms, hcl, hcp, hwf, hwin, hwcur, ⟨by simp, ⟨?_, ?_⟩, fun _ => ⟨rfl, rfl⟩⟩, fun _ _ => ⟨rfl, hin, hpos⟩, htov⟩
  all_goals intros; simp

theorem beginTree_inv {s : State} (h : s.Inv) (mode : TreeMode) (n : Nat) {total : Nat} (ht : total < 2 ^ 40) :
    (s.beginTree mode n total).Inv := by
  obtain ⟨hms, hcl, hcp, hwf, hwin, hwcur, hcur, hopen, -⟩ := h
  refine ⟨hms, hcl, hcp, hwf, hwin, hwcur, hcur, hopen, ?_⟩
  rw [State.beginTree_htovf, State.beginTree_htot, BitVec.toNat_ofNat, Nat.mod_eq_of_lt ht]

/-- No command breaks the invariant before its outcome is applied. -/
theorem leaves_inv {s u : State} {i : Instr} (h : Leaves s i u) (hs : s.Inv) (hbusy : s.run = .busy) : u.Inv := by
  cases h with
  | unchanged => exact hs
  | configured csr imm r v => exact writeConfig_inv hs r v
  | opened ord _ hin hpos => exact openCursor_inv hs ord hin hpos
  | read v res got eoi cap _ ho hv => exact (midRead_readsTo ⟨hs, hbusy, ho⟩ hv).inv
  | stored v n _ hv =>
    have hinv : v.Inv := inv_storedTo hs hv
    exact hinv
  | ciphered v k n _ hv =>
    have hinv : v.Inv := inv_storedTo hs hv
    exact hinv
  | unpacked v n _ hc hv =>
    obtain ⟨ho, hfit, -⟩ := lzDecChecks_window hc
    have hinv := lzInit_inv hs hc
    obtain ⟨w, c, hw⟩ := lzInit_eq s
    rw [hw] at hv hinv
    exact (midRead_unpacksTo (s := (s.setWindow w c).setProduced 0) ⟨hinv, hbusy, ho⟩ hfit hv).inv
  | begun mode n total _ ht => exact beginTree_inv hs mode n ht
  | built mode n total root next hc0 hc1 _ ht => exact beginTree_inv hs mode n ht
  | consumed => exact hs
  | decoded v n _ ho hv =>
    exact (midRead_decodesTo (s := s.consumeTree.setProduced 0) ⟨hs, hbusy, ho⟩ hv).inv

/-- An outcome keeps the invariant where CP has not reached the end of the list. -/
theorem applyEnding_inv {s : State} (h : s.Inv) (hcp : s.cp.toNat < s.cmdLen) (r : Ending) : (applyEnding r s).Inv := by
  obtain ⟨hms, hcl, hcple, hwf, hwin, hwcur, hcur, hopen, htov⟩ := h
  have hnext : (s.cp + 1).toNat ≤ s.cmdLen := by
    rw [BitVec.toNat_add]
    have : (1 : Word).toNat = 1 := rfl
    omega
  cases r with
  | complete => exact ⟨hms, hcl, hnext, hwf, hwin, hwcur, hcur, hopen, htov⟩
  | truncated c info => exact ⟨hms, hcl, hnext, hwf, hwin, hwcur, hcur, hopen, htov⟩
  | corrupt c info => exact ⟨hms, hcl, hcple, hwf, hwin, hwcur, hcur, fun hb => (nomatch hb), htov⟩
  | halt => exact ⟨hms, hcl, hcple, hwf, hwin, hwcur, hcur, fun hb => (nomatch hb), htov⟩

/-- A Corrupt outcome leaves CP, so it keeps the invariant at the end of the list too. -/
theorem takeCorrupt_inv {s : State} (h : s.Inv) (c : Cause) (info : Word) : (s.takeCorrupt c info).Inv := by
  obtain ⟨hms, hcl, hcp, hwf, hwin, hwcur, hcur, hopen, htov⟩ := h
  exact ⟨hms, hcl, hcp, hwf, hwin, hwcur, hcur, fun hb => (nomatch hb), htov⟩

theorem exec_inv {i : Instr} {s t : State} (hs : s.Inv) (hbusy : s.run = .busy) (hcp : s.cp.toNat < s.cmdLen)
    (h : exec i s = .next t) : t.Inv := by
  obtain ⟨u, r, hl, -, rfl⟩ := exec_next h
  have hkeep := leaves_keepsConfig hl
  have hout := leaves_sameOutcome hl
  exact applyEnding_inv (leaves_inv hl hs hbusy) (by rw [hout.cp, hkeep.cmdLen]; exact hcp) r

/-- What a fetch meets tells whether CP lies inside the list (R72, R130). -/
theorem cp_lt_of_fetch_word {s : State} {w : Word} (h : s.fetch = .word w) : s.cp.toNat < s.cmdLen := by
  unfold State.fetch at h
  split at h
  · cases h
  · omega

/-- Settles O53 (it holds): the fetch decides between a Corrupt outcome and a command, and both keep the invariant. -/
theorem stepKeepsInvariant : Obligations.StepKeepsInvariant := by
  intro s t hs h
  unfold step cycle at h
  split at h
  · rename_i hbusy
    split at h
    · cases h; exact takeCorrupt_inv hs _ _
    · cases h
    · rename_i w hw
      unfold runWord at h
      split at h
      · cases h; exact takeCorrupt_inv hs _ _
      · exact exec_inv hs hbusy (cp_lt_of_fetch_word hw) h
  · cases h; exact hs

end Sys2Proof.Machine

/-! RESET, START and the host's writes: the invariant, what they leave, and what each of them is. -/

namespace Sys2Proof.Machine
open Sys2Proof.Claims

/-! The invariant. -/

theorem cellsWf_nil {α : Type} (size : Nat) : CellsWf size ([] : Cells α) :=
  ⟨.nil, fun _ h => nomatch h⟩

/-- A closed, empty cursor has the form R39 asks for. -/
theorem cursorOk_of_closed {s : State} (hcnt : s.bcnt = 0) (hbuf : s.bbuf = 0) : s.CursorOk := by
  refine ⟨by simp [hcnt], ⟨?_, ?_⟩, fun _ => ⟨hcnt, hbuf⟩⟩
  all_goals intros; simp [hbuf]

/-- RESET leads to a state with the invariant on every machine whose sizes R5 admits. -/
theorem applyReset_inv {s : State} (hms : s.memSize ≤ 2 ^ 32) (hcl : s.cmdLen < 2 ^ 32) : s.applyReset.Inv :=
  ⟨hms, hcl, Nat.zero_le _, ⟨cellsWf_nil _, cellsWf_nil _⟩, cellsWf_nil _, (by decide : 0 < WCAP_MAX),
    cursorOk_of_closed rfl rfl, fun hb => (nomatch hb), rfl⟩

/-- Settles O54 (it holds): the reset state is the state after RESET of a machine with its sizes. -/
theorem resetMeetsInvariant : Obligations.ResetMeetsInvariant :=
  applyReset_inv (s := State.reset) (by decide) (by decide)

theorem start_inv {s : State} (h : s.Inv) : s.start.Inv := by
  obtain ⟨hms, hcl, -, hwf, hwin, -⟩ := h
  exact ⟨hms, hcl, Nat.zero_le _, hwf, hwin, (by decide : 0 < WCAP_MAX), cursorOk_of_closed rfl rfl,
    fun _ ho => (nomatch ho), rfl⟩

/-- CMD replaced by a canonical list. -/
theorem inv_setCmd {s : State} {c : Cells Word} (h : s.Inv) (hc : CellsWf s.cmdLen c) : (s.setCmd c).Inv := by
  obtain ⟨hms, hcl, hcp, ⟨hmem, -⟩, hwin, hwcur, hcur, hopen, htov⟩ := h
  exact ⟨hms, hcl, hcp, ⟨hmem, hc⟩, hwin, hwcur, hcur, hopen, htov⟩

/-- Between runs a configuration CSR may take any value: the clause on the input region is about a run. -/
theorem inv_setCsr {s : State} (h : s.Inv) (hrun : s.run ≠ .busy) (r : Fin 34) (v : Word) : (s.setCsr r v).Inv := by
  obtain ⟨hms, hcl, hcp, hwf, hwin, hwcur, hcur, -, htov⟩ := h
  exact ⟨hms, hcl, hcp, hwf, hwin, hwcur, hcur, fun hb => absurd hb hrun, htov⟩

/-! What a performed operation is. -/

theorem hostStart_eq_some_iff {s t : State} : hostStart s = some t ↔ s.run ≠ .busy ∧ s.start = t := by
  simp [hostStart]

theorem hostWriteCmd_eq_some_iff {i : Nat} {w : Word} {s t : State} :
    hostWriteCmd i w s = some t ↔ (s.run ≠ .busy ∧ i < s.cmdLen) ∧ s.setCmd (cellWrite s.cmd i w) = t := by
  simp [hostWriteCmd]

theorem hostWriteMem_eq_some_iff {a : Nat} {b : Byte} {s t : State} :
    hostWriteMem a b s = some t ↔ (s.run ≠ .busy ∧ a < s.memSize) ∧ s.setMem (cellWrite s.mem a b) = t := by
  simp [hostWriteMem]

/-- A write of a CSR that is performed is a write of a configuration CSR, or changes nothing (R23). -/
theorem hostWriteCsr_eq_some {i : BitVec 8} {v : Word} {s t : State} (h : hostWriteCsr i v s = some t) :
    s.run ≠ .busy ∧ (t = s ∨ ∃ r, t = s.setCsr r v) := by
  unfold hostWriteCsr at h
  split at h
  · cases h
  · rename_i hrun
    refine ⟨hrun, ?_⟩
    split at h <;> cases h
    · exact .inr ⟨_, rfl⟩
    · exact .inl rfl

/-- Settles O55 (it holds): operation by operation. -/
theorem hostKeepsInvariant : Obligations.HostKeepsInvariant := by
  intro s hs
  obtain ⟨hms, hcl, -, ⟨hmem, hcmd⟩, -⟩ := id hs
  refine ⟨applyReset_inv hms hcl, fun t h => ?_, fun i w t h => ?_, fun a b t h => ?_, fun i v t h => ?_⟩
  · obtain ⟨-, rfl⟩ := hostStart_eq_some_iff.1 h
    exact start_inv hs
  · obtain ⟨⟨-, hi⟩, rfl⟩ := hostWriteCmd_eq_some_iff.1 h
    exact inv_setCmd hs (cellsWf_cellWrite hcmd w hi)
  · obtain ⟨⟨-, ha⟩, rfl⟩ := hostWriteMem_eq_some_iff.1 h
    exact inv_setMem hs (cellsWf_cellWrite hmem b ha)
  · obtain ⟨hrun, rfl | ⟨r, rfl⟩⟩ := hostWriteCsr_eq_some h
    · exact hs
    · exact inv_setCsr hs hrun r v

/-! What the CSRs read. -/

theorem runState_code_toNat (r : RunState) : r.code.toNat = runCode r := by cases r <;> rfl

theorem lastOutcome_code_toNat (l : LastOutcome) : l.code.toNat = lastCode l := by cases l <;> rfl

theorem orderBit_eq (o : BitOrder) : orderBit o = decide (o = .lsb) := by cases o <;> rfl

theorem treeMode_flag_eq (m : TreeMode) : m.flag = decide (m = .lengths) := by cases m <;> rfl

/-- The CSR an index of the configuration reads (R23). -/
theorem readCsr_config {s : State} {i : BitVec 8} {r : Fin 34} (h : i.toNat = r.val) : s.readCsr i = s.csr r := by
  simp only [State.readCsr, (cfgIndex_eq_some_iff i r).2 h]

/-- STATUS (R35). -/
theorem statusWord_toNat (s : State) :
    s.statusWord.toNat = runCode s.run + 4 * lastCode s.last + 16 * s.tsticky.toNat := by
  simp only [State.statusWord, toNat_append, BitVec.toNat_ofBool, runState_code_toNat, lastOutcome_code_toNat,
    BitVec.toNat_ofNat]
  omega

/-- RINFO (R38). -/
theorem rinfoWord_toNat (s : State) : s.rinfoWord.toNat = s.got.toNat + 256 * s.eoi.toNat + 512 * s.cap.toNat := by
  simp only [State.rinfoWord, toNat_append, BitVec.toNat_ofBool, BitVec.toNat_ofNat]
  omega

/-- BSTATE (R39). -/
theorem bstateWord_toNat (s : State) : s.bstateWord.toNat =
    s.bbuf.toNat + 256 * s.bcnt.toNat + 4096 * (decide (s.bord = .lsb)).toNat + 8192 * s.bopen.toNat := by
  simp only [State.bstateWord, toNat_append, BitVec.toNat_ofBool, BitVec.toNat_ofNat, orderBit_eq]
  omega

/-- WCUR (R40). -/
theorem wcurWord_toNat (s : State) : s.wcurWord.toNat = s.wcur.toNat := by
  simp only [State.wcurWord, toNat_append, BitVec.toNat_ofNat]
  omega

/-- HFLAGS (R41). -/
theorem hflagsWord_toNat (s : State) : s.hflagsWord.toNat =
    s.hvalid.toNat + 2 * (decide (s.hmode = .lengths)).toNat + 4 * s.htovf.toNat := by
  simp only [State.hflagsWord, toNat_append, BitVec.toNat_ofBool, BitVec.toNat_ofNat, treeMode_flag_eq]
  omega

/-- HTOTAL (R41, R45). -/
theorem htotal_toNat (s : State) : s.htotal.toNat = s.htot.toNat % 2 ^ 32 := BitVec.toNat_setWidth _ _

/-- An index that names no CSR reads 0 (R23). -/
theorem readCsr_unassigned {s : State} {i : BitVec 8}
    (h : (0x21 < i.toNat ∧ i.toNat < 0x40) ∨ 0x4F < i.toNat) : s.readCsr i = 0 := by
  have hnone : cfgIndex i = none := (cfgIndex_eq_none_iff i).2 (by omega)
  simp only [State.readCsr, hnone]
  split
  case h_17 => rfl
  all_goals omega

theorem readsFields (s : State) : ReadsFields s :=
  ⟨fun _ _ => readCsr_config, statusWord_toNat s, causeWord_toNat s, rfl, rfl, rfl, rfl, rinfoWord_toNat s,
    bstateWord_toNat s, wcurWord_toNat s, rfl, rfl, hflagsWord_toNat s, htotal_toNat s, rfl, rfl, rfl,
    fun _ => readCsr_unassigned⟩

/-- The fields behind the status CSRs from CAUSE on, as R50 gives them. -/
structure Cleared (s : State) : Prop where
  cause : s.cause = none
  einfo : s.einfo = 0
  ecp : s.ecp = 0
  produced : s.produced = 0
  res : s.res = 0
  got : s.got = 0
  eoi : s.eoi = false
  cap : s.cap = false
  bbuf : s.bbuf = 0
  bcnt : s.bcnt = 0
  bord : s.bord = .msb
  bopen : s.bopen = false
  wcur : s.wcur = 0
  hroot : s.hroot = NIL
  hnext : s.hnext = 0
  hvalid : s.hvalid = false
  hmode : s.hmode = .weights
  htovf : s.htovf = false
  htot : s.htot = 0
  kstate : s.kstate = 0
  kpos : s.kpos = 0
  cp : s.cp = 0

theorem cleared_start (s : State) : Cleared s.start := by constructor <;> rfl

theorem cleared_applyReset (s : State) : Cleared s.applyReset := by constructor <;> rfl

/-- With the fields cleared, every status CSR from CAUSE on reads 0 but HROOT (R50). -/
theorem readCsr_of_cleared {s : State} (h : Cleared s) {i : BitVec 8} (hlo : 0x41 ≤ i.toNat) (hhi : i.toNat ≤ 0x4F)
    (hroot : i.toNat ≠ 0x49) : s.readCsr i = 0 := by
  obtain ⟨-, -, hcause, -, -, -, -, hrinfo, hbstate, hwcur, -, -, hhflags, hhtotal, -⟩ := readsFields s
  have hzero {w : Word} (hw : w.toNat = 0) : w = 0 := BitVec.eq_of_toNat_eq hw
  have hnone : cfgIndex i = none := (cfgIndex_eq_none_iff i).2 (by omega)
  simp only [State.readCsr, hnone]
  split
  · omega
  · exact hzero (hcause.trans (by rw [h.cause]; rfl))
  · exact h.einfo
  · exact h.ecp
  · exact h.produced
  · exact h.res
  · exact hzero (hrinfo.trans (by simp [h.got, h.eoi, h.cap]))
  · exact hzero (hbstate.trans (by simp [h.bbuf, h.bcnt, h.bord, h.bopen]))
  · exact hzero (hwcur.trans (by simp [h.wcur]))
  · omega
  · exact h.hnext
  · exact hzero (hhflags.trans (by simp [h.hvalid, h.hmode, h.htovf]))
  · exact hzero (hhtotal.trans (by simp [h.htot]))
  · exact h.kstate
  · exact h.kpos
  · exact h.cp
  · rfl

theorem readCsr_status_of_idle {s : State} (h : s.run = .idle) (hl : s.last = .none) (ht : s.tsticky = false) :
    s.readCsr 0x40 = 0 :=
  BitVec.eq_of_toNat_eq ((statusWord_toNat s).trans (by simp [h, hl, ht, runCode, lastCode]))

/-- Settles O58 (it holds): the layout word by word, and RESET through the cleared fields. -/
theorem resetValues : Obligations.ResetValues := by
  intro s
  refine ⟨readsFields s, fun r => ?_, fun i hlo hhi hroot => ?_, rfl, rfl, rfl, rfl, rfl, rfl⟩
  · show (Vector.replicate 34 (0 : Word))[r] = 0
    simp
  · rcases Nat.lt_or_eq_of_le hlo with hlt | heq
    · exact readCsr_of_cleared (cleared_applyReset s) hlt hhi hroot
    · obtain rfl : i = 0x40 := BitVec.eq_of_toNat_eq heq.symm
      exact readCsr_status_of_idle rfl rfl rfl

/-- Settles O59 (it holds): START clears the same fields as RESET and makes RUN BUSY. -/
theorem startValues : Obligations.StartValues := by
  intro s hrun
  refine ⟨s.start, hostStart_eq_some_iff.2 ⟨hrun, rfl⟩, ?_, fun i hlo hhi hroot => ?_, rfl, rfl, rfl, rfl, rfl, rfl⟩
  · exact BitVec.eq_of_toNat_eq (statusWord_toNat s.start)
  · exact readCsr_of_cleared (cleared_start s) hlo hhi hroot

/-! The host's accesses. -/

/-- During a run every access but RESET and a read of STATUS is refused (R323). -/
theorem host_refused_of_busy {s : State} (h : s.run = .busy) (i a : Nat) (x : BitVec 8) (w : Word) (b : Byte) :
    hostStart s = none ∧ hostWriteCmd i w s = none ∧ hostReadCmd i s = .refused ∧ hostWriteMem a b s = none ∧
      hostReadMem a s = .refused ∧ hostWriteCsr x w s = none ∧ hostReadCsr x s = .refused := by
  simp [hostStart, hostWriteCmd, hostReadCmd, hostWriteMem, hostReadMem, hostWriteCsr, hostReadCsr, h]

theorem hostCmd_refused_of_le {s : State} {i : Nat} (h : s.cmdLen ≤ i) (w : Word) :
    hostWriteCmd i w s = none ∧ hostReadCmd i s = .refused := by
  simp [hostWriteCmd, hostReadCmd, h]

theorem hostMem_refused_of_le {s : State} {a : Nat} (h : s.memSize ≤ a) (b : Byte) :
    hostWriteMem a b s = none ∧ hostReadMem a s = .refused := by
  simp [hostWriteMem, hostReadMem, h]

/-- A read of CMD that is performed answers the entry. -/
theorem hostReadCmd_of_lt {s : State} {i : Nat} (hrun : s.run ≠ .busy) (h : i < s.cmdLen) :
    hostReadCmd i s = hostEntry (cellRead s.cmd i) := by
  simp [hostReadCmd, hrun, h]

/-- A read of MEM that is performed answers the byte. -/
theorem hostReadMem_of_lt {s : State} {a : Nat} (hrun : s.run ≠ .busy) (h : a < s.memSize) :
    hostReadMem a s = hostEntry (s.byteAt a) := by
  simp [hostReadMem, hrun, h]

theorem hostReadCsr_of_not_busy {s : State} (hrun : s.run ≠ .busy) (x : BitVec 8) :
    hostReadCsr x s = .value (s.readCsr x) := by
  simp [hostReadCsr, hrun]

theorem hostWriteCsr_config {s : State} (hrun : s.run ≠ .busy) {x : BitVec 8} {r : Fin 34} (h : x.toNat = r.val)
    (w : Word) : hostWriteCsr x w s = some (s.setCsr r w) := by
  simp [hostWriteCsr, hrun, (cfgIndex_eq_some_iff x r).2 h]

theorem hostWriteCsr_ignored {s : State} (hrun : s.run ≠ .busy) {x : BitVec 8} (h : 0x21 < x.toNat) (w : Word) :
    hostWriteCsr x w s = some s := by
  simp [hostWriteCsr, hrun, (cfgIndex_eq_none_iff x).2 h]

/-- A write of CMD inside the list is read back and changes no other word (R323). -/
theorem hostWriteCmd_readBack {s : State} {i : Nat} (hrun : s.run ≠ .busy) (h : i < s.cmdLen) (w : Word) :
    ∃ c, hostWriteCmd i w s = some { s with cmd := c } ∧ hostReadCmd i { s with cmd := c } = .value w ∧
      ∀ j, j ≠ i → cellRead c j = cellRead s.cmd j := by
  refine ⟨cellWrite s.cmd i w, hostWriteCmd_eq_some_iff.2 ⟨⟨hrun, h⟩, rfl⟩, ?_,
    fun j hj => cellRead_cellWrite_ne _ _ hj⟩
  exact (hostReadCmd_of_lt (s := s.setCmd (cellWrite s.cmd i w)) hrun h).trans (by simp [hostEntry])

/-- A write of MEM inside it is read back and changes no other byte (R323). -/
theorem hostWriteMem_readBack {s : State} {a : Nat} (hrun : s.run ≠ .busy) (h : a < s.memSize) (b : Byte) :
    ∃ m, hostWriteMem a b s = some { s with mem := m } ∧ hostReadMem a { s with mem := m } = .value b ∧
      ∀ c, c ≠ a → cellRead m c = s.byteAt c := by
  refine ⟨cellWrite s.mem a b, hostWriteMem_eq_some_iff.2 ⟨⟨hrun, h⟩, rfl⟩, ?_,
    fun c hc => cellRead_cellWrite_ne _ _ hc⟩
  exact (hostReadMem_of_lt (s := s.setMem (cellWrite s.mem a b)) hrun h).trans (by simp [hostEntry])

/-- Settles O60 (it holds): refusals by the guards, effects by the writes, reads by what is held. -/
theorem hostInterface : Obligations.HostInterface := by
  intro s i a x w b
  refine ⟨fun hbusy => host_refused_of_busy hbusy i a x w b, fun hi => hostCmd_refused_of_le hi w,
    fun ha => hostMem_refused_of_le ha b, rfl,
    fun hrun => ⟨fun hi => ?_, fun ha => ?_, fun r hr => ?_, fun hx => ?_, ?_⟩⟩
  · exact ⟨hostWriteCmd_readBack hrun hi w, fun hw => by rw [hostReadCmd_of_lt hrun hi, hw]; rfl⟩
  · exact ⟨hostWriteMem_readBack hrun ha b, fun hb => by rw [hostReadMem_of_lt hrun ha, hb]; rfl⟩
  · refine ⟨hostWriteCsr_config hrun hr w, ?_⟩
    exact (hostReadCsr_of_not_busy (s := s.setCsr r w) hrun x).trans (by rw [readCsr_config hr, State.setCsr_csr_self])
  · exact hostWriteCsr_ignored hrun hx w
  · exact hostReadCsr_of_not_busy hrun x

end Sys2Proof.Machine

/-! LZ.DEC computes the list decoder: first its static checks as the table of R173 prints them. -/

namespace Sys2Proof.Machine
open Sys2Proof.Claims

/-! The static checks (R173). -/

/-- The fields of a word that a shift and a mask of ones select. -/
theorem shift_mask_toNat (v : Word) (lo width : Nat) (h : width < 32) :
    ((v >>> lo) &&& BitVec.ofNat 32 (2 ^ width - 1)).toNat = bitsOf v lo width := by
  have hlt : 2 ^ width < 2 ^ 32 := Nat.pow_lt_pow_right (by decide) h
  rw [BitVec.toNat_and, BitVec.toNat_ushiftRight, BitVec.toNat_ofNat, Nat.mod_eq_of_lt (by omega),
    Nat.and_two_pow_sub_one_eq_mod, Nat.shiftRight_eq_div_pow, bitsOf]

/-- The field above a bit position. -/
theorem shift_toNat (v : Word) {lo width : Nat} (h : lo + width = 32) : (v >>> lo).toNat = bitsOf v lo width := by
  have hlt : v.toNat / 2 ^ lo < 2 ^ width := by
    rw [Nat.div_lt_iff_lt_mul (Nat.two_pow_pos lo), ← Nat.pow_add, Nat.add_comm, h]
    exact v.isLt
  rw [BitVec.toNat_ushiftRight, Nat.shiftRight_eq_div_pow, bitsOf, Nat.mod_eq_of_lt hlt]

theorem shift_ne_zero_iff (v : Word) {lo width : Nat} (h : lo + width = 32) : v >>> lo ≠ 0 ↔ bitsOf v lo width ≠ 0 := by
  rw [← shift_toNat v h, ne_eq, ne_eq, BitVec.toNat_eq]
  rfl

/-- A flag read by masking its bit. -/
theorem and_twoPow_ne_zero_iff (v : Word) {k : Nat} (hk : k < 32) :
    v &&& BitVec.twoPow 32 k ≠ 0 ↔ v.getLsbD k = true := by
  rw [BitVec.and_twoPow]
  split <;> rename_i hb
  · simp only [hb, iff_true]
    intro h0
    have := congrArg BitVec.toNat h0
    simp [BitVec.toNat_twoPow, Nat.mod_eq_of_lt (Nat.pow_lt_pow_right (by decide : 1 < 2) hk)] at this
  · simp [hb]

theorem offsetTable_iff (s : State) : OffsetTable s ↔ s.tableMode = true :=
  and_twoPow_ne_zero_iff (s.csr LZ_CTRL) (k := 5) (by decide)

theorem under_eq_iff (s : State) (n : BitVec 2) : (s.csr LZ_CTRL >>> 3) &&& 3 = n.setWidth 32 ↔ s.under = n.toNat := by
  rw [State.under, ← shift_mask_toNat _ 3 2 (by decide), BitVec.toNat_eq, BitVec.toNat_setWidth,
    Nat.mod_eq_of_lt (by omega)]
  rfl

theorem badDescriptor_iff (d : Word) : BadDescriptor d ↔ badDescriptor d = true := by
  have hoff : (d &&& 0x1F).toNat = offB d := by
    have := shift_mask_toNat d 0 5 (by decide)
    rwa [BitVec.ushiftRight_zero] at this
  have hlen : ((d >>> 5) &&& 0x1F).toNat = lenB d := shift_mask_toNat d 5 5 (by decide)
  unfold BadDescriptor badDescriptor
  rw [shift_ne_zero_iff d (lo := 26) (width := 6) (by decide), hoff, hlen]
  simp only [Bool.or_eq_true, decide_eq_true_eq, or_assoc]
  rfl

theorem overlap_iff (s : State) (g h : Region) : Overlap s g h ↔ s.overlaps g h = true := by
  simp [Overlap, State.overlaps, and_assoc]

theorem not_inside_iff (s : State) (g : Region) : ¬ s.Inside g ↔ s.regionOutside g = true := by
  simp [State.Inside, State.regionOutside]

/-- The model's list of checks is the table R173 prints. -/
theorem firstFailure_lzDecChecks (s : State) : firstFailure (lzDecChecks s) = lzRejects s := by
  have htwo : s.csr LZ_CTRL &&& 2 ≠ 0 ↔ s.twolvl = true := and_twoPow_ne_zero_iff (s.csr LZ_CTRL) (k := 1) (by decide)
  have hctrl := shift_ne_zero_iff (s.csr LZ_CTRL) (lo := 6) (width := 26) (by decide)
  have h3 : (s.csr LZ_CTRL >>> 3) &&& 3 = 3 ↔ s.under = 3 := under_eq_iff s 3
  have h0 : (s.csr LZ_CTRL >>> 3) &&& 3 = 0 ↔ s.under = 0 := under_eq_iff s 0
  unfold lzRejects lzDecChecks
  simp only [offsetTable_iff, badDescriptor_iff, overlap_iff, not_inside_iff, htwo, hctrl, h3, h0, State.cursorCheck,
    State.insideCheck, State.disjointCheck, badCfg, firstFailure_cons, firstFailure_nil, Bool.and_eq_true,
    Bool.or_eq_true, Bool.not_eq_true', decide_eq_true_eq, Bool.not_eq_true]
  rfl

end Sys2Proof.Machine

/-! A state with its output, window and PRODUCED replaced: it reads the same bits. -/

namespace Sys2Proof.Machine
open Sys2Proof.Claims

/-- `u` with MEM, the window and its cursor replaced and PRODUCED 0: a state in the course of LZ.DEC. -/
def State.overlay (u : State) (m : List Host.Cell) (w : Cells Byte) (c : Nat) : State :=
  ((u.setMem m).setWindow w c).setProduced 0

/-- The bytes of a region are the same in `m`. -/
def State.KeepsRegion (s : State) (g : Region) (m : List Host.Cell) : Prop :=
  ∀ k, k < s.len g → cellRead m (s.base g + k) = s.byteAt (s.base g + k)

section overlay
variable {u : State} {m : List Host.Cell} {w : Cells Byte} {c : Nat}

theorem overlay_csr (r : Fin 34) : (u.overlay m w c).csr r = u.csr r := rfl
theorem overlay_csrNat (r : Fin 34) : (u.overlay m w c).csrNat r = u.csrNat r := rfl
theorem overlay_memSize : (u.overlay m w c).memSize = u.memSize := rfl
theorem overlay_tableMode : (u.overlay m w c).tableMode = u.tableMode := rfl
theorem overlay_wcur : (u.overlay m w c).wcur = BitVec.ofNat 17 c := rfl
theorem overlay_mem : (u.overlay m w c).mem = m := rfl
theorem overlay_win : (u.overlay m w c).win = w := rfl
theorem overlay_bcnt : (u.overlay m w c).bcnt = u.bcnt := rfl
theorem overlay_bord : (u.overlay m w c).bord = u.bord := rfl
theorem overlay_bbuf : (u.overlay m w c).bbuf = u.bbuf := rfl
theorem overlay_base (g : Region) : (u.overlay m w c).base g = u.base g := rfl
theorem overlay_len (g : Region) : (u.overlay m w c).len g = u.len g := rfl
theorem overlay_byteAt (a : Nat) : (u.overlay m w c).byteAt a = cellRead m a := rfl

theorem overlay_setProduced (n : Nat) : (u.overlay m w c).setProduced n =
    { u with mem := m, win := w, wcur := BitVec.ofNat 17 c, produced := BitVec.ofNat 32 n } := rfl

theorem overlay_setMem (m' : List Host.Cell) : (u.overlay m w c).setMem m' = u.overlay m' w c := rfl

theorem overlay_setMem_setWindow (m' : List Host.Cell) (w' : Cells Byte) (c' : Nat) :
    ((u.overlay m w c).setMem m').setWindow w' c' = u.overlay m' w' c' := rfl

/-- With its own MEM put back only the window and PRODUCED are replaced. -/
theorem overlay_self_mem : u.overlay u.mem w c = (u.setWindow w c).setProduced 0 := by
  have hmem : u.setMem u.mem = u := rfl
  rw [State.overlay, hmem]

theorem overlay_regionByte {g : Region} (h : u.KeepsRegion g m) {k : Nat} (hk : k < u.len g) :
    (u.overlay m w c).regionByte g k = u.regionByte g k := by
  simp only [State.regionByte, overlay_base, overlay_byteAt, h k hk]

theorem overlay_pendingBits (h : u.KeepsRegion .input m) : (u.overlay m w c).pendingBits = u.pendingBits := by
  have hun : (u.overlay m w c).unloadedBits = u.unloadedBits := by
    refine List.flatMap_congr fun k hk => ?_
    have hk : k < u.bytesLeft := List.mem_range.1 hk
    have hlt : u.csrNat IN_POS + k < u.len .input := by
      simp only [State.bytesLeft] at hk
      show _ < u.csrNat IN_LEN
      omega
    exact congrArg _ (overlay_regionByte h hlt)
  simp only [State.pendingBits, hun, overlay_bcnt, overlay_bord, overlay_bbuf]

theorem overlay_readyToRead (h : u.KeepsRegion .input m) (hr : u.ReadyToRead) : (u.overlay m w c).ReadyToRead := by
  obtain ⟨hopen, h8, hin⟩ := hr
  refine ⟨hopen, h8, fun k hk => ?_⟩
  have hk : k < u.bytesLeft := hk
  have hlt : u.csrNat IN_POS + k < u.len .input := by
    simp only [State.bytesLeft] at hk
    show _ < u.csrNat IN_LEN
    omega
  show (cellRead m (u.base .input + (u.csrNat IN_POS + k))).isSome = true
  rw [h _ hlt]
  exact hin k hk

/-- Consuming bits and replacing MEM outside the input commute. -/
theorem overlay_afterBits (h : u.KeepsRegion .input m) {k : Nat} (hk : k ≤ u.bitsLeft) :
    (u.overlay m w c).afterBits k = (u.afterBits k).overlay m w c := by
  by_cases hle : k ≤ u.bcnt.toNat
  · rw [State.afterBits_of_le hle, State.afterBits_of_le (s := u.overlay m w c) hle]
    rfl
  · have hgt : u.bcnt.toNat < k := by omega
    have hlt : u.csrNat IN_POS + ((k - u.bcnt.toNat + 7) / 8 - 1) < u.len .input := by
      simp only [State.bitsLeft] at hk
      show _ < u.csrNat IN_LEN
      omega
    rw [State.afterBits_of_gt hgt, State.afterBits_of_gt (s := u.overlay m w c) hgt]
    have hbyte := overlay_regionByte (w := w) (c := c) h hlt
    simp only [overlay_bcnt, overlay_bord, overlay_csr, overlay_csrNat, hbyte]
    rfl

end overlay

end Sys2Proof.Machine

/-! The course of LZ.DEC: its state after some bits and some bytes, and what each piece of the command does there. -/

namespace Sys2Proof.Machine
open Sys2Proof.Claims

/-! The state after some bits. -/

/-- `s` after `j` bits, with MEM, the window and its cursor replaced and PRODUCED 0. -/
def State.lzAt (s : State) (j : Nat) (m : List Host.Cell) (w : Cells Byte) (c : Nat) : State :=
  (s.afterBits j).overlay m w c

section lzAt
variable {s : State} {m : List Host.Cell} {w : Cells Byte} {c : Nat}

theorem lzAt_csr (j : Nat) {r : Fin 34} (hr : r ≠ IN_POS) : (s.lzAt j m w c).csr r = s.csr r := by
  rw [State.lzAt, overlay_csr, s.afterBits_csr j hr]

theorem lzAt_base (j : Nat) (g : Region) : (s.lzAt j m w c).base g = s.base g := by
  obtain ⟨-, -, -, -, -, hbase, -⟩ := movedTo_frame (movedTo_afterBits s j)
  rw [State.lzAt, overlay_base, hbase]

theorem lzAt_len (j : Nat) (g : Region) : (s.lzAt j m w c).len g = s.len g := by
  obtain ⟨-, -, -, -, -, -, hlen⟩ := movedTo_frame (movedTo_afterBits s j)
  rw [State.lzAt, overlay_len, hlen]

theorem lzAt_memSize (j : Nat) : (s.lzAt j m w c).memSize = s.memSize := by
  obtain ⟨-, hsize, -⟩ := movedTo_frame (movedTo_afterBits s j)
  rw [State.lzAt, overlay_memSize, hsize]

theorem lzAt_mem (j : Nat) : (s.lzAt j m w c).mem = m := by rw [State.lzAt, overlay_mem]

theorem lzAt_win (j : Nat) : (s.lzAt j m w c).win = w := by rw [State.lzAt, overlay_win]

theorem lzAt_setMem (j : Nat) (m' : List Host.Cell) : (s.lzAt j m w c).setMem m' = s.lzAt j m' w c := by
  rw [State.lzAt, overlay_setMem, State.lzAt]

theorem lzAt_setMem_setWindow (j : Nat) (m' : List Host.Cell) (w' : Cells Byte) (c' : Nat) :
    ((s.lzAt j m w c).setMem m').setWindow w' c' = s.lzAt j m' w' c' := by
  rw [State.lzAt, overlay_setMem_setWindow, State.lzAt]

theorem lzAt_tableMode (j : Nat) : (s.lzAt j m w c).tableMode = s.tableMode := by
  rw [State.lzAt, overlay_tableMode, s.afterBits_tableMode j]

/-- The bits still to come after `j` are the pending bits without the first `j`. -/
theorem lzAt_pending (hr : s.ReadyToRead) (hk : s.KeepsRegion .input m) {j : Nat} (hj : j ≤ s.pendingBits.length) :
    (s.lzAt j m w c).ReadyToRead ∧ (s.lzAt j m w c).pendingBits = s.pendingBits.drop j ∧
      ∀ k, j + k ≤ s.pendingBits.length → (s.lzAt j m w c).afterBits k = s.lzAt (j + k) m w c := by
  have hro := overlay_readyToRead (w := w) (c := c) hk hr
  have hpo := overlay_pendingBits (w := w) (c := c) hk
  have hat : ∀ i, i ≤ s.pendingBits.length → s.lzAt i m w c = (s.overlay m w c).afterBits i := fun i hi => by
    rw [State.lzAt, overlay_afterBits hk (by rwa [← State.pendingBits_length hr.2.1])]
  obtain ⟨hrj, hpj⟩ := State.afterBits_pending hro (k := j) (by rwa [hpo])
  rw [hat j hj]
  refine ⟨hrj, by rw [hpj, hpo], fun k hjk => ?_⟩
  rw [hat _ hjk, State.afterBits_add hro (by rwa [hpo])]

/-! Tokens. -/

/-- read_token in the list decoder looks at the configuration only. -/
theorem refToken_congr {s t : State} (h : ∀ r, r ≠ IN_POS → t.csr r = s.csr r) (bs : List Bool) :
    refToken t bs = refToken s bs := by
  have hctrl : t.csr LZ_CTRL = s.csr LZ_CTRL := h _ (by decide)
  have hlit : t.litpol = s.litpol := congrArg (BitVec.getLsbD · 0) hctrl
  have htwo : t.twolvl = s.twolvl := congrArg (BitVec.getLsbD · 1) hctrl
  have hshort : t.shortpol = s.shortpol := congrArg (BitVec.getLsbD · 2) hctrl
  unfold refToken
  rw [hlit, htwo, hshort, h LZ_SHORT (by decide), h LZ_LONG (by decide)]

theorem readToken_lzAt_none (hr : s.ReadyToRead) (hk : s.KeepsRegion .input m) {j : Nat}
    (hj : j ≤ s.pendingBits.length) (h : refToken s (s.pendingBits.drop j) = none) :
    readToken (s.lzAt j m w c) = .eoi (s.lzAt s.pendingBits.length m w c) := by
  obtain ⟨hrj, hpj, hadd⟩ := lzAt_pending (w := w) (c := c) hr hk hj
  rw [readToken_ready hrj, hpj, refToken_congr fun _ => lzAt_csr j, h]
  simp only [List.length_drop]
  rw [hadd _ (by omega), Nat.add_sub_cancel' hj]

theorem readToken_lzAt_some (hr : s.ReadyToRead) (hk : s.KeepsRegion .input m) {j : Nat}
    (hj : j ≤ s.pendingBits.length) {t : RefToken} {rest : List Bool}
    (h : refToken s (s.pendingBits.drop j) = some (t, rest)) :
    readToken (s.lzAt j m w c) = tokenRead t (s.lzAt (s.pendingBits.length - rest.length) m w c) := by
  obtain ⟨hrj, hpj, hadd⟩ := lzAt_pending (w := w) (c := c) hr hk hj
  obtain ⟨k, -, hk', rfl⟩ := refToken_some h
  rw [List.length_drop] at hk'
  rw [readToken_ready hrj, hpj, refToken_congr fun _ => lzAt_csr j, h]
  simp only [List.length_drop]
  rw [hadd _ (by omega)]
  congr 2
  omega

/-! Distances and plans. -/

/-- A 32-bit read depends on its four bytes only. -/
theorem readMem32_congr_bytes {s t : State} {a : Nat} (hs : t.memSize = s.memSize)
    (h : ∀ k, k < 4 → t.byteAt (a + k) = s.byteAt (a + k)) : readMem32 t a = readMem32 s a := by
  have hb : ∀ k, k < 4 → readMem t (a + k) = readMem s (a + k) := fun k hk => by simp only [readMem, hs, h k hk]
  have h0 := hb 0 (by decide)
  rw [Nat.add_zero] at h0
  simp only [readMem32, h0, hb 1 (by decide), hb 2 (by decide), hb 3 (by decide)]

/-- The plan of a match looks at the configuration and, in TABLE mode, at the table. -/
theorem planMatch_congr {s t : State} (hs : t.memSize = s.memSize) (hcsr : ∀ r, r ≠ IN_POS → t.csr r = s.csr r)
    (htable : s.tableMode = true → ∀ k, k < s.len .table → t.byteAt (s.base .table + k) = s.byteAt (s.base .table + k))
    (br : Word) (o l opos : Nat) : planMatch br o l opos t = planMatch br o l opos s := by
  have hlen : ∀ g, t.len g = s.len g := fun g => congrArg BitVec.toNat (hcsr _ (Ne.symm (lenReg_ne_inPos g)))
  have hbase : t.base .table = s.base .table := congrArg BitVec.toNat (hcsr _ (by decide))
  have hunder : t.under = s.under := by simp only [State.under, hcsr LZ_CTRL (by decide)]
  have hmode : t.tableMode = s.tableMode := by simp only [State.tableMode, hcsr LZ_CTRL (by decide)]
  have hcap : t.csrNat LZ_WCAP = s.csrNat LZ_WCAP := congrArg BitVec.toNat (hcsr _ (by decide))
  have hdist : matchDistance br o t = matchDistance br o s := by
    unfold matchDistance
    rw [hmode, hlen, hbase, hcap]
    split
    · rename_i htm
      split
      · rfl
      · rename_i hin
        rw [readMem32_congr_bytes hs fun k hk => ?_]
        rw [Nat.add_assoc]
        exact htable htm _ (by omega)
    · rfl
  simp only [planMatch, hdist, hunder, hlen]

/-- The distance of a planned copy: at least 1, inside the window in DIST mode, and not before the start of output where
UNDER is STOP or FAULT (R175, R176). -/
theorem planMatch_copy_distance {br : Word} {o l opos d n : Nat} {s : State}
    (h : planMatch br o l opos s = .copy d n) :
    0 < d ∧ (s.tableMode = false → d ≤ s.csrNat LZ_WCAP) ∧ (s.under = 1 ∨ s.under = 2 → d ≤ opos) := by
  unfold planMatch at h
  split at h
  · cases h
  · cases h
  · rename_i d' hd
    have hpos : 0 < d' ∧ (s.tableMode = false → d' ≤ s.csrNat LZ_WCAP) := by
      unfold matchDistance at hd
      split at hd
      · rename_i htm
        split at hd
        · cases hd
        · split at hd
          · cases hd
          · rename_i e _
            split at hd
            · cases hd
            · rename_i he
              cases hd
              exact ⟨Nat.pos_of_ne_zero fun h0 => he (BitVec.eq_of_toNat_eq h0), fun hf => by simp [htm] at hf⟩
      · split at hd
        · cases hd
        · cases hd; exact ⟨by omega, fun _ => by omega⟩
    split at h
    · cases h
    · split at h
      · cases h
      · have hund : s.under = 1 ∨ s.under = 2 → d' ≤ opos := by omega
        split at h
        · split at h
          · cases h; exact ⟨hpos.1, hpos.2, hund⟩
          · cases h
        · cases h; exact ⟨hpos.1, hpos.2, hund⟩

end lzAt

/-! One round of the two decoders. -/

theorem lzLoop_done {s : State} {fuel opos : Nat} (h : s.len .output ≤ opos) :
    lzLoop fuel opos s = .ok (s.setProduced opos, .complete) := by
  unfold lzLoop; rw [if_pos h]

theorem lzLoop_zero {s : State} {opos : Nat} (h : opos < s.len .output) :
    lzLoop 0 opos s = .ok (s.setProduced opos, .truncated .tEoi (BitVec.ofNat 32 opos)) := by
  unfold lzLoop; rw [if_neg (by omega)]

theorem lzLoop_eoi {s t : State} {fuel opos : Nat} (h : opos < s.len .output) (ht : readToken s = .eoi t) :
    lzLoop (fuel + 1) opos s = .ok (t.setProduced opos, .truncated .tEoi (BitVec.ofNat 32 opos)) := by
  unfold lzLoop; rw [if_neg (by omega)]; simp only [ht]

theorem lzLoop_literal {s t u : State} {fuel opos : Nat} {b : Byte} (h : opos < s.len .output)
    (ht : readToken s = .literal b t) (hp : putByte opos b t = .ok u) :
    lzLoop (fuel + 1) opos s = lzLoop fuel (opos + 1) u := by
  rw [lzLoop, if_neg (by omega)]; simp only [ht, hp]

theorem lzLoop_stop {s t : State} {fuel opos : Nat} {br : Word} {o l : Nat} {r : Ending} (h : opos < s.len .output)
    (ht : readToken s = .copy br o l t) (hp : planMatch br o l opos t = .stop r) :
    lzLoop (fuel + 1) opos s = .ok (t.setProduced opos, r) := by
  rw [lzLoop, if_neg (by omega)]; simp only [ht, hp]

theorem lzLoop_copy {s t u : State} {fuel opos : Nat} {br : Word} {o l d n : Nat} (h : opos < s.len .output)
    (ht : readToken s = .copy br o l t) (hp : planMatch br o l opos t = .copy d n) (hc : copyMatch d n opos t = .ok u) :
    lzLoop (fuel + 1) opos s = lzLoop fuel (opos + n) u := by
  rw [lzLoop, if_neg (by omega)]; simp only [ht, hp, hc]

section reference
variable {s : State} {fuel : Nat} {bs rest : List Bool} {out : List Byte}

theorem refLzLoop_done (h : s.len .output ≤ out.length) :
    refLzLoop s fuel bs out = { out := out, ending := .complete, rest := bs } := by
  unfold refLzLoop; rw [if_pos h]

theorem refLzLoop_zero (h : out.length < s.len .output) :
    refLzLoop s 0 bs out = { out := out, ending := .truncated .tEoi (BitVec.ofNat 32 out.length), rest := [] } := by
  unfold refLzLoop; rw [if_neg (by omega)]

theorem refLzLoop_eoi (h : out.length < s.len .output) (ht : refToken s bs = none) :
    refLzLoop s (fuel + 1) bs out =
      { out := out, ending := .truncated .tEoi (BitVec.ofNat 32 out.length), rest := [] } := by
  rw [refLzLoop, if_neg (by omega)]; simp only [ht]

theorem refLzLoop_literal {b : Byte} (h : out.length < s.len .output) (ht : refToken s bs = some (.literal b, rest)) :
    refLzLoop s (fuel + 1) bs out = refLzLoop s fuel rest (out ++ [b]) := by
  rw [refLzLoop, if_neg (by omega)]; simp only [ht]

/-- A match that ends the command, or copies: the list decoder follows the same plan as the machine (R175 to R177). -/
theorem refLzLoop_match {br : Word} {o l : Nat} (hi : s.tableMode = true → s.Inside .table ∧ s.Readable .table)
    (h : out.length < s.len .output) (ht : refToken s bs = some (.copy br o l, rest)) :
    (∃ r, planMatch br o l out.length s = .stop r ∧
      refLzLoop s (fuel + 1) bs out = { out := out, ending := r, rest := rest }) ∨
    (∃ d n, planMatch br o l out.length s = .copy d n ∧
      refLzLoop s (fuel + 1) bs out = refLzLoop s fuel rest (refCopy ((s.csr LZ_WFILL).setWidth 8) d n out)) := by
  rw [refLzLoop, if_neg (by omega)]
  simp only [ht]
  unfold planMatch
  rw [matchDistance_ready hi]
  cases hd : refDistance s (o + distBias br) with
  | error e => exact .inl ⟨_, rfl, rfl⟩
  | ok d =>
    simp only
    split
    · exact .inl ⟨_, rfl, rfl⟩
    · split
      · exact .inl ⟨_, rfl, rfl⟩
      · split
        · split
          · exact .inr ⟨_, _, rfl, rfl⟩
          · exact .inl ⟨_, rfl, rfl⟩
        · exact .inr ⟨_, _, rfl, rfl⟩

end reference

end Sys2Proof.Machine

/-! The simulation: the machine in the course of LZ.DEC against the list of bytes produced. -/

namespace Sys2Proof.Machine
open Sys2Proof.Claims

/-- The fill byte of the window (R44). -/
def State.lzFill (s : State) : Byte := (s.csr LZ_WFILL).setWidth 8

/-- What LZ.DEC has established once its checks pass on readable input and, in TABLE mode, a readable table. -/
structure LzReady (s : State) : Prop where
  ready : s.ReadyToRead
  outInside : s.Inside .output
  outInput : s.Disjoint .output .input
  window : s.WindowFits
  winit : s.tableMode = false → s.csrNat LZ_WINIT < s.csrNat LZ_WCAP
  table : s.tableMode = true → s.Inside .table ∧ s.Readable .table
  outTable : s.tableMode = true → s.Disjoint .output .table
  under : s.tableMode = true → s.under = 1 ∨ s.under = 2

theorem lzReady_of_checks {s : State} (hr : s.ReadyToRead) (ht : s.tableMode = true → s.Readable .table)
    (hc : ∀ c ∈ lzDecChecks s, c.1 = false) : LzReady s := by
  obtain ⟨-, hfit, hinit⟩ := lzDecChecks_window hc
  simp only [lzDecChecks, List.forall_mem_cons, badCfg_fst, insideCheck_fst, disjointCheck_fst,
    regionOutside_eq_false_iff, Bool.and_eq_false_imp, decide_eq_false_iff_not] at hc
  obtain ⟨-, -, hu3, hu0, -, -, -, -, -, -, hout, htab, hin, hdis, -⟩ := hc
  have hu : s.under < 4 := bitsOf_lt _ 3 2
  refine ⟨hr, hout, hin, hfit, hinit, fun h => ⟨htab h, ht h⟩, hdis, fun h => ?_⟩
  have := hu0 h
  omega

/-- A byte of a region disjoint from OUT is none of the first bytes of OUT. -/
theorem outsideOut_of_disjoint {s : State} {g : Region} (h : s.Disjoint .output g) {k n : Nat} (hk : k < s.len g)
    (hn : n ≤ s.len .output) : s.OutsideOut n (s.base g + k) := by
  have h : s.overlaps .output g = false := h
  simp only [State.overlaps, Bool.and_eq_false_iff, decide_eq_false_iff_not] at h
  unfold State.OutsideOut
  omega

/-- The machine, with MEM `m` and the window `w` with its cursor at `c`, after the bytes `out` (R178, R181 (a)). -/
structure LzSim (s : State) (m : List Host.Cell) (w : Cells Byte) (c : Nat) (out : List Byte) : Prop where
  le : out.length ≤ s.len .output
  cursor : c = if s.tableMode then 0 else (s.csrNat LZ_WINIT + out.length) % s.csrNat LZ_WCAP
  kept : s.tableMode = true → w = s.win
  recent : s.tableMode = false → ∀ j, 1 ≤ j → j ≤ s.csrNat LZ_WCAP →
    cellRead w ((c + s.csrNat LZ_WCAP - j) % s.csrNat LZ_WCAP) =
      if j ≤ out.length then out[out.length - j]? else some s.lzFill
  beyond : s.tableMode = false → ∀ n, s.csrNat LZ_WCAP ≤ n → cellRead w n = cellRead s.win n
  bytes : ∀ k, k < out.length → cellRead m (s.base .output + k) = out[k]?
  outside : ∀ a, s.OutsideOut out.length a → cellRead m a = s.byteAt a

section simulation
variable {s : State} {m : List Host.Cell} {w : Cells Byte} {c : Nat} {out : List Byte}

theorem keepsRegion_of_lzSim {g : Region} (hsim : LzSim s m w c out) (hd : s.Disjoint .output g) :
    s.KeepsRegion g m := fun _ hk => hsim.outside _ (outsideOut_of_disjoint hd hk hsim.le)

/-- The window cursor stays inside the window, so WCUR holds it whole. -/
theorem lzSim_cursor_lt (hs : LzReady s) (hsim : LzSim s m w c out) :
    c < WCAP_MAX ∧ (s.tableMode = false → c < s.csrNat LZ_WCAP) := by
  have hc := hsim.cursor
  cases hm : s.tableMode with
  | true =>
    rw [hm, if_pos rfl] at hc
    exact ⟨hc ▸ (by decide), fun h => nomatch h⟩
  | false =>
    rw [hm, if_neg Bool.false_ne_true] at hc
    obtain ⟨hpos, hle⟩ := hs.window hm
    have hlt : c < s.csrNat LZ_WCAP := hc ▸ Nat.mod_lt _ hpos
    exact ⟨by omega, fun _ => hlt⟩

theorem lzAt_wcur (hs : LzReady s) (hsim : LzSim s m w c out) (j : Nat) : (s.lzAt j m w c).wcur.toNat = c := by
  have hlt := (lzSim_cursor_lt hs hsim).1
  have hmax : WCAP_MAX = 65536 := rfl
  rw [State.lzAt, overlay_wcur, BitVec.toNat_ofNat]
  omega

/-- LZ.DEC begins with no bytes produced and a window of fill bytes (R179). -/
theorem lzSim_init (hs : LzReady s) : ∃ w c, lzInit s = s.setWindow w c ∧ LzSim s s.mem w c [] := by
  cases hm : s.tableMode with
  | true =>
    refine ⟨s.win, 0, by rw [lzInit, if_pos hm], ?_⟩
    exact ⟨Nat.zero_le _, by simp [hm], fun _ => rfl, fun h => by simp [hm] at h, fun h => by simp [hm] at h,
      fun k hk => absurd hk (Nat.not_lt_zero k), fun _ _ => rfl⟩
  | false =>
    obtain ⟨hpos, -⟩ := hs.window hm
    refine ⟨cellFill s.win (s.csrNat LZ_WCAP) s.lzFill, s.csrNat LZ_WINIT, by
      rw [lzInit, if_neg (by simp [hm])]; rfl, ?_⟩
    refine ⟨Nat.zero_le _, ?_, fun h => by simp [hm] at h, fun _ j h1 hj => ?_, fun _ n hn => ?_,
      fun k hk => absurd hk (Nat.not_lt_zero k), fun _ _ => rfl⟩
    · simp [hm, Nat.mod_eq_of_lt (hs.winit hm)]
    · rw [cellRead_cellFill, if_pos (Nat.mod_lt _ hpos), if_neg (by simp; omega)]
    · rw [cellRead_cellFill, if_neg (by omega)]

/-! Producing bytes. -/

/-- The bytes of MEM after one more byte of output. -/
theorem bytes_put (hsim : LzSim s m w c out) (b : Byte) {k : Nat} (hk : k < (out ++ [b]).length) :
    cellRead (cellWrite m (s.base .output + out.length) b) (s.base .output + k) = (out ++ [b])[k]? := by
  rw [List.length_append, List.length_singleton] at hk
  rw [cellRead_cellWrite]
  rcases Nat.lt_or_ge k out.length with hlt | hge
  · rw [if_neg (by omega), hsim.bytes k hlt, List.getElem?_append_left hlt]
  · obtain rfl : k = out.length := by omega
    rw [if_pos rfl, List.getElem?_concat_length]

theorem outside_put (hsim : LzSim s m w c out) (b : Byte) {a : Nat} (ha : s.OutsideOut (out ++ [b]).length a) :
    cellRead (cellWrite m (s.base .output + out.length) b) a = s.byteAt a := by
  rw [List.length_append, List.length_singleton] at ha
  unfold State.OutsideOut at ha
  rw [cellRead_cellWrite_ne _ _ (by omega)]
  exact hsim.outside a (by unfold State.OutsideOut; omega)

/-- The window after one more byte: the byte stands one place before the new cursor, every other entry one place further
back. -/
theorem recent_put {cap : Nat} (hpos : 0 < cap) (hc : c < cap) {fill : Byte} (b : Byte)
    (h : ∀ j, 1 ≤ j → j ≤ cap → cellRead w ((c + cap - j) % cap) =
      if j ≤ out.length then out[out.length - j]? else some fill)
    {j : Nat} (h1 : 1 ≤ j) (hj : j ≤ cap) :
    cellRead (cellWrite w c b) (((c + 1) % cap + cap - j) % cap) =
      if j ≤ (out ++ [b]).length then (out ++ [b])[(out ++ [b]).length - j]? else some fill := by
  have hidx : ((c + 1) % cap + cap - j) % cap = (c + cap - (j - 1)) % cap := by
    rcases Nat.lt_or_ge (c + 1) cap with hlt | hge
    · rw [Nat.mod_eq_of_lt hlt]
      congr 1
      omega
    · obtain rfl : cap = c + 1 := by omega
      rw [Nat.mod_self, show c + (c + 1) - (j - 1) = 0 + (c + 1) - j + (c + 1) by omega, Nat.add_mod_right]
  rw [hidx, List.length_append, List.length_singleton]
  rcases Nat.lt_or_ge 1 j with hgt | hle
  · have hne : (c + cap - (j - 1)) % cap ≠ c := by
      rcases Nat.lt_or_ge (c + cap - (j - 1)) cap with hlt | hge
      · rw [Nat.mod_eq_of_lt hlt]; omega
      · rw [Nat.mod_eq_sub_mod hge, Nat.mod_eq_of_lt (by omega)]; omega
    rw [cellRead_cellWrite_ne _ _ hne, h (j - 1) (by omega) (by omega)]
    by_cases hle : j ≤ out.length + 1
    · rw [if_pos (by omega), if_pos hle, List.getElem?_append_left (by omega)]
      congr 1
      omega
    · rw [if_neg (by omega), if_neg hle]
  · obtain rfl : j = 1 := by omega
    have hself : (c + cap - (1 - 1)) % cap = c := by
      rw [Nat.sub_self, Nat.sub_zero, Nat.add_mod_right, Nat.mod_eq_of_lt hc]
    rw [hself, cellRead_cellWrite_self, if_pos (by omega), Nat.add_sub_cancel, List.getElem?_concat_length]

/-- put appends a byte to the output (R178). -/
theorem putByte_lzSim (hs : LzReady s) (hsim : LzSim s m w c out) (hlt : out.length < s.len .output) (j : Nat)
    (b : Byte) : ∃ m' w' c', putByte out.length b (s.lzAt j m w c) = .ok (s.lzAt j m' w' c') ∧
      LzSim s m' w' c' (out ++ [b]) := by
  have hin : s.base .output + s.len .output ≤ s.memSize := hs.outInside
  have hle : (out ++ [b]).length ≤ s.len .output := by simpa using hlt
  have hw : writeMem (s.lzAt j m w c) ((s.lzAt j m w c).base .output + out.length) b =
      .ok ((s.lzAt j m w c).setMem (cellWrite m (s.base .output + out.length) b)) := by
    rw [lzAt_base, writeMem_ok (by rw [lzAt_memSize]; omega), lzAt_mem]
  cases hm : s.tableMode with
  | true =>
    refine ⟨cellWrite m (s.base .output + out.length) b, w, c, ?_, ?_⟩
    · simp only [putByte, hw, lzAt_tableMode, hm, if_true, lzAt_setMem]
    · exact ⟨hle, by simpa [hm] using hsim.cursor, hsim.kept, fun h => by simp [hm] at h, fun h => by simp [hm] at h,
        fun _ => bytes_put hsim b, fun _ => outside_put hsim b⟩
  | false =>
    obtain ⟨hpos, -⟩ := hs.window hm
    have hc := (lzSim_cursor_lt hs hsim).2 hm
    refine ⟨cellWrite m (s.base .output + out.length) b, cellWrite w c b, (c + 1) % s.csrNat LZ_WCAP, ?_, ?_⟩
    · have hcap : (s.lzAt j m w c).csrNat LZ_WCAP = s.csrNat LZ_WCAP := congrArg BitVec.toNat (lzAt_csr j (by decide))
      simp only [putByte, hw, lzAt_tableMode, hm, Bool.false_eq_true, if_false, lzAt_wcur hs hsim, hcap, lzAt_win,
        lzAt_setMem_setWindow]
    · refine ⟨hle, ?_, fun h => by simp [hm] at h, fun _ i h1 hi => recent_put hpos hc b (hsim.recent hm) h1 hi,
        fun _ n hn => ?_, fun _ => bytes_put hsim b, fun _ => outside_put hsim b⟩
      · have hcur := hsim.cursor
        simp only [hm, Bool.false_eq_true, if_false] at hcur ⊢
        rw [hcur, Nat.mod_add_mod, List.length_append, List.length_singleton, Nat.add_assoc]
      · rw [cellRead_cellWrite_ne _ _ (by omega)]
        exact hsim.beyond hm n hn

/-- The byte at a backward distance is the byte of the list, or the fill byte before its start (R176, R178, R181). -/
theorem sourceByte_lzSim (hs : LzReady s) (hsim : LzSim s m w c out) (j : Nat) {d : Nat} (hd : 0 < d)
    (hdist : s.tableMode = false → d ≤ s.csrNat LZ_WCAP) (htable : s.tableMode = true → d ≤ out.length) :
    sourceByte out.length d (s.lzAt j m w c) =
      .ok (if d ≤ out.length then out.getD (out.length - d) 0 else s.lzFill) := by
  have hget : d ≤ out.length → out[out.length - d]? = some (out.getD (out.length - d) 0) := fun h => by
    rw [List.getD_eq_getElem?_getD, List.getElem?_eq_getElem (by omega), Option.getD_some]
  cases hm : s.tableMode with
  | true =>
    have hle := htable hm
    have hin : s.base .output + s.len .output ≤ s.memSize := hs.outInside
    have hlen := hsim.le
    have hread : readMem (s.lzAt j m w c) (s.base .output + (out.length - d)) = .ok (out.getD (out.length - d) 0) := by
      refine readMem_ok (by rw [lzAt_memSize]; omega) ?_
      exact (hsim.bytes _ (by omega)).trans (hget hle)
    rw [sourceByte, lzAt_tableMode, if_pos hm, lzAt_base, if_pos hle, hread]
  | false =>
    have hcap : (s.lzAt j m w c).csrNat LZ_WCAP = s.csrNat LZ_WCAP := congrArg BitVec.toNat (lzAt_csr j (by decide))
    have hrec := hsim.recent hm d hd (hdist hm)
    have hentry : cellRead w ((c + s.csrNat LZ_WCAP - d) % s.csrNat LZ_WCAP) =
        some (if d ≤ out.length then out.getD (out.length - d) 0 else s.lzFill) := by
      rw [hrec]
      split
      · rename_i hle; exact hget hle
      · rfl
    rw [sourceByte, lzAt_tableMode, if_neg (by simp [hm]), hcap, lzAt_wcur hs hsim, lzAt_win, hentry]

theorem refCopy_length (fill : Byte) (d n : Nat) (out : List Byte) :
    (refCopy fill d n out).length = out.length + n := by
  induction n generalizing out with
  | zero => rfl
  | succ n ih => rw [refCopy, ih]; simp; omega

/-- copy_match appends what the list decoder copies (R178). -/
theorem copyMatch_lzSim (hs : LzReady s) (j : Nat) {d : Nat} (hd : 0 < d)
    (hdist : s.tableMode = false → d ≤ s.csrNat LZ_WCAP) (n : Nat) (hsim : LzSim s m w c out)
    (htable : s.tableMode = true → d ≤ out.length) (hn : out.length + n ≤ s.len .output) :
    ∃ m' w' c', copyMatch d n out.length (s.lzAt j m w c) = .ok (s.lzAt j m' w' c') ∧
      LzSim s m' w' c' (refCopy s.lzFill d n out) := by
  induction n generalizing m w c out with
  | zero => exact ⟨m, w, c, rfl, hsim⟩
  | succ n ih =>
    obtain ⟨m1, w1, c1, hput, hsim1⟩ := putByte_lzSim hs hsim (by omega) j
      (if d ≤ out.length then out.getD (out.length - d) 0 else s.lzFill)
    have hlen (b : Byte) : (out ++ [b]).length = out.length + 1 := by simp
    obtain ⟨m2, w2, c2, hcopy, hsim2⟩ := ih hsim1
      (fun h => by have := htable h; rw [hlen]; omega) (by rw [hlen]; omega)
    refine ⟨m2, w2, c2, ?_, hsim2⟩
    rw [hlen] at hcopy
    simp only [copyMatch, sourceByte_lzSim hs hsim j hd hdist htable, hput]
    exact hcopy

/-! The loop. -/

/-- LZ.DEC's effect `e` is what the list decoder gives: its ending, the bits it leaves, and its bytes in MEM and window. -/
def LzEndsAs (s : State) (e : Effect) (ref : RefDecode) : Prop :=
  ∃ m w c, e = .ok ((s.lzAt (s.pendingBits.length - ref.rest.length) m w c).setProduced ref.out.length, ref.ending) ∧
    LzSim s m w c ref.out

/-- With the whole output produced both decoders are done. -/
theorem lzLoop_endsAs_done (fuel : Nat) {j : Nat} (hsim : LzSim s m w c out) (hj : j ≤ s.pendingBits.length)
    (hge : s.len .output ≤ out.length) :
    LzEndsAs s (lzLoop fuel out.length (s.lzAt j m w c)) (refLzLoop s fuel (s.pendingBits.drop j) out) := by
  rw [lzLoop_done (by rwa [lzAt_len]), refLzLoop_done hge]
  exact ⟨m, w, c, by rw [List.length_drop, Nat.sub_sub_self hj], hsim⟩

/-- From any point of its course the loop ends as the list decoder does (R179). -/
theorem lzLoop_endsAs (hs : LzReady s) (fuel : Nat) {j : Nat} (hsim : LzSim s m w c out)
    (hj : j ≤ s.pendingBits.length) (hfuel : s.pendingBits.length ≤ j + fuel) :
    LzEndsAs s (lzLoop fuel out.length (s.lzAt j m w c)) (refLzLoop s fuel (s.pendingBits.drop j) out) := by
  induction fuel generalizing j m w c out with
  | zero =>
    rcases Nat.lt_or_ge out.length (s.len .output) with hlt | hge
    · obtain rfl : j = s.pendingBits.length := by omega
      rw [lzLoop_zero (by rwa [lzAt_len]), refLzLoop_zero hlt]
      exact ⟨m, w, c, rfl, hsim⟩
    · exact lzLoop_endsAs_done 0 hsim hj hge
  | succ fuel ih =>
    have hkeep := keepsRegion_of_lzSim hsim hs.outInput
    rcases Nat.lt_or_ge out.length (s.len .output) with hlt | hge
    swap
    · exact lzLoop_endsAs_done _ hsim hj hge
    have hlt' : out.length < (s.lzAt j m w c).len .output := by rwa [lzAt_len]
    cases htok : refToken s (s.pendingBits.drop j) with
    | none =>
      rw [lzLoop_eoi hlt' (readToken_lzAt_none hs.ready hkeep hj htok), refLzLoop_eoi hlt htok]
      exact ⟨m, w, c, rfl, hsim⟩
    | some p =>
      obtain ⟨t, rest⟩ := p
      have hread := readToken_lzAt_some (w := w) (c := c) hs.ready hkeep hj htok
      obtain ⟨k, hk0, hk, rfl⟩ := refToken_some htok
      rw [List.length_drop] at hk
      have hrest : s.pendingBits.length - ((s.pendingBits.drop j).drop k).length = j + k := by
        simp only [List.length_drop]; omega
      rw [hrest] at hread
      rw [List.drop_drop] at htok
      cases t with
      | literal b =>
        obtain ⟨m1, w1, c1, hput, hsim1⟩ := putByte_lzSim hs hsim hlt (j + k) b
        rw [lzLoop_literal hlt' hread hput, refLzLoop_literal hlt htok]
        have hnext := ih (j := j + k) hsim1 (by omega) (by omega)
        rwa [List.length_append, List.length_singleton] at hnext
      | copy br o l =>
        have hplan : planMatch br o l out.length (s.lzAt (j + k) m w c) = planMatch br o l out.length s :=
          planMatch_congr (lzAt_memSize _) (fun _ => lzAt_csr _)
            (fun h => keepsRegion_of_lzSim hsim (hs.outTable h)) br o l _
        rcases refLzLoop_match (fuel := fuel) hs.table hlt htok with ⟨r, hp, href⟩ | ⟨d, n, hp, href⟩
        · rw [lzLoop_stop hlt' hread (hplan.trans hp), href]
          exact ⟨m, w, c, by rw [← List.drop_drop, hrest], hsim⟩
        · obtain ⟨hd, hdist, hund⟩ := planMatch_copy_distance hp
          have hn := planMatch_copy hp hsim.le
          obtain ⟨m1, w1, c1, hcopy, hsim1⟩ := copyMatch_lzSim hs (j + k) hd hdist n hsim
            (fun h => hund (hs.under h)) hn
          rw [lzLoop_copy hlt' hread (hplan.trans hp) hcopy, href]
          have hnext := ih (j := j + k) hsim1 (by omega) (by omega)
          rwa [refCopy_length] at hnext

end simulation

/-- Settles O24 (it holds): the loop from its start, every pending bit still to come. -/
theorem lzDecComputesReference : Obligations.LzDecComputesReference := by
  intro s hrej hr htab
  have hnone : firstFailure (lzDecChecks s) = none := (firstFailure_lzDecChecks s).trans hrej
  have hs := lzReady_of_checks hr htab ((firstFailure_eq_none_iff _).1 hnone)
  obtain ⟨w0, c0, hinit, hsim0⟩ := lzSim_init hs
  obtain ⟨m, w, c, hloop, hsim⟩ :=
    lzLoop_endsAs hs s.pendingBits.length hsim0 (Nat.zero_le _) (Nat.le_add_left _ _)
  have hstart : s.lzAt 0 s.mem w0 c0 = (lzInit s).setProduced 0 := by
    rw [hinit, State.lzAt, State.afterBits_zero, overlay_self_mem]
  rw [hstart, List.drop_zero] at hloop
  rw [List.drop_zero] at hsim
  have hexec : exec .lzDec s = .next (applyEnding (refLz s).ending
      ((s.lzAt (s.pendingBits.length - (refLz s).rest.length) m w c).setProduced (refLz s).out.length)) := by
    rw [exec_eq_conclude, effectOf, checked_pass hnone, ← State.pendingBits_length hr.2.1]
    exact congrArg conclude hloop
  rw [State.lzAt, overlay_setProduced] at hexec
  have hcur : (BitVec.ofNat 17 c).toNat = c := lzAt_wcur hs hsim 0
  refine ⟨m, w, BitVec.ofNat 17 c, hexec, hsim.le, ?_, hsim.kept, fun hm => ⟨?_, hsim.beyond hm⟩,
    hsim.bytes, hsim.outside⟩
  · rw [hcur]; exact hsim.cursor
  · rw [hcur]; exact hsim.recent hm

end Sys2Proof.Machine

/-! MEM as every command leaves it (spec/20_memory.md R79): each kind of change keeps the bytes outside the output region. -/

namespace Sys2Proof.Machine
open Sys2Proof.Claims

theorem lzTo_byteAt {s t : State} {lo hi a : Nat} (h : s.LzTo t lo hi) (ha : a < lo ∨ hi ≤ a) :
    t.byteAt a = s.byteAt a := by
  obtain ⟨m, w, c, p, b, n, rfl, hout, -⟩ := h
  exact hout a ha

/-- No command changes a byte outside OUT before its outcome is applied. -/
theorem leaves_byteAt {s u : State} {i : Instr} (h : Leaves s i u) {a : Nat} (ha : s.OutsideOut (s.len .output) a) :
    u.byteAt a = s.byteAt a := by
  cases h with
  | configured csr imm r v => unfold State.writeConfig; split <;> rfl
  | read v res got eoi cap _ _ hv => exact movedTo_byteAt (movedTo_of_readsTo hv) a
  | stored v n _ hv =>
    rw [State.setProduced_byteAt]
    exact storedTo_byteAt hv ha
  | ciphered v k n _ hv =>
    rw [State.setProduced_byteAt, State.setCipher_byteAt]
    exact storedTo_byteAt hv ha
  | unpacked v n _ _ hv =>
    obtain ⟨w, c, hw⟩ := lzInit_eq s
    rw [hw] at hv
    have hmem := lzTo_byteAt (lzTo_of_unpacksTo hv) ha
    exact hmem
  | decoded v n _ _ hv =>
    obtain ⟨w, hst, hmv⟩ := decodesTo_frame hv
    have hmem := (movedTo_byteAt hmv a).trans (storedTo_byteAt hst ha)
    exact hmem
  | _ => rfl

/-- Settles O50 (it holds): by the kinds of change, the outcome leaving MEM alone. -/
theorem onlyOutputIsWritten : Obligations.OnlyOutputIsWritten := by
  intro i s t h a ha
  obtain ⟨u, r, hl, -, rfl⟩ := exec_next h
  rw [applyEnding_byteAt, leaves_byteAt hl ha]

end Sys2Proof.Machine

/-! Where a command can fault (spec/20_memory.md R79, R88): every loop stays inside the regions its checks have passed, so the
one fault left is a byte nothing has written. -/

namespace Sys2Proof.Machine
open Sys2Proof.Claims

/-! Single accesses. -/

/-- The fault of a read of a byte below MEM_SIZE that nothing has written (R88). -/
def State.Unwritten (s : State) (f : Fault) : Prop := ∃ a, f = .unwrittenMem a ∧ a < s.memSize ∧ s.byteAt a = none

theorem readMem_unwritten {s : State} {a : Nat} {f : Fault} (ha : a < s.memSize) (h : readMem s a = .error f) :
    s.Unwritten f := by
  rcases readMem_eq_error h with ⟨-, hb, rfl⟩ | ⟨hle, -⟩
  · exact ⟨a, rfl, ha, hb⟩
  · omega

theorem readMem32_unwritten {s : State} {a : Nat} {f : Fault} (ha : a + 3 < s.memSize) (h : readMem32 s a = .error f) :
    s.Unwritten f := by
  obtain ⟨k, hk, hf⟩ := readMem32_eq_error h
  exact readMem_unwritten (by omega) hf

theorem writeMem_ne_error {s : State} {a : Nat} {b : Byte} {f : Fault} (ha : a < s.memSize) :
    writeMem s a b ≠ .error f := by
  rw [writeMem_ok ha]
  exact nofun

theorem inside_lt {s : State} {g : Region} (h : s.Inside g) {k : Nat} (hk : k < s.len g) :
    s.base g + k < s.memSize := by
  have hle : s.base g + s.len g ≤ s.memSize := h
  omega

/-- What LZ.DEC's pieces leave takes no written byte away, so a fault in what they leave is one of the state before. -/
theorem unwritten_of_lzTo {s t : State} {lo hi : Nat} {f : Fault} (h : s.LzTo t lo hi) (hf : t.Unwritten f) :
    s.Unwritten f := by
  obtain ⟨m, w, c, p, b, n, rfl, -, hsome, -⟩ := h
  obtain ⟨a, rfl, ha, hnone⟩ := hf
  have hnone : cellRead m a = none := hnone
  refine ⟨a, rfl, ha, ?_⟩
  cases hs : s.byteAt a with
  | none => rfl
  | some x =>
    have := hsome a (by rw [hs]; rfl)
    rw [hnone] at this
    cases this

theorem unwritten_of_storedTo {s t : State} {lo hi : Nat} {f : Fault} (h : s.StoredTo t lo hi) (hf : t.Unwritten f) :
    s.Unwritten f := unwritten_of_lzTo (lzTo_storedTo h) hf

theorem unwritten_of_writeMem {s t : State} {a : Nat} {b : Byte} {f : Fault} (h : writeMem s a b = .ok t)
    (hf : t.Unwritten f) : s.Unwritten f := unwritten_of_storedTo (storedTo_writeMem h) hf

theorem unwritten_of_movedTo {s t : State} {f : Fault} (h : s.MovedTo t) (hf : t.Unwritten f) : s.Unwritten f :=
  unwritten_of_lzTo (lzTo_of_movedTo h 0 0) hf

theorem inside_lzTo {s t : State} {lo hi : Nat} {g : Region} (h : s.LzTo t lo hi) (hin : s.Inside g) : t.Inside g := by
  obtain ⟨hmem, -, -, -, hbase, hlen⟩ := lzTo_frame h
  show t.base g + t.len g ≤ t.memSize
  rw [hmem, hbase, hlen]
  exact hin

theorem inside_movedTo {s t : State} {g : Region} (h : s.MovedTo t) (hin : s.Inside g) : t.Inside g :=
  inside_lzTo (lzTo_of_movedTo h 0 0) hin

/-- A checked body faults only past its checks. -/
theorem checked_eq_error {cs : List Check} {s : State} {body : Effect} {f : Fault} (h : checked cs s body = .error f) :
    (∀ c ∈ cs, c.1 = false) ∧ body = .error f := by
  rcases checked_cases cs s body with ⟨c, info, -, he⟩ | ⟨hnone, he⟩
  · rw [he] at h; cases h
  · exact ⟨(firstFailure_eq_none_iff cs).1 hnone, he ▸ h⟩

/-! The bit reader. -/

theorem nextBit_unwritten {s : State} {f : Fault} (hin : s.Inside .input) (h : nextBit s = .fault f) :
    s.Unwritten f := by
  rcases nextBit_cases s with ⟨b, t, ht, -⟩ | ⟨ht, -⟩ | ⟨g, ht, hpos, hread⟩ <;> rw [ht] at h <;> cases h
  exact readMem_unwritten (inside_lt hin hpos) hread

/-- A fault of next_bit on a cursor that has only moved. -/
theorem unwritten_of_moved_nextBit {s : State} {f : Fault} (hin : s.Inside .input)
    (h : ∃ t, s.MovedTo t ∧ nextBit t = .fault f) : s.Unwritten f := by
  obtain ⟨t, hmv, hf⟩ := h
  exact unwritten_of_movedTo hmv (nextBit_unwritten (inside_movedTo hmv hin) hf)

theorem readBits_unwritten {n : Nat} {s : State} {f : Fault} (hin : s.Inside .input) (h : readBits n s = .fault f) :
    s.Unwritten f := unwritten_of_moved_nextBit hin (readBitsFrom_fault h)

theorem brBit_unwritten {s : State} {f : Fault} (hin : s.Inside .input) (h : brBitEffect s = .error f) :
    s.Unwritten f := by
  unfold brBitEffect at h
  split at h
  · rename_i hf; cases h; exact nextBit_unwritten hin hf
  all_goals cases h

theorem brBits_unwritten {n : Nat} {s : State} {f : Fault} (hin : s.Inside .input) (h : brBitsEffect n s = .error f) :
    s.Unwritten f := by
  unfold brBitsEffect at h
  split at h
  · rename_i hf; cases h; exact readBits_unwritten hin hf
  · cases h

theorem brUnary_unwritten {decoding : Nat → Word} {s : State} {f : Fault} (hin : s.Inside .input)
    (h : brUnaryEffect decoding s = .error f) : s.Unwritten f := by
  unfold brUnaryEffect at h
  split at h
  · rename_i hf; cases h; exact unwritten_of_moved_nextBit hin (countUnaryFrom_fault hf)
  · cases h

/-- The sequence check shared by the commands that only read bits (R154 to R156). -/
theorem reader_unwritten {s : State} {body : Effect} {f : Fault} (hin : s.bopen = true → s.Inside .input)
    (hbody : s.Inside .input → body = .error f → s.Unwritten f) (h : checked [s.cursorCheck] s body = .error f) :
    s.Unwritten f := by
  obtain ⟨hc, he⟩ := checked_eq_error h
  exact hbody (hin (by simpa using hc)) he

/-! OC.COPY. -/

theorem overlapCopy_unwritten {src dst n i : Nat} {s : State} {f : Fault} (hsrc : src + (i + n) ≤ s.memSize)
    (hdst : dst + (i + n) ≤ s.memSize) (h : overlapCopy src dst n i s = .error f) : s.Unwritten f := by
  induction n generalizing i s with
  | zero => cases h
  | succ n ih =>
    simp only [overlapCopy] at h
    split at h
    · rename_i hr; cases h; exact readMem_unwritten (by omega) hr
    · split at h
      · rename_i hw; exact absurd hw (writeMem_ne_error (by omega))
      · rename_i t hw
        obtain ⟨-, rfl⟩ := writeMem_eq_ok hw
        exact unwritten_of_writeMem hw (ih (by simp; omega) (by simp; omega) h)

theorem ocCopy_unwritten {s : State} {f : Fault} (h : effectOf .ocCopy s = .error f) : s.Unwritten f := by
  obtain ⟨hc, he⟩ := checked_eq_error h
  simp only [ocCopyChecks, List.forall_mem_cons, insideCheck_fst, regionOutside_eq_false_iff, decide_eq_false_iff_not,
    Nat.not_lt] at hc
  obtain ⟨hin, hsrc, hdst, -⟩ := hc
  unfold ocCopyEffect at he
  split at he
  · rename_i hf
    cases he
    exact overlapCopy_unwritten (by omega) (by omega) hf
  · cases he

/-! LZ.DEC. -/

/-- The regions LZ.DEC uses lie inside MEM, and in DIST mode every entry of the window has a value (R173, R179). -/
structure LzSafe (s : State) : Prop where
  input : s.Inside .input
  output : s.Inside .output
  table : s.tableMode = true → s.Inside .table
  window : s.tableMode = false →
    0 < s.csrNat LZ_WCAP ∧ ∀ k, k < s.csrNat LZ_WCAP → (cellRead s.win k).isSome = true

/-- No window entry loses its value in the course of LZ.DEC. -/
theorem unpacksTo_win {s t : State} (h : s.UnpacksTo t) (k : Nat) (hk : (cellRead s.win k).isSome = true) :
    (cellRead t.win k).isSome = true := by
  induction h with
  | refl => exact hk
  | tail _ hstep ih =>
    rcases hstep with ⟨b, hb⟩ | ⟨j, b, -, hp⟩
    · obtain ⟨p, x, c, rfl⟩ := nextBit_bit hb
      exact ih
    · obtain ⟨-, rfl⟩ := putByte_cases hp
      split
      · exact ih
      · rw [State.setWindow_win, cellRead_cellWrite]
        split
        · rfl
        · exact ih

theorem lzSafe_unpacksTo {s t : State} (h : LzSafe s) (ht : s.UnpacksTo t) : LzSafe t := by
  have hlz := lzTo_of_unpacksTo ht
  obtain ⟨-, -, -, hcsr, -⟩ := lzTo_frame hlz
  have hmode : t.tableMode = s.tableMode := by rw [State.tableMode, hcsr LZ_CTRL (by decide)]; rfl
  have hcap : t.csrNat LZ_WCAP = s.csrNat LZ_WCAP := by rw [State.csrNat, hcsr LZ_WCAP (by decide)]; rfl
  refine ⟨inside_lzTo hlz h.input, inside_lzTo hlz h.output, fun hm => inside_lzTo hlz (h.table (hmode ▸ hm)),
    fun hm => ?_⟩
  obtain ⟨hpos, hwin⟩ := h.window (hmode ▸ hm)
  rw [hcap]
  exact ⟨hpos, fun k hk => unpacksTo_win ht k (hwin k hk)⟩

theorem unwritten_of_unpacksTo {s t : State} {f : Fault} (h : s.UnpacksTo t) (hf : t.Unwritten f) : s.Unwritten f :=
  unwritten_of_lzTo (lzTo_of_unpacksTo h) hf

/-- The checks of LZ.DEC and its filling of the window establish what its loop needs (R173, R179). -/
theorem lzSafe_lzInit {s : State} (hin : s.Inside .input) (hc : ∀ c ∈ lzDecChecks s, c.1 = false) :
    LzSafe ((lzInit s).setProduced 0) := by
  obtain ⟨-, hfit, -⟩ := lzDecChecks_window hc
  simp only [lzDecChecks, List.forall_mem_cons, badCfg_fst, insideCheck_fst, regionOutside_eq_false_iff] at hc
  obtain ⟨-, -, -, -, -, -, -, -, -, -, hout, htable, -⟩ := hc
  unfold lzInit
  split
  · rename_i hm
    rw [hm, Bool.true_and, regionOutside_eq_false_iff] at htable
    exact ⟨hin, hout, fun _ => htable, fun hd => absurd (hm.symm.trans hd) nofun⟩
  · rename_i hm
    refine ⟨hin, hout, fun ht => absurd ht hm, fun _ => ⟨(hfit (by simpa using hm)).1, fun k hk => ?_⟩⟩
    have hk : k < s.csrNat LZ_WCAP := hk
    rw [State.setProduced_win, State.setWindow_win, cellRead_cellFill, if_pos hk]
    rfl

/-! LZ.DEC's tokens and matches. -/

theorem readMatch_unwritten {br : Word} {s : State} {f : Fault} (hin : s.Inside .input)
    (h : readMatch br s = .fault f) : s.Unwritten f := by
  unfold readMatch at h
  split at h
  · rename_i hf; cases h; exact readBits_unwritten hin hf
  · cases h
  · rename_i h1
    have hmv := readBits_bits h1
    split at h
    · rename_i hf; cases h; exact unwritten_of_movedTo hmv (readBits_unwritten (inside_movedTo hmv hin) hf)
    all_goals cases h

theorem readLiteral_unwritten {s : State} {f : Fault} (hin : s.Inside .input) (h : readLiteral s = .fault f) :
    s.Unwritten f := by
  unfold readLiteral at h
  split at h
  · rename_i hf; cases h; exact readBits_unwritten hin hf
  all_goals cases h

theorem readToken_unwritten {s : State} {f : Fault} (hin : s.Inside .input) (h : readToken s = .fault f) :
    s.Unwritten f := by
  unfold readToken at h
  split at h
  · rename_i hf; cases h; exact nextBit_unwritten hin hf
  · cases h
  · rename_i hb
    have hmv := nextBit_bit hb
    have hin1 := inside_movedTo hmv hin
    refine unwritten_of_movedTo hmv ?_
    split at h
    · exact readLiteral_unwritten hin1 h
    · split at h
      · split at h
        · rename_i hf; cases h; exact nextBit_unwritten hin1 hf
        · cases h
        · rename_i hb2
          have hmv2 := nextBit_bit hb2
          exact unwritten_of_movedTo hmv2 (readMatch_unwritten (inside_movedTo hmv2 hin1) h)
      · exact readMatch_unwritten hin1 h

theorem matchDistance_unwritten {br : Word} {o : Nat} {s : State} {f : Fault}
    (htab : s.tableMode = true → s.Inside .table) (h : matchDistance br o s = .fault f) : s.Unwritten f := by
  unfold matchDistance at h
  split at h
  · rename_i hm
    have hin : s.base .table + s.len .table ≤ s.memSize := htab hm
    split at h
    · cases h
    · split at h
      · rename_i hr; cases h; exact readMem32_unwritten (by omega) hr
      · split at h <;> cases h
  · split at h <;> cases h

/-- Of the steps of a match plan only the distance reads MEM (R175). -/
theorem planMatch_fault {br : Word} {o l opos : Nat} {s : State} {f : Fault} (h : planMatch br o l opos s = .fault f) :
    matchDistance br o s = .fault f := by
  unfold planMatch at h
  split at h
  · rename_i hd; cases h; exact hd
  · cases h
  · split at h
    · cases h
    · split at h
      · cases h
      · split at h
        · split at h <;> cases h
        · cases h

theorem sourceByte_unwritten {opos d : Nat} {s : State} {f : Fault} (hs : LzSafe s) (hlt : opos < s.len .output)
    (h : sourceByte opos d s = .error f) : s.Unwritten f := by
  unfold sourceByte at h
  split at h
  · exact readMem_unwritten (inside_lt hs.output (by omega)) h
  · rename_i hm
    obtain ⟨hpos, hwin⟩ := hs.window (by simpa using hm)
    have hval := hwin _ (Nat.mod_lt (s.wcur.toNat + s.csrNat LZ_WCAP - d) hpos)
    split at h
    · cases h
    · rename_i hnone
      rw [hnone] at hval
      cases hval

theorem putByte_ne_error {opos : Nat} {b : Byte} {s : State} {f : Fault} (hout : s.Inside .output)
    (hlt : opos < s.len .output) : putByte opos b s ≠ .error f := by
  unfold putByte
  rw [writeMem_ok (inside_lt hout hlt)]
  simp only
  split <;> exact nofun

theorem copyMatch_unwritten {d n opos : Nat} {s : State} {f : Fault} (hs : LzSafe s) (hn : opos + n ≤ s.len .output)
    (h : copyMatch d n opos s = .error f) : s.Unwritten f := by
  induction n generalizing opos s with
  | zero => cases h
  | succ n ih =>
    simp only [copyMatch] at h
    split at h
    · rename_i hf; cases h; exact sourceByte_unwritten hs (by omega) hf
    · split at h
      · rename_i hf; exact absurd hf (putByte_ne_error hs.output (by omega))
      · rename_i hp
        have hto := unpacksTo_put (by omega) hp
        exact unwritten_of_unpacksTo hto (ih (lzSafe_unpacksTo hs hto) (by rw [unpacksTo_len hto]; omega) h)

theorem lzLoop_unwritten {fuel opos : Nat} {s : State} {f : Fault} (hs : LzSafe s) (h : lzLoop fuel opos s = .error f) :
    s.Unwritten f := by
  induction fuel generalizing opos s with
  | zero => unfold lzLoop at h; split at h <;> cases h
  | succ fuel ih =>
    unfold lzLoop at h
    split at h
    · cases h
    · rename_i hlt
      simp only at h
      split at h
      · rename_i hf; cases h; exact readToken_unwritten hs.input hf
      · cases h
      · rename_i b s1 ht
        have h1 : s.UnpacksTo s1 := unpacksTo_of_readsTo (readsTo_readToken (by rw [ht]; rfl))
        have hlt1 : opos < s1.len .output := by rw [unpacksTo_len h1]; omega
        split at h
        · rename_i hf; exact absurd hf (putByte_ne_error (lzSafe_unpacksTo hs h1).output hlt1)
        · rename_i hp
          have h2 := h1.trans (unpacksTo_put hlt1 hp)
          exact unwritten_of_unpacksTo h2 (ih (lzSafe_unpacksTo hs h2) h)
      · rename_i br o l s1 ht
        have h1 : s.UnpacksTo s1 := unpacksTo_of_readsTo (readsTo_readToken (by rw [ht]; rfl))
        have hs1 := lzSafe_unpacksTo hs h1
        refine unwritten_of_unpacksTo h1 ?_
        split at h
        · rename_i hf; cases h; exact matchDistance_unwritten hs1.table (planMatch_fault hf)
        · cases h
        · rename_i d n hp
          have hn := planMatch_copy hp (by rw [unpacksTo_len h1]; omega)
          split at h
          · rename_i hf; cases h; exact copyMatch_unwritten hs1 hn hf
          · rename_i hcopy
            have h2 := unpacksTo_copyMatch hcopy hn
            exact unwritten_of_unpacksTo h2 (ih (lzSafe_unpacksTo hs1 h2) h)

theorem lzDec_unwritten {s : State} {f : Fault} (hin : s.bopen = true → s.Inside .input)
    (h : effectOf .lzDec s = .error f) : s.Unwritten f := by
  obtain ⟨hc, he⟩ := checked_eq_error h
  obtain ⟨hopen, -⟩ := lzDecChecks_window hc
  have hf := lzLoop_unwritten (lzSafe_lzInit (hin hopen) hc) he
  obtain ⟨w, c, hw⟩ := lzInit_eq s
  rw [hw] at hf
  exact hf

/-! HUF.BLDW and HUF.BLDL. -/

theorem readWeights_unwritten {n i : Nat} {s : State} {f : Fault} (hin : s.Inside .table)
    (hn : 4 * (i + n) ≤ s.len .table) (h : readWeights s n i = .error f) : s.Unwritten f := by
  have hle : s.base .table + s.len .table ≤ s.memSize := hin
  induction n generalizing i with
  | zero => cases h
  | succ n ih =>
    simp only [readWeights] at h
    split at h
    · rename_i hr; cases h; exact readMem32_unwritten (by omega) hr
    · split at h
      · rename_i hrest; cases h; exact ih (by omega) hrest
      · cases h

theorem hufBldw_unwritten {s : State} {f : Fault} (h : effectOf .hufBldw s = .error f) : s.Unwritten f := by
  obtain ⟨hc, he⟩ := checked_eq_error h
  simp only [hufBldwChecks, List.forall_mem_cons, insideCheck_fst, regionOutside_eq_false_iff, decide_eq_false_iff_not,
    not_not] at hc
  obtain ⟨-, hlen, hin, -⟩ := hc
  unfold hufBldwEffect at he
  split at he
  · rename_i hr; cases he; exact readWeights_unwritten hin (by omega) hr
  · cases he

theorem readLengths_unwritten {n i : Nat} {s : State} {f : Fault} (hin : s.Inside .table)
    (hn : i + n ≤ s.len .table) (h : readLengths s n i = .fault f) : s.Unwritten f := by
  induction n generalizing i with
  | zero => cases h
  | succ n ih =>
    simp only [readLengths] at h
    split at h
    · rename_i hr; cases h; exact readMem_unwritten (inside_lt hin (by omega)) hr
    · split at h
      · cases h
      · split at h
        · rename_i hrest; cases h; exact ih (by omega) hrest
        all_goals cases h

theorem hufBldl_unwritten {s : State} {f : Fault} (h : effectOf .hufBldl s = .error f) : s.Unwritten f := by
  obtain ⟨hc, he⟩ := checked_eq_error h
  simp only [hufBldlChecks, List.forall_mem_cons, insideCheck_fst, regionOutside_eq_false_iff, decide_eq_false_iff_not,
    not_not] at hc
  obtain ⟨-, hlen, hin, -⟩ := hc
  unfold hufBldlEffect at he
  split at he
  · rename_i hr; cases he; exact readLengths_unwritten hin (by omega) hr
  · cases he
  · split at he
    · cases he
    · split at he <;> cases he

/-! HUF.DEC. -/

/-- A cursor and an output inside MEM, and a listed tree with a root (R200, R206). -/
structure DecodeSafe (s : State) : Prop where
  input : s.Inside .input
  output : s.Inside .output
  tree : s.TreeListed
  root : s.hroot.toNat < s.hnext.toNat

theorem treeListed_movedTo {s t : State} (h : s.MovedTo t) (ht : s.TreeListed) : t.TreeListed := by
  obtain ⟨p, b, c, rfl⟩ := h
  exact ht

theorem hnext_movedTo {s t : State} (h : s.MovedTo t) : t.hnext = s.hnext := by
  obtain ⟨p, b, c, rfl⟩ := h
  rfl

theorem decodeSafe_decodesTo {s t : State} (h : DecodeSafe s) (ht : s.DecodesTo t) : DecodeSafe t := by
  obtain ⟨u, ⟨m, rfl, -⟩, hmv⟩ := decodesTo_frame ht
  have hin : (s.setMem m).Inside .input := h.input
  have hout : (s.setMem m).Inside .output := h.output
  have htree : (s.setMem m).TreeListed := h.tree
  refine ⟨inside_movedTo hmv hin, inside_movedTo hmv hout, treeListed_movedTo hmv htree, ?_⟩
  obtain ⟨p, b, c, rfl⟩ := hmv
  exact h.root

theorem unwritten_of_decodesTo {s t : State} {f : Fault} (h : s.DecodesTo t) (hf : t.Unwritten f) : s.Unwritten f := by
  obtain ⟨u, hst, hmv⟩ := decodesTo_frame h
  exact unwritten_of_storedTo hst (unwritten_of_movedTo hmv hf)

/-- A walk meets only nodes in use, each internal one with two listed children (R45, R200). -/
theorem walk_unwritten {pol : Bool} {fuel n : Nat} {s : State} {f : Fault} (hin : s.Inside .input) (ht : s.TreeListed)
    (hn : n < s.hnext.toNat) (h : walk pol fuel n s = .fault f) : s.Unwritten f := by
  induction fuel generalizing n s with
  | zero => unfold walk at h; split at h <;> cases h
  | succ fuel ih =>
    unfold walk at h
    split at h
    · cases h
    · rename_i hleaf
      simp only at h
      split at h
      · rename_i hf; cases h; exact nextBit_unwritten hin hf
      · cases h
      · rename_i b t hb
        have hmv := nextBit_bit hb
        have htree := treeListed_movedTo hmv ht
        have hnt : n < t.hnext.toNat := by rw [hnext_movedTo hmv]; exact hn
        have hchild := htree.2 n hnt (by obtain ⟨p, x, c, rfl⟩ := hmv; exact Nat.not_lt.1 hleaf) (b != pol)
        split at h
        · rename_i hnone; rw [hnone] at hchild; cases hchild
        · rename_i m hm
          rw [hm, Option.any_some, decide_eq_true_eq] at hchild
          exact unwritten_of_movedTo hmv (ih (inside_movedTo hmv hin) htree hchild h)

theorem decodeSymbols_unwritten {pol : Bool} {m k : Nat} {s : State} {f : Fault} (hs : DecodeSafe s)
    (hk : k + m ≤ s.len .output) (h : decodeSymbols pol m k s = .error f) : s.Unwritten f := by
  induction m generalizing k s with
  | zero => cases h
  | succ m ih =>
    simp only [decodeSymbols] at h
    split at h
    · rename_i hf; cases h; exact walk_unwritten hs.input hs.tree hs.root hf
    · cases h
    · rename_i n s1 hw
      have h1 : s.DecodesTo s1 := decodesTo_of_readsTo (readsTo_walk (by rw [hw]; rfl))
      have hlt : k < s1.len .output := by rw [decodesTo_len h1]; omega
      split at h
      · rename_i hf; exact absurd hf (writeMem_ne_error (inside_lt (decodeSafe_decodesTo hs h1).output hlt))
      · rename_i s2 hst
        have h2 : s.DecodesTo s2 := h1.tail (.inr ⟨k, _, hlt, hst⟩)
        exact unwritten_of_decodesTo h2 (ih (decodeSafe_decodesTo hs h2) (by rw [decodesTo_len h2]; omega) h)

theorem hufDec_unwritten {s : State} {f : Fault} (hin : s.bopen = true → s.Inside .input)
    (htree : s.hvalid = true → s.TreeListed) (h : effectOf .hufDec s = .error f) : s.Unwritten f := by
  obtain ⟨hseq, h⟩ := checked_eq_error h
  have hseq : s.bopen = true ∧ s.hvalid = true := by simpa using hseq
  obtain ⟨hopen, hvalid⟩ := hseq
  obtain ⟨hc, h⟩ := checked_eq_error h
  simp only [hufDecChecks, List.forall_mem_cons, insideCheck_fst, regionOutside_eq_false_iff] at hc
  obtain ⟨-, hout, -⟩ := hc
  obtain ⟨ht, h⟩ := checked_eq_error h
  simp only [hufTableChecks, List.forall_mem_cons, decide_eq_false_iff_not, not_and] at ht
  obtain ⟨-, hroot, -⟩ := ht
  rcases Nat.eq_zero_or_pos (s.consumeTree.len .output) with hzero | hpos
  · rw [hzero] at h; cases h
  · have hlisted := htree hvalid
    have hs : DecodeSafe (s.consumeTree.setProduced 0) :=
      ⟨hin hopen, hout, hlisted, hlisted.1.resolve_left (hroot hpos)⟩
    have hf := decodeSymbols_unwritten hs (by simp) h
    exact hf

/-! PP.ASM. -/

/-- What the checks of PP.ASM establish of the regions and the lanes it uses (R231). -/
structure AsmSafe (s : State) : Prop where
  output : s.Inside .output
  size : s.len .output = s.npix * s.channels
  lane : ∀ c, c < s.channels → s.lane c < s.channels
  plane : ∀ c, c < s.channels → s.Inside (planeRegion c) ∧ s.npix ≤ s.len (planeRegion c)

theorem asmSafe_setMem {s : State} (h : AsmSafe s) (m : List Host.Cell) : AsmSafe (s.setMem m) :=
  ⟨h.output, h.size, h.lane, h.plane⟩

/-- A lane of a pixel lies inside the image. -/
theorem lane_lt_image {p npix lane channels : Nat} (hp : p < npix) (hl : lane < channels) :
    p * channels + lane < npix * channels := by
  have hle : (p + 1) * channels ≤ npix * channels := Nat.mul_le_mul_right _ hp
  rw [Nat.succ_mul] at hle
  omega

theorem asmByte_unwritten {p c : Nat} {s : State} {f : Fault} (hs : AsmSafe s) (hp : p < s.npix) (hc : c < s.channels)
    (h : asmByte s p c = .error f) : s.Unwritten f := by
  obtain ⟨hin, hlen⟩ := hs.plane c hc
  unfold asmByte at h
  split at h
  · rename_i hr; cases h; exact readMem_unwritten (inside_lt hin (by omega)) hr
  · split at h
    · split at h
      · rename_i hr
        cases h
        have hup := lane_lt_image (lt_of_le_of_lt (Nat.sub_le p (s.csrNat PP_W)) hp) (hs.lane c hc)
        exact readMem_unwritten (inside_lt hs.output (hs.size ▸ hup)) hr
      · cases h
    · cases h

theorem asmPixel_unwritten {p n c : Nat} {s : State} {f : Fault} (hs : AsmSafe s) (hp : p < s.npix)
    (hn : c + n ≤ s.channels) (h : asmPixel p n c s = .error f) : s.Unwritten f := by
  induction n generalizing c s with
  | zero => cases h
  | succ n ih =>
    simp only [asmPixel] at h
    split at h
    · rename_i hr; cases h; exact asmByte_unwritten hs hp (by omega) hr
    · split at h
      · rename_i hw
        have hlt := lane_lt_image hp (hs.lane c (by omega))
        exact absurd hw (writeMem_ne_error (inside_lt hs.output (hs.size ▸ hlt)))
      · rename_i hw
        refine unwritten_of_writeMem hw ?_
        obtain ⟨-, rfl⟩ := writeMem_eq_ok hw
        exact ih (asmSafe_setMem hs _) hp (by simp; omega) h

theorem asmImage_unwritten {n p : Nat} {s : State} {f : Fault} (hs : AsmSafe s) (hn : p + n ≤ s.npix)
    (h : asmImage n p s = .error f) : s.Unwritten f := by
  induction n generalizing p s with
  | zero => cases h
  | succ n ih =>
    simp only [asmImage] at h
    split at h
    · rename_i hf; cases h; exact asmPixel_unwritten hs (by omega) (by omega) hf
    · rename_i hpix
      have hst := storedTo_asmPixel hpix fun d _ hd => hs.lane d (by omega)
      refine unwritten_of_storedTo hst ?_
      obtain ⟨m, rfl, -⟩ := hst
      exact ih (asmSafe_setMem hs m) (by simp; omega) h

theorem asmSafe_of_checks {s : State} (hc : ∀ c ∈ ppAsmChecks s, c.1 = false) : AsmSafe s := by
  simp only [ppAsmChecks, List.forall_mem_append, List.forall_mem_cons, List.forall_mem_map, List.mem_range, badCfg_fst,
    insideCheck_fst, regionOutside_eq_false_iff, decide_eq_false_iff_not, not_not, Nat.not_lt] at hc
  obtain ⟨⟨⟨⟨⟨-, -, hlanes, -, hsize, -⟩, hplen⟩, hout, -⟩, hpin⟩, -⟩ := hc
  exact ⟨hout, hsize, fun c hc => lane_lt_channels hlanes hc, fun c hc => ⟨hpin c hc, hplen c hc⟩⟩

theorem ppAsm_unwritten {s : State} {f : Fault} (h : effectOf .ppAsm s = .error f) : s.Unwritten f := by
  obtain ⟨hc, he⟩ := checked_eq_error h
  unfold ppAsmEffect at he
  split at he
  · rename_i hf; cases he; exact asmImage_unwritten (asmSafe_of_checks hc) (by omega) hf
  · cases he

/-! PP.ALPHA. -/

/-- What the checks of PP.ALPHA establish of the regions and the alpha lane (R234). -/
structure AlphaSafe (s : State) : Prop where
  output : s.Inside .output
  size : s.len .output = s.npix * s.channels
  lane : s.alphaLane < s.channels
  table : s.Inside .table

theorem alphaSafe_setMem {s : State} (h : AlphaSafe s) (m : List Host.Cell) : AlphaSafe (s.setMem m) :=
  ⟨h.output, h.size, h.lane, h.table⟩

theorem fillAlpha_ne_error {a : Byte} {n p : Nat} {s : State} {f : Fault} (hs : AlphaSafe s) (hn : p + n ≤ s.npix) :
    fillAlpha a n p s ≠ .error f := by
  induction n generalizing p s with
  | zero => exact nofun
  | succ n ih =>
    have hlt : p * s.channels + s.alphaLane < s.len .output := hs.size ▸ lane_lt_image (by omega) hs.lane
    rw [fillAlpha, writeMem_ok (inside_lt hs.output hlt)]
    exact ih (alphaSafe_setMem hs _) (by simp; omega)

theorem alphaRuns_unwritten {expand : Nat → Nat → Byte} {n k p : Nat} {s : State} {f : Fault} (hs : AlphaSafe s)
    (hn : 4 * (k + n) ≤ s.len .table) (h : alphaRuns expand n k p s = .error f) : s.Unwritten f := by
  induction n generalizing k p s with
  | zero => cases h
  | succ n ih =>
    have hin : s.base .table + s.len .table ≤ s.memSize := hs.table
    simp only [alphaRuns] at h
    split at h
    · rename_i hr; cases h; exact readMem32_unwritten (by omega) hr
    · split at h
      · cases h
      · split at h
        · cases h
        · rename_i hfit
          split at h
          · rename_i hf; exact absurd hf (fillAlpha_ne_error hs (by omega))
          · rename_i hfill
            have hst := storedTo_fillAlpha hfill hs.lane
            refine unwritten_of_storedTo hst ?_
            obtain ⟨m, rfl, -⟩ := hst
            exact ih (alphaSafe_setMem hs m) (by simp; omega) h

theorem ppAlpha_unwritten {s : State} {f : Fault} (h : effectOf .ppAlpha s = .error f) : s.Unwritten f := by
  obtain ⟨hc, he⟩ := checked_eq_error h
  simp only [ppAlphaChecks, List.forall_mem_cons, badCfg_fst, insideCheck_fst, regionOutside_eq_false_iff,
    decide_eq_false_iff_not, not_not, Nat.not_le] at hc
  obtain ⟨-, -, hlane, -, hsize, -, hout, htable, -⟩ := hc
  have hs : AlphaSafe (s.setProduced 0) := ⟨hout, hsize, hlane, htable⟩
  have hf := alphaRuns_unwritten hs (by simp; omega) he
  exact hf

/-! KS.*. -/

/-- The in-place transform faults only as its keystream does, or on a byte of OUT (R260). -/
theorem transformLoop_unwritten {gen : State → Word → Nat → Except Fault (Byte × Word)} {pre : Byte → Byte} {bias : Bool}
    {n i : Nat} {g : Word} {s : State} {f : Fault}
    (hgen : ∀ m g i, gen (s.setMem m) g i = .error f → (s.setMem m).Unwritten f) (hout : s.Inside .output)
    (hn : i + n ≤ s.len .output) (h : transformLoop gen pre bias n i g s = .error f) : s.Unwritten f := by
  induction n generalizing i g s with
  | zero => cases h
  | succ n ih =>
    have hlt := inside_lt hout (k := i) (by omega)
    simp only [transformLoop] at h
    split at h
    · rename_i hr; cases h; exact readMem_unwritten hlt hr
    · split at h
      · rename_i hf; cases h; exact hgen s.mem g i hf
      · split at h
        · rename_i hw; exact absurd hw (writeMem_ne_error hlt)
        · rename_i hw
          refine unwritten_of_writeMem hw ?_
          obtain ⟨-, rfl⟩ := writeMem_eq_ok hw
          exact ih (fun m => hgen m) hout (by simp; omega) h

theorem cipherEffect_unwritten {gen : State → Word → Nat → Except Fault (Byte × Word)} {pre : Byte → Byte} {bias : Bool}
    {start : Word} {final : Word → Word} {s : State} {f : Fault}
    (hgen : ∀ m g i, gen (s.setMem m) g i = .error f → (s.setMem m).Unwritten f) (hout : s.Inside .output)
    (h : cipherEffect gen pre bias start final s = .error f) : s.Unwritten f := by
  unfold cipherEffect at h
  split at h
  · rename_i hf; cases h; exact transformLoop_unwritten hgen hout (by omega) hf
  · cases h

/-- KS.LCG and KS.PM: one check, and a keystream that reads no MEM (R262, R264). -/
theorem streamCipher_unwritten {gen : State → Word → Nat → Except Fault (Byte × Word)} {pre : Byte → Byte} {bias : Bool}
    {start : Word} {final : Word → Word} {s : State} {f : Fault} (hgen : ∀ t g i, gen t g i ≠ .error f)
    (h : checked [s.insideCheck .output] s (cipherEffect gen pre bias start final s) = .error f) : s.Unwritten f := by
  obtain ⟨hc, he⟩ := checked_eq_error h
  rw [List.forall_mem_singleton, insideCheck_fst, regionOutside_eq_false_iff] at hc
  exact cipherEffect_unwritten (fun _ g i hf => absurd hf (hgen _ g i)) hc he

theorem readKey_unwritten {n i : Nat} {s : State} {f : Fault} (hin : s.Inside .key) (hn : i + n ≤ s.len .key)
    (h : readKey s n i = .error f) : s.Unwritten f := by
  induction n generalizing i with
  | zero => cases h
  | succ n ih =>
    simp only [readKey] at h
    split at h
    · rename_i hr; cases h; exact readMem_unwritten (inside_lt hin (by omega)) hr
    · split at h
      · rename_i hrest; cases h; exact ih (by omega) hrest
      · cases h

theorem ksHash_unwritten {bias : Bool} {s : State} {f : Fault} (h : effectOf (.ksHash bias) s = .error f) :
    s.Unwritten f := by
  obtain ⟨hc, he⟩ := checked_eq_error h
  simp only [ksHashChecks, List.forall_mem_cons, insideCheck_fst, regionOutside_eq_false_iff] at hc
  obtain ⟨hout, hkey, -⟩ := hc
  unfold ksHashEffect at he
  split at he
  · rename_i hr; cases he; exact readKey_unwritten hkey (by omega) hr
  · exact cipherEffect_unwritten (fun _ _ _ hf => by cases hf) hout he

theorem rawGen_unwritten {g : Word} {i : Nat} {s : State} {f : Fault} (hkey : s.Inside .key) (hpos : 0 < s.len .key)
    (h : rawGen s g i = .error f) : s.Unwritten f := by
  unfold rawGen at h
  split at h
  · rename_i hr; cases h; exact readMem_unwritten (inside_lt hkey (Nat.mod_lt i hpos)) hr
  · cases h

theorem ksRaw_unwritten {bias : Bool} {s : State} {f : Fault} (h : effectOf (.ksRaw bias) s = .error f) :
    s.Unwritten f := by
  obtain ⟨hc, he⟩ := checked_eq_error h
  simp only [ksRawChecks, List.forall_mem_cons, badCfg_fst, insideCheck_fst, regionOutside_eq_false_iff,
    decide_eq_false_iff_not] at hc
  obtain ⟨hlen, -, hout, hkey, -⟩ := hc
  exact cipherEffect_unwritten (fun m g i => rawGen_unwritten (s := s.setMem m) hkey (Nat.pos_of_ne_zero hlen)) hout he

/-! Every command, and the step. -/

theorem setConfig_ne_error {csr : BitVec 8} {value : Word → Word} {s : State} {f : Fault} :
    setConfig csr value s ≠ .error f := by
  unfold setConfig
  split <;> exact nofun

/-- A command with an open cursor over a checked input and a listed tree faults only on a byte nothing has written. -/
theorem effectOf_unwritten {i : Instr} {s : State} {f : Fault} (hin : s.bopen = true → s.Inside .input)
    (htree : s.hvalid = true → s.TreeListed) (h : effectOf i s = .error f) : s.Unwritten f := by
  cases i with
  | halt => cases h
  | setlo csr imm => unfold effectOf at h; exact absurd h setConfig_ne_error
  | sethi csr imm => unfold effectOf at h; exact absurd h setConfig_ne_error
  | brOpen ord => cases (checked_eq_error h).2
  | brBit => exact reader_unwritten hin brBit_unwritten h
  | brBits n => exact reader_unwritten hin brBits_unwritten h
  | brUnary => exact reader_unwritten hin brUnary_unwritten h
  | ocCopy => exact ocCopy_unwritten h
  | lzDec => exact lzDec_unwritten hin h
  | hufBldw => exact hufBldw_unwritten h
  | hufBldl => exact hufBldl_unwritten h
  | hufDec => exact hufDec_unwritten hin htree h
  | ppAsm => exact ppAsm_unwritten h
  | ppAlpha => exact ppAlpha_unwritten h
  | ksLcg bias => exact streamCipher_unwritten (fun _ _ _ hf => by cases hf) h
  | ksPm bias => exact streamCipher_unwritten (fun _ _ _ hf => by cases hf) h
  | ksHash bias => exact ksHash_unwritten h
  | ksRaw bias => exact ksRaw_unwritten h

theorem fetch_unwritten {s : State} (h : s.fetch = .unwritten) : cellRead s.cmd s.cp.toNat = none := by
  unfold State.fetch at h
  split at h
  · cases h
  · split at h
    · assumption
    · cases h

/-- Settles O57 (it holds): a step faults in its fetch or in its command, whose cursor the invariant keeps inside MEM. -/
theorem onlyUnwrittenReadsFault : Obligations.OnlyUnwrittenReadsFault := by
  intro s f hs htree h
  obtain ⟨-, -, -, -, -, -, -, hcursor, -⟩ := hs
  unfold step cycle at h
  split at h
  · rename_i hbusy
    split at h
    · cases h
    · rename_i hfetch
      cases h
      exact .inr ⟨rfl, fetch_unwritten hfetch⟩
    · unfold runWord at h
      split at h
      · cases h
      · rw [exec_eq_conclude] at h
        exact .inl (effectOf_unwritten (fun ho => (hcursor hbusy ho).2.1) htree (conclude_eq_fault h))
  · cases h

end Sys2Proof.Machine

/-! The encoding (spec/30_encoding.md R100 to R106): the fields of a word of each format, and that the decoder and the encoder
are inverse to each other. -/

namespace Sys2Proof

/-! Fields of a composed word (R100 to R104). -/

@[simp] theorem opcodeOf_wordZ (op : BitVec 8) : opcodeOf (wordZ op) = op := BitVec.extractLsb'_append_eq_left

@[simp] theorem zeros_wordZ (op : BitVec 8) : (wordZ op).extractLsb' 0 24 = 0 := BitVec.extractLsb'_append_eq_right

@[simp] theorem opcodeOf_wordS (op csr : BitVec 8) (imm : BitVec 16) : opcodeOf (wordS op csr imm) = op :=
  (BitVec.extractLsb'_append_eq_of_le (by decide)).trans BitVec.extractLsb'_append_eq_left

@[simp] theorem csrField_wordS (op csr : BitVec 8) (imm : BitVec 16) : csrField (wordS op csr imm) = csr :=
  (BitVec.extractLsb'_append_eq_of_le (by decide)).trans BitVec.extractLsb'_append_eq_right

@[simp] theorem immField_wordS (op csr : BitVec 8) (imm : BitVec 16) : immField (wordS op csr imm) = imm :=
  BitVec.extractLsb'_append_eq_right

@[simp] theorem opcodeOf_wordB (op : BitVec 8) (b : Bool) : opcodeOf (wordB op b) = op :=
  (BitVec.extractLsb'_append_eq_of_le (by decide)).trans BitVec.extractLsb'_append_eq_left

@[simp] theorem zeros_wordB (op : BitVec 8) (b : Bool) : (wordB op b).extractLsb' 1 23 = 0 :=
  (BitVec.extractLsb'_append_eq_of_le (by decide)).trans BitVec.extractLsb'_append_eq_right

@[simp] theorem flagField_wordB (op : BitVec 8) (b : Bool) : flagField (wordB op b) = b := by
  unfold flagField wordB
  rw [BitVec.getLsbD_append]
  simp

@[simp] theorem opcodeOf_wordN (op : BitVec 8) (n : BitVec 6) : opcodeOf (wordN op n) = op :=
  (BitVec.extractLsb'_append_eq_of_le (by decide)).trans BitVec.extractLsb'_append_eq_left

@[simp] theorem zeros_wordN (op : BitVec 8) (n : BitVec 6) : (wordN op n).extractLsb' 6 18 = 0 :=
  (BitVec.extractLsb'_append_eq_of_le (by decide)).trans BitVec.extractLsb'_append_eq_right

@[simp] theorem countField_wordN (op : BitVec 8) (n : BitVec 6) : countField (wordN op n) = n :=
  BitVec.extractLsb'_append_eq_right

/-! A word is made of its fields. -/

/-- Two words are equal that agree in the opcode byte, in bits [23:m] and in bits [m-1:0]. -/
theorem eq_of_fields {w v : Word} (m n : Nat) (hmn : m + n = 24) (hop : opcodeOf w = opcodeOf v)
    (hmid : w.extractLsb' m n = v.extractLsb' m n) (hlow : w.extractLsb' 0 m = v.extractLsb' 0 m) : w = v := by
  have hbit {start len : Nat} (h : w.extractLsb' start len = v.extractLsb' start len) (k : Nat) (hk : k < len) :
      w.getLsbD (start + k) = v.getLsbD (start + k) := by
    simpa [BitVec.getLsbD_extractLsb', hk] using congrArg (BitVec.getLsbD · k) h
  refine BitVec.eq_of_getLsbD_eq fun i hi => ?_
  rcases Nat.lt_or_ge i m with him | him
  · simpa using hbit hlow i him
  rcases Nat.lt_or_ge i 24 with hi24 | hi24
  · simpa [Nat.add_sub_cancel' him] using hbit hmid (i - m) (by omega)
  · simpa [Nat.add_sub_cancel' hi24] using hbit hop (i - 24) (by omega)

theorem wordZ_eq {w : Word} {op : BitVec 8} (hop : opcodeOf w = op) (hz : w.extractLsb' 0 24 = 0) : wordZ op = w :=
  eq_of_fields 0 24 rfl (by simp [hop]) (by simp [hz]) (by simp)

theorem wordS_eq {w : Word} {op : BitVec 8} (hop : opcodeOf w = op) : wordS op (csrField w) (immField w) = w :=
  eq_of_fields 16 8 rfl (by simp [hop]) (csrField_wordS ..) (immField_wordS ..)

theorem wordB_eq {w : Word} {op : BitVec 8} (hop : opcodeOf w = op) (hz : w.extractLsb' 1 23 = 0) :
    wordB op (flagField w) = w := by
  refine eq_of_fields 1 23 rfl (by simp [hop]) (by simp [hz]) ?_
  ext k hk
  obtain rfl : k = 0 := by omega
  simpa [flagField] using flagField_wordB op (flagField w)

theorem wordN_eq {w : Word} {op : BitVec 8} (hop : opcodeOf w = op) (hz : w.extractLsb' 6 18 = 0) :
    wordN op (countField w) = w :=
  eq_of_fields 6 18 rfl (by simp [hop]) (by simp [hz]) (countField_wordN ..)

/-! The decoder on the words the encoder makes. -/

theorem orderOfFlag_flagOfOrder (ord : BitOrder) : orderOfFlag (flagOfOrder ord) = ord := by cases ord <;> rfl

theorem flagOfOrder_orderOfFlag (b : Bool) : flagOfOrder (orderOfFlag b) = b := by cases b <;> rfl

theorem formatZ_wordZ (op : BitVec 8) (i : Instr) : formatZ (wordZ op) i = .ok i := if_pos (zeros_wordZ op)

theorem formatB_wordB (op : BitVec 8) (b : Bool) (i : Bool → Instr) : formatB (wordB op b) i = .ok (i b) := by
  simp [formatB]

theorem formatN_wordN (op : BitVec 8) {n : BitVec 6} (i : BitVec 6 → Instr) (h : n.toNat ≤ 32) :
    formatN (wordN op n) i = .ok (i n) := by
  simp [formatN, h]

/-- Settles O1 (it holds): the opcode selects the command's own arm of the decoder, whose format gives the operands back. -/
theorem decodeInvertsEncode : Obligations.DecodeInvertsEncode := by
  intro i hi
  cases i with
  | halt | brBit | brUnary | ocCopy | lzDec | hufBldw | hufBldl | hufDec | ppAsm | ppAlpha =>
    simp [encode, decode, formatZ_wordZ]
  | setlo csr imm | sethi csr imm => simp [encode, decode]
  | brOpen ord => simp [encode, decode, formatB_wordB, orderOfFlag_flagOfOrder]
  | brBits n => simp [encode, decode, formatN_wordN _ _ (of_decide_eq_true hi)]
  | ksLcg bias | ksPm bias | ksHash bias | ksRaw bias => simp [encode, decode, formatB_wordB]

/-! What a format answers is a command whose word is of that format (R101 to R104). -/

theorem formatZ_encodes {w : Word} {op : BitVec 8} {i j : Instr} (hop : opcodeOf w = op) (h : formatZ w j = .ok i)
    (hj : j.wellFormed = true ∧ encode j = wordZ op) : i.wellFormed = true ∧ encode i = w := by
  unfold formatZ at h
  split at h
  · cases h
    obtain ⟨hwf, henc⟩ := hj
    exact ⟨hwf, henc.trans (wordZ_eq hop ‹_›)⟩
  · cases h

theorem formatB_encodes {w : Word} {op : BitVec 8} {i : Instr} {f : Bool → Instr} (hop : opcodeOf w = op)
    (h : formatB w f = .ok i) (hf : ∀ b, (f b).wellFormed = true ∧ encode (f b) = wordB op b) :
    i.wellFormed = true ∧ encode i = w := by
  unfold formatB at h
  split at h
  · cases h
    obtain ⟨hwf, henc⟩ := hf (flagField w)
    exact ⟨hwf, henc.trans (wordB_eq hop ‹_›)⟩
  · cases h

theorem brBits_encodes {w : Word} {i : Instr} (hop : opcodeOf w = 0x22#8) (h : formatN w .brBits = .ok i) :
    i.wellFormed = true ∧ encode i = w := by
  unfold formatN at h
  split at h
  · split at h
    · cases h
      exact ⟨decide_eq_true ‹_›, wordN_eq hop ‹_›⟩
    · cases h
  · cases h

/-- One row of the decoder: what it answers is the row's answer on the row's opcode, and the later rows' otherwise. -/
theorem decodeRow_elim {w : Word} {op : BitVec 8} {i : Instr} {here later : Except DecodeError Instr} {P : Prop}
    (h : (if opcodeOf w = op then here else later) = .ok i) (hhere : opcodeOf w = op → here = .ok i → P)
    (hlater : later = .ok i → P) : P := by
  split at h
  · exact hhere ‹_› h
  · exact hlater h

/-- Settles O2 (it holds): row by row, the opcode byte is the row's and its format fixes the rest of the word. -/
theorem encodeInvertsDecode : Obligations.EncodeInvertsDecode := by
  intro w i h
  refine decodeRow_elim h (fun hop h => formatZ_encodes hop h ⟨rfl, rfl⟩) fun h => ?_
  refine decodeRow_elim h (fun hop h => ?_) fun h => ?_
  · cases h
    exact ⟨rfl, wordS_eq hop⟩
  refine decodeRow_elim h (fun hop h => ?_) fun h => ?_
  · cases h
    exact ⟨rfl, wordS_eq hop⟩
  refine decodeRow_elim h (fun hop h => formatB_encodes hop h fun b => ⟨rfl, ?_⟩) fun h => ?_
  · exact congrArg (wordB 0x20) (flagOfOrder_orderOfFlag b)
  refine decodeRow_elim h (fun hop h => formatZ_encodes hop h ⟨rfl, rfl⟩) fun h => ?_
  refine decodeRow_elim h brBits_encodes fun h => ?_
  iterate 8 refine decodeRow_elim h (fun hop h => formatZ_encodes hop h ⟨rfl, rfl⟩) fun h => ?_
  iterate 4 refine decodeRow_elim h (fun hop h => formatB_encodes hop h fun _ => ⟨rfl, rfl⟩) fun h => ?_
  cases h

/-- The decoder answers a command exactly where the command is well formed and the word is its encoding (R106). -/
theorem decode_eq_ok_iff (w : Word) (i : Instr) : decode w = .ok i ↔ i.wellFormed = true ∧ encode i = w := by
  refine ⟨encodeInvertsDecode w i, ?_⟩
  rintro ⟨hi, rfl⟩
  exact decodeInvertsEncode i hi

end Sys2Proof

/-! The opcode table (R105) against the encoder: the words of a row are the words of the row's commands. -/

namespace Sys2Proof
open Sys2Proof.Claims Sys2Proof.Laws

theorem row_mem_opcodeRows (i : Instr) : Encoding.row i ∈ opcodeRows := by
  cases i <;> simp [Encoding.row, opcodeRows]

/-- The word of every command lies in the command's row. -/
theorem encode_and_mask (i : Instr) : encode i &&& (Encoding.row i).2 = (Encoding.row i).1 := by
  cases i with
  | halt => exact Encoding.halt
  | setlo csr imm => exact Encoding.setlo csr imm
  | sethi csr imm => exact Encoding.sethi csr imm
  | brOpen ord => exact Encoding.brOpen ord
  | brBit => exact Encoding.brBit
  | brBits n => exact Encoding.brBits n
  | brUnary => exact Encoding.brUnary
  | ocCopy => exact Encoding.ocCopy
  | lzDec => exact Encoding.lzDec
  | hufBldw => exact Encoding.hufBldw
  | hufBldl => exact Encoding.hufBldl
  | hufDec => exact Encoding.hufDec
  | ppAsm => exact Encoding.ppAsm
  | ppAlpha => exact Encoding.ppAlpha
  | ksLcg bias => exact Encoding.ksLcg bias
  | ksPm bias => exact Encoding.ksPm bias
  | ksHash bias => exact Encoding.ksHash bias
  | ksRaw bias => exact Encoding.ksRaw bias

/-- A field that the mask covers holds what the match holds there. -/
theorem extractLsb'_eq_of_masked {w m v : Word} {start len : Nat} (h : w &&& m = v)
    (hm : m.extractLsb' start len = BitVec.allOnes len) : w.extractLsb' start len = v.extractLsb' start len := by
  rw [← h, BitVec.extractLsb'_and, hm, BitVec.and_allOnes]

/-- Every mask of the table covers the opcode byte. -/
theorem masks_cover_opcode : ∀ r ∈ opcodeRows, r.2.extractLsb' 24 8 = BitVec.allOnes 8 := by
  simp [opcodeRows]

theorem opcodeOf_of_row {w : Word} {r : Word × Word} (hr : r ∈ opcodeRows) (h : w &&& r.2 = r.1) :
    opcodeOf w = opcodeOf r.1 :=
  extractLsb'_eq_of_masked h (masks_cover_opcode r hr)

/-- No two rows of the table share an opcode. -/
theorem nodup_opcodes : (opcodeRows.map fun r => opcodeOf r.1).Nodup := by
  simp [opcodeRows, opcodeOf]

theorem row_eq_of_opcodeOf_eq {r q : Word × Word} (hr : r ∈ opcodeRows) (hq : q ∈ opcodeRows)
    (h : opcodeOf r.1 = opcodeOf q.1) : r = q :=
  List.inj_on_of_nodup_map nodup_opcodes hr hq h

theorem wordZ_of_masked {w : Word} {op : BitVec 8} (h : w &&& 0xFFFFFFFF = wordZ op) : wordZ op = w :=
  h.symm.trans BitVec.and_allOnes

theorem wordS_of_masked {w : Word} {op : BitVec 8} (h : w &&& 0xFF000000 = wordZ op) :
    wordS op (csrField w) (immField w) = w :=
  wordS_eq ((extractLsb'_eq_of_masked h rfl).trans (opcodeOf_wordZ op))

theorem wordB_of_masked {w : Word} {op : BitVec 8} (h : w &&& 0xFFFFFFFE = wordB op false) :
    wordB op (flagField w) = w :=
  wordB_eq ((extractLsb'_eq_of_masked h rfl).trans (opcodeOf_wordB op false))
    ((extractLsb'_eq_of_masked h rfl).trans (zeros_wordB op false))

theorem wordN_of_masked {w : Word} {op : BitVec 8} (h : w &&& 0xFFFFFFC0 = wordN op 0) :
    wordN op (countField w) = w :=
  wordN_eq ((extractLsb'_eq_of_masked h rfl).trans (opcodeOf_wordN op 0))
    ((extractLsb'_eq_of_masked h rfl).trans (zeros_wordN op 0))

/-- Every word of a row is the word of a command. -/
theorem exists_encode_of_row {w : Word} {r : Word × Word} (hr : r ∈ opcodeRows) (h : w &&& r.2 = r.1) :
    ∃ i, encode i = w := by
  simp only [opcodeRows, List.mem_cons, List.not_mem_nil, or_false] at hr
  rcases hr with rfl | rfl | rfl | rfl | rfl | rfl | rfl | rfl | rfl | rfl | rfl | rfl | rfl | rfl | rfl | rfl | rfl | rfl
  · exact ⟨.halt, wordZ_of_masked h⟩
  · exact ⟨.setlo (csrField w) (immField w), wordS_of_masked h⟩
  · exact ⟨.sethi (csrField w) (immField w), wordS_of_masked h⟩
  · exact ⟨.brOpen (orderOfFlag (flagField w)),
      (congrArg (wordB 0x20) (flagOfOrder_orderOfFlag _)).trans (wordB_of_masked h)⟩
  · exact ⟨.brBit, wordZ_of_masked h⟩
  · exact ⟨.brBits (countField w), wordN_of_masked h⟩
  · exact ⟨.brUnary, wordZ_of_masked h⟩
  · exact ⟨.ocCopy, wordZ_of_masked h⟩
  · exact ⟨.lzDec, wordZ_of_masked h⟩
  · exact ⟨.hufBldw, wordZ_of_masked h⟩
  · exact ⟨.hufBldl, wordZ_of_masked h⟩
  · exact ⟨.hufDec, wordZ_of_masked h⟩
  · exact ⟨.ppAsm, wordZ_of_masked h⟩
  · exact ⟨.ppAlpha, wordZ_of_masked h⟩
  · exact ⟨.ksLcg (flagField w), wordB_of_masked h⟩
  · exact ⟨.ksPm (flagField w), wordB_of_masked h⟩
  · exact ⟨.ksHash (flagField w), wordB_of_masked h⟩
  · exact ⟨.ksRaw (flagField w), wordB_of_masked h⟩

/-- The table's rows hold the words of the commands, well formed or not, and no others. -/
theorem exists_row_iff (w : Word) : (∃ r ∈ opcodeRows, w &&& r.2 = r.1) ↔ ∃ i, encode i = w := by
  constructor
  · rintro ⟨r, hr, h⟩
    exact exists_encode_of_row hr h
  · rintro ⟨i, rfl⟩
    exact ⟨Encoding.row i, row_mem_opcodeRows i, encode_and_mask i⟩

/-! The exception of R106: a BR.BITS word with n above 32. -/

theorem shiftRight_eq_iff_opcodeOf (w : Word) : w >>> 24 = 0x22 ↔ opcodeOf w = 0x22#8 := by
  have hlt := w.isLt
  simp only [← BitVec.toNat_inj, opcodeOf, BitVec.extractLsb'_toNat, BitVec.toNat_ushiftRight, Nat.shiftRight_eq_div_pow,
    BitVec.ofNat_eq_ofNat, BitVec.toNat_ofNat]
  omega

theorem and_toNat_eq_countField (w : Word) : (w &&& 0x3F).toNat = (countField w).toNat := by
  rw [BitVec.toNat_and, countField, BitVec.extractLsb'_toNat]
  exact Nat.and_two_pow_sub_one_eq_mod w.toNat 6

/-- A command is well formed exactly where its word is no exception: only BR.BITS has the opcode 0x22, and its count
field is n. -/
theorem wellFormed_iff_encode (i : Instr) :
    i.wellFormed = true ↔ ¬ (encode i >>> 24 = 0x22 ∧ 32 < (encode i &&& 0x3F).toNat) := by
  rw [shiftRight_eq_iff_opcodeOf, and_toNat_eq_countField]
  cases i <;> simp [Instr.wellFormed, encode]

/-- The legal words are the words of the well-formed commands (R106). -/
theorem legalWord_iff (w : Word) : LegalWord w ↔ ∃ i, i.wellFormed = true ∧ encode i = w := by
  unfold LegalWord
  rw [exists_row_iff]
  constructor
  · rintro ⟨⟨i, rfl⟩, h⟩
    exact ⟨i, (wellFormed_iff_encode i).2 h, rfl⟩
  · rintro ⟨i, hi, rfl⟩
    exact ⟨⟨i, rfl⟩, (wellFormed_iff_encode i).1 hi⟩

/-- Settles O3 (it holds): both sides of the first part speak of the words of well-formed commands; a word's opcode byte
decides its row. -/
theorem legalWordsAreTheTable : Obligations.LegalWordsAreTheTable := by
  refine ⟨fun w => ?_, fun w r q hr hq hwr hwq => ?_⟩
  · simp only [decode_eq_ok_iff, legalWord_iff]
  · exact row_eq_of_opcodeOf_eq hr hq ((opcodeOf_of_row hr hwr).symm.trans (opcodeOf_of_row hq hwq))

end Sys2Proof

/-! The step at an illegal word, and SETLO and SETHI as writes of one configuration CSR (spec/40_sequencer.md R130 to R134). -/

namespace Sys2Proof.Machine
open Sys2Proof.Claims

/-- A step of a run is the fetched word's (R130). -/
theorem step_eq_runWord {s : State} {w : Word} (hrun : s.run = .busy) (hcp : s.cp.toNat < s.cmdLen)
    (hw : cellRead s.cmd s.cp.toNat = some w) : step s = runWord w s := by
  have hfetch : s.fetch = .word w := by simp [State.fetch, hw, Nat.not_le.2 hcp]
  simp [step, cycle, hrun, hfetch]

theorem runWord_of_not_legalWord {w : Word} (h : ¬ LegalWord w) (s : State) :
    runWord w s = .next (s.takeCorrupt .eIllCmd w) := by
  unfold runWord
  split
  · rfl
  · rename_i i hi
    exact absurd ((legalWordsAreTheTable.1 w).1 ⟨i, hi⟩) h

/-- Settles O7 (it holds): an illegal word does not decode, so the step is the Corrupt outcome alone. -/
theorem illegalWordStopsRun : Obligations.IllegalWordStopsRun := by
  intro s w hrun hcp hw hillegal
  rw [step_eq_runWord hrun hcp hw, runWord_of_not_legalWord hillegal]
  rfl

theorem writeConfig_csr (s : State) (r q : Fin 34) (v : Word) :
    (s.writeConfig r v).csr q = if r = q then v else s.csr q := by
  unfold State.writeConfig
  split <;> simp [State.setCsr_csr]

theorem setConfig_eq_complete {csr : BitVec 8} {r : Fin 34} (h : csr.toNat = r.val) (value : Word → Word) (s : State) :
    setConfig csr value s = .ok (s.writeConfig r (value (s.csr r)), .complete) := by
  simp [setConfig, (cfgIndex_eq_some_iff csr r).2 h]

/-- The two halves of a word, put together again (R110). -/
theorem append_halves (v : Word) : v.extractLsb' 16 16 ++ v.extractLsb' 0 16 = v :=
  (BitVec.extractLsb'_append_extractLsb'_eq_extractLsb' rfl).trans BitVec.extractLsb'_eq_self

/-- SETHI keeps the low half that SETLO has written over zeros (R133, R134). -/
theorem append_low_of_zeros_append (v : Word) :
    v.extractLsb' 16 16 ++ (0#16 ++ v.extractLsb' 0 16).extractLsb' 0 16 = v := by
  rw [BitVec.extractLsb'_append_eq_right]
  exact append_halves v

/-- Settles O14 (it holds): SETLO leaves the low half over zeros, SETHI the high half over what SETLO left. -/
theorem setLoadsWord : Obligations.SetLoadsWord := by
  intro s r csr imm hr
  have hset := setConfig_eq_complete hr
  refine ⟨_, _, congrArg conclude (hset _ s), congrArg conclude (hset _ _), ?_, ?_, ?_⟩
  · simpa [writeConfig_csr] using append_low_of_zeros_append imm
  · intro hhigh
    simpa [writeConfig_csr, hhigh] using append_halves imm
  · intro q hq
    simp [writeConfig_csr, hq.symm]

end Sys2Proof.Machine

/-! The sequencer (spec/40_sequencer.md R130 to R138): what a step of a run is, in each case of the fetch; SETLO and SETHI as
the record they leave; the end of every run. -/

namespace Sys2Proof.Machine
open Sys2Proof.Claims

/-! One step (R130). -/

theorem step_of_not_busy {s : State} (hrun : s.run ≠ .busy) : step s = .next s := if_neg hrun

theorem step_at_end {s : State} (hrun : s.run = .busy) (hcp : s.cmdLen ≤ s.cp.toNat) :
    step s = .next (stoppedBy s .eCmdEnd s.cp) := by
  have hfetch : s.fetch = .pastEnd := if_pos hcp
  simp only [step, cycle, hrun, hfetch, if_true]
  rfl

theorem step_unwritten {s : State} (hrun : s.run = .busy) (hcp : s.cp.toNat < s.cmdLen)
    (hw : cellRead s.cmd s.cp.toNat = none) : step s = .fault (.unwrittenCmd s.cp.toNat) := by
  have hfetch : s.fetch = .unwritten := by simp [State.fetch, hw, Nat.not_le.2 hcp]
  simp [step, cycle, hrun, hfetch]

theorem runWord_of_decode {w : Word} {i : Instr} (h : decode w = .ok i) (s : State) : runWord w s = exec i s := by
  simp [runWord, h]

/-- Settles O5 (it holds): the fetch answers the word, and the word runs as the command it decodes to. -/
theorem stepRunsDecodedCommand : Obligations.StepRunsDecodedCommand := by
  intro s w i hrun hcp hw hdecode
  rw [step_eq_runWord hrun hcp hw, runWord_of_decode hdecode]

/-- Settles O6 (it holds): one lemma for each case of R130; a legal word is the word of a well-formed command. -/
theorem runCycle : Obligations.RunCycle := by
  intro s
  refine ⟨step_of_not_busy, step_at_end, fun hrun hcp w hw => ⟨fun hillegal => ?_, fun hlegal => ?_⟩⟩
  · exact illegalWordStopsRun s w hrun hcp hw hillegal
  · obtain ⟨i, hwf, henc⟩ := (legalWord_iff w).1 hlegal
    have hdecode : decode w = .ok i := (decode_eq_ok_iff w i).2 ⟨hwf, henc⟩
    exact ⟨i, henc, hwf, stepRunsDecodedCommand s w i hrun hcp hw hdecode⟩

/-! Every run ends (R135, R138). -/

/-- The run is still BUSY after `s` became `t` only where CP has moved on by one word of the same list. -/
def StopsOrAdvances (s t : State) : Prop :=
  t.run ≠ .busy ∨ (s.cp.toNat < s.cmdLen ∧ t.cp = s.cp + 1 ∧ t.cmdLen = s.cmdLen)

/-- HALT and a Corrupt outcome stop the run, every other outcome advances CP (R131). -/
theorem exec_stopsOrAdvances {i : Instr} {s t : State} (hcp : s.cp.toNat < s.cmdLen) (h : exec i s = .next t) :
    StopsOrAdvances s t := by
  obtain ⟨-, -, -, hlen⟩ := configurationIsKept i s t h
  rcases outcomeIsRecorded.1 i s t h with
    ⟨-, rfl⟩ | ⟨-, -, hnext, -⟩ | ⟨-, -, hnext, -⟩ | ⟨-, -, -, hstopped, -⟩
  · exact .inl nofun
  · exact .inr ⟨hcp, hnext, hlen⟩
  · exact .inr ⟨hcp, hnext, hlen⟩
  · exact .inl (by simp [hstopped])

theorem step_stopsOrAdvances {s t : State} (h : step s = .next t) : StopsOrAdvances s t := by
  by_cases hrun : s.run = .busy
  case neg =>
    rw [step_of_not_busy hrun] at h
    cases h
    exact .inl hrun
  rcases Nat.lt_or_ge s.cp.toNat s.cmdLen with hcp | hcp
  · cases hw : cellRead s.cmd s.cp.toNat with
    | none =>
      rw [step_unwritten hrun hcp hw] at h
      cases h
    | some w =>
      obtain ⟨-, -, hword⟩ := runCycle s
      obtain ⟨hillegal, hlegal⟩ := hword hrun hcp w hw
      by_cases hl : LegalWord w
      · obtain ⟨i, -, -, hexec⟩ := hlegal hl
        exact exec_stopsOrAdvances hcp (hexec.symm.trans h)
      · rw [hillegal hl] at h
        cases h
        exact .inl nofun
  · rw [step_at_end hrun hcp] at h
    cases h
    exact .inl nofun

/-- The first of `k + 1` steps, where all of them answer a state. -/
theorem run_succ_eq_next {M : Host.Core} {k : Nat} {s t : M.State} (h : M.run (k + 1) s = .next t) :
    ∃ u, M.step s = .next u ∧ M.run k u = .next t := by
  unfold Host.Core.run at h
  split at h
  · exact ⟨_, ‹_›, h⟩
  · cases h
  · cases h

/-- A run that has stopped stays stopped. -/
theorem run_of_not_busy {k : Nat} {s t : State} (hrun : s.run ≠ .busy)
    (h : Host.Core.run Sys2Proof.core k s = .next t) : t.run ≠ .busy := by
  induction k with
  | zero =>
    cases h
    exact hrun
  | succ k ih =>
    obtain ⟨u, hstep, hrest⟩ := run_succ_eq_next h
    obtain rfl : s = u := Host.Outcome.next.inj ((step_of_not_busy hrun).symm.trans hstep)
    exact ih hrest

/-- By induction on the words left: a step that does not stop the run leaves one word less, and with none left the step
stops it. The bound on CMD_LEN keeps CP + 1 from wrapping. -/
theorem run_stops {n : Nat} {s t : State} (hlen : s.cmdLen < 2 ^ 32) (hleft : s.cp.toNat + n = s.cmdLen)
    (h : Host.Core.run Sys2Proof.core (n + 1) s = .next t) : t.run ≠ .busy := by
  induction n generalizing s with
  | zero =>
    obtain ⟨u, hstep, hrest⟩ := run_succ_eq_next h
    rcases step_stopsOrAdvances hstep with hstop | ⟨hcp, -⟩
    · exact run_of_not_busy hstop hrest
    · omega
  | succ n ih =>
    obtain ⟨u, hstep, hrest⟩ := run_succ_eq_next h
    rcases step_stopsOrAdvances hstep with hstop | ⟨hcp, hnext, hkeep⟩
    · exact run_of_not_busy hstop hrest
    · have hroom : s.cp.toNat + (1 : Word).toNat < 2 ^ 32 := lt_of_le_of_lt hcp hlen
      have hucp : u.cp.toNat = s.cp.toNat + 1 := hnext ▸ BitVec.toNat_add_of_lt hroom
      exact ih (by omega) (by omega) hrest

/-- Settles O56 (it holds): the number of steps is one more than the words left, which every step of the run counts down. -/
theorem everyRunStops : Obligations.EveryRunStops := fun _ _ hlen hcp h =>
  run_stops hlen (Nat.add_sub_cancel' hcp) h

/-! Words (R132 to R134, R153, R155, R267). -/

/-- Settles O4 (it holds): each word is the encoding of its command, and the decoder gives the command back. -/
theorem printedWordsDecode : Obligations.PrintedWordsDecode :=
  ⟨decodeInvertsEncode .halt rfl, decodeInvertsEncode (.setlo 3 0xBEEF) rfl, decodeInvertsEncode (.sethi 3 0xDEAD) rfl,
    decodeInvertsEncode (.brOpen .lsb) rfl, decodeInvertsEncode (.brBits 3) rfl, decodeInvertsEncode (.ksRaw true) rfl⟩

/-! HALT (R132). -/

/-- STATUS reads 2 where the run is DONE and no command has been recorded (R35). -/
theorem readCsr_status_of_done {s : State} (h : s.run = .done) (hl : s.last = .none) (ht : s.tsticky = false) :
    s.readCsr 0x40 = 2 :=
  BitVec.eq_of_toNat_eq ((statusWord_toNat s).trans (by simp [h, hl, ht, runCode, lastCode]))

/-- Settles O11 (it holds): the Halt outcome sets RUN alone; without a HALT the fetch meets the end of the list. -/
theorem haltEndsRun : Obligations.HaltEndsRun := by
  refine ⟨decodeInvertsEncode .halt rfl, fun s => ⟨rfl, fun hl ht => ?_, fun hrun hcp => step_at_end hrun hcp.ge⟩⟩
  exact readCsr_status_of_done rfl hl ht

/-! SETLO and SETHI (R25, R133, R134). -/

/-- A write of a configuration CSR, field by field: the cursor is closed by the IN registers alone (R25). -/
theorem writeConfig_eq (s : State) (r : Fin 34) (v : Word) :
    s.writeConfig r v = { s with
      cfg := s.cfg.set r v
      bopen := if r.val ≤ 2 then false else s.bopen
      bcnt := if r.val ≤ 2 then 0 else s.bcnt
      bbuf := if r.val ≤ 2 then 0 else s.bbuf } := by
  unfold State.writeConfig
  by_cases hr : r.val ≤ 2
  · simp only [if_pos hr]
    rfl
  · simp only [if_neg hr]
    rfl

/-- An index up to 0x21: the value is written and the command completes. -/
theorem conclude_setConfig {csr : BitVec 8} {r : Fin 34} (h : csr.toNat = r.val) (value : Word → Word) (s : State) :
    conclude (setConfig csr value s) = .next (completed { s with
      cfg := s.cfg.set r (value (s.csr r))
      bopen := if csr.toNat ≤ 2 then false else s.bopen
      bcnt := if csr.toNat ≤ 2 then 0 else s.bcnt
      bbuf := if csr.toNat ≤ 2 then 0 else s.bbuf }) := by
  rw [setConfig_eq_complete h, conclude_ok, applyEnding_complete, writeConfig_eq, h]
  rfl

/-- An index above 0x21 is refused. -/
theorem conclude_setConfig_refused {csr : BitVec 8} (h : 0x21 < csr.toNat) (value : Word → Word) (s : State) :
    conclude (setConfig csr value s) = .next (stoppedBy s .eIllCsr (csr.setWidth 32)) := by
  simp only [setConfig, (cfgIndex_eq_none_iff csr).2 h]
  rfl

/-- Settles O12 (it holds): SETLO is the shared write with the zero-extended immediate. -/
theorem setloWritesConfiguration : Obligations.SetloWritesConfiguration := fun s csr imm =>
  ⟨decodeInvertsEncode (.setlo csr imm) rfl, fun _ hr => conclude_setConfig hr _ s,
    fun hcsr => conclude_setConfig_refused hcsr _ s⟩

/-- Settles O13 (it holds): SETHI is the shared write with the immediate over the old low half. -/
theorem sethiWritesConfiguration : Obligations.SethiWritesConfiguration := fun s csr imm =>
  ⟨decodeInvertsEncode (.sethi csr imm) rfl, fun _ hr => conclude_setConfig hr _ s,
    fun hcsr => conclude_setConfig_refused hcsr _ s⟩

end Sys2Proof.Machine

/-! The bit reader (spec/41_bitreader.md R150 to R157): what each reader answers on a cursor that is ready to read, and that
two reads in a row are one longer read. -/

namespace Sys2Proof.Machine
open Sys2Proof.Claims

/-! The open-cursor check (R154 to R156). -/

theorem conclude_closedCursor {s : State} (h : s.bopen = false) (body : Effect) :
    conclude (checked [s.cursorCheck] s body) = .next (stoppedBy s .eBadSeq 0) := by
  have hfail : firstFailure [s.cursorCheck] = some (.eBadSeq, 0) := by simp [State.cursorCheck, h]
  rw [checked_fail hfail]
  rfl

theorem conclude_openCursor {s : State} (h : s.bopen = true) (body : Effect) :
    conclude (checked [s.cursorCheck] s body) = conclude body := by
  have hpass : firstFailure [s.cursorCheck] = none := by simp [State.cursorCheck, h]
  rw [checked_pass hpass]

theorem State.ReadyToRead.bopen {s : State} (hr : s.ReadyToRead) : s.bopen = true := by
  obtain ⟨⟨hopen, -⟩, -⟩ := hr
  exact hopen

/-! BR.OPEN (R153). -/

/-- Settles O15 (it holds): the branches of the two checks in order, and the cursor both leave open. -/
theorem brOpenOpensCursor : Obligations.BrOpenOpensCursor := by
  refine ⟨decodeInvertsEncode (.brOpen .msb) rfl, decodeInvertsEncode (.brOpen .lsb) rfl, fun s ord => ⟨?_, ?_, ?_⟩⟩
  · intro hout
    have hfail : firstFailure (brOpenChecks s) = some (.eBadCfg, 0x00) := by
      simp only [brOpenChecks, State.insideCheck, badCfg, firstFailure_cons, (not_inside_iff s .input).1 hout, if_true]
      rfl
    exact congrArg conclude (checked_fail hfail s _)
  · intro hin hlt
    have hfail : firstFailure (brOpenChecks s) = some (.eBadCfg, 0x02) := by
      simp only [brOpenChecks, State.insideCheck, badCfg, firstFailure_cons, (regionOutside_eq_false_iff s .input).2 hin,
        Bool.false_eq_true, if_false, hlt, decide_true, if_true]
      rfl
    exact congrArg conclude (checked_fail hfail s _)
  · intro hin hle
    have hpass : firstFailure (brOpenChecks s) = none := by
      simp [brOpenChecks, firstFailure_eq_none_iff, (regionOutside_eq_false_iff s .input).2 hin, hle]
    exact congrArg conclude (checked_pass hpass s _)

/-- A completed BR.OPEN left the opened cursor: a failing check would have left a Corrupt outcome. -/
theorem brOpen_complete {s t : State} {ord : BitOrder} (h : exec (.brOpen ord) s = .next t) (hl : t.last = .complete) :
    t = (s.openCursor ord).endComplete := by
  have h : conclude (checked (brOpenChecks s) s (.ok (s.openCursor ord, .complete))) = .next t := h
  rcases checked_cases (brOpenChecks s) s (.ok (s.openCursor ord, .complete)) with ⟨c, info, -, hc⟩ | ⟨-, hc⟩
  · rw [hc] at h
    cases h
    cases hl
  · rw [hc] at h
    cases h
    rfl

/-- Entry `8 * k + j` of bytes written out as their bits is bit `j` of byte `k`. -/
theorem getElem?_flatMap_bits {α : Type} {f : α → List Bool} (hf : ∀ a, (f a).length = 8) {j : Nat} (hj : j < 8)
    (l : List α) (k : Nat) : (l.flatMap f)[8 * k + j]? = l[k]?.bind fun a => (f a)[j]? := by
  induction l generalizing k with
  | nil => rfl
  | cons a l ih =>
    rw [List.flatMap_cons]
    cases k with
    | zero => simp [List.getElem?_append_left, hf, hj]
    | succ k =>
      rw [List.getElem?_append_right (by rw [hf]; omega), hf, show 8 * (k + 1) + j - 8 = 8 * k + j by omega, ih]
      rfl

/-- Where in its byte the delivered bit number `j` stands (R150). -/
def bitPlace : BitOrder → Nat → Nat
  | .msb, j => 7 - j
  | .lsb, j => j

theorem byteBits_getElem? (ord : BitOrder) (b : Byte) {j : Nat} (hj : j < 8) :
    (byteBits ord b)[j]? = some (b.getLsbD (bitPlace ord j)) := by
  cases ord <;> interval_cases j <;> rfl

/-- Settles O20 (it holds): nothing is buffered, so the pending bits are those of the unloaded bytes, eight a byte. -/
theorem openedCursorBits : Obligations.OpenedCursorBits := by
  intro s t ord h hl k j hk hj
  rw [brOpen_complete h hl]
  have hpending : ((s.openCursor ord).endComplete).pendingBits = (List.range s.bytesLeft).flatMap
      fun i => byteBits ord (s.regionByte .input (s.csrNat IN_POS + i)) := List.nil_append _
  have hk : k < s.bytesLeft := hk
  rw [hpending, getElem?_flatMap_bits (fun _ => byteBits_length _ _) hj, List.getElem?_range hk, Option.bind_some,
    byteBits_getElem? ord _ hj]
  cases ord <;> rfl

/-! BR.BITS (R151, R155). -/

/-- A BR.BITS word with a count above 32 is illegal (R104). -/
theorem decode_brBits_of_gt {n : BitVec 6} (h : 32 < n.toNat) : decode (wordN 0x22 n) = .error .badBitCount := by
  simp [decode, formatN, Nat.not_le.2 h]

/-- The state a BR.BITS n leaves that finds `n` bits pending. -/
def State.bitsDelivered (s : State) (n : BitVec 6) : State :=
  ((s.afterBits n.toNat).setResult (BitVec.ofNat 32 (bitsValue (s.pendingBits.take n.toNat))) n false false).endComplete

theorem bitsDelivered_res (s : State) (n : BitVec 6) :
    (s.bitsDelivered n).res = BitVec.ofNat 32 (bitsValue (s.pendingBits.take n.toNat)) := rfl
theorem bitsDelivered_bbuf (s : State) (n : BitVec 6) : (s.bitsDelivered n).bbuf = (s.afterBits n.toNat).bbuf := rfl
theorem bitsDelivered_bcnt (s : State) (n : BitVec 6) : (s.bitsDelivered n).bcnt = (s.afterBits n.toNat).bcnt := rfl
theorem bitsDelivered_cfg (s : State) (n : BitVec 6) : (s.bitsDelivered n).cfg = (s.afterBits n.toNat).cfg := rfl

theorem exec_brBits_enough {s : State} (hr : s.ReadyToRead) {n : BitVec 6} (hn : n.toNat ≤ s.pendingBits.length) :
    exec (.brBits n) s = .next (s.bitsDelivered n) := by
  refine (conclude_openCursor hr.bopen _).trans ?_
  simp only [brBitsEffect, readBits_ready hr, if_pos hn, BitVec.ofNat_toNat, BitVec.setWidth_eq]
  rfl

theorem exec_brBits_short {s : State} (hr : s.ReadyToRead) {n : BitVec 6} (hn : s.pendingBits.length < n.toNat) :
    exec (.brBits n) s = .next (((s.afterBits s.pendingBits.length).setResult (BitVec.ofNat 32 (bitsValue s.pendingBits))
      (BitVec.ofNat 6 s.pendingBits.length) true false).endTruncated .tEoi (BitVec.ofNat 32 s.pendingBits.length)) := by
  refine (conclude_openCursor hr.bopen _).trans ?_
  simp only [brBitsEffect, readBits_ready hr, if_neg (Nat.not_le.2 hn)]
  rfl

/-- Settles O17 (it holds): read_bits on a ready cursor is its answer on the list of pending bits. -/
theorem brBitsReadsBits : Obligations.BrBitsReadsBits := by
  refine ⟨fun n => ⟨fun hn => ?_, fun hn i hi => ?_⟩, fun s n h => conclude_closedCursor h _,
    fun s n _ hr hn => exec_brBits_enough hr hn, fun s n _ hr hn => exec_brBits_short hr hn⟩
  · exact decodeInvertsEncode (.brBits n) (decide_eq_true hn)
  · cases (decode_brBits_of_gt hn).symm.trans hi

/-! BR.BIT (R154). -/

/-- BR.BIT is BR.BITS 1, also on a cursor that is closed or cannot be read (R154). -/
theorem exec_brBit_eq_brBits_one (s : State) : exec .brBit s = exec (.brBits 1) s := by
  have heffect : brBitEffect s = brBitsEffect 1 s := by
    simp only [brBitEffect, brBitsEffect, readBits, readBitsFrom]
    cases nextBit s with
    | bit b t => simp
    | eoi => rfl
    | fault f => rfl
  exact congrArg (fun e => conclude (checked [s.cursorCheck] s e)) heffect

/-- Settles O16 (it holds): next_bit on a ready cursor answers the first pending bit, or the end of input. -/
theorem brBitReadsOneBit : Obligations.BrBitReadsOneBit := by
  refine ⟨decodeInvertsEncode .brBit rfl, fun s h => conclude_closedCursor h _, fun s b bs hr hb => ?_,
    fun s hr hnil => ?_, exec_brBit_eq_brBits_one⟩
  · obtain ⟨hbit, hrest, -⟩ := nextBit_pending hr hb
    have hvalue : (BitVec.ofBool b).setWidth 32 = if b then (1 : Word) else 0 := by cases b <;> rfl
    refine ⟨(conclude_openCursor hr.bopen _).trans ?_, hrest⟩
    simp only [brBitEffect, hbit, hvalue]
    rfl
  · refine (conclude_openCursor hr.bopen _).trans ?_
    simp only [brBitEffect, nextBit_eoi hr hnil]
    rfl

/-! BR.UNARY (R152, R156). -/

/-- The run goes through the leading ones and, short of the cap, on into what follows them. -/
theorem onesRun_replicate_append {k : Nat} (hk : k ≤ UNARY_CAP) (rest : List Bool) :
    onesRun (List.replicate k true ++ rest) = k + ((rest.take (UNARY_CAP - k)).takeWhile fun b => b).length := by
  rw [onesRun, List.take_append, List.take_replicate, List.length_replicate, Nat.min_eq_right hk,
    List.takeWhile_append_of_pos fun b hb => List.eq_of_mem_replicate hb, List.length_append, List.length_replicate]

theorem exec_brUnary_eq {s t : State} (hr : s.ReadyToRead) {k : Nat} {cap eoi : Bool}
    (h : countUnary s = .run k cap eoi t) :
    exec .brUnary s = .next (applyEnding (if eoi then .truncated .tEoi (BitVec.ofNat 32 k) else .complete)
      (t.setResult (unaryMap k) (BitVec.ofNat 6 k) eoi cap)) := by
  refine (conclude_openCursor hr.bopen _).trans ?_
  simp only [brUnaryEffect, h]
  rfl

/-- Settles O18 (it holds): count_unary on a ready cursor by the run of ones among the pending bits. -/
theorem brUnaryCountsOnes : Obligations.BrUnaryCountsOnes := by
  refine ⟨decodeInvertsEncode .brUnary rfl, unaryMap_zero, fun s h => conclude_closedCursor h _, fun s k bs hr hk hp => ?_,
    fun s bs hr hp => ?_, fun s k hr hk hp => ?_⟩
  · have hcap : k < UNARY_CAP := hk
    have hones : onesRun s.pendingBits = k := by
      obtain ⟨room, hroom⟩ : ∃ room, UNARY_CAP - k = room + 1 := ⟨UNARY_CAP - k - 1, by omega⟩
      simp [hp, onesRun_replicate_append hcap.le, hroom]
    have hlen : k ≠ s.pendingBits.length := by simp [hp]
    have hrun : countUnary s = .run k false false (s.afterBits (k + 1)) := by
      rw [countUnary_ready hr, hones, if_neg hcap.ne, if_neg hlen]
    exact exec_brUnary_eq hr hrun
  · have hones : onesRun s.pendingBits = UNARY_CAP := by
      rw [hp]
      exact (onesRun_replicate_append (Nat.le_refl UNARY_CAP) bs).trans (by simp)
    have hrun : countUnary s = .run UNARY_CAP true false (s.afterBits UNARY_CAP) := by
      rw [countUnary_ready hr, if_pos hones]
    exact exec_brUnary_eq hr hrun
  · have hcap : k < UNARY_CAP := hk
    have hones : onesRun s.pendingBits = k := by
      have h := onesRun_replicate_append hcap.le []
      simpa [hp] using h
    have hlen : k = s.pendingBits.length := by simp [hp]
    have hrun : countUnary s = .run k false true (s.afterBits k) := by
      rw [countUnary_ready hr, hones, if_neg hcap.ne, if_pos hlen]
    exact exec_brUnary_eq hr hrun

/-! Two reads in a row (R157). -/

/-- A value read on from `v` is `v` moved up by the bits read, and their own value. -/
theorem bitsValueFrom_eq (v : Nat) (bs : List Bool) : bitsValueFrom v bs = v * 2 ^ bs.length + bitsValue bs := by
  suffices h : ∀ v, bitsValueFrom v bs = v * 2 ^ bs.length + bitsValueFrom 0 bs from h v
  induction bs with
  | nil => intro v; simp [bitsValueFrom]
  | cons b bs ih =>
    intro v
    calc bitsValueFrom (2 * v + b.toNat) bs
        = (2 * v + b.toNat) * 2 ^ bs.length + bitsValueFrom 0 bs := ih _
      _ = v * 2 ^ (bs.length + 1) + ((2 * 0 + b.toNat) * 2 ^ bs.length + bitsValueFrom 0 bs) := by ring
      _ = v * 2 ^ (bs.length + 1) + bitsValueFrom (2 * 0 + b.toNat) bs := by rw [ih (2 * 0 + b.toNat)]

theorem bitsValue_append (as bs : List Bool) :
    bitsValue (as ++ bs) = bitsValue as * 2 ^ bs.length + bitsValue bs :=
  List.foldl_append.trans (bitsValueFrom_eq _ bs)

/-- A word put together from a high part and `m` low bits. -/
theorem ofNat_shiftLeft_or {m b : Nat} (a : Nat) (hb : b < 2 ^ m) :
    BitVec.ofNat 32 (a * 2 ^ m + b) = (BitVec.ofNat 32 a <<< m) ||| BitVec.ofNat 32 b := by
  apply BitVec.eq_of_toNat_eq
  rw [← Nat.shiftLeft_eq, Nat.shiftLeft_add_eq_or_of_lt hb]
  simp [Nat.shiftLeft_eq]

/-- The value of `n + m` bits is that of the first `n` moved up by `m`, or that of the next `m` (R157). -/
theorem bitsValue_take_add {bs : List Bool} {n m : Nat} (h : n + m ≤ bs.length) :
    BitVec.ofNat 32 (bitsValue (bs.take (n + m))) =
      (BitVec.ofNat 32 (bitsValue (bs.take n)) <<< m) ||| BitVec.ofNat 32 (bitsValue ((bs.drop n).take m)) := by
  have hlen : ((bs.drop n).take m).length = m := by
    rw [List.length_take, List.length_drop]
    omega
  have hlt := bitsValue_lt ((bs.drop n).take m)
  rw [hlen] at hlt
  rw [List.take_add, bitsValue_append, hlen, ofNat_shiftLeft_or _ hlt]

/-- Recording a result and completing do not touch the cursor: the bits still to come are consumed as before. -/
theorem afterBits_recorded (s : State) (res : Word) (got : BitVec 6) (k : Nat) :
    (s.setResult res got false false).endComplete.afterBits k =
      ((s.afterBits k).setResult res got false false).endComplete := by
  by_cases hk : k ≤ s.bcnt.toNat
  · rw [State.afterBits_of_le hk, State.afterBits_of_le (s := (s.setResult res got false false).endComplete) hk]
    rfl
  · have hgt : s.bcnt.toNat < k := Nat.lt_of_not_le hk
    rw [State.afterBits_of_gt hgt, State.afterBits_of_gt (s := (s.setResult res got false false).endComplete) hgt]
    rfl

/-- After `n` bits the cursor is still ready to read and the others are pending. -/
theorem bitsDelivered_pending {s : State} (hr : s.ReadyToRead) {n : BitVec 6} (hn : n.toNat ≤ s.pendingBits.length) :
    (s.bitsDelivered n).ReadyToRead ∧ (s.bitsDelivered n).pendingBits = s.pendingBits.drop n.toNat :=
  State.afterBits_pending hr hn

theorem bitsDelivered_afterBits {s : State} (hr : s.ReadyToRead) {n : BitVec 6} {k : Nat}
    (h : n.toNat + k ≤ s.pendingBits.length) :
    (s.bitsDelivered n).afterBits k = ((s.afterBits (n.toNat + k)).setResult
      (BitVec.ofNat 32 (bitsValue (s.pendingBits.take n.toNat))) n false false).endComplete := by
  rw [State.bitsDelivered, afterBits_recorded, State.afterBits_add hr h]

/-- Two reads in a row and one read of `n + m` bits leave the same cursor. -/
theorem bitsDelivered_add {s : State} (hr : s.ReadyToRead) {n m : BitVec 6} (hsum : (n + m).toNat = n.toNat + m.toNat)
    (h : n.toNat + m.toNat ≤ s.pendingBits.length) :
    (s.bitsDelivered (n + m)).bbuf = ((s.bitsDelivered n).bitsDelivered m).bbuf ∧
      (s.bitsDelivered (n + m)).bcnt = ((s.bitsDelivered n).bitsDelivered m).bcnt ∧
      (s.bitsDelivered (n + m)).cfg = ((s.bitsDelivered n).bitsDelivered m).cfg := by
  simp only [bitsDelivered_bbuf, bitsDelivered_bcnt, bitsDelivered_cfg, hsum, bitsDelivered_afterBits hr h]
  exact ⟨rfl, rfl, rfl⟩

/-- Settles O19 (it holds): the first read leaves a cursor ready to read on, with the pending bits without the first `n`; the
second goes on to where the one longer read ends, and the values compose. -/
theorem bitComposition : Obligations.BitComposition := by
  intro s n m hr hnm hlen
  have hsum : (n + m).toNat = n.toNat + m.toNat := BitVec.toNat_add_of_lt (by omega)
  have hn : n.toNat ≤ s.pendingBits.length := Nat.le_of_add_right_le hlen
  obtain ⟨hready, hrest⟩ := bitsDelivered_pending hr hn
  have hm : m.toNat ≤ (s.bitsDelivered n).pendingBits.length := by
    rw [hrest, List.length_drop]
    omega
  obtain ⟨-, hend⟩ := bitsDelivered_pending hready hm
  obtain ⟨hbuf, hcnt, hcfg⟩ := bitsDelivered_add hr hsum hlen
  refine ⟨_, _, _, exec_brBits_enough hr hn, exec_brBits_enough hready hm, exec_brBits_enough hr (hsum ▸ hlen), ?_, hbuf,
    hcnt, hcfg, ?_⟩
  · simp only [bitsDelivered_res, hsum, hrest]
    exact bitsValue_take_add hlen
  · rw [hend, hrest, List.drop_drop]

end Sys2Proof.Machine

/-! OC.COPY (spec/42_lz.md R170, R171) and the static checks of LZ.DEC (R173): which check decides, and the forward byte loop
in closed form. -/

namespace Sys2Proof.Machine
open Sys2Proof.Claims

/-! The checks (R171, R173). -/

/-- The model's list of checks is the one R171 prints. -/
theorem firstFailure_ocCopyChecks (s : State) : firstFailure (ocCopyChecks s) = ocCopyRejects s := by
  unfold ocCopyRejects ocCopyChecks
  simp only [not_inside_iff, State.insideCheck, badCfg, firstFailure_cons, firstFailure_nil, decide_eq_true_eq]
  rfl

/-- Settles O21 (it holds): the first failing check ends the command with nothing else changed. -/
theorem ocCopyChecks_decide : Obligations.OcCopyChecks := by
  intro s c info hrej
  rw [exec_eq_conclude, effectOf, checked_fail ((firstFailure_ocCopyChecks s).trans hrej)]
  rfl

/-- Settles O23 (it holds): the first row of R173 that applies ends the command with nothing else changed. -/
theorem lzStaticChecks : Obligations.LzStaticChecks := by
  intro s c info hrej
  rw [exec_eq_conclude, effectOf, checked_fail ((firstFailure_lzDecChecks s).trans hrej)]
  rfl

/-! The forward byte loop (R170). -/

/-- The offset from the source of the byte that arrives at offset `k` of the destination: with the destination above the
source the first `dst - src` source bytes repeat. -/
def overlapOffset (src dst k : Nat) : Nat := if dst ≤ src then k else k % (dst - src)

theorem overlapOffset_le (src dst k : Nat) : overlapOffset src dst k ≤ k := by
  unfold overlapOffset
  split
  · exact Nat.le_refl k
  · exact Nat.mod_le k _

/-- The offset depends on the distance of the two places only. -/
theorem overlapOffset_add (base src dst k : Nat) :
    overlapOffset (base + src) (base + dst) k = overlapOffset src dst k := by
  simp only [overlapOffset, Nat.add_le_add_iff_left, Nat.add_sub_add_left]

/-- Offsets one cycle apart take their byte from the same place. -/
theorem overlapOffset_cycle {src dst k : Nat} (hlt : src < dst) (hk : dst - src ≤ k) :
    overlapOffset src dst (k - (dst - src)) = overlapOffset src dst k := by
  rw [overlapOffset, overlapOffset, if_neg (by omega), if_neg (by omega), Nat.mod_eq_sub_mod hk]

/-- The place a byte comes from is outside the destination written before it, unless a cycle has passed. -/
theorem overlapOffset_eq_self {src dst k : Nat} (h : dst ≤ src ∨ k < dst - src) : overlapOffset src dst k = k := by
  unfold overlapOffset
  split
  · rfl
  · exact Nat.mod_eq_of_lt (by omega)

/-- MEM `m` after the first `i` bytes of the loop: they are the bytes of `s` the closed form names, every other is as in
`s`. -/
structure Overlapped (s : State) (src dst i : Nat) (m : List Host.Cell) : Prop where
  copied : ∀ k, k < i → cellRead m (dst + k) = s.byteAt (src + overlapOffset src dst k)
  kept : ∀ a, a < dst ∨ dst + i ≤ a → cellRead m a = s.byteAt a

/-- The byte the loop reads next: not yet written, or written one cycle before. -/
theorem overlapped_source {s : State} {src dst i : Nat} {m : List Host.Cell} (h : Overlapped s src dst i m) :
    cellRead m (src + i) = s.byteAt (src + overlapOffset src dst i) := by
  by_cases hcycle : src < dst ∧ dst - src ≤ i
  · obtain ⟨hlt, hle⟩ := hcycle
    have hread := h.copied (i - (dst - src)) (by omega)
    rwa [overlapOffset_cycle hlt hle, show dst + (i - (dst - src)) = src + i by omega] at hread
  · rw [overlapOffset_eq_self (by omega)]
    exact h.kept _ (by omega)

theorem overlapped_write {s : State} {src dst i : Nat} {m : List Host.Cell} {b : Byte} (h : Overlapped s src dst i m)
    (hb : s.byteAt (src + overlapOffset src dst i) = some b) :
    Overlapped s src dst (i + 1) (cellWrite m (dst + i) b) := by
  refine ⟨fun k hk => ?_, fun a ha => ?_⟩
  · rcases Nat.lt_succ_iff_lt_or_eq.1 hk with hlt | rfl
    · rw [cellRead_cellWrite_ne _ _ (by omega), h.copied k hlt]
    · rw [cellRead_cellWrite_self, hb]
  · rw [cellRead_cellWrite_ne _ _ (by omega), h.kept a (by omega)]

/-- On written bytes inside MEM the loop runs to its end, leaving the closed form (R170). -/
theorem overlapCopy_overlapped {s : State} {src dst n i : Nat} {m : List Host.Cell} (h : Overlapped s src dst i m)
    (hwritten : ∀ k, k < i + n → (s.byteAt (src + k)).isSome = true) (hsrc : src + (i + n) ≤ s.memSize)
    (hdst : dst + (i + n) ≤ s.memSize) :
    ∃ m', overlapCopy src dst n i (s.setMem m) = .ok (s.setMem m') ∧ Overlapped s src dst (i + n) m' := by
  induction n generalizing i m with
  | zero => exact ⟨m, rfl, h⟩
  | succ n ih =>
    have hle := overlapOffset_le src dst i
    obtain ⟨b, hb⟩ := Option.isSome_iff_exists.1 (hwritten (overlapOffset src dst i) (by omega))
    have hread : readMem (s.setMem m) (src + i) = .ok b :=
      readMem_ok (by rw [State.setMem_memSize]; omega) ((overlapped_source h).trans hb)
    have hwrite : writeMem (s.setMem m) (dst + i) b = .ok (s.setMem (cellWrite m (dst + i) b)) :=
      writeMem_ok (by rw [State.setMem_memSize]; omega)
    obtain ⟨m', hloop, hm'⟩ := ih (overlapped_write h hb) (fun k hk => hwritten k (by omega)) (by omega) (by omega)
    refine ⟨m', ?_, by rwa [show i + (n + 1) = i + 1 + n by omega]⟩
    simp only [overlapCopy, hread, hwrite, hloop]

/-- What the checks of OC.COPY have established once they pass (R171). -/
theorem ocCopyRejects_none {s : State} (h : ocCopyRejects s = none) :
    s.Inside .output ∧ s.csrNat OC_SRC + s.csrNat OC_LEN ≤ s.len .output ∧
      s.csrNat OC_DST + s.csrNat OC_LEN ≤ s.len .output := by
  have hc := (firstFailure_eq_none_iff _).1 ((firstFailure_ocCopyChecks s).trans h)
  simp only [ocCopyChecks, List.forall_mem_cons, insideCheck_fst, regionOutside_eq_false_iff, decide_eq_false_iff_not,
    Nat.not_lt] at hc
  obtain ⟨hin, hsrc, hdst, -⟩ := hc
  exact ⟨hin, hsrc, hdst⟩

/-- Settles O22 (it holds): the loop over the whole length, from MEM as it was. -/
theorem ocCopyRepeatsShortCycles : Obligations.OcCopyRepeatsShortCycles := by
  intro s hrej hread
  obtain ⟨hin, hsrc, hdst⟩ := ocCopyRejects_none hrej
  have hin : s.base .output + s.len .output ≤ s.memSize := hin
  have hstart : Overlapped s (s.base .output + s.csrNat OC_SRC) (s.base .output + s.csrNat OC_DST) 0 s.mem :=
    ⟨fun k hk => absurd hk (Nat.not_lt_zero k), fun _ _ => rfl⟩
  obtain ⟨m, hloop, hm⟩ := overlapCopy_overlapped (n := s.csrNat OC_LEN) hstart
    (fun k hk => by rw [Nat.add_assoc]; exact hread _ (by omega)) (by omega) (by omega)
  rw [Nat.zero_add] at hm
  refine ⟨m, ?_, fun k hk => ?_, fun a ha => hm.kept a ha⟩
  · have heffect : ocCopyEffect s = .ok ((s.setMem m).setProduced (s.csrNat OC_LEN), .complete) := by
      have hself : s.setMem s.mem = s := rfl
      rw [hself] at hloop
      rw [ocCopyEffect, hloop]
    rw [exec_eq_conclude, effectOf, checked_pass ((firstFailure_ocCopyChecks s).trans hrej), heffect]
    simp only [conclude_ok, applyEnding_complete, State.setProduced, State.csrNat, BitVec.ofNat_toNat,
      BitVec.setWidth_eq]
    rfl
  · rw [hm.copied k hk, overlapOffset_add, Nat.add_assoc]
    have hle := overlapOffset_le (s.csrNat OC_SRC) (s.csrNat OC_DST) k
    obtain ⟨b, hb⟩ := Option.isSome_iff_exists.1
      (hread (s.csrNat OC_SRC + overlapOffset (s.csrNat OC_SRC) (s.csrNat OC_DST) k) (by omega))
    rw [← apply_ite (s.csrNat OC_SRC + ·), ← overlapOffset, State.regionByte, hb]
    rfl

end Sys2Proof.Machine

/-! How LZ.DEC goes on and ends on any state its checks pass (spec/42_lz.md R174 to R179), whether or not its input can all be
read: what its bits and its puts keep holds at the exit. -/

namespace Sys2Proof.Machine
open Sys2Proof.Claims

/-- How LZ.DEC may end with `k` bytes produced in state `u` (R179): with the whole output, at the end of the input, or at a
match that ends it. -/
inductive LzExit (u : State) (k : Nat) : Ending → Prop
  | done (h : u.len .output ≤ k) : LzExit u k .complete
  | eoi (h : k < u.len .output) : LzExit u k (.truncated .tEoi (BitVec.ofNat 32 k))
  | stop {br : Word} {o l : Nat} {r : Ending} (h : k < u.len .output) (hp : planMatch br o l k u = .stop r) :
      LzExit u k r

/-- `u` stands in the course of LZ.DEC from `s` with `k` bytes produced: they fit the output, and nothing but them, the window
and the cursor has changed. -/
structure LzCourse (s u : State) (k : Nat) : Prop where
  le : k ≤ s.len .output
  frame : s.LzTo u (s.base .output) (s.base .output + k)

/-- OFFMODE is a bit of LZ_CTRL (R27). -/
theorem tableMode_congr {s t : State} (h : t.csr LZ_CTRL = s.csr LZ_CTRL) : t.tableMode = s.tableMode :=
  congrArg (BitVec.getLsbD · 5) h

section course
variable {s u t : State} {k : Nat}

theorem lzCourse_refl (s : State) : LzCourse s s 0 := ⟨Nat.zero_le _, lzTo_of_movedTo (movedTo_refl s) _ _⟩

theorem lzCourse_csr (h : LzCourse s u k) {r : Fin 34} (hr : r ≠ IN_POS) : u.csr r = s.csr r := by
  obtain ⟨-, -, -, hcsr, -⟩ := lzTo_frame h.frame
  exact hcsr r hr

theorem lzCourse_base (h : LzCourse s u k) (g : Region) : u.base g = s.base g := by
  obtain ⟨-, -, -, -, hbase, -⟩ := lzTo_frame h.frame
  exact hbase g

theorem lzCourse_len (h : LzCourse s u k) (g : Region) : u.len g = s.len g := by
  obtain ⟨-, -, -, -, -, hlen⟩ := lzTo_frame h.frame
  exact hlen g

theorem lzCourse_bit (h : LzCourse s u k) (ht : BitStep u t) : LzCourse s t k := by
  obtain ⟨b, hb⟩ := ht
  exact ⟨h.le, lzTo_trans h.frame (lzTo_of_movedTo (nextBit_bit hb) _ _)⟩

theorem lzCourse_put (h : LzCourse s u k) (hk : k < s.len .output) {b : Byte} (ht : putByte k b u = .ok t) :
    LzCourse s t (k + 1) := by
  have hput := lzTo_putByte ht
  rw [lzCourse_base h] at hput
  exact ⟨hk, lzTo_trans (lzTo_mono h.frame (Nat.le_refl _) (by omega)) (lzTo_mono hput (by omega) (Nat.le_refl _))⟩

end course

/-- A property of the byte count and the state that every delivered bit and every put keep. -/
structure LzKept (s : State) (P : Nat → State → Prop) : Prop where
  bit : ∀ {k u t}, P k u → BitStep u t → P k t
  put : ∀ {k b u t}, LzCourse s u k → P k u → putByte k b u = .ok t → P (k + 1) t

section invariant
variable {s : State} {P : Nat → State → Prop}

theorem lzKept_readToken (hP : LzKept s P) {k : Nat} {u t : State} (hc : LzCourse s u k) (hu : P k u)
    (ht : (readToken u).cursor = some t) : LzCourse s t k ∧ P k t := by
  have hreads := readsTo_readToken ht
  clear ht
  induction hreads with
  | refl => exact ⟨hc, hu⟩
  | tail _ hbit ih =>
    obtain ⟨hcv, hv⟩ := ih
    exact ⟨lzCourse_bit hcv hbit, hP.bit hv hbit⟩

theorem lzKept_copyMatch (hP : LzKept s P) {d n k : Nat} {u t : State} (hc : LzCourse s u k) (hu : P k u)
    (hn : k + n ≤ s.len .output) (ht : copyMatch d n k u = .ok t) : LzCourse s t (k + n) ∧ P (k + n) t := by
  induction n generalizing k u with
  | zero => cases ht; exact ⟨hc, hu⟩
  | succ n ih =>
    simp only [copyMatch] at ht
    split at ht
    · cases ht
    · split at ht
      · cases ht
      · rename_i hput
        rw [show k + (n + 1) = k + 1 + n by omega]
        exact ih (lzCourse_put hc (by omega) hput) (hP.put hc hu hput) (by omega) ht

/-- What the bits and the puts of LZ.DEC keep holds where its loop ends (R179). -/
theorem lzLoop_exit (hP : LzKept s P) {fuel k : Nat} {u t : State} {r : Ending} (hc : LzCourse s u k) (hu : P k u)
    (h : lzLoop fuel k u = .ok (t, r)) :
    ∃ v n, t = v.setProduced n ∧ LzCourse s v n ∧ P n v ∧ LzExit v n r := by
  induction fuel generalizing k u with
  | zero =>
    unfold lzLoop at h
    split at h
    · rename_i hge; cases h; exact ⟨u, k, rfl, hc, hu, .done hge⟩
    · rename_i hlt; cases h; exact ⟨u, k, rfl, hc, hu, .eoi (Nat.lt_of_not_le hlt)⟩
  | succ fuel ih =>
    unfold lzLoop at h
    split at h
    · rename_i hge; cases h; exact ⟨u, k, rfl, hc, hu, .done hge⟩
    · rename_i hlt
      have hlt : k < u.len .output := Nat.lt_of_not_le hlt
      have hlen := lzCourse_len hc .output
      simp only at h
      split at h
      · cases h
      · rename_i v ht
        cases h
        obtain ⟨hcv, hv⟩ := lzKept_readToken hP hc hu (t := v) (by rw [ht]; rfl)
        exact ⟨v, k, rfl, hcv, hv, .eoi (by rwa [lzCourse_len hcv, ← hlen])⟩
      · rename_i b v ht
        obtain ⟨hcv, hv⟩ := lzKept_readToken hP hc hu (t := v) (by rw [ht]; rfl)
        split at h
        · cases h
        · rename_i hput
          exact ih (lzCourse_put hcv (by omega) hput) (hP.put hcv hv hput) h
      · rename_i br o l v ht
        obtain ⟨hcv, hv⟩ := lzKept_readToken hP hc hu (t := v) (by rw [ht]; rfl)
        have hlen' := lzCourse_len hcv .output
        split at h
        · cases h
        · rename_i hplan
          cases h
          exact ⟨v, k, rfl, hcv, hv, .stop (by omega) hplan⟩
        · rename_i d n hplan
          have hn := planMatch_copy hplan (by omega)
          split at h
          · cases h
          · rename_i hcopy
            obtain ⟨hcw, hw⟩ := lzKept_copyMatch hP hcv hv (by omega) hcopy
            exact ih hcw hw h

/-- LZ.DEC past its checks: the state it leaves, with what its bits and its puts keep (R179). -/
theorem exec_lzDec_exit {t : State} (hrej : lzRejects s = none) (hP : LzKept ((lzInit s).setProduced 0) P)
    (h0 : P 0 ((lzInit s).setProduced 0)) (h : exec .lzDec s = .next t) :
    ∃ u k r, t = applyEnding r (u.setProduced k) ∧ LzCourse ((lzInit s).setProduced 0) u k ∧ P k u ∧ LzExit u k r := by
  rw [exec_eq_conclude, effectOf, checked_pass ((firstFailure_lzDecChecks s).trans hrej)] at h
  obtain ⟨v, r, hloop, rfl⟩ := conclude_eq_next h
  obtain ⟨u, k, rfl, hc, hu, hexit⟩ := lzLoop_exit hP (lzCourse_refl _) h0 hloop
  exact ⟨u, k, r, rfl, hc, hu, hexit⟩

end invariant

/-! What the command starts from reads as the state before it (R179). -/

theorem lzStart_csr (s : State) (r : Fin 34) : ((lzInit s).setProduced 0).csr r = s.csr r := by
  obtain ⟨w, c, hinit⟩ := lzInit_eq s
  rw [hinit]
  rfl

theorem lzStart_len (s : State) (g : Region) : ((lzInit s).setProduced 0).len g = s.len g :=
  congrArg BitVec.toNat (lzStart_csr s _)

theorem lzStart_base (s : State) (g : Region) : ((lzInit s).setProduced 0).base g = s.base g :=
  congrArg BitVec.toNat (lzStart_csr s _)

theorem lzStart_byteAt (s : State) (a : Nat) : ((lzInit s).setProduced 0).byteAt a = s.byteAt a := by
  obtain ⟨w, c, hinit⟩ := lzInit_eq s
  rw [hinit]
  rfl

/-! What every exit leaves (R176, R177, R179). -/

/-- PRODUCED holds the byte count whole. -/
theorem lzCourse_count {s u : State} {k : Nat} (h : LzCourse s u k) : (BitVec.ofNat 32 k).toNat = k := by
  have hle := h.le
  have hlen := s.len_lt .output
  rw [BitVec.toNat_ofNat]
  omega

/-- With UNDER = STOP a match neither underflows nor overruns to a Corrupt end (R176, R177). -/
theorem planMatch_stop_under {br : Word} {o l opos : Nat} {s : State} {c : Cause} {info : Word} (hu : s.under = 1)
    (h : planMatch br o l opos s = .stop (.corrupt c info)) : c = .eBounds ∨ c = .eLzDist := by
  unfold planMatch at h
  split at h
  · cases h
  · rename_i hd
    cases h
    unfold matchDistance at hd
    split at hd
    · split at hd
      · cases hd; exact .inl rfl
      · split at hd
        · cases hd
        · split at hd <;> cases hd
          exact .inr rfl
    · split at hd <;> cases hd
      exact .inr rfl
  · split at h
    · cases h
    · split at h
      · omega
      · split at h <;> cases h

theorem lzExit_complete {u : State} {k : Nat} (h : LzExit u k .complete) : u.len .output ≤ k := by
  cases h with
  | done h => exact h
  | stop _ hp => rcases planMatch_stop hp with h | ⟨_, h⟩ | ⟨_, h⟩ | ⟨_, h⟩ | ⟨_, h⟩ <;> cases h

theorem lzExit_truncated {u : State} {k : Nat} {c : Cause} {info : Word} (h : LzExit u k (.truncated c info)) :
    info = BitVec.ofNat 32 k ∧ k < u.len .output := by
  cases h with
  | eoi h => exact ⟨rfl, h⟩
  | stop h hp =>
    rcases planMatch_stop hp with hr | ⟨_, hr⟩ | ⟨_, hr⟩ | ⟨_, hr⟩ | ⟨_, hr⟩ <;> cases hr
    exact ⟨rfl, h⟩

theorem lzExit_corrupt {u : State} {k : Nat} {c : Cause} {info : Word} (hu : u.under = 1)
    (h : LzExit u k (.corrupt c info)) : c = .eBounds ∨ c = .eLzDist := by
  cases h with
  | stop _ hp => exact planMatch_stop_under hu hp

theorem lzExit_ne_halt {u : State} {k : Nat} (h : LzExit u k .halt) : False := by
  cases h with
  | stop _ hp => rcases planMatch_stop hp with h | ⟨_, h⟩ | ⟨_, h⟩ | ⟨_, h⟩ | ⟨_, h⟩ <;> cases h

/-- Settles O28 (it holds): the frame from the course of the loop, the rest from the way it ends. -/
theorem lzPartialOutput : Obligations.LzPartialOutput := by
  intro s t hrej hex
  obtain ⟨u, k, r, rfl, hc, -, hexit⟩ :=
    exec_lzDec_exit (P := fun _ _ => True) hrej ⟨fun _ _ => trivial, fun _ _ _ => trivial⟩ trivial hex
  have hcount := lzCourse_count hc
  have hle := hc.le
  have hlen := lzCourse_len hc .output
  rw [lzStart_len] at hle hlen
  have hunder : u.under = s.under := by
    rw [State.under, lzCourse_csr hc (by decide), lzStart_csr, State.under]
  rw [applyEnding_produced, State.setProduced_produced, hcount]
  refine ⟨hle, fun a ha => ?_, ?_⟩
  · rw [applyEnding_byteAt, State.setProduced_byteAt, lzTo_byteAt hc.frame (by rwa [lzStart_base]), lzStart_byteAt]
  cases r with
  | halt => exact (lzExit_ne_halt hexit).elim
  | complete =>
    have hge := lzExit_complete hexit
    rw [hlen] at hge
    have hall : BitVec.ofNat 32 k = s.csr OUT_LEN := BitVec.eq_of_toNat_eq (hcount.trans (Nat.le_antisymm hle hge))
    exact ⟨fun _ => hall, nofun, fun _ => nofun⟩
  | truncated c info =>
    obtain ⟨rfl, hlt⟩ := lzExit_truncated hexit
    exact ⟨nofun, fun _ => ⟨rfl, hlen ▸ hlt⟩, fun _ => nofun⟩
  | corrupt c info =>
    refine ⟨nofun, nofun, fun hstop _ => ?_⟩
    rw [applyEnding_corrupt, State.takeCorrupt_cause]
    rcases lzExit_corrupt (hunder.trans hstop) hexit with rfl | rfl <;> decide

/-! The mirror invariant (R181 (a)). -/

/-- The window after one more byte: the byte stands one place before the new cursor, every other entry one place further
back. -/
theorem cellRead_window_put {α : Type} {w : Cells α} {cap c j : Nat} (hc : c < cap) (b : α) (h1 : 1 ≤ j) (hj : j ≤ cap) :
    cellRead (cellWrite w c b) (((c + 1) % cap + cap - j) % cap) =
      if j = 1 then some b else cellRead w ((c + cap - (j - 1)) % cap) := by
  have hplace : ((c + 1) % cap + cap - j) % cap = (c + cap - (j - 1)) % cap := by
    rcases Nat.lt_or_ge (c + 1) cap with hlt | hge
    · rw [Nat.mod_eq_of_lt hlt]
      congr 1
      omega
    · obtain rfl : cap = c + 1 := by omega
      rw [Nat.mod_self, show c + (c + 1) - (j - 1) = 0 + (c + 1) - j + (c + 1) by omega, Nat.add_mod_right]
  rw [hplace, cellRead_cellWrite]
  by_cases hj1 : j = 1
  · subst hj1
    rw [if_pos rfl, if_pos (by rw [Nat.sub_self, Nat.sub_zero, Nat.add_mod_right, Nat.mod_eq_of_lt hc])]
  · have hne : (c + cap - (j - 1)) % cap ≠ c := by
      rcases Nat.lt_or_ge (c + cap - (j - 1)) cap with hlt | hge
      · rw [Nat.mod_eq_of_lt hlt]; omega
      · rw [Nat.mod_eq_sub_mod hge, Nat.mod_eq_of_lt (by omega)]; omega
    rw [if_neg hne, if_neg hj1]

/-- In DIST mode, with `k` bytes produced from `s`: the window holds the last ones (R181 (a)). -/
structure LzMirror (s : State) (k : Nat) (u : State) : Prop where
  cursor : u.wcur.toNat < s.csrNat LZ_WCAP
  recent : ∀ j, 1 ≤ j → j ≤ k → j ≤ s.csrNat LZ_WCAP →
    cellRead u.win ((u.wcur.toNat + s.csrNat LZ_WCAP - j) % s.csrNat LZ_WCAP) = u.byteAt (s.base .output + (k - j))

/-- A put in DIST mode (R178). -/
theorem putByte_dist {opos : Nat} {b : Byte} {s t : State} (hm : s.tableMode = false) (h : putByte opos b s = .ok t) :
    t = (s.setMem (cellWrite s.mem (s.base .output + opos) b)).setWindow (cellWrite s.win s.wcur.toNat b)
      ((s.wcur.toNat + 1) % s.csrNat LZ_WCAP) := by
  obtain ⟨-, ht⟩ := putByte_cases h
  rwa [hm, if_neg Bool.false_ne_true] at ht

/-- A cursor inside the window fits WCUR. -/
theorem toNat_windowCursor {s : State} (hfit : s.WindowFits) (hm : s.tableMode = false) {c : Nat}
    (hc : c < s.csrNat LZ_WCAP) : (BitVec.ofNat 17 c).toNat = c := by
  obtain ⟨-, hle⟩ := hfit hm
  have hmax : WCAP_MAX = 65536 := rfl
  rw [BitVec.toNat_ofNat]
  omega

theorem lzMirror_put {s u t : State} {k : Nat} {b : Byte} (hm : s.tableMode = false) (hfit : s.WindowFits)
    (hc : LzCourse s u k) (hu : LzMirror s k u) (h : putByte k b u = .ok t) : LzMirror s (k + 1) t := by
  have hmode : u.tableMode = false := (tableMode_congr (lzCourse_csr hc (by decide))).trans hm
  have hcap : u.csrNat LZ_WCAP = s.csrNat LZ_WCAP := congrArg BitVec.toNat (lzCourse_csr hc (by decide))
  obtain ⟨hpos, -⟩ := hfit hm
  have hlt : (u.wcur.toNat + 1) % s.csrNat LZ_WCAP < s.csrNat LZ_WCAP := Nat.mod_lt _ hpos
  have ht := putByte_dist hmode h
  rw [hcap, lzCourse_base hc] at ht
  subst ht
  have hcur := toNat_windowCursor hfit hm hlt
  refine ⟨by rwa [State.setWindow_wcur, hcur], fun j h1 hj hjcap => ?_⟩
  rw [State.setWindow_win, State.setWindow_wcur, hcur, cellRead_window_put hu.cursor b h1 hjcap,
    State.setWindow_byteAt, State.setMem_byteAt_write]
  by_cases hj1 : j = 1
  · rw [if_pos hj1, if_pos (by omega)]
  · rw [if_neg hj1, if_neg (by omega), hu.recent (j - 1) (by omega) (by omega) (by omega)]
    congr 2
    omega

theorem lzMirror_kept {s : State} (hm : s.tableMode = false) (hfit : s.WindowFits) : LzKept s (LzMirror s) where
  bit hu hbit := by
    obtain ⟨b, hb⟩ := hbit
    obtain ⟨p, x, n, rfl⟩ := nextBit_bit hb
    exact ⟨hu.cursor, hu.recent⟩
  put hc hu h := lzMirror_put hm hfit hc hu h

/-- Settles O26 (it holds): nothing is mirrored before the first byte, and every put mirrors its byte. -/
theorem lzWindowMirrorsOutput : Obligations.LzWindowMirrorsOutput := by
  intro s t hrej hm hex
  obtain ⟨-, hfit, hinit⟩ :=
    lzDecChecks_window ((firstFailure_eq_none_iff _).1 ((firstFailure_lzDecChecks s).trans hrej))
  have hm0 : ((lzInit s).setProduced 0).tableMode = false := (tableMode_congr (lzStart_csr s _)).trans hm
  have hcap0 : ((lzInit s).setProduced 0).csrNat LZ_WCAP = s.csrNat LZ_WCAP := congrArg BitVec.toNat (lzStart_csr s _)
  have hfit0 : ((lzInit s).setProduced 0).WindowFits := fun _ => by rw [hcap0]; exact hfit hm
  have hstart : LzMirror ((lzInit s).setProduced 0) 0 ((lzInit s).setProduced 0) := by
    refine ⟨?_, fun j h1 hj => absurd hj (by omega)⟩
    rw [hcap0, State.setProduced_wcur, lzInit, if_neg (by rw [hm]; exact Bool.false_ne_true), State.setWindow_wcur,
      toNat_windowCursor hfit hm (hinit hm)]
    exact hinit hm
  obtain ⟨u, k, r, rfl, hc, hu, -⟩ := exec_lzDec_exit hrej (lzMirror_kept hm0 hfit0) hstart hex
  intro j h1 hj hjcap
  have hrecent := hu.recent j h1
  rw [applyEnding_produced, State.setProduced_produced, lzCourse_count hc] at hj ⊢
  rw [hcap0, lzStart_base] at hrecent
  rw [applyEnding_win, applyEnding_wcur, applyEnding_byteAt]
  exact hrecent hj hjcap

end Sys2Proof.Machine

/-! LZ_WINIT is observable only through WCUR (spec/42_lz.md R181 (c)): two decodes that differ in it run in step, their windows
holding the same bytes at the same distances from their cursors. -/

namespace Sys2Proof.Machine
open Sys2Proof.Claims

/-! A change of state that next_bit does not see passes through read_token. -/

/-- The answer of next_bit with the cursor's state mapped. -/
def BitRead.map (f : State → State) : BitRead → BitRead
  | .bit b s => .bit b (f s)
  | .eoi => .eoi
  | .fault g => .fault g

/-- The answer of read_bits with the cursor's state mapped. -/
def BitsRead.map (f : State → State) : BitsRead → BitsRead
  | .bits v got e s => .bits v got e (f s)
  | .fault g => .fault g

/-- The answer of read_token with the cursor's state mapped. -/
def TokenRead.map (f : State → State) : TokenRead → TokenRead
  | .literal b s => .literal b (f s)
  | .copy br o l s => .copy br o l (f s)
  | .eoi s => .eoi (f s)
  | .fault g => .fault g

section reads
variable {f : State → State}

theorem readBitsFrom_map (hf : ∀ u, nextBit (f u) = (nextBit u).map f) (n : Nat) (v : Word) (got : Nat) (u : State) :
    readBitsFrom n v got (f u) = (readBitsFrom n v got u).map f := by
  induction n generalizing v got u with
  | zero => rfl
  | succ n ih =>
    simp only [readBitsFrom, hf]
    cases nextBit u with
    | bit b t => exact ih _ _ t
    | eoi => rfl
    | fault g => rfl

theorem readBits_map (hf : ∀ u, nextBit (f u) = (nextBit u).map f) (n : Nat) (u : State) :
    readBits n (f u) = (readBits n u).map f := readBitsFrom_map hf n 0 0 u

theorem readMatch_map (hf : ∀ u, nextBit (f u) = (nextBit u).map f) (br : Word) (u : State) :
    readMatch br (f u) = (readMatch br u).map f := by
  simp only [readMatch, readBits_map hf]
  cases readBits (offB br) u with
  | fault g => rfl
  | bits o got e t =>
    cases e with
    | true => rfl
    | false =>
      simp only [BitsRead.map, readBits_map hf]
      cases readBits (lenB br) t with
      | fault g => rfl
      | bits l got e t => cases e <;> rfl

theorem readLiteral_map (hf : ∀ u, nextBit (f u) = (nextBit u).map f) (u : State) :
    readLiteral (f u) = (readLiteral u).map f := by
  simp only [readLiteral, readBits_map hf]
  cases readBits 8 u with
  | fault g => rfl
  | bits v got e t => cases e <;> rfl

/-- read_token sees of a state what next_bit sees, LZ_CTRL and the two branch descriptors (R174). -/
theorem readToken_map (hf : ∀ u, nextBit (f u) = (nextBit u).map f) {u : State}
    (hctrl : (f u).csr LZ_CTRL = u.csr LZ_CTRL) (hlong : (f u).csr LZ_LONG = u.csr LZ_LONG)
    (hshort : (f u).csr LZ_SHORT = u.csr LZ_SHORT) : readToken (f u) = (readToken u).map f := by
  have hlit : (f u).litpol = u.litpol := congrArg (BitVec.getLsbD · 0) hctrl
  have htwo : (f u).twolvl = u.twolvl := congrArg (BitVec.getLsbD · 1) hctrl
  have hpol : (f u).shortpol = u.shortpol := congrArg (BitVec.getLsbD · 2) hctrl
  simp only [readToken, hlit, htwo, hpol, hlong, hshort, hf]
  cases nextBit u with
  | eoi => rfl
  | fault g => rfl
  | bit c1 t =>
    simp only [BitRead.map, hf]
    by_cases h1 : c1 = u.litpol
    · simp only [if_pos h1, readLiteral_map hf]
    · by_cases h2 : u.twolvl = true
      · simp only [if_neg h1, if_pos h2]
        cases nextBit t with
        | eoi => rfl
        | fault g => rfl
        | bit c2 t => exact readMatch_map hf _ t
      · simp only [if_neg h1, if_neg h2, readMatch_map hf]

end reads

/-! The other decode's state. -/

/-- `u` with LZ_WINIT, the window and its cursor replaced. -/
def State.twin (u : State) (v : Word) (w : Cells Byte) (c : Nat) : State := (u.setCsr LZ_WINIT v).setWindow w c

section twin
variable {u t : State} {v : Word} {w : Cells Byte} {c : Nat}

theorem twin_csr {r : Fin 34} (hr : LZ_WINIT ≠ r) : (u.twin v w c).csr r = u.csr r := State.setCsr_csr_ne u v hr

theorem twin_csrNat {r : Fin 34} (hr : LZ_WINIT ≠ r) : (u.twin v w c).csrNat r = u.csrNat r :=
  congrArg BitVec.toNat (twin_csr hr)

theorem twin_base_output : (u.twin v w c).base .output = u.base .output := twin_csrNat (by decide)
theorem twin_base_input : (u.twin v w c).base .input = u.base .input := twin_csrNat (by decide)
theorem twin_base_table : (u.twin v w c).base .table = u.base .table := twin_csrNat (by decide)
theorem twin_len_output : (u.twin v w c).len .output = u.len .output := twin_csrNat (by decide)
theorem twin_len_table : (u.twin v w c).len .table = u.len .table := twin_csrNat (by decide)

theorem twin_tableMode : (u.twin v w c).tableMode = u.tableMode := tableMode_congr (twin_csr (by decide))

theorem twin_under : (u.twin v w c).under = u.under := by rw [State.under, twin_csr (by decide), ← State.under]

theorem twin_readMem (a : Nat) : readMem (u.twin v w c) a = readMem u a := readMem_congr rfl rfl a

theorem twin_setCsr {r : Fin 34} (hr : LZ_WINIT ≠ r) (x : Word) :
    (u.twin v w c).setCsr r x = (u.setCsr r x).twin v w c := by
  have hcfg : (u.cfg.set LZ_WINIT v).set r x = (u.cfg.set r x).set LZ_WINIT v :=
    Vector.set_comm _ _ (fun h => hr (Fin.ext h))
  simp only [State.twin, State.setCsr, State.setWindow, hcfg]

/-- next_bit sees neither LZ_WINIT nor the window (R150). -/
theorem nextBit_twin (u : State) : nextBit (u.twin v w c) = (nextBit u).map (·.twin v w c) := by
  have hdeliver : ∀ (u : State) buf cnt, deliverBit (u.twin v w c) buf cnt = (deliverBit u buf cnt).map (·.twin v w c) := by
    intro u buf cnt
    have hord : (u.twin v w c).bord = u.bord := rfl
    simp only [deliverBit, hord]
    cases u.bord <;> rfl
  have hcnt : (u.twin v w c).bcnt = u.bcnt := rfl
  have hbuf : (u.twin v w c).bbuf = u.bbuf := rfl
  simp only [nextBit, hcnt, hbuf, twin_csrNat (by decide : LZ_WINIT ≠ IN_LEN),
    twin_csrNat (by decide : LZ_WINIT ≠ IN_POS), twin_csr (by decide : LZ_WINIT ≠ IN_POS), twin_base_input, twin_readMem,
    twin_setCsr (by decide : LZ_WINIT ≠ IN_POS), hdeliver]
  split
  · split
    · rfl
    · cases readMem u (u.base .input + u.csrNat IN_POS) <;> rfl
  · rfl

theorem readToken_twin : readToken (u.twin v w c) = (readToken u).map (·.twin v w c) :=
  readToken_map nextBit_twin (twin_csr (by decide)) (twin_csr (by decide)) (twin_csr (by decide))

/-- The plan of a match sees neither (R175 to R177). -/
theorem planMatch_twin (br : Word) (o l opos : Nat) :
    planMatch br o l opos (u.twin v w c) = planMatch br o l opos u := by
  have hread (a : Nat) : readMem32 (u.twin v w c) a = readMem32 u a := readMem32_congr rfl rfl a
  simp only [planMatch, matchDistance, twin_tableMode, twin_under, twin_len_output, twin_len_table, twin_base_table,
    twin_csrNat (by decide : LZ_WINIT ≠ LZ_WCAP), hread]

/-! The two windows. -/

/-- In DIST mode the window `w` with its cursor at `c` holds at every distance what the window of `u` holds there. -/
structure TwinWindow (u : State) (w : Cells Byte) (c : Nat) : Prop where
  fits : u.WindowFits
  cursors : u.tableMode = false → u.wcur.toNat < u.csrNat LZ_WCAP ∧ c < u.csrNat LZ_WCAP
  same : u.tableMode = false → ∀ j, 1 ≤ j → j ≤ u.csrNat LZ_WCAP →
    cellRead w ((c + u.csrNat LZ_WCAP - j) % u.csrNat LZ_WCAP) =
      cellRead u.win ((u.wcur.toNat + u.csrNat LZ_WCAP - j) % u.csrNat LZ_WCAP)

theorem twinWindow_movedTo (h : TwinWindow u w c) (ht : u.MovedTo t) : TwinWindow t w c := by
  obtain ⟨-, -, -, -, hcsr, -, -⟩ := movedTo_frame ht
  have hmode : t.tableMode = u.tableMode := tableMode_congr (hcsr _ (by decide))
  have hcap : t.csrNat LZ_WCAP = u.csrNat LZ_WCAP := congrArg BitVec.toNat (hcsr _ (by decide))
  have hwin : t.win = u.win ∧ t.wcur = u.wcur := by
    obtain ⟨p, b, n, rfl⟩ := ht
    exact ⟨rfl, rfl⟩
  obtain ⟨hwin, hwcur⟩ := hwin
  refine ⟨windowFits_lzTo h.fits (lzTo_of_movedTo ht 0 0), ?_, ?_⟩
  · rw [hmode, hcap, hwcur]; exact h.cursors
  · rw [hmode, hcap, hwcur, hwin]; exact h.same

theorem twin_wcur (h : TwinWindow u w c) (hm : u.tableMode = false) : (u.twin v w c).wcur.toNat = c :=
  toNat_windowCursor h.fits hm (h.cursors hm).2

/-- Both decodes take the same byte from a distance inside the window (R178). -/
theorem sourceByte_twin (h : TwinWindow u w c) {opos d : Nat} (hd : 0 < d)
    (hdist : u.tableMode = false → d ≤ u.csrNat LZ_WCAP) {b : Byte} (hb : sourceByte opos d u = .ok b) :
    sourceByte opos d (u.twin v w c) = .ok b := by
  unfold sourceByte at hb ⊢
  rw [twin_tableMode]
  cases hm : u.tableMode with
  | true =>
    rw [hm] at hb
    rwa [if_pos rfl, twin_base_output, twin_readMem] at *
  | false =>
    rw [hm, if_neg Bool.false_ne_true] at hb
    have hwin : (u.twin v w c).win = w := rfl
    rw [if_neg Bool.false_ne_true, twin_csrNat (by decide), twin_wcur h hm, hwin, h.same hm d hd (hdist hm)]
    split at hb
    · exact hb
    · cases hb

/-- Both decodes put the same byte (R178). -/
theorem putByte_twin (h : TwinWindow u w c) {opos : Nat} {b : Byte} (ht : putByte opos b u = .ok t) :
    ∃ w' c', putByte opos b (u.twin v w c) = .ok (t.twin v w' c') ∧ TwinWindow t w' c' := by
  obtain ⟨ha, heq⟩ := putByte_cases ht
  have hwrite : writeMem (u.twin v w c) ((u.twin v w c).base .output + opos) b =
      .ok ((u.twin v w c).setMem (cellWrite u.mem (u.base .output + opos) b)) := by
    rw [twin_base_output]
    exact writeMem_ok ha
  cases hm : u.tableMode with
  | true =>
    rw [hm, if_pos rfl] at heq
    refine ⟨w, c, ?_, heq ▸ h.fits, fun hd => ?_, fun hd => ?_⟩
    · simp only [putByte, hwrite, twin_tableMode, hm, if_true, heq]
      rfl
    all_goals
      rw [heq, State.setMem_tableMode, hm] at hd
      cases hd
  | false =>
    rw [hm, if_neg Bool.false_ne_true] at heq
    obtain ⟨hpos, -⟩ := h.fits hm
    obtain ⟨hcu, hc⟩ := h.cursors hm
    have hnext (x : Nat) : (x + 1) % u.csrNat LZ_WCAP < u.csrNat LZ_WCAP := Nat.mod_lt _ hpos
    have hcur := toNat_windowCursor h.fits hm (hnext u.wcur.toNat)
    refine ⟨cellWrite w c b, (c + 1) % u.csrNat LZ_WCAP, ?_, ?_⟩
    · have hwin : (u.twin v w c).win = w := rfl
      simp only [putByte, hwrite, twin_tableMode, hm, Bool.false_eq_true, if_false, hwin, twin_wcur h hm,
        twin_csrNat (by decide : LZ_WINIT ≠ LZ_WCAP), heq]
      rfl
    · subst heq
      refine ⟨h.fits, fun _ => ?_, fun _ j h1 hj => ?_⟩
      · rw [State.setWindow_wcur, hcur]
        exact ⟨hnext _, hnext _⟩
      · have hj : j ≤ u.csrNat LZ_WCAP := hj
        rw [State.setWindow_wcur, hcur, State.setWindow_win, State.setWindow_csrNat, State.setMem_csrNat,
          cellRead_window_put hcu b h1 hj, cellRead_window_put hc b h1 hj]
        split
        · rfl
        · exact h.same hm (j - 1) (by omega) (by omega)

/-- Both decodes copy the same match (R178). -/
theorem copyMatch_twin (h : TwinWindow u w c) {d n opos : Nat} (hd : 0 < d)
    (hdist : u.tableMode = false → d ≤ u.csrNat LZ_WCAP) (ht : copyMatch d n opos u = .ok t) :
    ∃ w' c', copyMatch d n opos (u.twin v w c) = .ok (t.twin v w' c') ∧ TwinWindow t w' c' := by
  induction n generalizing u w c opos with
  | zero => cases ht; exact ⟨w, c, rfl, h⟩
  | succ n ih =>
    simp only [copyMatch] at ht
    split at ht
    · cases ht
    · rename_i b hb
      split at ht
      · cases ht
      · rename_i x hx
        obtain ⟨w1, c1, hput, h1⟩ := putByte_twin (v := v) h hx
        obtain ⟨-, -, -, hcsr, -⟩ := lzTo_frame (lzTo_putByte hx)
        have hmode : x.tableMode = u.tableMode := tableMode_congr (hcsr _ (by decide))
        have hcap : x.csrNat LZ_WCAP = u.csrNat LZ_WCAP := congrArg BitVec.toNat (hcsr _ (by decide))
        obtain ⟨w2, c2, hcopy, h2⟩ := ih h1 (by rw [hmode, hcap]; exact hdist) ht
        refine ⟨w2, c2, ?_, h2⟩
        simp only [copyMatch, sourceByte_twin h hd hdist hb, hput, hcopy]

/-- Both decodes end alike (R179). -/
theorem lzLoop_twin (h : TwinWindow u w c) {fuel opos : Nat} {r : Ending} (ht : lzLoop fuel opos u = .ok (t, r)) :
    ∃ w' c', lzLoop fuel opos (u.twin v w c) = .ok (t.twin v w' c', r) := by
  induction fuel generalizing u w c opos with
  | zero =>
    unfold lzLoop at ht
    split at ht
    · rename_i hge
      cases ht
      exact ⟨w, c, lzLoop_done (by rwa [twin_len_output])⟩
    · rename_i hlt
      cases ht
      exact ⟨w, c, lzLoop_zero (by rw [twin_len_output]; omega)⟩
  | succ fuel ih =>
    unfold lzLoop at ht
    split at ht
    · rename_i hge
      cases ht
      exact ⟨w, c, lzLoop_done (by rwa [twin_len_output])⟩
    · rename_i hlt
      have hlt : opos < (u.twin v w c).len .output := by rw [twin_len_output]; omega
      have hread := readToken_twin (u := u) (v := v) (w := w) (c := c)
      simp only at ht
      split at ht
      · cases ht
      · rename_i x hx
        cases ht
        rw [hx] at hread
        exact ⟨w, c, lzLoop_eoi hlt hread⟩
      · rename_i b x hx
        rw [hx] at hread
        split at ht
        · cases ht
        · rename_i y hy
          have hmoved : u.MovedTo x := movedTo_of_readsTo (readsTo_readToken (by rw [hx]; rfl))
          obtain ⟨w1, c1, hput, h1⟩ := putByte_twin (v := v) (twinWindow_movedTo h hmoved) hy
          obtain ⟨w2, c2, hloop⟩ := ih h1 ht
          exact ⟨w2, c2, (lzLoop_literal hlt hread hput).trans hloop⟩
      · rename_i br o l x hx
        rw [hx] at hread
        split at ht
        · cases ht
        · rename_i r' hplan
          cases ht
          exact ⟨w, c, lzLoop_stop hlt hread ((planMatch_twin br o l opos).trans hplan)⟩
        · rename_i d n hplan
          obtain ⟨hd, hdist, -⟩ := planMatch_copy_distance hplan
          split at ht
          · cases ht
          · rename_i y hy
            have hmoved : u.MovedTo x := movedTo_of_readsTo (readsTo_readToken (by rw [hx]; rfl))
            obtain ⟨w1, c1, hcopy, h1⟩ := copyMatch_twin (v := v) (twinWindow_movedTo h hmoved) hd hdist hy
            obtain ⟨w2, c2, hloop⟩ := ih h1 ht
            exact ⟨w2, c2, (lzLoop_copy hlt hread ((planMatch_twin br o l opos).trans hplan) hcopy).trans hloop⟩

end twin

/-- What LZ.DEC starts from with another LZ_WINIT: the same window of fill bytes around another cursor (R179). -/
theorem lzStart_twin {s : State} {v : Word} (hrej : lzRejects s = none)
    (hrej' : lzRejects (s.setCsr LZ_WINIT v) = none) :
    ∃ w c, (lzInit (s.setCsr LZ_WINIT v)).setProduced 0 = ((lzInit s).setProduced 0).twin v w c ∧
      TwinWindow ((lzInit s).setProduced 0) w c := by
  obtain ⟨-, hfit, hinit⟩ :=
    lzDecChecks_window ((firstFailure_eq_none_iff _).1 ((firstFailure_lzDecChecks s).trans hrej))
  obtain ⟨-, -, hinit'⟩ :=
    lzDecChecks_window ((firstFailure_eq_none_iff _).1 ((firstFailure_lzDecChecks _).trans hrej'))
  have hmode : (s.setCsr LZ_WINIT v).tableMode = s.tableMode := tableMode_congr (State.setCsr_csr_ne s v (by decide))
  have hcap : (s.setCsr LZ_WINIT v).csrNat LZ_WCAP = s.csrNat LZ_WCAP := State.setCsr_csrNat_ne s v (by decide)
  have hfill : (s.setCsr LZ_WINIT v).csr LZ_WFILL = s.csr LZ_WFILL := State.setCsr_csr_ne s v (by decide)
  cases hm : s.tableMode with
  | true =>
    have hstart : lzInit s = s.setWindow s.win 0 := by rw [lzInit, if_pos hm]
    rw [hstart]
    refine ⟨s.win, 0, ?_, hfit, fun hd => ?_, fun hd => ?_⟩
    · rw [lzInit, if_pos (hmode.trans hm)]
      rfl
    all_goals
      rw [State.setProduced_tableMode, State.setWindow_tableMode, hm] at hd
      cases hd
  | false =>
    have hnot : ¬ s.tableMode = true := by rw [hm]; exact Bool.false_ne_true
    have hlt := hinit hm
    have hlt' := hinit' (hmode.trans hm)
    rw [hcap] at hlt'
    obtain ⟨hpos, -⟩ := hfit hm
    have hstart : lzInit s = s.setWindow (cellFill s.win (s.csrNat LZ_WCAP) s.lzFill) (s.csrNat LZ_WINIT) := by
      rw [lzInit, if_neg hnot]
      rfl
    have hcur := toNat_windowCursor hfit hm hlt
    rw [hstart]
    refine ⟨cellFill s.win (s.csrNat LZ_WCAP) s.lzFill, (s.setCsr LZ_WINIT v).csrNat LZ_WINIT, ?_, hfit, fun _ => ?_,
      fun _ j _ _ => ?_⟩
    · rw [lzInit, if_neg (by rwa [hmode]), hcap, hfill]
      rfl
    · rw [State.setProduced_wcur, State.setWindow_wcur, hcur]
      exact ⟨hlt, hlt'⟩
    · rw [State.setProduced_win, State.setWindow_win, State.setProduced_csrNat, State.setWindow_csrNat,
        cellRead_cellFill, cellRead_cellFill, if_pos (Nat.mod_lt _ hpos), if_pos (Nat.mod_lt _ hpos)]

/-- Settles O27 (it holds): the two decodes run in step, so the other one ends in the twin of the first one's state. -/
theorem lzWinitUnobservable : Obligations.LzWinitUnobservable := by
  intro s t v hrej hrej' hex
  rw [exec_eq_conclude, effectOf, checked_pass ((firstFailure_lzDecChecks s).trans hrej)] at hex
  obtain ⟨x, r, hloop, rfl⟩ := conclude_eq_next hex
  obtain ⟨w, c, hstart, hwin⟩ := lzStart_twin hrej hrej'
  obtain ⟨w', c', hloop'⟩ := lzLoop_twin (v := v) hwin hloop
  have hbits : (s.setCsr LZ_WINIT v).bitsLeft = s.bitsLeft := by
    simp only [State.bitsLeft, State.setCsr_bcnt, State.setCsr_csrNat_ne s v (by decide : LZ_WINIT ≠ IN_LEN),
      State.setCsr_csrNat_ne s v (by decide : LZ_WINIT ≠ IN_POS)]
  refine ⟨applyEnding r (x.twin v w' c'), ?_, fun a => ?_, ?_⟩
  · rw [exec_eq_conclude, effectOf, checked_pass ((firstFailure_lzDecChecks _).trans hrej'), hbits, hstart, hloop',
      conclude_ok]
  · rw [applyEnding_byteAt, applyEnding_byteAt]
    rfl
  · rw [applyEnding_csr, applyEnding_csr, twin_csr (by decide)]
    cases r <;> exact ⟨rfl, rfl, rfl, rfl, rfl, rfl, rfl, rfl⟩

end Sys2Proof.Machine

/-! A stream of literals decodes to its bytes (spec/42_lz.md R174, R179): in DIST mode on the simulation of the list decoder, in
TABLE mode whatever the table holds, since no literal looks at it. -/

namespace Sys2Proof.Machine
open Sys2Proof.Claims

/-! The tokens. -/

/-- Eight bits, the most significant first, have the value of their byte (R151). -/
theorem ofNat_bitsValue_byteBits : ∀ b : Byte, BitVec.ofNat 8 (bitsValue (byteBits .msb b)) = b := by decide

theorem literalBits_cons (s : State) (b : Byte) (bytes : List Byte) (rest : List Bool) :
    literalBits s (b :: bytes) ++ rest = s.litpol :: (byteBits .msb b ++ (literalBits s bytes ++ rest)) := by
  simp only [literalBits, List.flatMap_cons, List.cons_append, List.append_assoc]

/-- The first token of a stream of literals (R174). -/
theorem refToken_literalBits (s : State) (b : Byte) (bytes : List Byte) (rest : List Bool) :
    refToken s (literalBits s (b :: bytes) ++ rest) = some (.literal b, literalBits s bytes ++ rest) := by
  have hlen : (byteBits .msb b).length = 8 := byteBits_length .msb b
  have hfield : refField 8 (byteBits .msb b ++ (literalBits s bytes ++ rest)) =
      some (bitsValue (byteBits .msb b), literalBits s bytes ++ rest) := by
    rw [refField, if_pos (by rw [List.length_append]; omega), List.take_left' hlen, List.drop_left' hlen]
  rw [literalBits_cons]
  simp only [refToken, if_pos, hfield, ofNat_bitsValue_byteBits]

/-! Producing the bytes. -/

/-- What LZ.DEC has established once its checks pass on readable input, whatever its table holds. -/
structure LzReadable (s : State) : Prop where
  ready : s.ReadyToRead
  outInside : s.Inside .output
  outInput : s.Disjoint .output .input
  dist : s.tableMode = false → LzReady s

theorem lzReadable_of_checks {s : State} (hr : s.ReadyToRead) (hc : ∀ c ∈ lzDecChecks s, c.1 = false) :
    LzReadable s := by
  have hdist (hm : s.tableMode = false) : LzReady s := lzReady_of_checks hr (fun ht => by rw [hm] at ht; cases ht) hc
  simp only [lzDecChecks, List.forall_mem_cons, insideCheck_fst, disjointCheck_fst, regionOutside_eq_false_iff] at hc
  obtain ⟨-, -, -, -, -, -, -, -, -, -, hout, -, hin, -⟩ := hc
  exact ⟨hr, hout, hin, hdist⟩

section literals
variable {s : State} {m : List Host.Cell} {w : Cells Byte} {c : Nat} {out : List Byte}

/-- In TABLE mode nothing is asked of the window but that it is kept (R178, R179). -/
theorem lzSim_of_table (hm : s.tableMode = true) (hle : out.length ≤ s.len .output)
    (hbytes : ∀ k, k < out.length → cellRead m (s.base .output + k) = out[k]?)
    (houtside : ∀ a, s.OutsideOut out.length a → cellRead m a = s.byteAt a) : LzSim s m s.win 0 out :=
  ⟨hle, by rw [if_pos hm], fun _ => rfl, fun hd => (Bool.eq_false_iff.1 hd hm).elim,
    fun hd => (Bool.eq_false_iff.1 hd hm).elim, hbytes, houtside⟩

theorem lzSim_start (hs : LzReadable s) : ∃ w c, lzInit s = s.setWindow w c ∧ LzSim s s.mem w c [] := by
  cases hm : s.tableMode with
  | true =>
    exact ⟨s.win, 0, by rw [lzInit, if_pos hm],
      lzSim_of_table hm (Nat.zero_le _) (fun k hk => absurd hk (Nat.not_lt_zero k)) fun _ _ => rfl⟩
  | false => exact lzSim_init (hs.dist hm)

/-- put appends a byte to the output, whatever the table holds (R178). -/
theorem putByte_appends (hs : LzReadable s) (hsim : LzSim s m w c out) (hlt : out.length < s.len .output) (j : Nat)
    (b : Byte) : ∃ m' w' c', putByte out.length b (s.lzAt j m w c) = .ok (s.lzAt j m' w' c') ∧
      LzSim s m' w' c' (out ++ [b]) := by
  cases hm : s.tableMode with
  | true =>
    have hin : s.base .output + s.len .output ≤ s.memSize := hs.outInside
    have hw : w = s.win := hsim.kept hm
    have hc : c = 0 := by rw [hsim.cursor, if_pos hm]
    refine ⟨cellWrite m (s.base .output + out.length) b, w, c, ?_, ?_⟩
    · rw [putByte, lzAt_base, writeMem_ok (by rw [lzAt_memSize]; omega), lzAt_mem]
      simp only [lzAt_tableMode, hm, if_true, lzAt_setMem]
    · rw [hw, hc]
      exact lzSim_of_table hm (by simpa using hlt) (fun _ => bytes_put hsim b) fun _ => outside_put hsim b
  | false => exact putByte_lzSim (hs.dist hm) hsim hlt j b

/-- The loop over literal tokens that fill the output (R179): nine bits and one byte each, then Complete. -/
theorem lzLoop_literals (hs : LzReadable s) {bytes : List Byte} {rest : List Bool} {fuel j : Nat}
    (hsim : LzSim s m w c out) (hj : j ≤ s.pendingBits.length)
    (hbits : s.pendingBits.drop j = literalBits s bytes ++ rest) (hlen : out.length + bytes.length = s.len .output)
    (hfuel : bytes.length ≤ fuel) :
    ∃ m' w' c', lzLoop fuel out.length (s.lzAt j m w c) =
        .ok ((s.lzAt (j + 9 * bytes.length) m' w' c').setProduced (s.len .output), .complete) ∧
      LzSim s m' w' c' (out ++ bytes) := by
  induction bytes generalizing fuel j m w c out with
  | nil =>
    have hlen : out.length = s.len .output := hlen
    refine ⟨m, w, c, ?_, by rwa [List.append_nil]⟩
    rw [lzLoop_done (by rw [lzAt_len, hlen]), hlen]
    rfl
  | cons b bytes ih =>
    rw [List.length_cons] at hlen hfuel
    obtain ⟨fuel, rfl⟩ : ∃ n, fuel = n + 1 := ⟨fuel - 1, by omega⟩
    have hkeep := keepsRegion_of_lzSim hsim hs.outInput
    have hread := readToken_lzAt_some (w := w) (c := c) hs.ready hkeep hj (hbits ▸ refToken_literalBits s b bytes rest)
    have hcount := congrArg List.length hbits
    simp only [literalBits_cons, List.length_cons, List.length_append, List.length_drop, byteBits_length] at hcount
    have hnext : s.pendingBits.length - (literalBits s bytes ++ rest).length = j + 9 := by
      rw [List.length_append]; omega
    rw [hnext] at hread
    have hbits' : s.pendingBits.drop (j + 9) = literalBits s bytes ++ rest := by
      rw [← List.drop_drop, hbits, literalBits_cons, List.drop_succ_cons, List.drop_left' (byteBits_length .msb b)]
    obtain ⟨m1, w1, c1, hput, hsim1⟩ := putByte_appends hs hsim (by omega) (j + 9) b
    obtain ⟨m2, w2, c2, hloop, hsim2⟩ := ih hsim1 (by omega) hbits'
      (by rw [List.length_append, List.length_singleton]; omega) (Nat.le_of_succ_le_succ hfuel)
    rw [List.length_append, List.length_singleton] at hloop
    rw [List.append_assoc, List.singleton_append] at hsim2
    refine ⟨m2, w2, c2, ?_, hsim2⟩
    rw [lzLoop_literal (by rw [lzAt_len]; omega) hread hput, hloop, List.length_cons,
      show j + 9 + 9 * bytes.length = j + 9 * (bytes.length + 1) by omega]

end literals

theorem literalBits_length (s : State) (bytes : List Byte) : (literalBits s bytes).length = 9 * bytes.length := by
  simp [literalBits, List.length_flatMap, Nat.mul_comm]

/-- Settles O25 (it holds): the loop from its start over the literals. -/
theorem lzLiteralsRoundTrip : Obligations.LzLiteralsRoundTrip := by
  intro s bytes rest hrej hr hbits hlen
  have hnone : firstFailure (lzDecChecks s) = none := (firstFailure_lzDecChecks s).trans hrej
  have hs := lzReadable_of_checks hr ((firstFailure_eq_none_iff _).1 hnone)
  obtain ⟨w0, c0, hinit, hsim0⟩ := lzSim_start hs
  obtain ⟨-, hcnt, -⟩ := id hr
  have hfuel : bytes.length ≤ s.bitsLeft := by
    rw [← State.pendingBits_length hcnt, hbits, List.length_append, literalBits_length]
    omega
  obtain ⟨m, w, c, hloop, hsim⟩ := lzLoop_literals hs (j := 0) hsim0 (Nat.zero_le _)
    (by rw [List.drop_zero]; exact hbits) (by rw [List.length_nil, Nat.zero_add, hlen]) hfuel
  have hstart : s.lzAt 0 s.mem w0 c0 = (lzInit s).setProduced 0 := by
    rw [hinit, State.lzAt, State.afterBits_zero, overlay_self_mem]
  have hproduced : BitVec.ofNat 32 (s.len .output) = s.csr OUT_LEN := by
    rw [State.len, State.csrNat, BitVec.ofNat_toNat, BitVec.setWidth_eq]
    rfl
  rw [hstart, State.lzAt, overlay_setProduced, hproduced, Nat.zero_add] at hloop
  refine ⟨m, w, BitVec.ofNat 17 c, ?_, hsim.bytes, hsim.outside⟩
  rw [exec_eq_conclude, effectOf, checked_pass hnone]
  exact congrArg conclude hloop

end Sys2Proof.Machine

/-! The checks of the Huffman commands (spec/43_huffman.md R202, R205, R206) as the rules print them. -/

namespace Sys2Proof.Machine
open Sys2Proof.Claims

theorem badAlphabet_iff (s : State) : s.badAlphabet = true ↔ s.csrNat HUF_N = 0 ∨ 256 < s.csrNat HUF_N := by
  have hmax : HSYM_MAX = 256 := rfl
  simp only [State.badAlphabet, Bool.or_eq_true, decide_eq_true_eq, hmax]

/-- The model's list of checks of HUF.BLDW is the one R202 prints. -/
theorem firstFailure_hufBldwChecks (s : State) : firstFailure (hufBldwChecks s) = buildRejects s 4 := by
  unfold buildRejects hufBldwChecks
  simp only [not_inside_iff, ← badAlphabet_iff, State.insideCheck, badCfg, firstFailure_cons, firstFailure_nil,
    decide_eq_true_eq]
  rfl

/-- The model's list of checks of HUF.BLDL is the one R205 prints. -/
theorem firstFailure_hufBldlChecks (s : State) : firstFailure (hufBldlChecks s) = buildRejects s 1 := by
  unfold buildRejects hufBldlChecks
  simp only [not_inside_iff, ← badAlphabet_iff, Nat.one_mul, State.insideCheck, badCfg, firstFailure_cons,
    firstFailure_nil, decide_eq_true_eq]
  rfl

/-- Settles O29 (it holds): the first failing check ends the builder with nothing else changed. -/
theorem treeBuilderChecks : Obligations.TreeBuilderChecks := by
  refine fun s c info => ⟨fun hrej => ?_, fun hrej => ?_⟩
  · rw [exec_eq_conclude, effectOf, checked_fail ((firstFailure_hufBldwChecks s).trans hrej)]
    rfl
  · rw [exec_eq_conclude, effectOf, checked_fail ((firstFailure_hufBldlChecks s).trans hrej)]
    rfl

/-- What the checks of a builder have established once they pass (R202, R205). -/
theorem buildRejects_none {s : State} {width : Nat} (h : buildRejects s width = none) :
    1 ≤ s.csrNat HUF_N ∧ s.csrNat HUF_N ≤ 256 ∧ s.len .table = width * s.csrNat HUF_N ∧ s.Inside .table := by
  unfold buildRejects at h
  split at h
  · cases h
  · split at h
    · cases h
    · split at h
      · cases h
      · exact ⟨by omega, by omega, by omega, by tauto⟩

/-- The model's list of checks of HUF.DEC after the tree is consumed is the one R206 prints. -/
theorem firstFailure_hufDecChecks (s : State) : firstFailure (hufDecChecks s) = hufDecRejects s := by
  unfold hufDecRejects hufDecChecks
  simp only [not_inside_iff, overlap_iff, State.insideCheck, State.disjointCheck, badCfg, firstFailure_cons,
    firstFailure_nil, decide_eq_true_eq]
  rfl

/-- The model's list of checks of HUF.DEC on the tree is the one R206 prints. -/
theorem firstFailure_hufTableChecks (s : State) : firstFailure (hufTableChecks s) = hufTreeRejects s := by
  unfold hufTreeRejects hufTableChecks
  simp only [firstFailure_cons, firstFailure_nil, decide_eq_true_eq]
  rfl

/-- With a cursor and a tree HUF.DEC goes on past its sequence check, its tree consumed (R206, R208). -/
theorem exec_hufDec_of_open {s : State} (hopen : s.bopen = true) (hvalid : s.hvalid = true) :
    exec .hufDec s = conclude (hufDecEffect s.consumeTree) := by
  have hpass : firstFailure [(!s.bopen || !s.hvalid, Cause.eBadSeq, (0 : Word))] = none := by simp [hopen, hvalid]
  rw [exec_eq_conclude, effectOf, checked_pass hpass]

/-- Settles O36 (it holds): the three groups of checks in order, each with what has been changed before it. -/
theorem hufDecChecks_decide : Obligations.HufDecChecks := by
  refine fun s => ⟨fun hseq => ?_, fun hopen hvalid c info hrej => ?_, fun hopen hvalid hpass c info hrej => ?_⟩
  · have hfail : firstFailure [(!s.bopen || !s.hvalid, Cause.eBadSeq, (0 : Word))] = some (.eBadSeq, 0) := by
      rcases hseq with h | h <;> simp [h]
    rw [exec_eq_conclude, effectOf, checked_fail hfail]
    rfl
  · have hfail : firstFailure (hufDecChecks s.consumeTree) = some (c, info) :=
      (firstFailure_hufDecChecks s.consumeTree).trans hrej
    rw [exec_hufDec_of_open hopen hvalid, hufDecEffect, checked_fail hfail]
    rfl
  · have hfirst : firstFailure (hufDecChecks s.consumeTree) = none :=
      (firstFailure_hufDecChecks s.consumeTree).trans hpass
    have hfail : firstFailure (hufTableChecks s.consumeTree) = some (c, info) :=
      (firstFailure_hufTableChecks s.consumeTree).trans hrej
    rw [exec_hufDec_of_open hopen hvalid, hufDecEffect, checked_pass hfirst, checked_fail hfail]
    rfl

end Sys2Proof.Machine

/-! The weight table (spec/43_huffman.md R201) and the live nodes HUF.BLDW starts from (R202). -/

namespace Sys2Proof.Machine
open Sys2Proof.Claims

/-! Reading the table. -/

/-- The weights of the table, in symbol order (R201). -/
def State.tableWeights (s : State) : List Nat := (List.range (s.csrNat HUF_N)).map (weight s)

theorem tableWeights_length (s : State) : s.tableWeights.length = s.csrNat HUF_N := by simp [State.tableWeights]

theorem regionByte_of_readMem {s : State} {g : Region} {k : Nat} {b : Byte} (h : readMem s (s.base g + k) = .ok b) :
    s.regionByte g k = b := by
  obtain ⟨-, hb⟩ := (readMem_eq_ok_iff _ _ _).1 h
  rw [State.regionByte, hb, Option.getD_some]

theorem tableEntry_of_readMem32 {s : State} {i : Nat} {w : Word} (h : readMem32 s (s.base .table + 4 * i) = .ok w) :
    s.tableEntry i = w := by
  obtain ⟨b0, b1, b2, b3, h0, h1, h2, h3, rfl⟩ := (readMem32_eq_ok_iff _ _ _).1 h
  rw [State.tableEntry, regionByte_of_readMem h0, regionByte_of_readMem h1, regionByte_of_readMem h2,
    regionByte_of_readMem h3]

theorem range_succ_map_add {α : Type} (f : Nat → α) (n i : Nat) :
    (List.range (n + 1)).map (fun k => f (i + k)) = f i :: (List.range n).map (fun k => f (i + 1 + k)) := by
  rw [List.range_succ_eq_map, List.map_cons, List.map_map, Nat.add_zero]
  refine congrArg _ (List.map_congr_left fun k _ => ?_)
  rw [Function.comp_apply, Nat.succ_eq_add_one, Nat.add_assoc, Nat.add_comm k 1]

/-- What readWeights has read, wherever it succeeds: the table's entries (R201). -/
theorem readWeights_ok {s : State} {n i : Nat} {ws : List Nat} (h : readWeights s n i = .ok ws) :
    ws = (List.range n).map (fun k => weight s (i + k)) := by
  induction n generalizing i ws with
  | zero => cases h; rfl
  | succ n ih =>
    simp only [readWeights] at h
    split at h
    · cases h
    · rename_i w hw
      split at h
      · cases h
      · rename_i ws' hrest
        cases h
        rw [range_succ_map_add, ih hrest, weight, tableEntry_of_readMem32 hw]

/-- `u` with the tree under construction in its registers and node RAM. -/
def State.withTree (u : State) (t : TreeBuild) : State := u.setTree t.root t.next t.hc0 t.hc1

/-- The registers as HUF.BLDW begins the tree of its table (R202). -/
def State.begunFromWeights (s : State) : State := s.beginTree .weights (s.csrNat HUF_N) s.tableWeights.sum

/-- What HUF.BLDW leaves before its outcome is applied (R202). -/
def State.builtFromWeights (s : State) : State :=
  s.begunFromWeights.withTree (weightTree s.tableWeights s.hc0 s.hc1)

/-- On a readable table that passes the checks HUF.BLDW completes with the tree of the table's weights (R202). -/
theorem exec_hufBldw_of_readable {s : State} (hrej : buildRejects s 4 = none) (hread : s.Readable .table) :
    exec .hufBldw s = .next (completed s.builtFromWeights) := by
  obtain ⟨-, -, hlen, hin⟩ := buildRejects_none hrej
  have hweights : readWeights s (s.csrNat HUF_N) 0 = .ok s.tableWeights := by
    rw [readWeights_ready hin hread _ _ (by omega)]
    simp only [Nat.zero_add]
    rfl
  rw [exec_eq_conclude, effectOf, checked_pass ((firstFailure_hufBldwChecks s).trans hrej), hufBldwEffect, hweights]
  rfl

/-- A completed HUF.BLDW has passed its checks and left the tree of the table's weights (R202). -/
theorem hufBldw_complete {s t : State} (h : exec .hufBldw s = .next t) (hl : t.last = .complete) :
    buildRejects s 4 = none ∧ t = completed s.builtFromWeights := by
  have h : conclude (checked (hufBldwChecks s) s (hufBldwEffect s)) = .next t := h
  rcases checked_cases (hufBldwChecks s) s (hufBldwEffect s) with ⟨c, info, -, hc⟩ | ⟨hpass, hc⟩
  · rw [hc] at h
    cases h
    cases hl
  · refine ⟨(firstFailure_hufBldwChecks s).symm.trans hpass, ?_⟩
    rw [hc, hufBldwEffect] at h
    split at h
    · cases h
    · rename_i ws hws
      have hws := readWeights_ok hws
      simp only [Nat.zero_add] at hws
      subst hws
      cases h
      rfl

/-! The live leaves. -/

theorem zipIdx_map_range {α : Type} (f : Nat → α) (n : Nat) :
    ((List.range n).map f).zipIdx = (List.range n).map (fun i => (f i, i)) :=
  List.ext_getElem (by simp) (by simp)

/-- The live leaves are the symbols of nonzero weight, each with its weight (R202). -/
theorem liveLeaves_map_range (f : Nat → Nat) (n : Nat) : liveLeaves ((List.range n).map f) =
    ((List.range n).filter (fun i => decide (f i ≠ 0))).map (fun i => (f i, i)) := by
  rw [liveLeaves, zipIdx_map_range, List.filter_map]
  rfl

theorem liveLeaves_length (s : State) : (liveLeaves s.tableWeights).length = usedSymbols s (weight s) := by
  rw [State.tableWeights, liveLeaves_map_range, List.length_map, usedSymbols]

theorem mem_liveLeaves_iff (s : State) (x : LiveNode) :
    x ∈ liveLeaves s.tableWeights ↔ x.2 < s.csrNat HUF_N ∧ weight s x.2 ≠ 0 ∧ x.1 = weight s x.2 := by
  obtain ⟨w, i⟩ := x
  simp only [State.tableWeights, liveLeaves_map_range, List.mem_map, List.mem_filter, List.mem_range,
    decide_eq_true_eq, Prod.mk.injEq]
  constructor
  · rintro ⟨j, ⟨hj, hne⟩, hw, rfl⟩
    exact ⟨hj, hne, hw.symm⟩
  · rintro ⟨hi, hne, hw⟩
    exact ⟨i, ⟨hi, hne⟩, hw.symm, rfl⟩

theorem liveLeaves_nodup (s : State) : ((liveLeaves s.tableWeights).map Prod.snd).Nodup := by
  rw [State.tableWeights, liveLeaves_map_range, List.map_map]
  exact (List.nodup_range.filter _).map (fun _ _ h => h)

/-- Entries that are 0 do not add to a sum. -/
theorem sum_map_filter_ne_zero {α : Type} (f : α → Nat) (l : List α) :
    ((l.filter (fun i => decide (f i ≠ 0))).map f).sum = (l.map f).sum := by
  induction l with
  | nil => rfl
  | cons a l ih =>
    by_cases h : f a = 0
    · rw [List.filter_cons_of_neg (by simpa using h), ih, List.map_cons, List.sum_cons, h, Nat.zero_add]
    · rw [List.filter_cons_of_pos (by simpa using h), List.map_cons, List.sum_cons, ih, List.map_cons, List.sum_cons]

theorem liveLeaves_sum (s : State) : ((liveLeaves s.tableWeights).map Prod.fst).sum = s.tableWeights.sum := by
  rw [State.tableWeights, liveLeaves_map_range, List.map_map]
  exact sum_map_filter_ne_zero _ _

theorem usedSymbols_le (s : State) (entry : Nat → Nat) : usedSymbols s entry ≤ s.csrNat HUF_N := by
  rw [usedSymbols]
  exact (List.length_filter_le _ _).trans_eq List.length_range

end Sys2Proof.Machine

/-! The merge loop of HUF.BLDW (spec/43_huffman.md R202) as an invariant: the nodes made so far, and the live ones. -/

namespace Sys2Proof.Machine
open Sys2Proof.Claims

/-! One round. -/

/-- What a round of the loop selects: the two lightest live nodes, and the others (R202). -/
theorem takeLightest_twice {live rest rest' : List LiveNode} {a b : LiveNode}
    (ha : takeLightest live = some (a, rest)) (hb : takeLightest rest = some (b, rest')) :
    live.Perm (a :: b :: rest') ∧ (∀ x ∈ live, LighterEq a x) ∧ ∀ x ∈ b :: rest', LighterEq b x := by
  obtain ⟨hmema, hlea, rfl⟩ := takeLightest_spec ha
  obtain ⟨hmemb, hleb, rfl⟩ := takeLightest_spec hb
  have hperm := List.perm_cons_erase hmemb
  exact ⟨(List.perm_cons_erase hmema).trans (hperm.cons a), hlea, fun x hx => hleb x (hperm.mem_iff.2 hx)⟩

/-- What every round keeps holds when the loop ends, and then at most one node is live. -/
theorem mergeLoop_induction {P : List LiveNode → TreeBuild → Prop}
    (step : ∀ live t a rest b rest', takeLightest live = some (a, rest) → takeLightest rest = some (b, rest') →
      P live t → P (rest' ++ [(a.1 + b.1, t.next)]) (t.merge a b))
    {fuel : Nat} {live : List LiveNode} {t : TreeBuild} (hfuel : live.length ≤ fuel) (h : P live t) :
    ∃ live', live'.length ≤ 1 ∧ P live' (mergeLoop fuel live t) := by
  induction fuel generalizing live t with
  | zero => exact ⟨live, by omega, h⟩
  | succ fuel ih =>
    rw [mergeLoop]
    split
    · rename_i hnone
      cases live with
      | nil => exact ⟨[], by simp, h⟩
      | cons x xs => cases hnone
    · rename_i a rest ha
      split
      · rename_i hnone
        obtain ⟨hmem, -, rfl⟩ := takeLightest_spec ha
        have hlen := List.length_erase_add_one hmem
        cases hrest : live.erase a with
        | nil => rw [hrest] at hlen; exact ⟨live, by simp at hlen; omega, h⟩
        | cons y ys => rw [hrest] at hnone; cases hnone
      · rename_i b rest' hb
        obtain ⟨hperm, -⟩ := takeLightest_twice ha hb
        have hlen := hperm.length_eq
        simp only [List.length_cons] at hlen
        exact ih (by simp; omega) (step _ _ _ _ _ _ ha hb h)

/-! A tree under construction as a state. -/

theorem withTree_child_merge (u : State) (t : TreeBuild) (a b : LiveNode) (c : Bool) (n : Nat) :
    (u.withTree (t.merge a b)).child c n =
      if n = t.next then some (BitVec.ofNat 9 (if c then a.2 else b.2)) else (u.withTree t).child c n := by
  cases c
  · exact cellRead_cellWrite t.hc0 t.next n _
  · exact cellRead_cellWrite t.hc1 t.next n _

theorem node_ofNat_inj {i j : Nat} (hi : i < 512) (hj : j < 512) (h : BitVec.ofNat 9 i = BitVec.ofNat 9 j) : i = j := by
  have := congrArg BitVec.toNat h
  simp only [BitVec.toNat_ofNat] at this
  omega

/-- Internal node `n` of `t` is the merge R202 describes: the two lightest nodes live when it was made, the lightest as
child 1. -/
def State.MergesLightest (t : State) (W : Nat → Nat) (n : Nat) : Prop :=
  ∃ a b, t.child true n = some (BitVec.ofNat 9 a) ∧ t.child false n = some (BitVec.ofNat 9 b) ∧ a ≠ b ∧
    t.liveAt W n a ∧ t.liveAt W n b ∧ W n = W a + W b ∧
    (∀ j, t.liveAt W n j → W a < W j ∨ (W a = W j ∧ a ≤ j)) ∧
    (∀ j, t.liveAt W n j → j ≠ a → W b < W j ∨ (W b = W j ∧ b ≤ j))

theorem liveAt_lt {t : State} {W : Nat → Nat} {n j : Nat} (h : t.liveAt W n j) : j < n := by
  obtain ⟨hlt, -⟩ := h
  exact hlt

theorem liveAt_weight {t : State} {W : Nat → Nat} {n j : Nat} (h : t.liveAt W n j) : W j ≠ 0 := by
  obtain ⟨-, hne, -⟩ := h
  exact hne

/-- Two trees, each with weights, are the same below node `n`. -/
structure SameBelow (n : Nat) (t t' : State) (W W' : Nat → Nat) : Prop where
  hnsym : t'.hnsym = t.hnsym
  weights : ∀ j, j < n → W' j = W j
  children : ∀ p, p < n → ∀ c, t'.child c p = t.child c p

/-- Which nodes are live when node `n` is made depends on the nodes below it only. -/
theorem SameBelow.liveAt_iff {m n : Nat} {t t' : State} {W W' : Nat → Nat} (h : SameBelow m t t' W W') (hn : n ≤ m)
    (j : Nat) : t'.liveAt W' n j ↔ t.liveAt W n j := by
  unfold State.liveAt
  rw [h.hnsym]
  refine and_congr_right fun hj => and_congr (by rw [h.weights j (by omega)]) (forall_congr' fun p => ?_)
  refine forall₂_congr fun _ hpn => forall_congr' fun c => ?_
  rw [h.children p (by omega)]

theorem SameBelow.mergesLightest {m n : Nat} {t t' : State} {W W' : Nat → Nat} (h : SameBelow m t t' W W') (hn : n < m)
    (hm : t.MergesLightest W n) : t'.MergesLightest W' n := by
  obtain ⟨a, b, hc1, hc0, hab, hla, hlb, hsum, hlea, hleb⟩ := hm
  have hlive := h.liveAt_iff (Nat.le_of_lt hn)
  have hw : ∀ j, t.liveAt W n j → W' j = W j := fun j hj => h.weights j (Nat.lt_trans (liveAt_lt hj) hn)
  refine ⟨a, b, by rwa [h.children n hn], by rwa [h.children n hn], hab, (hlive a).2 hla, (hlive b).2 hlb, ?_,
    fun j hj => ?_, fun j hj hja => ?_⟩
  · rw [h.weights n hn, hw a hla, hw b hlb, hsum]
  · rw [hw a hla, hw j ((hlive j).1 hj)]
    exact hlea j ((hlive j).1 hj)
  · rw [hw b hlb, hw j ((hlive j).1 hj)]
    exact hleb j ((hlive j).1 hj) hja

/-! The invariant. -/

/-- HROOT of a build with these live leaves before its first merge (R202). -/
def leafRoot : List LiveNode → Word
  | [x] => BitVec.ofNat 32 x.2
  | _ => NIL

/-- The loop of R202 in its course, with `live` its live nodes: `t` is the tree so far of the build that starts from
`u`, `W` weighs its nodes. -/
structure Merging (u : State) (W : Nat → Nat) (live : List LiveNode) (t : TreeBuild) : Prop where
  first : u.hnsym.toNat ≤ t.next
  room : t.next + live.length ≤ 512
  weighed : ∀ x ∈ live, x.1 = W x.2
  nodup : (live.map Prod.snd).Nodup
  live_iff : ∀ j, j ∈ live.map Prod.snd ↔ (u.withTree t).liveAt W t.next j
  leaves : ∀ i, i < u.hnsym.toNat → W i = weight u i
  total : (live.map Prod.fst).sum = u.tableWeights.sum
  root : live.length ≤ 1 → t.root = leafRoot live
  newest : u.hnsym.toNat < t.next → t.root = BitVec.ofNat 32 (t.next - 1)
  merged : ∀ n, u.hnsym.toNat ≤ n → n < t.next → (u.withTree t).MergesLightest W n
  kept : ∀ n, n < u.hnsym.toNat ∨ t.next ≤ n → cellRead t.hc0 n = cellRead u.hc0 n ∧ cellRead t.hc1 n = cellRead u.hc1 n

section round
variable {u : State} {W : Nat → Nat} {live rest' : List LiveNode} {t : TreeBuild} {a b : LiveNode}

/-- The children of a node made so far are nodes below it. -/
theorem Merging.child_lt (h : Merging u W live t) {p : Nat} (hp : u.hnsym.toNat ≤ p) (hpn : p < t.next) (c : Bool) :
    ∃ j, j < p ∧ (u.withTree t).child c p = some (BitVec.ofNat 9 j) := by
  obtain ⟨a, b, hc1, hc0, -, hla, hlb, -⟩ := h.merged p hp hpn
  cases c
  · exact ⟨b, liveAt_lt hlb, hc0⟩
  · exact ⟨a, liveAt_lt hla, hc1⟩

/-- The weights once the node next in number has been made. -/
def weighMerge (W : Nat → Nat) (t : TreeBuild) (a b : LiveNode) : Nat → Nat := Function.update W t.next (a.1 + b.1)

theorem weighMerge_next (W : Nat → Nat) (t : TreeBuild) (a b : LiveNode) : weighMerge W t a b t.next = a.1 + b.1 :=
  Function.update_self _ _ _

theorem weighMerge_of_lt (W : Nat → Nat) {t : TreeBuild} (a b : LiveNode) {j : Nat} (hj : j < t.next) :
    weighMerge W t a b j = W j := Function.update_of_ne (Nat.ne_of_lt hj) _ _

theorem sameBelow_merge (u : State) (W : Nat → Nat) (t : TreeBuild) (a b : LiveNode) :
    SameBelow t.next (u.withTree t) (u.withTree (t.merge a b)) W (weighMerge W t a b) where
  hnsym := rfl
  weights _ hj := weighMerge_of_lt W a b hj
  children p hp c := by rw [withTree_child_merge, if_neg (Nat.ne_of_lt hp)]

/-- A node stays live past node `n` unless it is a child of it. -/
theorem liveAt_succ_iff {t : State} {W : Nat → Nat} {n j : Nat} (hn : t.hnsym.toNat ≤ n) (hj : j ≠ n) :
    t.liveAt W (n + 1) j ↔ t.liveAt W n j ∧ ∀ c, t.child c n ≠ some (BitVec.ofNat 9 j) := by
  constructor
  · rintro ⟨hlt, hw, hp⟩
    exact ⟨⟨by omega, hw, fun p hp0 hpn => hp p hp0 (by omega)⟩, hp n hn (by omega)⟩
  · rintro ⟨⟨hlt, hw, hp⟩, hc⟩
    refine ⟨by omega, hw, fun p hp0 hpn => ?_⟩
    rcases Nat.lt_succ_iff_lt_or_eq.1 hpn with hpn | rfl
    · exact hp p hp0 hpn
    · exact hc

/-- The nodes of the live list but the two selected. -/
theorem Merging.mem_rest_iff (h : Merging u W live t) (hperm : live.Perm (a :: b :: rest')) (j : Nat) :
    j ∈ rest'.map Prod.snd ↔ (u.withTree t).liveAt W t.next j ∧ j ≠ a.2 ∧ j ≠ b.2 := by
  have hsnd := hperm.map Prod.snd
  have hnodup := hsnd.nodup_iff.1 h.nodup
  rw [← h.live_iff, hsnd.mem_iff]
  simp only [List.map_cons, List.nodup_cons, List.mem_cons, not_or] at hnodup ⊢
  obtain ⟨⟨-, hna⟩, hnb, -⟩ := hnodup
  constructor
  · intro hj
    exact ⟨.inr (.inr hj), fun e => hna (e ▸ hj), fun e => hnb (e ▸ hj)⟩
  · rintro ⟨rfl | rfl | hj, hja, hjb⟩
    · exact absurd rfl hja
    · exact absurd rfl hjb
    · exact hj

/-- The selected nodes are live, and weigh what the list says. -/
theorem Merging.live_of_mem (h : Merging u W live t) {x : LiveNode} (hx : x ∈ live) :
    (u.withTree t).liveAt W t.next x.2 ∧ x.1 = W x.2 :=
  ⟨(h.live_iff _).1 (List.mem_map_of_mem hx), h.weighed x hx⟩

/-- A live node is in the list, with its weight. -/
theorem Merging.mem_of_live (h : Merging u W live t) {j : Nat} (hj : (u.withTree t).liveAt W t.next j) :
    (W j, j) ∈ live := by
  obtain ⟨x, hx, rfl⟩ := List.mem_map.1 ((h.live_iff j).2 hj)
  rw [← h.weighed x hx]
  exact hx

/-- The node a round makes merges the two lightest live nodes. -/
theorem Merging.merges_new (h : Merging u W live t) (hperm : live.Perm (a :: b :: rest'))
    (hlea : ∀ x ∈ live, LighterEq a x) (hleb : ∀ x ∈ b :: rest', LighterEq b x) :
    (u.withTree (t.merge a b)).MergesLightest (weighMerge W t a b) t.next := by
  obtain ⟨hla, hwa⟩ := h.live_of_mem (hperm.mem_iff.2 List.mem_cons_self)
  obtain ⟨hlb, hwb⟩ := h.live_of_mem (hperm.mem_iff.2 (List.mem_cons_of_mem _ List.mem_cons_self))
  have hlive := (sameBelow_merge u W t a b).liveAt_iff (Nat.le_refl _)
  have hw : ∀ j, (u.withTree t).liveAt W t.next j → weighMerge W t a b j = W j :=
    fun j hj => weighMerge_of_lt W a b (liveAt_lt hj)
  have hnodup := (hperm.map Prod.snd).nodup_iff.1 h.nodup
  simp only [List.map_cons, List.nodup_cons, List.mem_cons, not_or] at hnodup
  obtain ⟨⟨hab, -⟩, -⟩ := hnodup
  refine ⟨a.2, b.2, by simp [withTree_child_merge], by simp [withTree_child_merge], hab, (hlive _).2 hla,
    (hlive _).2 hlb, ?_, fun j hj => ?_, fun j hj hja => ?_⟩
  · rw [weighMerge_next, hw _ hla, hw _ hlb, hwa, hwb]
  · have hj := (hlive j).1 hj
    rw [hw _ hla, hw _ hj, ← hwa]
    exact hlea _ (h.mem_of_live hj)
  · have hj := (hlive j).1 hj
    rw [hw _ hlb, hw _ hj, ← hwb]
    refine hleb (W j, j) ((List.mem_cons.1 (hperm.mem_iff.1 (h.mem_of_live hj))).resolve_left fun e => hja ?_)
    exact congrArg Prod.snd e

/-- The live nodes after a round are the new node and those not selected. -/
theorem Merging.live_iff_merge (h : Merging u W live t) (hperm : live.Perm (a :: b :: rest')) (j : Nat) :
    j ∈ (rest' ++ [(a.1 + b.1, t.next)]).map Prod.snd ↔
      (u.withTree (t.merge a b)).liveAt (weighMerge W t a b) (t.next + 1) j := by
  obtain ⟨hla, hwa⟩ := h.live_of_mem (hperm.mem_iff.2 List.mem_cons_self)
  obtain ⟨hlb, -⟩ := h.live_of_mem (hperm.mem_iff.2 (List.mem_cons_of_mem _ List.mem_cons_self))
  have hroom := h.room
  have hlen := hperm.length_eq
  simp only [List.length_cons] at hlen
  have hsplit : j ∈ (rest' ++ [(a.1 + b.1, t.next)]).map Prod.snd ↔ j ∈ rest'.map Prod.snd ∨ j = t.next := by simp
  rw [hsplit, h.mem_rest_iff hperm]
  by_cases hj : j = t.next
  · subst hj
    refine iff_of_true (.inr rfl) ⟨Nat.lt_succ_self _, ?_, fun p hp hpn c hc => ?_⟩
    · have hne := liveAt_weight hla
      rw [weighMerge_next, hwa]
      omega
    · have hchild : ∃ i, i < t.next ∧ (u.withTree (t.merge a b)).child c p = some (BitVec.ofNat 9 i) := by
        rw [withTree_child_merge]
        split
        · cases c
          · exact ⟨b.2, liveAt_lt hlb, rfl⟩
          · exact ⟨a.2, liveAt_lt hla, rfl⟩
        · obtain ⟨i, hi, he⟩ := h.child_lt hp (by omega) c
          exact ⟨i, by omega, he⟩
      obtain ⟨i, hi, he⟩ := hchild
      rw [he, Option.some.injEq] at hc
      have := node_ofNat_inj (by omega) (by omega) hc
      omega
  · have hfirst : (u.withTree (t.merge a b)).hnsym.toNat ≤ t.next := h.first
    rw [liveAt_succ_iff hfirst hj, (sameBelow_merge u W t a b).liveAt_iff (Nat.le_refl _)]
    simp only [hj, or_false]
    refine and_congr_right fun hlj => ?_
    have hne : ∀ i, i < t.next → (¬ BitVec.ofNat 9 i = BitVec.ofNat 9 j ↔ j ≠ i) := fun i hi =>
      not_congr ⟨fun e => (node_ofNat_inj (by omega) (by have := liveAt_lt hlj; omega) e).symm, fun e => by rw [e]⟩
    simp only [withTree_child_merge, if_true, ne_eq, Option.some.injEq, Bool.forall_bool, Bool.false_eq_true, if_false]
    rw [hne _ (liveAt_lt hla), hne _ (liveAt_lt hlb), and_comm]

/-- A round keeps the invariant (R202). -/
theorem Merging.round (h : Merging u W live t) {rest : List LiveNode} (ha : takeLightest live = some (a, rest))
    (hb : takeLightest rest = some (b, rest')) :
    Merging u (weighMerge W t a b) (rest' ++ [(a.1 + b.1, t.next)]) (t.merge a b) := by
  obtain ⟨hperm, hlea, hleb⟩ := takeLightest_twice ha hb
  have hlen := hperm.length_eq
  simp only [List.length_cons] at hlen
  have hroom := h.room
  have hrest : ∀ x ∈ rest', x ∈ live := fun x hx =>
    hperm.mem_iff.2 (List.mem_cons_of_mem _ (List.mem_cons_of_mem _ hx))
  exact {
    first := Nat.le_succ_of_le h.first
    room := by
      simp only [List.length_append, List.length_singleton]
      show t.next + 1 + _ ≤ _
      omega
    weighed := fun x hx => by
      rcases List.mem_append.1 hx with hx | hx
      · obtain ⟨hlive, hw⟩ := h.live_of_mem (hrest x hx)
        rw [weighMerge_of_lt W a b (liveAt_lt hlive), hw]
      · rw [List.mem_singleton.1 hx, weighMerge_next]
    nodup := by
      have hnodup := (hperm.map Prod.snd).nodup_iff.1 h.nodup
      simp only [List.map_cons, List.nodup_cons] at hnodup
      obtain ⟨-, -, hnodup⟩ := hnodup
      rw [List.map_append, List.map_cons, List.map_nil]
      refine hnodup.append (List.nodup_singleton _) (List.disjoint_singleton.2 fun hmem => ?_)
      obtain ⟨hlive, -⟩ := (h.mem_rest_iff hperm _).1 hmem
      exact Nat.lt_irrefl _ (liveAt_lt hlive)
    live_iff := h.live_iff_merge hperm
    leaves := fun i hi => by rw [weighMerge_of_lt W a b (Nat.lt_of_lt_of_le hi h.first), h.leaves i hi]
    total := by
      rw [← h.total, (hperm.map Prod.fst).sum_eq]
      simp only [List.map_append, List.map_cons, List.map_nil, List.sum_append, List.sum_cons, List.sum_nil]
      omega
    root := fun hle => by
      simp only [List.length_append, List.length_singleton] at hle
      have hnil : rest' = [] := List.length_eq_zero_iff.1 (by omega)
      rw [hnil]
      rfl
    newest := fun _ => rfl
    merged := fun n hn hlt => by
      rcases Nat.lt_succ_iff_lt_or_eq.1 hlt with hlt | rfl
      · exact (sameBelow_merge u W t a b).mergesLightest hlt (h.merged n hn hlt)
      · exact h.merges_new hperm hlea hleb
    kept := fun n hn => by
      have hn : n < u.hnsym.toNat ∨ t.next + 1 ≤ n := hn
      have hfirst := h.first
      obtain ⟨h0, h1⟩ := h.kept n (by omega)
      exact ⟨(cellRead_cellWrite_ne _ _ (by omega)).trans h0, (cellRead_cellWrite_ne _ _ (by omega)).trans h1⟩ }

end round

end Sys2Proof.Machine

/-! The tree HUF.BLDW builds (spec/43_huffman.md R202): the merge loop's invariant from its start, and what it says of
the tree when the loop has ended. -/

namespace Sys2Proof.Machine
open Sys2Proof.Claims

/-! The start. -/

/-- The tree of a weight table is the merge loop's, the root before any merge the one live leaf or NIL (R202). -/
theorem weightTree_eq_mergeLoop (ws : List Nat) (hc0 hc1 : Cells Node) :
    weightTree ws hc0 hc1 = mergeLoop (liveLeaves ws).length (liveLeaves ws)
      { root := leafRoot (liveLeaves ws), next := ws.length, hc0 := hc0, hc1 := hc1 } := by
  unfold weightTree
  split
  · rename_i x hx
    have hself : takeLightest [x] = some (x, []) := by simp [takeLightest, lightest]
    rw [hx, List.length_singleton, mergeLoop, hself]
    rfl
  · rename_i hne
    have hroot : leafRoot (liveLeaves ws) = NIL := by
      unfold leafRoot
      split
      · rename_i x hx
        exact absurd hx (hne x)
      · rfl
    rw [hroot]

/-- HNEXT after the build (R202). -/
theorem weightTree_next (s : State) : (weightTree s.tableWeights s.hc0 s.hc1).next =
    s.csrNat HUF_N + (usedSymbols s (weight s) - 1) := by
  rw [weightTree_eq_mergeLoop, mergeLoop_next (Nat.le_refl _), liveLeaves_length, tableWeights_length]

section start
variable {s : State} (hrej : buildRejects s 4 = none)
include hrej

theorem begunFromWeights_hnsym : s.begunFromWeights.hnsym.toNat = s.csrNat HUF_N := by
  obtain ⟨-, hmax, -⟩ := buildRejects_none hrej
  rw [State.begunFromWeights, State.beginTree_hnsym, BitVec.toNat_ofNat]
  omega

theorem merging_start : Merging s.begunFromWeights (weight s) (liveLeaves s.tableWeights)
    { root := leafRoot (liveLeaves s.tableWeights), next := s.csrNat HUF_N, hc0 := s.hc0, hc1 := s.hc1 } := by
  have hn := begunFromWeights_hnsym hrej
  obtain ⟨-, hmax, -⟩ := buildRejects_none hrej
  have hused := usedSymbols_le s (weight s)
  exact {
    first := hn.le
    room := by rw [liveLeaves_length]; simp only; omega
    weighed := fun x hx => by
      obtain ⟨-, -, hw⟩ := (mem_liveLeaves_iff s x).1 hx
      exact hw
    nodup := liveLeaves_nodup s
    live_iff := fun j => by
      constructor
      · intro hj
        obtain ⟨x, hx, rfl⟩ := List.mem_map.1 hj
        obtain ⟨hlt, hne, -⟩ := (mem_liveLeaves_iff s x).1 hx
        exact ⟨hlt, hne, fun p hp hpn => absurd (Nat.lt_of_lt_of_le hpn hn.ge) (Nat.not_lt.2 hp)⟩
      · rintro ⟨hlt, hne, -⟩
        exact List.mem_map.2 ⟨(weight s j, j), (mem_liveLeaves_iff s _).2 ⟨hlt, hne, rfl⟩, rfl⟩
    leaves := fun i _ => rfl
    total := liveLeaves_sum s
    root := fun _ => rfl
    newest := fun hlt => absurd hlt (by rw [hn]; exact Nat.lt_irrefl _)
    merged := fun n hle hlt => absurd hlt (by rw [hn] at hle; exact Nat.not_lt.2 hle)
    kept := fun n _ => ⟨rfl, rfl⟩ }

/-- The invariant when the loop has ended. -/
theorem merging_end : ∃ W live, live.length ≤ 1 ∧
    Merging s.begunFromWeights W live (weightTree s.tableWeights s.hc0 s.hc1) := by
  rw [weightTree_eq_mergeLoop, tableWeights_length]
  have hround := mergeLoop_induction (P := fun live t => ∃ W, Merging s.begunFromWeights W live t)
    (fun live t a rest b rest' ha hb ⟨W, h⟩ => ⟨_, h.round ha hb⟩) (Nat.le_refl _) ⟨_, merging_start hrej⟩
  obtain ⟨live, hlen, W, h⟩ := hround
  exact ⟨W, live, hlen, h⟩

theorem builtFromWeights_hnext : s.builtFromWeights.hnext.toNat = s.csrNat HUF_N + (usedSymbols s (weight s) - 1) := by
  obtain ⟨-, hmax, -⟩ := buildRejects_none hrej
  have hused := usedSymbols_le s (weight s)
  rw [State.builtFromWeights, State.withTree, State.setTree_hnext, BitVec.toNat_ofNat, weightTree_next s]
  omega

theorem tableWeights_sum_lt : s.tableWeights.sum < 2 ^ 40 := by
  obtain ⟨-, hmax, -⟩ := buildRejects_none hrej
  have hle : s.tableWeights.sum ≤ s.tableWeights.length • (2 ^ 32 - 1) := by
    refine List.sum_le_card_nsmul _ _ fun w hw => ?_
    obtain ⟨i, -, rfl⟩ := List.mem_map.1 hw
    have := (s.tableEntry i).isLt
    rw [weight]
    omega
  rw [tableWeights_length, smul_eq_mul] at hle
  omega

/-- HTOT is the exact sum (R202). -/
theorem builtFromWeights_htot : s.builtFromWeights.htot.toNat = s.tableWeights.sum := by
  have hlt := tableWeights_sum_lt hrej
  exact Nat.mod_eq_of_lt hlt

/-- The root of the tree is NIL, or a node in use that weighs the total. -/
theorem Merging.root_weight {W : Nat → Nat} {live : List LiveNode} (hlen : live.length ≤ 1)
    (h : Merging s.begunFromWeights W live (weightTree s.tableWeights s.hc0 s.hc1)) :
    s.builtFromWeights.hroot = NIL ∨ (s.builtFromWeights.hroot.toNat < s.builtFromWeights.hnext.toNat ∧
      W s.builtFromWeights.hroot.toNat = s.tableWeights.sum) := by
  have hroot : s.builtFromWeights.hroot = leafRoot live := h.root hlen
  match live, hlen with
  | [], _ => exact .inl hroot
  | [x], _ =>
    have hroom := h.room
    obtain ⟨hlive, hw⟩ := h.live_of_mem List.mem_cons_self
    have hlt := liveAt_lt hlive
    have hx : s.builtFromWeights.hroot.toNat = x.2 := by
      rw [hroot, leafRoot, BitVec.toNat_ofNat]
      omega
    have htotal : x.1 + 0 = s.tableWeights.sum := h.total
    refine .inr ⟨?_, by rw [hx, ← hw, ← htotal, Nat.add_zero]⟩
    rw [hx, builtFromWeights_hnext hrej, ← weightTree_next s]
    exact hlt

end start

/-! What the build leaves. -/

/-- Settles O31 (it holds): the loop's invariant once it has ended, its weights the witness. -/
theorem hufBldwMergesLightest : Obligations.HufBldwMergesLightest := by
  intro s t h hl
  obtain ⟨hrej, rfl⟩ := hufBldw_complete h hl
  obtain ⟨W, live, hlen, hm⟩ := merging_end hrej
  have hn := begunFromWeights_hnsym hrej
  have hnext : (completed s.builtFromWeights).hnext.toNat = (weightTree s.tableWeights s.hc0 s.hc1).next :=
    (builtFromWeights_hnext hrej).trans (weightTree_next s).symm
  refine ⟨W, fun i hi => hm.leaves i (by rwa [hn]), fun hne => ?_, fun n hle hlt => ?_⟩
  · rcases hm.root_weight hrej hlen with hnil | ⟨-, hw⟩
    · exact absurd hnil hne
    · exact hw.trans (builtFromWeights_htot hrej).symm
  · exact hm.merged n (by rwa [hn]) (by rwa [← hnext])

/-- With at most one live leaf nothing is merged (R202). -/
theorem weightTree_root_of_le_one {ws : List Nat} (h : (liveLeaves ws).length ≤ 1) (hc0 hc1 : Cells Node) :
    (weightTree ws hc0 hc1).root = leafRoot (liveLeaves ws) := by
  unfold weightTree
  split
  · rename_i x hx
    rw [hx]
    rfl
  · rename_i hne
    match hlive : liveLeaves ws with
    | [] => rfl
    | [x] => exact absurd hlive (hne x)
    | _ :: _ :: _ => rw [hlive] at h; simp at h

/-- With one symbol in use the root is that symbol's leaf (R202). -/
theorem builtFromWeights_root_of_one {s : State} (hrej : buildRejects s 4 = none)
    (hused : usedSymbols s (weight s) = 1) :
    s.builtFromWeights.hroot.toNat < s.csrNat HUF_N ∧ weight s s.builtFromWeights.hroot.toNat ≠ 0 := by
  have hlive := (liveLeaves_length s).trans hused
  obtain ⟨x, hx⟩ := List.length_eq_one_iff.1 hlive
  obtain ⟨hlt, hne, -⟩ := (mem_liveLeaves_iff s x).1 (hx ▸ List.mem_cons_self)
  obtain ⟨-, hmax, -⟩ := buildRejects_none hrej
  have hroot : s.builtFromWeights.hroot = BitVec.ofNat 32 x.2 := by
    rw [State.builtFromWeights, State.withTree, State.setTree_hroot, weightTree_root_of_le_one hlive.le, hx, leafRoot]
  have hnat : s.builtFromWeights.hroot.toNat = x.2 := by
    rw [hroot, BitVec.toNat_ofNat]
    omega
  rw [hnat]
  exact ⟨hlt, hne⟩

/-- Settles O30 (it holds): the registers of the readable table's tree, by the number of its live leaves. -/
theorem hufBldwRegisters : Obligations.HufBldwRegisters := by
  intro s hrej hread
  obtain ⟨W, live, hlen, hm⟩ := merging_end hrej
  have hn := begunFromWeights_hnsym hrej
  have hnext : (BitVec.ofNat 32 (weightTree s.tableWeights s.hc0 s.hc1).next).toNat =
      s.csrNat HUF_N + (usedSymbols s (weight s) - 1) := builtFromWeights_hnext hrej
  have hlive := liveLeaves_length s
  refine ⟨(weightTree s.tableWeights s.hc0 s.hc1).root, BitVec.ofNat 32 (weightTree s.tableWeights s.hc0 s.hc1).next,
    (weightTree s.tableWeights s.hc0 s.hc1).hc0, (weightTree s.tableWeights s.hc0 s.hc1).hc1,
    exec_hufBldw_of_readable hrej hread, hnext, fun hused => ?_, fun hused => ?_, fun hused => ?_, fun n hout => ?_⟩
  · rw [weightTree_root_of_le_one (by omega), List.length_eq_zero_iff.1 (hlive.trans hused)]
    rfl
  · exact builtFromWeights_root_of_one hrej hused
  · have hroot := hm.newest (by rw [hn, weightTree_next]; omega)
    rw [hnext, hroot, BitVec.toNat_ofNat, weightTree_next]
    obtain ⟨-, hmax, -⟩ := buildRejects_none hrej
    have hle := usedSymbols_le s (weight s)
    omega
  · rw [hnext, ← weightTree_next, ← hn] at hout
    exact hm.kept n hout

/-- The tree HUF.BLDW leaves is listed, with children below their node (R200, R209 (a)). -/
theorem hufBldw_listed {s t : State} (h : exec .hufBldw s = .next t) (hl : t.last = .complete) :
    t.TreeListed ∧ ∀ n, t.hnsym.toNat ≤ n → n < t.hnext.toNat → ∀ c m, t.child c n = some m → m.toNat < n := by
  obtain ⟨hrej, rfl⟩ := hufBldw_complete h hl
  obtain ⟨W, live, hlen, hm⟩ := merging_end hrej
  have hnext : (completed s.builtFromWeights).hnext.toNat = (weightTree s.tableWeights s.hc0 s.hc1).next :=
    (builtFromWeights_hnext hrej).trans (weightTree_next s).symm
  have hchild : ∀ n, s.begunFromWeights.hnsym.toNat ≤ n → n < (completed s.builtFromWeights).hnext.toNat → ∀ c,
      ∃ m, (completed s.builtFromWeights).child c n = some m ∧ m.toNat < n := fun n hle hlt c => by
    obtain ⟨j, hj, he⟩ := hm.child_lt hle (by rwa [← hnext]) c
    refine ⟨_, he, ?_⟩
    rw [BitVec.toNat_ofNat]
    exact Nat.lt_of_le_of_lt (Nat.mod_le _ _) hj
  refine ⟨⟨(hm.root_weight hrej hlen).imp_right And.left, fun n hlt hle c => ?_⟩, fun n hle hlt c m hc => ?_⟩
  · obtain ⟨m, hc, hmn⟩ := hchild n hle hlt c
    rw [hc, Option.any_some, decide_eq_true_eq]
    omega
  · obtain ⟨m', hc', hmn⟩ := hchild n hle hlt c
    rw [hc, Option.some.injEq] at hc'
    rwa [hc']

/-! Determinism (R209 (d)). -/

/-- Two trees under construction differ at most in the node RAM outside the nodes made. -/
structure SameNodes (first : Nat) (t t' : TreeBuild) : Prop where
  root : t.root = t'.root
  next : t.next = t'.next
  nodes : ∀ n, first ≤ n → n < t.next → cellRead t.hc0 n = cellRead t'.hc0 n ∧ cellRead t.hc1 n = cellRead t'.hc1 n

theorem SameNodes.merge {first : Nat} {t t' : TreeBuild} (h : SameNodes first t t') (a b : LiveNode) :
    SameNodes first (t.merge a b) (t'.merge a b) where
  root := congrArg (BitVec.ofNat 32) h.next
  next := congrArg (· + 1) h.next
  nodes n hn hlt := by
    have hlt : n < t.next + 1 := hlt
    simp only [TreeBuild.merge, cellRead_cellWrite, ← h.next]
    by_cases hnew : n = t.next
    · simp only [hnew, if_true, and_self]
    · simp only [hnew, if_false]
      exact h.nodes n hn (by omega)

theorem SameNodes.mergeLoop {first fuel : Nat} {live : List LiveNode} {t t' : TreeBuild} (h : SameNodes first t t') :
    SameNodes first (mergeLoop fuel live t) (mergeLoop fuel live t') := by
  induction fuel generalizing live t t' with
  | zero => exact h
  | succ fuel ih =>
    simp only [Machine.mergeLoop]
    split
    · exact h
    · split
      · exact h
      · rw [h.next]
        exact ih (h.merge _ _)

/-- Settles O33 (it holds): the two loops merge in step. -/
theorem huffmanDeterminism : Obligations.HuffmanDeterminism := by
  intro s s' t t' h h' hl hl' hN hW
  obtain ⟨hrej, rfl⟩ := hufBldw_complete h hl
  obtain ⟨hrej', rfl⟩ := hufBldw_complete h' hl'
  have hN : s.csrNat HUF_N = s'.csrNat HUF_N := congrArg BitVec.toNat hN
  have hws : s.tableWeights = s'.tableWeights := by
    rw [State.tableWeights, State.tableWeights, ← hN]
    exact List.map_congr_left fun i hi => hW i (List.mem_range.1 hi)
  have hsame : SameNodes (s.csrNat HUF_N) (weightTree s.tableWeights s.hc0 s.hc1)
      (weightTree s'.tableWeights s'.hc0 s'.hc1) := by
    rw [← hws, weightTree_eq_mergeLoop, weightTree_eq_mergeLoop]
    refine SameNodes.mergeLoop ⟨rfl, rfl, fun n hle hlt => absurd hlt ?_⟩
    simp only [tableWeights_length]
    exact Nat.not_lt.2 hle
  have hsum := congrArg List.sum hws
  refine ⟨hsame.root, congrArg (BitVec.ofNat 32) hsame.next, congrArg (BitVec.ofNat 40) hsum,
    congrArg (fun w => decide (2 ^ 32 ≤ w)) hsum, congrArg (BitVec.ofNat 9) hN, fun n hle hlt c => ?_⟩
  have hnext : (completed s.builtFromWeights).hnext.toNat = (weightTree s.tableWeights s.hc0 s.hc1).next :=
    (builtFromWeights_hnext hrej).trans (weightTree_next s).symm
  obtain ⟨h0, h1⟩ := hsame.nodes n hle (by rwa [← hnext])
  cases c
  · exact h0
  · exact h1

end Sys2Proof.Machine

/-! HUF.DEC against the list decoder (spec/43_huffman.md R206, R207): the machine in the course of the symbol loop, and
the symbol loop on a ready cursor and on a root that is a leaf. -/

namespace Sys2Proof.Machine
open Sys2Proof.Claims

/-! MEM in the course of the loop. -/

/-- MEM `m` once the symbols `syms` stand at the start of OUT, one byte each, and every other byte is as in `s`. -/
structure Emitted (s : State) (syms : List Nat) (m : List Host.Cell) : Prop where
  written : ∀ k, k < syms.length → cellRead m (s.base .output + k) = (syms[k]?).map (BitVec.ofNat 8)
  kept : ∀ a, s.OutsideOut syms.length a → cellRead m a = s.byteAt a

theorem emitted_nil (s : State) : Emitted s [] s.mem :=
  ⟨fun k hk => absurd hk (Nat.not_lt_zero k), fun _ _ => rfl⟩

theorem Emitted.append {s : State} {syms : List Nat} {m : List Host.Cell} (h : Emitted s syms m) (n : Nat) :
    Emitted s (syms ++ [n]) (cellWrite m (s.base .output + syms.length) (BitVec.ofNat 8 n)) := by
  refine ⟨fun k hk => ?_, fun a ha => ?_⟩
  · rw [List.length_append, List.length_singleton] at hk
    rcases Nat.lt_succ_iff_lt_or_eq.1 hk with hlt | rfl
    · rw [cellRead_cellWrite_ne _ _ (by omega), h.written k hlt, List.getElem?_append_left hlt]
    · rw [cellRead_cellWrite_self, List.getElem?_concat_length, Option.map_some]
  · rw [List.length_append, List.length_singleton] at ha
    have ha : a < s.base .output ∨ s.base .output + (syms.length + 1) ≤ a := ha
    rw [cellRead_cellWrite_ne _ _ (by omega), h.kept a (by unfold State.OutsideOut; omega)]

/-- The input keeps its bytes while the output region is written. -/
theorem Emitted.keepsRegion {s : State} {syms : List Nat} {m : List Host.Cell} (h : Emitted s syms m)
    (hlen : syms.length ≤ s.len .output) (hd : s.Disjoint .output .input) : s.KeepsRegion .input m := by
  intro k hk
  refine h.kept _ ?_
  by_cases hout : s.OutsideOut syms.length (s.base .input + k)
  · exact hout
  · unfold State.OutsideOut at hout
    have hne := disjoint_separate hd (i := s.base .input + k - s.base .output) (j := k) (by omega) hk
    omega

/-! The machine in the course of the loop. -/

/-- `s` after `j` bits, with MEM replaced and PRODUCED 0. -/
def State.hufAt (s : State) (j : Nat) (m : List Host.Cell) : State := s.lzAt j m s.win s.wcur.toNat

theorem hufAt_setProduced (s : State) (j : Nat) (m : List Host.Cell) (n : Nat) :
    (s.hufAt j m).setProduced n = { s.afterBits j with mem := m, produced := BitVec.ofNat 32 n } := by
  obtain ⟨p, b, c, he⟩ := movedTo_afterBits s j
  have hwin : (s.afterBits j).win = s.win := by rw [he]; rfl
  have hwcur : (s.afterBits j).wcur = s.wcur := by rw [he]; rfl
  rw [State.hufAt, State.lzAt, overlay_setProduced, ← hwin, ← hwcur, BitVec.ofNat_toNat, BitVec.setWidth_eq]

theorem hufAt_zero (s : State) : s.hufAt 0 s.mem = s.setProduced 0 := by
  rw [State.hufAt, State.lzAt, State.afterBits_zero, overlay_self_mem, State.setWindow, BitVec.ofNat_toNat,
    BitVec.setWidth_eq]

theorem hufAt_setMem (s : State) (j : Nat) (m m' : List Host.Cell) : (s.hufAt j m).setMem m' = s.hufAt j m' :=
  lzAt_setMem j m'

/-- The tree does not move with the cursor and MEM. -/
theorem hufAt_tree (s : State) (j : Nat) (m : List Host.Cell) :
    (s.hufAt j m).hnsym = s.hnsym ∧ (s.hufAt j m).hnext = s.hnext ∧ (s.hufAt j m).hroot = s.hroot ∧
      ∀ c n, (s.hufAt j m).child c n = s.child c n := by
  obtain ⟨p, b, c, he⟩ := movedTo_afterBits s j
  rw [State.hufAt, State.lzAt, he]
  exact ⟨rfl, rfl, rfl, fun _ _ => rfl⟩

theorem hufAt_treeListed {s : State} (h : s.TreeListed) (j : Nat) (m : List Host.Cell) : (s.hufAt j m).TreeListed := by
  obtain ⟨p, b, c, he⟩ := movedTo_afterBits s j
  rw [State.hufAt, State.lzAt, he]
  exact h

/-- A store to OUT in the course of the loop. -/
theorem writeMem_hufAt {s : State} (hin : s.Inside .output) {k : Nat} (hk : k < s.len .output) (j : Nat)
    (m : List Host.Cell) (b : Byte) : writeMem (s.hufAt j m) ((s.hufAt j m).base .output + k) b =
      .ok (s.hufAt j (cellWrite m (s.base .output + k) b)) := by
  have hbase : (s.hufAt j m).base .output = s.base .output := lzAt_base j .output
  have hsize : (s.hufAt j m).memSize = s.memSize := lzAt_memSize j
  have hmem : (s.hufAt j m).mem = m := lzAt_mem j
  have hlt := inside_lt hin hk
  rw [hbase, writeMem_ok (by rwa [hsize]), hmem, hufAt_setMem]

/-! The list decoder. -/

/-- A walk over bits looks at the leaves' number and the children only. -/
theorem refWalk_congr {s t : State} (hsym : t.hnsym = s.hnsym) (hchild : ∀ c n, t.child c n = s.child c n) (pol : Bool)
    (bs : List Bool) (n : Nat) : refWalk t pol bs n = refWalk s pol bs n := by
  induction bs generalizing n with
  | nil => simp only [refWalk, hsym]
  | cons b bs ih => simp only [refWalk, hsym, hchild, ih]

theorem refSymbols_congr {s t : State} (hsym : t.hnsym = s.hnsym) (hroot : t.hroot = s.hroot)
    (hchild : ∀ c n, t.child c n = s.child c n) (pol : Bool) (m : Nat) (bs : List Bool) :
    refSymbols t pol m bs = refSymbols s pol m bs := by
  induction m generalizing bs with
  | zero => rfl
  | succ m ih =>
    simp only [refSymbols, refWalk_congr hsym hchild, hroot]
    split
    · rfl
    · rw [ih]

theorem refSymbols_none {s : State} {pol : Bool} {bs : List Bool} (m : Nat)
    (h : refWalk s pol bs s.hroot.toNat = none) : refSymbols s pol (m + 1) bs = ([], []) := by
  simp only [refSymbols, h]

theorem refSymbols_some {s : State} {pol : Bool} {bs rest : List Bool} {n : Nat} (m : Nat)
    (h : refWalk s pol bs s.hroot.toNat = some (n, rest)) :
    refSymbols s pol (m + 1) bs = (n :: (refSymbols s pol m rest).1, (refSymbols s pol m rest).2) := by
  simp only [refSymbols, h]

/-! The symbol loop on a ready cursor. -/

/-- What HUF.DEC's loop needs: a ready cursor, a listed tree, with output wanted a root, and OUT inside MEM, apart from
IN. -/
structure DecodeReady (s : State) : Prop where
  ready : s.ReadyToRead
  listed : s.TreeListed
  root : 0 < s.len .output → s.hroot.toNat < s.hnext.toNat
  output : s.Inside .output
  apart : s.Disjoint .output .input

/-- Where a walk in the course of the loop ends, by what the list decoder's walk answers (R206). -/
def walkedTo (s : State) (m : List Host.Cell) : Option (Nat × List Bool) → WalkEnd
  | none => .eoi (s.hufAt s.pendingBits.length m)
  | some (n, rest) => .leaf n (s.hufAt (s.pendingBits.length - rest.length) m)

/-- What the loop ends with when it has decoded `r` after `k` symbols, `m` being wanted (R206). -/
def symbolsEnd (s : State) (k m : Nat) (r : List Nat × List Bool) (mem : List Host.Cell) : State × Ending :=
  if r.1.length = m then ((s.hufAt (s.pendingBits.length - r.2.length) mem).setProduced (k + m), .complete)
  else ((s.hufAt s.pendingBits.length mem).setProduced (k + r.1.length),
    .truncated .tEoi (BitVec.ofNat 32 (k + r.1.length)))

section decode
variable {s : State} (hs : DecodeReady s)
include hs

/-- A walk from the root in the course of the loop (R206). -/
theorem walk_hufAt (pol : Bool) {j : Nat} {m : List Host.Cell} (hk : s.KeepsRegion .input m)
    (hj : j ≤ s.pendingBits.length) (hout : 0 < s.len .output) :
    walk pol (s.hufAt j m).bitsLeft (s.hufAt j m).hroot.toNat (s.hufAt j m) =
      walkedTo s m (refWalk s pol (s.pendingBits.drop j) s.hroot.toNat) := by
  have hpend : (s.hufAt j m).ReadyToRead ∧ (s.hufAt j m).pendingBits = s.pendingBits.drop j ∧
      ∀ k, j + k ≤ s.pendingBits.length → (s.hufAt j m).afterBits k = s.hufAt (j + k) m := lzAt_pending hs.ready hk hj
  obtain ⟨hr, hp, hadd⟩ := hpend
  obtain ⟨hsym, hnext, hroot, hchild⟩ := hufAt_tree s j m
  obtain ⟨-, hcnt, -⟩ := id hr
  have hwalk := walk_ready hr (hufAt_treeListed hs.listed j m) pol (s.hufAt j m).bitsLeft 0 (s.hufAt j m).hroot.toNat
    (Nat.zero_le _) (State.pendingBits_length hcnt).le (by rw [hroot, hnext]; exact hs.root hout)
  rw [State.afterBits_zero, List.drop_zero, hp, refWalk_congr hsym hchild, hroot] at hwalk
  rw [hroot, hwalk]
  cases hw : refWalk s pol (s.pendingBits.drop j) s.hroot.toNat with
  | none =>
    simp only [walkedTo]
    rw [hadd _ (by rw [List.length_drop]; omega), List.length_drop, Nat.add_sub_cancel' hj]
  | some p =>
    obtain ⟨n, rest⟩ := p
    obtain ⟨k, hk, rfl⟩ := refWalk_some hw
    simp only [walkedTo, List.length_drop] at hk ⊢
    rw [hadd _ (by omega)]
    congr 2
    omega

/-- The symbol loop decodes what the list decoder does (R206). -/
theorem decodeSymbols_hufAt (pol : Bool) {m j : Nat} {syms : List Nat} {mem : List Host.Cell}
    (hmem : Emitted s syms mem) (hj : j ≤ s.pendingBits.length) (hm : syms.length + m = s.len .output) :
    ∃ mem', decodeSymbols pol m syms.length (s.hufAt j mem) =
        .ok (symbolsEnd s syms.length m (refSymbols s pol m (s.pendingBits.drop j)) mem') ∧
      Emitted s (syms ++ (refSymbols s pol m (s.pendingBits.drop j)).1) mem' := by
  induction m generalizing j syms mem with
  | zero =>
    refine ⟨mem, ?_, by rwa [refSymbols, List.append_nil]⟩
    rw [decodeSymbols, symbolsEnd, refSymbols, if_pos List.length_nil, List.length_drop, Nat.sub_sub_self hj]
    rfl
  | succ m ih =>
    have hwalk := walk_hufAt hs pol (hmem.keepsRegion (by omega) hs.apart) hj (by omega)
    rw [decodeSymbols]
    cases hw : refWalk s pol (s.pendingBits.drop j) s.hroot.toNat with
    | none =>
      rw [hw, walkedTo] at hwalk
      refine ⟨mem, ?_, by rwa [refSymbols_none m hw, List.append_nil]⟩
      rw [hwalk, refSymbols_none m hw, symbolsEnd, if_neg (by simp)]
      rfl
    | some p =>
      obtain ⟨n, rest⟩ := p
      rw [hw, walkedTo] at hwalk
      obtain ⟨k, hk, rfl⟩ := refWalk_some hw
      rw [List.length_drop] at hk
      have hpos : s.pendingBits.length - ((s.pendingBits.drop j).drop k).length = j + k := by
        rw [List.drop_drop, List.length_drop]
        omega
      obtain ⟨mem', hloop, hmem'⟩ := ih (hmem.append n) (j := j + k) (by omega) (by simp; omega)
      rw [List.length_append, List.length_singleton] at hloop
      rw [List.append_assoc, List.singleton_append] at hmem'
      refine ⟨mem', ?_, by rwa [refSymbols_some m hw, List.drop_drop]⟩
      rw [hpos] at hwalk
      rw [hwalk]
      simp only
      rw [writeMem_hufAt hs.output (by omega)]
      simp only
      rw [hloop, refSymbols_some m hw, List.drop_drop]
      simp only [symbolsEnd, List.length_cons, Nat.add_right_cancel_iff, Nat.add_assoc, Nat.add_comm 1]

end decode

/-! The command. -/

/-- What the checks of HUF.DEC have established once they pass (R206). -/
theorem hufDecRejects_none {s : State} (h : hufDecRejects s = none) : s.Inside .output ∧ s.Disjoint .output .input := by
  have hc := (firstFailure_eq_none_iff _).1 ((firstFailure_hufDecChecks s).trans h)
  simp only [hufDecChecks, List.forall_mem_cons, insideCheck_fst, regionOutside_eq_false_iff, disjointCheck_fst] at hc
  obtain ⟨-, hin, hd, -⟩ := hc
  exact ⟨hin, hd⟩

/-- What the checks on the tree have established once they pass (R206). -/
theorem hufTreeRejects_none {s : State} (h : hufTreeRejects s = none) :
    (s.hmode = .weights → s.htot.toNat = s.len .output) ∧ (0 < s.len .output → s.hroot ≠ NIL) := by
  have hc := (firstFailure_eq_none_iff _).1 ((firstFailure_hufTableChecks s).trans h)
  simp only [hufTableChecks, List.forall_mem_cons, decide_eq_false_iff_not, not_and, not_not] at hc
  obtain ⟨htot, hroot, -⟩ := hc
  exact ⟨htot, hroot⟩

/-- HUF.DEC with every check passed is its symbol loop, the tree consumed and PRODUCED cleared (R206). -/
theorem exec_hufDec_of_pass {s : State} (hopen : s.bopen = true) (hvalid : s.hvalid = true)
    (hrej : hufDecRejects s = none) (htree : hufTreeRejects s = none) :
    exec .hufDec s = conclude (decodeSymbols (decide (s.csrNat HUF_POL = 1)) (s.len .output) 0
      (s.consumeTree.setProduced 0)) := by
  have hfirst : firstFailure (hufDecChecks s.consumeTree) = none :=
    (firstFailure_hufDecChecks s.consumeTree).trans hrej
  have hsecond : firstFailure (hufTableChecks s.consumeTree) = none :=
    (firstFailure_hufTableChecks s.consumeTree).trans htree
  rw [exec_hufDec_of_open hopen hvalid, hufDecEffect, checked_pass hfirst, checked_pass hsecond]
  rfl

theorem consumeTree_afterBits (s : State) (k : Nat) :
    s.consumeTree.afterBits k = { s.afterBits k with hvalid := false } := by
  by_cases h : k ≤ s.bcnt.toNat
  · rw [State.afterBits_of_le h, State.afterBits_of_le (s := s.consumeTree) h]
    rfl
  · rw [State.afterBits_of_gt (Nat.lt_of_not_le h), State.afterBits_of_gt (s := s.consumeTree) (Nat.lt_of_not_le h)]
    rfl

/-- PRODUCED as a complete decode leaves it (R206). -/
theorem ofNat_len_output (s : State) : BitVec.ofNat 32 (s.len .output) = s.csr OUT_LEN := by
  rw [State.len, State.csrNat, BitVec.ofNat_toNat, BitVec.setWidth_eq]
  rfl

/-- Settles O37 (it holds): the loop from its start, in the state whose tree is consumed. -/
theorem hufDecComputesReference : Obligations.HufDecComputesReference := by
  intro s hvalid hrej htree hr hlisted r
  obtain ⟨hin, hd⟩ := hufDecRejects_none hrej
  obtain ⟨-, hroot⟩ := hufTreeRejects_none htree
  have hs : DecodeReady s.consumeTree := ⟨hr, hlisted, fun h => hlisted.1.resolve_left (hroot h), hin, hd⟩
  obtain ⟨m, hloop, hm⟩ := decodeSymbols_hufAt hs (decide (s.csrNat HUF_POL = 1)) (j := 0) (m := s.len .output)
    (emitted_nil s.consumeTree) (Nat.zero_le _) (Nat.zero_add _)
  have href : refSymbols s.consumeTree (decide (s.csrNat HUF_POL = 1)) (s.len .output)
      (s.consumeTree.pendingBits.drop 0) = r :=
    refSymbols_congr (s := s) (t := s.consumeTree) rfl rfl (fun _ _ => rfl) _ _ _
  rw [href, hufAt_zero, List.length_nil] at hloop
  rw [href, List.nil_append] at hm
  have hexec := exec_hufDec_of_pass hr.bopen hvalid hrej htree
  rw [hloop] at hexec
  refine ⟨m, fun hlen => ?_, fun hlen => ?_, hm.written, hm.kept⟩
  · rw [hexec, symbolsEnd, if_pos hlen, hufAt_setProduced, consumeTree_afterBits, Nat.zero_add, ofNat_len_output]
    rfl
  · rw [hexec, symbolsEnd, if_neg hlen, hufAt_setProduced, consumeTree_afterBits, Nat.zero_add]
    rfl

/-! A root that is a leaf. -/

/-- With a leaf for its root the loop writes that symbol and reads no bit (R206). -/
theorem decodeSymbols_leafRoot {s : State} (hroot : s.hroot.toNat < s.hnsym.toNat) (hin : s.Inside .output) (pol : Bool)
    {m : Nat} {syms : List Nat} {mem : List Host.Cell} (hmem : Emitted s syms mem)
    (hm : syms.length + m = s.len .output) :
    ∃ mem', decodeSymbols pol m syms.length (s.setMem mem) =
        .ok ((s.setMem mem').setProduced (s.len .output), .complete) ∧
      Emitted s (syms ++ List.replicate m s.hroot.toNat) mem' := by
  induction m generalizing syms mem with
  | zero =>
    refine ⟨mem, ?_, by rwa [List.replicate_zero, List.append_nil]⟩
    rw [decodeSymbols, ← hm]
    rfl
  | succ m ih =>
    have hwalk : walk pol (s.setMem mem).bitsLeft (s.setMem mem).hroot.toNat (s.setMem mem) =
        .leaf s.hroot.toNat (s.setMem mem) := by
      unfold walk
      exact if_pos hroot
    have hwrite : writeMem (s.setMem mem) (s.base .output + syms.length) (BitVec.ofNat 8 s.hroot.toNat) =
        .ok (s.setMem (cellWrite mem (s.base .output + syms.length) (BitVec.ofNat 8 s.hroot.toNat))) :=
      writeMem_ok (inside_lt hin (by omega))
    obtain ⟨mem', hloop, hmem'⟩ := ih (hmem.append s.hroot.toNat) (by simp; omega)
    rw [List.append_assoc, List.singleton_append] at hmem'
    rw [List.length_append, List.length_singleton] at hloop
    refine ⟨mem', ?_, hmem'⟩
    rw [decodeSymbols, hwalk]
    simp only [State.setMem_base]
    rw [hwrite]
    exact hloop

/-- Settles O39 (it holds): the one leaf is the root, and no walk leaves it. -/
theorem oneSymbolNeedsNoBits : Obligations.OneSymbolNeedsNoBits := by
  intro s t h hl hused hopen hrej htot
  obtain ⟨hbuild, ht⟩ := hufBldw_complete h hl
  obtain ⟨hroot, -⟩ := builtFromWeights_root_of_one hbuild hused
  obtain ⟨-, hmax, -⟩ := buildRejects_none hbuild
  have hroot : t.hroot.toNat < s.csrNat HUF_N := by rw [ht]; exact hroot
  have hsym : t.hnsym.toNat = s.csrNat HUF_N := by rw [ht]; exact begunFromWeights_hnsym hbuild
  have hvalid : t.hvalid = true := by rw [ht]; rfl
  have htree : hufTreeRejects t = none := by
    have hnil : ¬ t.hroot = 0xFFFFFFFF := fun he => by
      rw [he] at hroot
      have : (0xFFFFFFFF : Word).toNat = 4294967295 := rfl
      omega
    rw [hufTreeRejects, if_neg (fun hc => hc.2 htot), if_neg (fun hc => hnil hc.2)]
  obtain ⟨hin, -⟩ := hufDecRejects_none hrej
  obtain ⟨m, hloop, hm⟩ := decodeSymbols_leafRoot (s := t.consumeTree.setProduced 0) (m := t.len .output)
    (by rw [← hsym] at hroot; exact hroot) hin (decide (t.csrNat HUF_POL = 1)) (emitted_nil _) (Nat.zero_add _)
  rw [List.nil_append] at hm
  refine ⟨m, ?_, fun k hk => ?_, fun a ha => hm.kept a (by rwa [List.length_replicate])⟩
  · rw [exec_hufDec_of_pass hopen hvalid hrej htree, ← ofNat_len_output]
    exact congrArg conclude hloop
  · have hbyte := hm.written k (by rwa [List.length_replicate])
    rw [List.getElem?_replicate, if_pos hk, Option.map_some, BitVec.ofNat_toNat] at hbyte
    exact hbyte

end Sys2Proof.Machine

/-! Which leaves HUF.DEC can reach (spec/43_huffman.md R209 (c)), on any input: a set of nodes that holds the root and
the children of its internal nodes holds every symbol decoded. -/

namespace Sys2Proof.Machine
open Sys2Proof.Claims

/-- Every listed child of an internal node of the set is in the set. -/
def State.ClosedUnderChildren (s : State) (good : Nat → Prop) : Prop :=
  ∀ n, good n → s.hnsym.toNat ≤ n → ∀ c m, s.child c n = some m → good m.toNat

theorem closedUnderChildren_movedTo {s t : State} {good : Nat → Prop} (h : s.MovedTo t)
    (hg : s.ClosedUnderChildren good) : t.ClosedUnderChildren good := by
  obtain ⟨p, b, c, rfl⟩ := h
  exact hg

/-- A walk from a node of the set ends at a leaf of the set (R206). -/
theorem walk_leaf_good {good : Nat → Prop} {pol : Bool} {fuel n m : Nat} {s t : State} (hg : s.ClosedUnderChildren good)
    (hn : good n) (h : walk pol fuel n s = .leaf m t) : good m := by
  induction fuel generalizing n s with
  | zero =>
    unfold walk at h
    split at h <;> cases h
    exact hn
  | succ fuel ih =>
    unfold walk at h
    split at h
    · cases h
      exact hn
    · rename_i hinner
      simp only at h
      split at h
      · cases h
      · cases h
      · rename_i b s' hb
        have hmv := nextBit_bit hb
        have hg' := closedUnderChildren_movedTo hmv hg
        split at h
        · cases h
        · rename_i x hx
          have hsym : s'.hnsym = s.hnsym := by obtain ⟨p, b, c, rfl⟩ := hmv; rfl
          exact ih hg' (hg' n hn (by rw [hsym]; exact Nat.not_lt.1 hinner) _ x hx) h

/-- Every byte the symbol loop has written is a leaf of the set, PRODUCED the count of them (R206). -/
theorem decodeSymbols_good {good : Nat → Prop} {pol : Bool} {m k : Nat} {s t : State} {r : Ending}
    (hg : s.ClosedUnderChildren good) (hroot : 0 < m → good s.hroot.toNat)
    (h : decodeSymbols pol m k s = .ok (t, r)) :
    ∃ j, j ≤ m ∧ t.produced = BitVec.ofNat 32 (k + j) ∧ ∀ i, i < j → ∃ n, good n ∧ n < s.hnsym.toNat ∧
      t.byteAt (s.base .output + (k + i)) = some (BitVec.ofNat 8 n) := by
  induction m generalizing k s with
  | zero =>
    cases h
    exact ⟨0, Nat.le_refl _, rfl, fun i hi => absurd hi (Nat.not_lt_zero i)⟩
  | succ m ih =>
    simp only [decodeSymbols] at h
    split at h
    · cases h
    · cases h
      exact ⟨0, Nat.zero_le _, rfl, fun i hi => absurd hi (Nat.not_lt_zero i)⟩
    · rename_i n s' hw
      have hleaf := walk_leaf_good hg (hroot (Nat.succ_pos m)) hw
      obtain ⟨hmv, hsym⟩ := movedTo_walk.1 _ _ hw
      obtain ⟨-, -, -, -, -, hbase, -⟩ := movedTo_frame hmv
      split at h
      · cases h
      · rename_i s'' hst
        rw [hbase] at hst
        obtain ⟨-, rfl⟩ := writeMem_eq_ok hst
        have hbyte : (s'.setMem (cellWrite s'.mem (s.base .output + k) (BitVec.ofNat 8 n))).byteAt
            (s.base .output + k) = some (BitVec.ofNat 8 n) := cellRead_cellWrite_self _ _ _
        have htree : s'.hroot = s.hroot ∧ s'.hnsym = s.hnsym := by obtain ⟨p, b, c, rfl⟩ := hmv; exact ⟨rfl, rfl⟩
        have hmoved : s'.ClosedUnderChildren good := closedUnderChildren_movedTo hmv hg
        have hg' : (s'.setMem (cellWrite s'.mem (s.base .output + k) (BitVec.ofNat 8 n))).ClosedUnderChildren good :=
          hmoved
        obtain ⟨j, hj, hproduced, hall⟩ := ih hg'
          (fun _ => by rw [State.setMem_hroot, htree.1]; exact hroot (Nat.succ_pos m)) h
        obtain ⟨j', u, v, hstored, hmv', rfl, -⟩ := decodeSymbols_ok h
        rw [State.setMem_base, hbase] at hall hstored
        rw [State.setMem_hnsym, htree.2] at hall
        refine ⟨j + 1, by omega, by rw [hproduced, Nat.add_assoc, Nat.add_comm 1], fun i hi => ?_⟩
        cases i with
        | zero =>
          refine ⟨n, hleaf, hsym, ?_⟩
          have hkept := storedTo_byteAt hstored (a := s.base .output + k) (.inl (by omega))
          have hend : (v.setProduced (k + 1 + j')).byteAt (s.base .output + k) = u.byteAt (s.base .output + k) :=
            movedTo_byteAt hmv' _
          rw [Nat.add_zero k, hend, hkept, hbyte]
        | succ i =>
          have hi := hall i (by omega)
          rwa [show k + 1 + i = k + (i + 1) by omega] at hi

/-- A HUF.DEC that does not end Corrupt has passed its checks and run its symbol loop (R206). -/
theorem hufDec_not_corrupt {s u : State} (h : exec .hufDec s = .next u) (hl : u.last ≠ .corrupt) :
    hufDecRejects s = none ∧ hufTreeRejects s = none ∧ ∃ t r,
      decodeSymbols (decide (s.csrNat HUF_POL = 1)) (s.len .output) 0 (s.consumeTree.setProduced 0) = .ok (t, r) ∧
      u.produced = t.produced ∧ u.mem = t.mem := by
  rw [exec_eq_conclude] at h
  obtain ⟨t, r, he, rfl⟩ := conclude_eq_next h
  have hcorrupt : ∀ c info, r ≠ .corrupt c info := fun c info hr => hl (by rw [hr]; rfl)
  have hpass : ∀ {cs : List Check} {w : State} {body : Effect}, checked cs w body = .ok (t, r) →
      firstFailure cs = none ∧ body = .ok (t, r) := fun {cs w body} hc => by
    rcases checked_cases cs w body with ⟨c, info, -, hf⟩ | ⟨hnone, hf⟩
    · rw [hf] at hc
      cases hc
      exact absurd rfl (hcorrupt c info)
    · exact ⟨hnone, hf.symm.trans hc⟩
  obtain ⟨-, he⟩ := hpass he
  obtain ⟨hrej, he⟩ := hpass he
  obtain ⟨htree, he⟩ := hpass he
  refine ⟨(firstFailure_hufDecChecks s).symm.trans hrej, (firstFailure_hufTableChecks s).symm.trans htree, t, r, he, ?_⟩
  cases r <;> exact ⟨rfl, rfl⟩

/-- Every byte of OUT below PRODUCED is a leaf of a set that holds the root and the children of its internal nodes. -/
theorem hufDec_bytes_good {good : Nat → Prop} {s u : State} (h : exec .hufDec s = .next u) (hl : u.last ≠ .corrupt)
    (hg : s.ClosedUnderChildren good) (hroot : 0 < s.len .output → good s.hroot.toNat) (k : Nat)
    (hk : k < u.produced.toNat) :
    ∃ n, good n ∧ n < s.hnsym.toNat ∧ u.byteAt (s.base .output + k) = some (BitVec.ofNat 8 n) := by
  obtain ⟨-, -, t, r, hloop, hproduced, hmem⟩ := hufDec_not_corrupt h hl
  have hg : (s.consumeTree.setProduced 0).ClosedUnderChildren good := hg
  obtain ⟨j, hj, hj', hall⟩ := decodeSymbols_good hg hroot hloop
  have hlen : s.len .output < 2 ^ 32 := (s.csr OUT_LEN).isLt
  rw [hproduced, hj', Nat.zero_add, BitVec.toNat_ofNat, Nat.mod_eq_of_lt (by omega)] at hk
  obtain ⟨n, hn, hsym, hbyte⟩ := hall k hk
  rw [Nat.zero_add] at hbyte
  exact ⟨n, hn, hsym, by rw [← hbyte, State.byteAt, State.byteAt, hmem]; rfl⟩

/-- The symbols decoded from a tree whose nodes in use have only children in use, and as leaves only symbols with a
nonzero table entry (R209 (c)). -/
theorem decoded_symbols_occur {entry : Nat → Nat} {s u : State} (h : exec .hufDec s = .next u) (hl : u.last ≠ .corrupt)
    (hmax : s.hnsym.toNat ≤ 256)
    (hchild : ∀ n, s.hnsym.toNat ≤ n → n < s.hnext.toNat → ∀ c m, s.child c n = some m →
      m.toNat < s.hnext.toNat ∧ (m.toNat < s.hnsym.toNat → entry m.toNat ≠ 0))
    (hroot : 0 < s.len .output → s.hroot.toNat < s.hnext.toNat ∧
      (s.hroot.toNat < s.hnsym.toNat → entry s.hroot.toNat ≠ 0)) :
    ∀ k, k < u.produced.toNat → ∃ b, u.byteAt (s.base .output + k) = some b ∧ b.toNat < s.hnsym.toNat ∧
      entry b.toNat ≠ 0 := by
  intro k hk
  obtain ⟨n, ⟨-, hentry⟩, hsym, hbyte⟩ := hufDec_bytes_good
    (good := fun n => n < s.hnext.toNat ∧ (n < s.hnsym.toNat → entry n ≠ 0)) h hl
    (fun n hn hle c m hm => hchild n hle hn.1 c m hm) hroot k hk
  have hnat : (BitVec.ofNat 8 n).toNat = n := by
    rw [BitVec.toNat_ofNat]
    omega
  exact ⟨_, hbyte, by rwa [hnat], by rw [hnat]; exact hentry hsym⟩

/-- What HUF.DEC decodes after HUF.BLDW has a nonzero weight: a live node weighs something, and so does the root where
the total is the output wanted. -/
theorem decoded_symbols_occur_of_hufBldw {s t u : State} (h : exec .hufBldw s = .next t) (hl : t.last = .complete)
    (hdec : exec .hufDec t = .next u) (hu : u.last ≠ .corrupt) :
    ∀ k, k < u.produced.toNat → ∃ b, u.byteAt (s.base .output + k) = some b ∧ b.toNat < s.csrNat HUF_N ∧
      weight s b.toNat ≠ 0 := by
  obtain ⟨W, hleaf, hrootW, hnode⟩ := hufBldwMergesLightest s t h hl
  obtain ⟨hlisted, hbelow⟩ := hufBldw_listed h hl
  obtain ⟨-, htree, -⟩ := hufDec_not_corrupt hdec hu
  obtain ⟨htot, hnil⟩ := hufTreeRejects_none htree
  obtain ⟨hrej, ht⟩ := hufBldw_complete h hl
  obtain ⟨-, hmax, -⟩ := buildRejects_none hrej
  have hsym : t.hnsym.toNat = s.csrNat HUF_N := by rw [ht]; exact begunFromWeights_hnsym hrej
  have hmode : t.hmode = .weights := by rw [ht]; rfl
  have hbase : t.base .output = s.base .output := by rw [ht]; rfl
  rw [← hsym] at hleaf hnode hmax ⊢
  rw [← hbase]
  refine decoded_symbols_occur hdec hu hmax (fun n hle hlt c m hm => ?_) fun hpos => ?_
  · have hmn := hbelow n hle hlt c m hm
    refine ⟨by omega, fun hmsym => ?_⟩
    rw [← hleaf _ hmsym]
    obtain ⟨a, b, hc1, hc0, -, hla, hlb, -⟩ := hnode n hle hlt
    have hlive : ∃ j, t.child c n = some (BitVec.ofNat 9 j) ∧ t.liveAt W n j := by
      cases c
      · exact ⟨b, hc0, hlb⟩
      · exact ⟨a, hc1, hla⟩
    obtain ⟨j, hj, hlive⟩ := hlive
    have hjn := liveAt_lt hlive
    rw [hm, Option.some.injEq] at hj
    have hnext : t.hnext.toNat ≤ 512 := by
      have hused := usedSymbols_le s (weight s)
      have hn : t.hnext.toNat = s.csrNat HUF_N + (usedSymbols s (weight s) - 1) := by
        rw [ht]
        exact builtFromWeights_hnext hrej
      omega
    have hjm : m.toNat = j := by
      rw [hj, BitVec.toNat_ofNat]
      omega
    rw [hjm]
    exact liveAt_weight hlive
  · have hne := hnil hpos
    refine ⟨hlisted.1.resolve_left hne, fun hlt => ?_⟩
    rw [← hleaf _ hlt, hrootW hne, htot hmode]
    omega

end Sys2Proof.Machine

/-! The canonical order of a length table and its codes (spec/43_huffman.md R204), as lists: each code is the volume of
the codes before it, and that is the closed form of `canonicalCode`. -/

namespace Sys2Proof.Machine
open Sys2Proof.Claims

/-! Bits of a code. -/

/-- The low `l` bits of a code, the most significant first (R204). -/
def codeBits (code : Nat) : Nat → List Bool
  | 0 => []
  | l + 1 => code.testBit l :: codeBits code l

theorem map_range_testBit (code l : Nat) :
    (List.range l).map (fun k => code.testBit (l - 1 - k)) = codeBits code l := by
  induction l with
  | zero => rfl
  | succ l ih =>
    rw [List.range_succ_eq_map, List.map_cons, List.map_map, codeBits, ← ih]
    refine congrArg₂ _ (by simp) (List.map_congr_left fun k _ => ?_)
    rw [Function.comp_apply, Nat.succ_eq_add_one, show l + 1 - 1 - (k + 1) = l - 1 - k by omega]

theorem bitsValue_concat (p : List Bool) (b : Bool) : bitsValue (p ++ [b]) = 2 * bitsValue p + b.toNat := by
  rw [bitsValue, List.foldl_append]
  rfl

theorem codeBits_concat (code : Nat) (b : Bool) (l : Nat) :
    codeBits (2 * code + b.toNat) (l + 1) = codeBits code l ++ [b] := by
  induction l with
  | zero => cases b <;> simp [codeBits, Nat.testBit_zero]
  | succ l ih =>
    have hhalf : (2 * code + b.toNat) / 2 = code := by
      have := Bool.toNat_le b
      omega
    rw [codeBits, ih, codeBits, List.cons_append, Nat.testBit_succ, hhalf]

/-- A list of bits is the code of its value. -/
theorem codeBits_bitsValue (p : List Bool) : codeBits (bitsValue p) p.length = p := by
  induction p using List.reverseRecOn with
  | nil => rfl
  | append_singleton p b ih => rw [bitsValue_concat, List.length_append, List.length_singleton, codeBits_concat, ih]

theorem bitsValue_append_zeros (p : List Bool) (k : Nat) :
    bitsValue (p ++ List.replicate k false) = bitsValue p * 2 ^ k := by
  induction k with
  | zero => simp
  | succ k ih =>
    rw [List.replicate_succ', ← List.append_assoc, bitsValue_concat, ih, Bool.toNat_false, Nat.pow_succ]
    ring

/-! The canonical order. -/

/-- Earlier in the canonical order: shorter, or as long and a smaller symbol (R204). -/
def canonicallyBefore (x y : Nat × Nat) : Bool := decide (x.1 < y.1) || (decide (x.1 = y.1) && decide (x.2 < y.2))

theorem canonicallyBefore_iff (x y : Nat × Nat) :
    canonicallyBefore x y = true ↔ x.1 < y.1 ∨ (x.1 = y.1 ∧ x.2 < y.2) := by
  simp [canonicallyBefore]

theorem canonicalOrder_map_range (len : Nat → Nat) (n : Nat) : canonicalOrder ((List.range n).map len) =
    (List.range' 1 32).flatMap fun l =>
      ((List.range n).filter (fun i => decide (len i = l))).map (fun i => (len i, i)) := by
  rw [canonicalOrder, zipIdx_map_range]
  refine List.flatMap_congr fun l _ => ?_
  rw [List.filter_map]
  rfl

theorem mem_canonicalOrder_iff (len : Nat → Nat) (n : Nat) (x : Nat × Nat) :
    x ∈ canonicalOrder ((List.range n).map len) ↔ x.2 < n ∧ x.1 = len x.2 ∧ 1 ≤ x.1 ∧ x.1 ≤ 32 := by
  obtain ⟨l, i⟩ := x
  simp only [canonicalOrder_map_range, List.mem_flatMap, List.mem_range'_1, List.mem_map, List.mem_filter,
    List.mem_range, decide_eq_true_eq, Prod.mk.injEq]
  constructor
  · rintro ⟨l', ⟨h1, h32⟩, j, ⟨hj, rfl⟩, rfl, rfl⟩
    exact ⟨hj, rfl, h1, by omega⟩
  · rintro ⟨hi, rfl, h1, h32⟩
    exact ⟨len i, ⟨h1, by omega⟩, i, ⟨hi, rfl⟩, rfl, rfl⟩

theorem canonicalOrder_sorted (len : Nat → Nat) (n : Nat) :
    (canonicalOrder ((List.range n).map len)).Pairwise (fun x y => canonicallyBefore x y = true) := by
  simp only [canonicallyBefore_iff]
  rw [canonicalOrder_map_range, List.pairwise_flatMap]
  constructor
  · intro l _
    rw [List.pairwise_map]
    refine (List.pairwise_lt_range.filter _).imp_of_mem fun {i j} hi hj hij => .inr ⟨?_, hij⟩
    have hi := List.mem_filter.1 hi
    have hj := List.mem_filter.1 hj
    simp only [decide_eq_true_eq] at hi hj
    rw [hi.2, hj.2]
  · refine (List.pairwise_lt_range' (s := 1) (n := 32)).imp fun {l l'} hl x hx y hy => .inl ?_
    simp only [List.mem_map, List.mem_filter, decide_eq_true_eq] at hx hy
    obtain ⟨i, ⟨-, rfl⟩, rfl⟩ := hx
    obtain ⟨j, ⟨-, rfl⟩, rfl⟩ := hy
    exact hl

theorem canonicalOrder_nodup (len : Nat → Nat) (n : Nat) : (canonicalOrder ((List.range n).map len)).Nodup := by
  refine (canonicalOrder_sorted len n).imp fun {x y} h hxy => ?_
  rw [hxy, canonicallyBefore_iff] at h
  omega

/-- With no length above 32 the canonical order is an order of the symbols in use (R204). -/
theorem canonicalOrder_perm {len : Nat → Nat} {n : Nat} (hmax : ∀ i, i < n → len i ≤ 32) :
    (canonicalOrder ((List.range n).map len)).Perm
      (((List.range n).filter (fun i => decide (len i ≠ 0))).map (fun i => (len i, i))) := by
  refine (List.perm_ext_iff_of_nodup (canonicalOrder_nodup len n)
    ((List.nodup_range.filter _).map fun i j h => congrArg Prod.snd h)).2 fun x => ?_
  obtain ⟨l, i⟩ := x
  rw [mem_canonicalOrder_iff]
  simp only [List.mem_map, List.mem_filter, List.mem_range, decide_eq_true_eq, Prod.mk.injEq]
  constructor
  · rintro ⟨hi, rfl, h1, -⟩
    exact ⟨i, ⟨hi, by omega⟩, rfl, rfl⟩
  · rintro ⟨j, ⟨hj, hne⟩, rfl, rfl⟩
    exact ⟨hj, rfl, by omega, hmax _ hj⟩

/-! Volumes. -/

/-- The volume of a list of symbols with their lengths, in units of 2^-32 (R204). -/
def volume (order : List (Nat × Nat)) : Nat := (order.map (fun e => 2 ^ (32 - e.1))).sum

theorem volume_cons (e : Nat × Nat) (order : List (Nat × Nat)) :
    volume (e :: order) = 2 ^ (32 - e.1) + volume order := by
  rw [volume, List.map_cons, List.sum_cons]
  rfl

/-- The Kraft sum of a table is the volume of its canonical order (R204). -/
theorem volume_canonicalOrder {len : Nat → Nat} {n : Nat} (hmax : ∀ i, i < n → len i ≤ 32) :
    volume (canonicalOrder ((List.range n).map len)) =
      ((List.range n).map (fun i => if len i = 0 then 0 else 2 ^ (32 - len i))).sum := by
  rw [volume, ((canonicalOrder_perm hmax).map _).sum_eq, List.map_map,
    ← sum_map_filter_ne_zero (fun i => if len i = 0 then 0 else 2 ^ (32 - len i))]
  have hfilter : (fun i => decide ((if len i = 0 then 0 else 2 ^ (32 - len i)) ≠ 0)) = fun i => decide (len i ≠ 0) := by
    funext i
    by_cases h : len i = 0 <;> simp [h]
  rw [hfilter]
  refine congrArg _ (List.map_congr_left fun i hi => ?_)
  have hi := List.mem_filter.1 hi
  simp only [decide_eq_true_eq] at hi
  rw [Function.comp_apply, if_neg hi.2]

/-! Codes. -/

/-- The codes of symbols in an order, after volume `v`: each the volume before it (R204). -/
def codesFrom (v : Nat) : List (Nat × Nat) → List (List Bool × Nat)
  | [] => []
  | (l, sym) :: order => (codeBits (v / 2 ^ (32 - l)) l, sym) :: codesFrom (v + 2 ^ (32 - l)) order

theorem codesFrom_length (v : Nat) (order : List (Nat × Nat)) : (codesFrom v order).length = order.length := by
  induction order generalizing v with
  | nil => rfl
  | cons e order ih => rw [codesFrom, List.length_cons, ih, List.length_cons]

theorem codesFrom_map_snd (v : Nat) (order : List (Nat × Nat)) :
    (codesFrom v order).map Prod.snd = order.map Prod.snd := by
  induction order generalizing v with
  | nil => rfl
  | cons e order ih => rw [codesFrom, List.map_cons, ih, List.map_cons]

theorem mem_codesFrom (v : Nat) (pre post : List (Nat × Nat)) (l sym : Nat) :
    (codeBits ((v + volume pre) / 2 ^ (32 - l)) l, sym) ∈ codesFrom v (pre ++ (l, sym) :: post) := by
  induction pre generalizing v with
  | nil => exact List.mem_cons_self
  | cons e pre ih =>
    rw [volume_cons, ← Nat.add_assoc]
    exact List.mem_cons_of_mem _ (ih _)

/-- The part of a canonical order before an entry is what comes before it. -/
theorem filter_canonicallyBefore {pre post : List (Nat × Nat)} {x : Nat × Nat}
    (h : (pre ++ x :: post).Pairwise (fun x y => canonicallyBefore x y = true)) :
    (pre ++ x :: post).filter (fun y => canonicallyBefore y x) = pre := by
  obtain ⟨-, hpost, hbefore⟩ := List.pairwise_append.1 h
  obtain ⟨hafter, -⟩ := List.pairwise_cons.1 hpost
  rw [List.filter_append, List.filter_eq_self.2 fun y hy => hbefore y hy x List.mem_cons_self]
  refine (congrArg _ (List.filter_eq_nil_iff.2 fun y hy => ?_)).trans (List.append_nil pre)
  rw [canonicallyBefore_iff]
  rcases List.mem_cons.1 hy with rfl | hy
  · omega
  · have := (canonicallyBefore_iff x y).1 (hafter y hy)
    omega

/-- The symbols `canonicalCode` sums over are those before the symbol in the canonical order: its code is their
volume. -/
theorem canonicalCode_mem_codesFrom {len : Nat → Nat} {n sym : Nat} (hmax : ∀ i, i < n → len i ≤ 32) (hsym : sym < n)
    (hne : len sym ≠ 0) :
    (canonicalCode len n sym, sym) ∈ codesFrom 0 (canonicalOrder ((List.range n).map len)) := by
  have hmem : (len sym, sym) ∈ canonicalOrder ((List.range n).map len) :=
    (mem_canonicalOrder_iff _ _ _).2 ⟨hsym, rfl, Nat.one_le_iff_ne_zero.2 hne, hmax sym hsym⟩
  obtain ⟨pre, post, horder⟩ := List.append_of_mem hmem
  have hpre := filter_canonicallyBefore (horder ▸ canonicalOrder_sorted len n)
  rw [← horder] at hpre
  have hperm := (canonicalOrder_perm hmax).filter (fun y => canonicallyBefore y (len sym, sym))
  rw [hpre, List.filter_map, List.filter_filter] at hperm
  have hvolume : volume pre = (((List.range n).filter (fun j => decide (len j ≠ 0) &&
      canonicallyBefore (len j, j) (len sym, sym))).map (fun j => 2 ^ (len sym - len j))).sum * 2 ^ (32 - len sym) := by
    rw [volume, (hperm.map _).sum_eq, List.map_map, ← List.sum_map_mul_right]
    have hcomm : ∀ j, (((fun y => canonicallyBefore y (len sym, sym)) ∘ fun i => (len i, i)) j && decide (len j ≠ 0)) =
        (decide (len j ≠ 0) && canonicallyBefore (len j, j) (len sym, sym)) := fun j => Bool.and_comm _ _
    simp only [hcomm]
    refine congrArg _ (List.map_congr_left fun j hj => ?_)
    have hj := List.mem_filter.1 hj
    simp only [Bool.and_eq_true, canonicallyBefore_iff] at hj
    have hle := hmax sym hsym
    rw [Function.comp_apply, ← Nat.pow_add, show len sym - len j + (32 - len sym) = 32 - len j by omega]
  have hcode := mem_codesFrom 0 pre post (len sym) sym
  rw [← horder, Nat.zero_add, hvolume, Nat.mul_div_cancel _ (Nat.two_pow_pos _)] at hcode
  rwa [canonicalCode, map_range_testBit]

end Sys2Proof.Machine

/-! The insertions of HUF.BLDL (spec/43_huffman.md R205). Codes come in canonical order, so the trie fills from the
left: what is left of it is a list of open slots, leftmost first, whose intervals tile the volume still to come, and
every code goes to the first open slot and from there along zeros. -/

namespace Sys2Proof.Machine
open Sys2Proof.Claims

/-! The children of a trie under construction. -/

theorem child_setChild (t : TreeBuild) (c c' : Bool) (n n' : Nat) (v : Node) :
    (t.setChild c n v).child c' n' = if n' = n ∧ c' = c then v else t.child c' n' := by
  cases c <;> cases c' <;> simp only [TreeBuild.setChild, TreeBuild.child, cellRead_cellWrite, if_true,
    Bool.false_eq_true, if_false, and_true, and_false, reduceCtorEq] <;> split <;> rfl

theorem child_newNode (t : TreeBuild) (c : Bool) (n : Nat) :
    t.newNode.child c n = if n = t.next then EMPTY else t.child c n := by
  cases c <;> simp only [TreeBuild.newNode, TreeBuild.child, cellRead_cellWrite, if_true, Bool.false_eq_true,
    if_false] <;> split <;> rfl

theorem setChild_next (t : TreeBuild) (c : Bool) (n : Nat) (v : Node) : (t.setChild c n v).next = t.next := by
  cases c <;> rfl

theorem setChild_root (t : TreeBuild) (c : Bool) (n : Nat) (v : Node) : (t.setChild c n v).root = t.root := by
  cases c <;> rfl

/-- Node RAM away from the written node keeps its entries. -/
theorem setChild_cells (t : TreeBuild) (c : Bool) (n : Nat) (v : Node) {x : Nat} (hx : x ≠ n) :
    cellRead (t.setChild c n v).hc0 x = cellRead t.hc0 x ∧ cellRead (t.setChild c n v).hc1 x = cellRead t.hc1 x := by
  cases c
  · exact ⟨cellRead_cellWrite_ne _ _ hx, rfl⟩
  · exact ⟨rfl, cellRead_cellWrite_ne _ _ hx⟩

/-- A new internal node in the slot `c` of node `n` (R205). -/
def TreeBuild.split (t : TreeBuild) (c : Bool) (n : Nat) : TreeBuild :=
  t.newNode.setChild c n (BitVec.ofNat 9 t.next)

theorem split_next (t : TreeBuild) (c : Bool) (n : Nat) : (t.split c n).next = t.next + 1 := setChild_next _ _ _ _

theorem child_split (t : TreeBuild) (c c' : Bool) (n n' : Nat) : (t.split c n).child c' n' =
    if n' = n ∧ c' = c then BitVec.ofNat 9 t.next else if n' = t.next then EMPTY else t.child c' n' := by
  rw [TreeBuild.split, child_setChild, child_newNode]

/-- A node index below 511 is no EMPTY mark (assumption 8). -/
theorem node_ne_empty {i : Nat} (h : i < 511) : BitVec.ofNat 9 i ≠ EMPTY := fun he => by
  have := congrArg BitVec.toNat he
  rw [BitVec.toNat_ofNat, show EMPTY.toNat = 511 from rfl] at this
  omega

/-! The insertion walk along a list of bits. -/

/-- The walk of R205 along a code written out as its bits. -/
def insertPath (sym : Nat) : List Bool → Nat → TreeBuild → TreeBuild
  | [], _, t => t
  | [c], n, t => t.setChild c n (BitVec.ofNat 9 sym)
  | c :: c' :: cs, n, t =>
    if t.child c n = EMPTY then insertPath sym (c' :: cs) t.next (t.split c n)
    else insertPath sym (c' :: cs) (t.child c n).toNat t

theorem insertCode_eq_insertPath (code sym j n : Nat) (t : TreeBuild) :
    insertCode code sym j n t = insertPath sym (codeBits code (j + 1)) n t := by
  induction j generalizing n t with
  | zero => rfl
  | succ j ih =>
    rw [insertCode, codeBits, codeBits, insertPath]
    split
    · rw [ih]
      rfl
    · rw [ih]
      rfl

/-- The bits lead from node `n` to node `x` through nodes made since `first`, by slots that are filled. -/
def TreeBuild.Leads (t : TreeBuild) (first : Nat) : List Bool → Nat → Nat → Prop
  | [], n, x => n = x
  | c :: cs, n, x => first ≤ n ∧ n < t.next ∧ t.child c n ≠ EMPTY ∧ t.Leads first cs (t.child c n).toNat x

theorem leads_concat {t : TreeBuild} {first : Nat} {p : List Bool} {c : Bool} {n m x : Nat} (h : t.Leads first p n m)
    (hm : first ≤ m ∧ m < t.next) (hc : t.child c m = BitVec.ofNat 9 x) (hx : x < 511) :
    t.Leads first (p ++ [c]) n x := by
  induction p generalizing n with
  | nil =>
    obtain rfl : n = m := h
    obtain ⟨hle, hlt⟩ := hm
    refine ⟨hle, hlt, by rw [hc]; exact node_ne_empty hx, ?_⟩
    show (t.child c n).toNat = x
    rw [hc, BitVec.toNat_ofNat]
    omega
  | cons d p ih =>
    obtain ⟨hle, hlt, hne, hrest⟩ := h
    exact ⟨hle, hlt, hne, ih hrest⟩

/-- A walk along filled slots makes nothing. -/
theorem insertPath_of_leads {t : TreeBuild} {first sym : Nat} {p : List Bool} {n m : Nat} (h : t.Leads first p n m)
    (c : Bool) (q : List Bool) : insertPath sym (p ++ c :: q) n t = insertPath sym (c :: q) m t := by
  induction p generalizing n with
  | nil =>
    obtain rfl : n = m := h
    rfl
  | cons d p ih =>
    obtain ⟨-, -, hne, hrest⟩ := h
    have hstep : insertPath sym (d :: (p ++ c :: q)) n t = insertPath sym (p ++ c :: q) (t.child d n).toNat t := by
      cases p with
      | nil => exact if_neg hne
      | cons e p => exact if_neg hne
    rw [List.cons_append, hstep, ih hrest]

/-! Growth. -/

/-- `t'` keeps every filled slot of the nodes of `t`. -/
structure GrownFrom (first : Nat) (t t' : TreeBuild) : Prop where
  next : t.next ≤ t'.next
  child : ∀ n c, first ≤ n → n < t.next → t.child c n ≠ EMPTY → t'.child c n = t.child c n

theorem GrownFrom.leads {first : Nat} {t t' : TreeBuild} (h : GrownFrom first t t') {p : List Bool} {n x : Nat}
    (hl : t.Leads first p n x) : t'.Leads first p n x := by
  induction p generalizing n with
  | nil => exact hl
  | cons c p ih =>
    obtain ⟨hle, hlt, hne, hrest⟩ := hl
    have hc := h.child n c hle hlt hne
    exact ⟨hle, Nat.lt_of_lt_of_le hlt h.next, by rwa [hc], by rw [hc]; exact ih hrest⟩

theorem grownFrom_setChild {first : Nat} {t : TreeBuild} {c : Bool} {n : Nat} (h : t.child c n = EMPTY) (v : Node) :
    GrownFrom first t (t.setChild c n v) where
  next := (setChild_next t c n v).ge
  child n' c' _ _ hne := by
    rw [child_setChild, if_neg]
    rintro ⟨rfl, rfl⟩
    exact hne h

theorem grownFrom_split {first : Nat} {t : TreeBuild} {c : Bool} {n : Nat} (h : t.child c n = EMPTY) :
    GrownFrom first t (t.split c n) where
  next := by rw [split_next]; omega
  child n' c' _ hlt hne := by
    rw [child_split, if_neg, if_neg (Nat.ne_of_lt hlt)]
    rintro ⟨rfl, rfl⟩
    exact hne h

/-! Open slots. -/

/-- A slot of an internal node with nothing in it: the node, which child, and the bits from the root to the node. -/
structure Slot where
  node : Nat
  side : Bool
  above : List Bool

/-- The bits from the root through the slot. -/
def Slot.path (o : Slot) : List Bool := o.above ++ [o.side]

/-- Where the slot stands in the node RAM. -/
def Slot.place (o : Slot) : Nat × Bool := (o.node, o.side)

/-- The two slots of a node made in slot `o`, the left one first. -/
def Slot.halves (o : Slot) (node : Nat) : List Slot := [⟨node, false, o.path⟩, ⟨node, true, o.path⟩]

theorem halves_path_length {o o' : Slot} {node : Nat} (h : o' ∈ o.halves node) :
    o'.path.length = o.path.length + 1 := by
  simp only [Slot.halves, List.mem_cons, List.not_mem_nil, or_false] at h
  rcases h with rfl | rfl <;> exact List.length_append

/-- The slots' intervals follow one another from volume `v` to the end (R204). -/
def tiles : Nat → List Slot → Prop
  | v, [] => v = 2 ^ 32
  | v, o :: os => bitsValue o.path * 2 ^ (32 - o.path.length) = v ∧ tiles (v + 2 ^ (32 - o.path.length)) os

/-- Slots no deeper than a level leave room for as many codes of that length. -/
theorem tiles_length {v level : Nat} {os : List Slot} (h : tiles v os) (hdeep : ∀ o ∈ os, o.path.length ≤ level) :
    v + os.length * 2 ^ (32 - level) ≤ 2 ^ 32 := by
  induction os generalizing v with
  | nil =>
    rw [List.length_nil, Nat.zero_mul, Nat.add_zero]
    exact Nat.le_of_eq h
  | cons o os ih =>
    obtain ⟨-, hrest⟩ := h
    have hle := ih hrest fun o' ho' => hdeep o' (List.mem_cons_of_mem _ ho')
    have hpow : 2 ^ (32 - level) ≤ 2 ^ (32 - o.path.length) :=
      Nat.pow_le_pow_right (by decide) (Nat.sub_le_sub_left (hdeep o List.mem_cons_self) 32)
    rw [List.length_cons, Nat.add_mul, Nat.one_mul]
    omega

theorem tiles_halves {v node : Nat} {o : Slot} {os : List Slot} (h : tiles v (o :: os)) (hdeep : o.path.length < 32) :
    tiles v (o.halves node ++ os) := by
  obtain ⟨hv, hrest⟩ := h
  have hleft : (⟨node, false, o.path⟩ : Slot).path = o.path ++ [false] := rfl
  have hright : (⟨node, true, o.path⟩ : Slot).path = o.path ++ [true] := rfl
  have hpow : 2 ^ (32 - o.path.length) = 2 * 2 ^ (32 - (o.path.length + 1)) := by
    rw [← Nat.pow_succ']
    congr 1
    omega
  simp only [Slot.halves, List.cons_append, List.nil_append, tiles, hleft, hright, List.length_append,
    List.length_singleton, bitsValue_concat, Bool.toNat_false, Bool.toNat_true, Nat.add_zero]
  rw [hpow] at hv hrest
  refine ⟨?_, ?_, ?_⟩
  · rw [← hv]
    ring
  · rw [← hv]
    ring
  · rw [Nat.add_assoc, ← Nat.two_mul]
    exact hrest

/-! The invariant. -/

/-- The trie of HUF.BLDL in its course (R205): built from `t0`, its nodes numbered from `first`, the root, with the
codes `done` inserted, their volume `v`, and the slots `os` open, none deeper than `level`. -/
structure Growing (t0 : TreeBuild) (first v level : Nat) (os : List Slot) (done : List (List Bool × Nat))
    (t : TreeBuild) : Prop where
  count : t.next + 1 = first + done.length + os.length
  rooted : first < t.next
  tiled : tiles v os
  depth : ∀ o ∈ os, o.path.length ≤ level
  inUse : ∀ o ∈ os, first ≤ o.node ∧ o.node < t.next
  reached : ∀ o ∈ os, t.Leads first o.above first o.node
  distinct : (os.map Slot.place).Nodup
  empty_iff : ∀ n c, first ≤ n → n < t.next → (t.child c n = EMPTY ↔ (n, c) ∈ os.map Slot.place)
  children : ∀ n c, first ≤ n → n < t.next → t.child c n ≠ EMPTY →
    (first ≤ (t.child c n).toNat ∧ (t.child c n).toNat < t.next) ∨ (t.child c n).toNat ∈ done.map Prod.snd
  codes : ∀ d ∈ done, t.Leads first d.1 first d.2
  root : t.root = t0.root
  kept : ∀ n, n < first ∨ t.next ≤ n → cellRead t.hc0 n = cellRead t0.hc0 n ∧ cellRead t.hc1 n = cellRead t0.hc1 n

section growth
variable {t0 t : TreeBuild} {first v level : Nat} {o : Slot} {os : List Slot} {done : List (List Bool × Nat)}

/-- The first open slot: of a node in use, empty, and no other open slot's place. -/
theorem Growing.first_slot (h : Growing t0 first v level (o :: os) done t) :
    first ≤ o.node ∧ o.node < t.next ∧ t.child o.side o.node = EMPTY ∧ o.place ∉ os.map Slot.place ∧
      (os.map Slot.place).Nodup := by
  obtain ⟨hle, hlt⟩ := h.inUse o List.mem_cons_self
  have hdistinct := h.distinct
  rw [List.map_cons, List.nodup_cons] at hdistinct
  exact ⟨hle, hlt, (h.empty_iff _ _ hle hlt).2 List.mem_cons_self, hdistinct⟩

/-- Open slots that are not the first. -/
theorem mem_places_cons_iff {n : Nat} {c : Bool} (hne : ¬ (n = o.node ∧ c = o.side)) :
    (n, c) ∈ (o :: os).map Slot.place ↔ (n, c) ∈ os.map Slot.place := by
  rw [List.map_cons, List.mem_cons, Slot.place, Prod.mk.injEq, or_iff_right hne]

/-- A node made in the first open slot keeps the invariant, its two slots open in the slot's stead (R205). -/
theorem Growing.split (h : Growing t0 first v level (o :: os) done t) (hdeep : o.path.length < level)
    (hlevel : level ≤ 32) (hroom : t.next < 511) :
    Growing t0 first v level (o.halves t.next ++ os) done (t.split o.side o.node) := by
  obtain ⟨hle, hlt, hempty, hother, hnodup⟩ := h.first_slot
  have hgrown : GrownFrom first t (t.split o.side o.node) := grownFrom_split hempty
  have hfresh : ∀ c, (t.next, c) ∉ os.map Slot.place := fun c hmem => by
    obtain ⟨o', ho', he⟩ := List.mem_map.1 hmem
    have hlt' := (h.inUse o' (List.mem_cons_of_mem _ ho')).2
    have hnode : o'.node = t.next := congrArg Prod.fst he
    omega
  have hplaces : (o.halves t.next ++ os).map Slot.place = (t.next, false) :: (t.next, true) :: os.map Slot.place := rfl
  have hnew : (t.split o.side o.node).Leads first o.path first t.next :=
    leads_concat (hgrown.leads (h.reached o List.mem_cons_self)) ⟨hle, by rw [split_next]; omega⟩
      (by rw [child_split, if_pos ⟨rfl, rfl⟩]) hroom
  have hslots : ∀ o' ∈ o.halves t.next ++ os, (o'.node = t.next ∧ o'.above = o.path) ∨ o' ∈ os := fun o' ho' => by
    rcases List.mem_append.1 ho' with hhalf | hos
    · simp only [Slot.halves, List.mem_cons, List.not_mem_nil, or_false] at hhalf
      rcases hhalf with rfl | rfl <;> exact .inl ⟨rfl, rfl⟩
    · exact .inr hos
  exact {
    count := by
      have hcount := h.count
      rw [List.length_cons] at hcount
      rw [split_next, List.length_append, show (o.halves t.next).length = 2 from rfl]
      omega
    rooted := by
      rw [split_next]
      exact Nat.lt_succ_of_lt h.rooted
    tiled := tiles_halves h.tiled (by omega)
    depth := fun o' ho' => by
      rcases List.mem_append.1 ho' with hhalf | hos
      · rw [halves_path_length hhalf]
        omega
      · exact h.depth o' (List.mem_cons_of_mem _ hos)
    inUse := fun o' ho' => by
      rw [split_next]
      rcases hslots o' ho' with ⟨hnode, -⟩ | hos
      · omega
      · have := h.inUse o' (List.mem_cons_of_mem _ hos)
        omega
    reached := fun o' ho' => by
      rcases hslots o' ho' with ⟨hnode, habove⟩ | hos
      · rwa [hnode, habove]
      · exact hgrown.leads (h.reached o' (List.mem_cons_of_mem _ hos))
    distinct := by
      rw [hplaces, List.nodup_cons, List.nodup_cons, List.mem_cons, not_or]
      exact ⟨⟨by simp, hfresh false⟩, hfresh true, hnodup⟩
    empty_iff := fun n c hn hlt' => by
      rw [split_next] at hlt'
      rw [hplaces, child_split]
      by_cases hslot : n = o.node ∧ c = o.side
      · obtain ⟨rfl, rfl⟩ := hslot
        rw [if_pos ⟨rfl, rfl⟩]
        refine iff_of_false (node_ne_empty hroom) ?_
        simp only [List.mem_cons, Prod.mk.injEq, not_or]
        exact ⟨by omega, by omega, hother⟩
      · rw [if_neg hslot]
        by_cases hnext : n = t.next
        · subst hnext
          cases c <;> simp
        · rw [if_neg hnext, h.empty_iff n c hn (by omega), mem_places_cons_iff hslot]
          simp only [List.mem_cons, Prod.mk.injEq, hnext, false_and, false_or]
    children := fun n c hn hlt' hne => by
      rw [split_next] at hlt' ⊢
      rw [child_split] at hne ⊢
      by_cases hslot : n = o.node ∧ c = o.side
      · rw [if_pos hslot, BitVec.toNat_ofNat]
        left
        omega
      · rw [if_neg hslot] at hne ⊢
        by_cases hnext : n = t.next
        · rw [if_pos hnext] at hne
          exact absurd rfl hne
        · rw [if_neg hnext] at hne ⊢
          exact (h.children n c hn (by omega) hne).imp_left fun hin => by omega
    codes := fun d hd => hgrown.leads (h.codes d hd)
    root := (setChild_root _ _ _ _).trans h.root
    kept := fun n hn => by
      rw [split_next] at hn
      obtain ⟨h0, h1⟩ := h.kept n (by omega)
      obtain ⟨hs0, hs1⟩ := setChild_cells t.newNode o.side o.node (BitVec.ofNat 9 t.next) (x := n) (by omega)
      refine ⟨hs0.trans (.trans ?_ h0), hs1.trans (.trans ?_ h1)⟩ <;> exact cellRead_cellWrite_ne _ _ (by omega) }

/-- A leaf put in the first open slot keeps the invariant, with the slot's volume filled and its bits a code (R205). -/
theorem Growing.fill (h : Growing t0 first v level (o :: os) done t) {sym : Nat} (hsym : sym < 511) :
    Growing t0 first (v + 2 ^ (32 - o.path.length)) level os (done ++ [(o.path, sym)])
      (t.setChild o.side o.node (BitVec.ofNat 9 sym)) := by
  obtain ⟨hle, hlt, hempty, hother, hnodup⟩ := h.first_slot
  have hgrown : GrownFrom first t (t.setChild o.side o.node (BitVec.ofNat 9 sym)) := grownFrom_setChild hempty _
  have hrest : ∀ {o'}, o' ∈ os → o' ∈ o :: os := List.mem_cons_of_mem _
  exact {
    count := by
      have hcount := h.count
      rw [List.length_cons] at hcount
      rw [setChild_next, List.length_append, List.length_singleton]
      omega
    rooted := by rw [setChild_next]; exact h.rooted
    tiled := h.tiled.2
    depth := fun o' ho' => h.depth o' (hrest ho')
    inUse := fun o' ho' => by rw [setChild_next]; exact h.inUse o' (hrest ho')
    reached := fun o' ho' => hgrown.leads (h.reached o' (hrest ho'))
    distinct := hnodup
    empty_iff := fun n c hn hlt' => by
      rw [setChild_next] at hlt'
      rw [child_setChild]
      by_cases hslot : n = o.node ∧ c = o.side
      · obtain ⟨rfl, rfl⟩ := hslot
        rw [if_pos ⟨rfl, rfl⟩]
        exact iff_of_false (node_ne_empty hsym) hother
      · rw [if_neg hslot, h.empty_iff n c hn hlt', mem_places_cons_iff hslot]
    children := fun n c hn hlt' hne => by
      rw [setChild_next] at hlt' ⊢
      rw [child_setChild] at hne ⊢
      rw [List.map_append, List.mem_append]
      by_cases hslot : n = o.node ∧ c = o.side
      · rw [if_pos hslot, BitVec.toNat_ofNat, Nat.mod_eq_of_lt (by omega)]
        exact .inr (.inr List.mem_cons_self)
      · rw [if_neg hslot] at hne ⊢
        exact (h.children n c hn hlt' hne).imp_right .inl
    codes := fun d hd => by
      rcases List.mem_append.1 hd with hd | hd
      · exact hgrown.leads (h.codes d hd)
      · rw [List.mem_singleton.1 hd]
        exact leads_concat (hgrown.leads (h.reached o List.mem_cons_self)) ⟨hle, by rwa [setChild_next]⟩
          (by rw [child_setChild, if_pos ⟨rfl, rfl⟩]) hsym
    root := (setChild_root _ _ _ _).trans h.root
    kept := fun n hn => by
      rw [setChild_next] at hn
      obtain ⟨h0, h1⟩ := h.kept n hn
      obtain ⟨hs0, hs1⟩ := setChild_cells t o.side o.node (BitVec.ofNat 9 sym) (x := n) (by omega)
      exact ⟨hs0.trans h0, hs1.trans h1⟩ }

theorem Growing.deepen (h : Growing t0 first v level os done t) {level' : Nat} (hle : level ≤ level') :
    Growing t0 first v level' os done t :=
  { h with depth := fun o ho => Nat.le_trans (h.depth o ho) hle }

end growth

/-! One code. -/

/-- From the first open slot on, along zeros: a node in each slot met, then the leaf (R205). `left` codes no shorter
than `level` are still to come, and there are node indices for that many. -/
theorem Growing.insert_zeros {t0 t : TreeBuild} {first v level k sym left : Nat} {o : Slot} {os : List Slot}
    {done : List (List Bool × Nat)} (h : Growing t0 first v level (o :: os) done t) (hlen : o.path.length + k = level)
    (hlevel : level ≤ 32) (hsym : sym < 511) (hleft : 2 ^ 32 ≤ v + left * 2 ^ (32 - level))
    (hroom : first + done.length + left ≤ 512) :
    ∃ os', Growing t0 first (v + 2 ^ (32 - level)) level os' (done ++ [(o.path ++ List.replicate k false, sym)])
      (insertPath sym (o.side :: List.replicate k false) o.node t) := by
  induction k generalizing o os t with
  | zero =>
    rw [Nat.add_zero] at hlen
    rw [List.replicate_zero, List.append_nil, ← hlen]
    exact ⟨os, hlen ▸ h.fill hsym⟩
  | succ k ih =>
    obtain ⟨-, -, hempty, -⟩ := h.first_slot
    have hslots := tiles_length (tiles_halves (node := t.next) h.tiled (by omega)) (level := level) fun o' ho' => by
      rcases List.mem_append.1 ho' with hhalf | hos
      · rw [halves_path_length hhalf]
        omega
      · exact h.depth o' (List.mem_cons_of_mem _ hos)
    have hmul : (o.halves t.next ++ os).length * 2 ^ (32 - level) ≤ left * 2 ^ (32 - level) := by omega
    have hfew := Nat.le_of_mul_le_mul_right hmul (Nat.two_pow_pos _)
    have hcount := h.count
    rw [List.length_cons] at hcount
    rw [List.length_append, show (o.halves t.next).length = 2 from rfl] at hfew
    have hsplit := h.split (by omega) hlevel (by omega)
    have hhalf := halves_path_length (o := o) (node := t.next) List.mem_cons_self
    obtain ⟨os', hgrown⟩ := ih hsplit (by omega)
    refine ⟨os', ?_⟩
    have hpath : (⟨t.next, false, o.path⟩ : Slot).path ++ List.replicate k false =
        o.path ++ List.replicate (k + 1) false := by
      rw [Slot.path, List.append_assoc, List.replicate_succ]
      rfl
    rw [hpath] at hgrown
    rw [List.replicate_succ, insertPath, if_pos hempty]
    exact hgrown

/-- The code of volume `v` with a given length: from the root to the first open slot, then zeros (R204, R205). -/
theorem Growing.insertCode {t0 t : TreeBuild} {first v level l code sym left : Nat} {os : List Slot}
    {done : List (List Bool × Nat)} (h : Growing t0 first v level os done t) (hpos : 1 ≤ l) (hle : level ≤ l)
    (hl : l ≤ 32) (hcode : code * 2 ^ (32 - l) = v) (hv : v < 2 ^ 32) (hsym : sym < 511)
    (hleft : 2 ^ 32 ≤ v + left * 2 ^ (32 - l)) (hroom : first + done.length + left ≤ 512) :
    ∃ os', Growing t0 first (v + 2 ^ (32 - l)) l os' (done ++ [(codeBits code l, sym)])
      (Machine.insertCode code sym (l - 1) first t) := by
  cases os with
  | nil => exact absurd h.tiled (Nat.ne_of_lt hv)
  | cons o os =>
    have hdepth := h.depth o List.mem_cons_self
    obtain ⟨k, hk⟩ : ∃ k, o.path.length + k = l := ⟨l - o.path.length, by omega⟩
    have hbits : codeBits code l = o.path ++ List.replicate k false := by
      have hvalue : bitsValue (o.path ++ List.replicate k false) = code := by
        refine Nat.eq_of_mul_eq_mul_right (Nat.two_pow_pos (32 - l)) ?_
        rw [bitsValue_append_zeros, hcode, ← h.tiled.1, Nat.mul_assoc, ← Nat.pow_add]
        congr 2
        omega
      have hself := codeBits_bitsValue (o.path ++ List.replicate k false)
      rwa [hvalue, List.length_append, List.length_replicate, hk] at hself
    obtain ⟨os', hgrown⟩ := (h.deepen hle).insert_zeros hk hl hsym hleft hroom
    refine ⟨os', ?_⟩
    rw [insertCode_eq_insertPath, Nat.sub_add_cancel hpos, hbits, Slot.path, List.append_assoc, List.singleton_append,
      insertPath_of_leads (h.reached o List.mem_cons_self)]
    rw [Slot.path, List.append_assoc, List.singleton_append] at hgrown
    exact hgrown

end Sys2Proof.Machine

/-! HUF.BLDL (spec/43_huffman.md R203 to R205): its codes inserted one after the other, what each of its ends leaves,
and that the tree decodes the canonical codes. -/

namespace Sys2Proof.Machine
open Sys2Proof.Claims

/-! All codes. -/

/-- The code and length before the next symbol, where `v` is the volume inserted and `level` the last length (R204). -/
def Follows (prev : Option (Nat × Nat)) (v level : Nat) : Prop :=
  match prev with
  | none => v = 0
  | some (code, l) => l = level ∧ (code + 1) * 2 ^ (32 - l) = v

/-- R204's next code, as long as no length decreases, is the volume inserted so far. -/
theorem nextCode_of_follows {prev : Option (Nat × Nat)} {v level l : Nat} (h : Follows prev v level) (hle : level ≤ l)
    (hl : l ≤ 32) : nextCode prev l * 2 ^ (32 - l) = v := by
  match prev, h with
  | none, h =>
    have h : v = 0 := h
    rw [nextCode, Nat.zero_mul, h]
  | some (code, l'), ⟨hlast, hv⟩ =>
    rw [nextCode, Nat.shiftLeft_eq, Nat.mul_assoc, ← Nat.pow_add, ← hv]
    congr 2
    omega

/-- Symbols no shorter than a level have a volume of at most their number of codes of that length. -/
theorem volume_le {order : List (Nat × Nat)} {level : Nat} (h : ∀ e ∈ order, level ≤ e.1) :
    volume order ≤ order.length * 2 ^ (32 - level) := by
  induction order with
  | nil => exact Nat.zero_le _
  | cons e order ih =>
    have hrest := ih fun e' he' => h e' (List.mem_cons_of_mem _ he')
    have hpow : 2 ^ (32 - e.1) ≤ 2 ^ (32 - level) :=
      Nat.pow_le_pow_right (by decide) (Nat.sub_le_sub_left (h e List.mem_cons_self) 32)
    rw [volume_cons, List.length_cons, Nat.add_mul, Nat.one_mul]
    omega

/-- Symbols in rising order of length whose volume is what is left fill the trie (R204, R205). -/
theorem Growing.insertAll {t0 t : TreeBuild} {first v level : Nat} {os : List Slot} {done : List (List Bool × Nat)}
    {order : List (Nat × Nat)} {prev : Option (Nat × Nat)} (h : Growing t0 first v level os done t)
    (hprev : Follows prev v level) (hlen : ∀ e ∈ order, 1 ≤ e.1 ∧ level ≤ e.1 ∧ e.1 ≤ 32 ∧ e.2 < 511)
    (hsorted : order.Pairwise (fun x y => x.1 ≤ y.1)) (hvolume : v + volume order = 2 ^ 32)
    (hroom : first + done.length + order.length ≤ 512) :
    ∃ level', Growing t0 first (2 ^ 32) level' [] (done ++ codesFrom v order)
      (Machine.insertAll first order prev t) := by
  induction order generalizing v level os done prev t with
  | nil =>
    have hv : v = 2 ^ 32 := hvolume
    have hslots := tiles_length h.tiled h.depth
    have hmul : os.length * 2 ^ (32 - level) = 0 := by omega
    have hnil : os = [] := List.length_eq_zero_iff.1
      ((Nat.mul_eq_zero.1 hmul).resolve_right (Nat.two_pow_pos _).ne')
    refine ⟨level, ?_⟩
    rw [codesFrom, List.append_nil, ← hv, ← hnil]
    exact h
  | cons e order ih =>
    obtain ⟨l, sym⟩ := e
    obtain ⟨hpos, hle, hl, hsym⟩ := hlen (l, sym) List.mem_cons_self
    obtain ⟨hfirst, hrest⟩ := List.pairwise_cons.1 hsorted
    have hcode := nextCode_of_follows hprev hle hl
    have hmost := volume_le (order := (l, sym) :: order) (level := l) fun e' he' => by
      rcases List.mem_cons.1 he' with rfl | he'
      · exact Nat.le_refl _
      · exact hfirst e' he'
    have hunit := Nat.two_pow_pos (32 - l)
    have htail : volume ((l, sym) :: order) = 2 ^ (32 - l) + volume order := volume_cons _ _
    rw [List.length_cons] at hroom
    obtain ⟨os', hgrown⟩ := h.insertCode (l := l) hpos hle hl hcode (by omega) hsym (left := ((l, sym) :: order).length)
      (by omega) (by rw [List.length_cons]; omega)
    have hdiv : v / 2 ^ (32 - l) = nextCode prev l := Nat.div_eq_of_eq_mul_left hunit hcode.symm
    obtain ⟨level', hend⟩ := ih hgrown (prev := some (nextCode prev l, l))
      ⟨rfl, by rw [Nat.add_mul, Nat.one_mul, hcode]⟩
      (fun e' he' => by
        obtain ⟨hpos', -, hl', hsym'⟩ := hlen e' (List.mem_cons_of_mem _ he')
        exact ⟨hpos', hfirst e' he', hl', hsym'⟩)
      hrest (by omega) (by rw [List.length_append, List.length_singleton]; omega)
    refine ⟨level', ?_⟩
    rw [List.append_assoc, List.singleton_append] at hend
    rw [codesFrom, hdiv]
    exact hend

/-- A trie of HUF.BLDL before its root is made (R205). -/
def lengthStart (n : Nat) (hc0 hc1 : Cells Node) : TreeBuild :=
  { root := BitVec.ofNat 32 n, next := n, hc0 := hc0, hc1 := hc1 }

/-- The root with its two open slots (R205). -/
theorem growing_start {n : Nat} (hn : n ≤ 256) (hc0 hc1 : Cells Node) :
    Growing (lengthStart n hc0 hc1) n 0 1 ((⟨n, false, []⟩ : Slot) :: [⟨n, true, []⟩]) []
      (lengthStart n hc0 hc1).newNode := by
  have hnext : (lengthStart n hc0 hc1).newNode.next = n + 1 := rfl
  have hempty : ∀ m c, n ≤ m → m < n + 1 → (lengthStart n hc0 hc1).newNode.child c m = EMPTY := fun m c hle hlt => by
    rw [child_newNode, if_pos]
    show m = n
    omega
  have hslots : ∀ o ∈ ((⟨n, false, []⟩ : Slot) :: [⟨n, true, []⟩]), o.node = n ∧ o.above = [] := fun o ho => by
    simp only [List.mem_cons, List.not_mem_nil, or_false] at ho
    rcases ho with rfl | rfl <;> exact ⟨rfl, rfl⟩
  exact {
    count := rfl
    rooted := Nat.lt_succ_self n
    tiled := by simp [tiles, Slot.path, bitsValue]
    depth := fun o ho => by
      rw [Slot.path, (hslots o ho).2]
      exact Nat.le_refl 1
    inUse := fun o ho => by
      rw [(hslots o ho).1, hnext]
      omega
    reached := fun o ho => by
      obtain ⟨hnode, habove⟩ := hslots o ho
      rw [hnode, habove]
      rfl
    distinct := by simp [Slot.place]
    empty_iff := fun m c hle hlt => by
      obtain rfl : m = n := by omega
      refine iff_of_true (hempty m c hle hlt) ?_
      cases c <;> simp [Slot.place]
    children := fun m c hle hlt hne => absurd (hempty m c hle hlt) hne
    codes := fun d hd => absurd hd List.not_mem_nil
    root := rfl
    kept := fun m hm => by
      have hne : m ≠ n := by omega
      exact ⟨cellRead_cellWrite_ne _ _ hne, cellRead_cellWrite_ne _ _ hne⟩ }

/-- The trie of a complete length table: no slot is open, every canonical code inserted (R205). -/
theorem lengthTree_grown {len : Nat → Nat} {n : Nat} (hn : n ≤ 256) (hmax : ∀ i, i < n → len i ≤ 32)
    (hkraft : ((List.range n).map (fun i => if len i = 0 then 0 else 2 ^ (32 - len i))).sum = 2 ^ 32)
    (hc0 hc1 : Cells Node) :
    ∃ level, Growing (lengthStart n hc0 hc1) n (2 ^ 32) level [] (codesFrom 0 (canonicalOrder ((List.range n).map len)))
      (lengthTree ((List.range n).map len) hc0 hc1) := by
  have hused : (canonicalOrder ((List.range n).map len)).length ≤ n := by
    rw [(canonicalOrder_perm hmax).length_eq, List.length_map]
    exact (List.length_filter_le _ _).trans_eq List.length_range
  have hgrown := (growing_start hn hc0 hc1).insertAll (order := canonicalOrder ((List.range n).map len)) (prev := none)
    rfl
    (fun e he => by
      obtain ⟨hlt, -, hpos, hl⟩ := (mem_canonicalOrder_iff len n e).1 he
      exact ⟨hpos, hpos, hl, by omega⟩)
    ((canonicalOrder_sorted len n).imp fun {x y} h => by
      rw [canonicallyBefore_iff] at h
      omega)
    (by rw [Nat.zero_add, volume_canonicalOrder hmax, hkraft])
    (by rw [List.length_nil]; omega)
  have hself : lengthTree ((List.range n).map len) hc0 hc1 =
      Machine.insertAll n (canonicalOrder ((List.range n).map len)) none (lengthStart n hc0 hc1).newNode := by
    rw [lengthTree, List.length_map, List.length_range]
    rfl
  rwa [hself]

/-! The command. -/

/-- The lengths of the table, in symbol order (R203). -/
def State.tableLengths (s : State) : List Nat := (List.range (s.csrNat HUF_N)).map (codeLength s)

/-- The registers as HUF.BLDL begins the tree of its table (R205). -/
def State.begunFromLengths (s : State) : State := s.beginTree .lengths (s.csrNat HUF_N) 0

/-- What HUF.BLDL leaves for a table without codes, before its outcome is applied (R205). -/
def State.builtWithoutCodes (s : State) : State := s.begunFromLengths.setTree NIL (s.csrNat HUF_N) s.hc0 s.hc1

/-- What HUF.BLDL leaves for a complete table, before its outcome is applied (R205). -/
def State.builtFromLengths (s : State) : State :=
  s.begunFromLengths.withTree (lengthTree s.tableLengths s.hc0 s.hc1)

/-- What readLengths has read, wherever it reads all (R203, R205). -/
theorem readLengths_lengths {s : State} {n i : Nat} {ls : List Nat} (h : readLengths s n i = .lengths ls) :
    ls = (List.range n).map (fun k => codeLength s (i + k)) ∧ ∀ k, k < n → codeLength s (i + k) ≤ 32 := by
  induction n generalizing i ls with
  | zero =>
    cases h
    exact ⟨rfl, fun k hk => absurd hk (Nat.not_lt_zero k)⟩
  | succ n ih =>
    simp only [readLengths] at h
    split at h
    · cases h
    · rename_i b hb
      have hlen : codeLength s i = b.toNat := by rw [codeLength, regionByte_of_readMem hb]
      split at h
      · cases h
      · rename_i hle
        have hmax : HLEN_MAX = 32 := rfl
        split at h
        · cases h
        · cases h
        · rename_i ls' hrest
          cases h
          obtain ⟨hls, hall⟩ := ih hrest
          refine ⟨by rw [range_succ_map_add, hls, hlen], fun k hk => ?_⟩
          cases k with
          | zero =>
            rw [Nat.add_zero, hlen]
            omega
          | succ k =>
            have hk := hall k (by omega)
            rwa [show i + 1 + k = i + (k + 1) by omega] at hk

theorem kraftSum_tableLengths (s : State) : kraftSum s.tableLengths =
    ((List.range (s.csrNat HUF_N)).map (fun i => if codeLength s i = 0 then 0 else 2 ^ (32 - codeLength s i))).sum := by
  rw [kraftSum, State.tableLengths, List.map_map]
  rfl

theorem tableLengths_all_zero_iff (s : State) :
    s.tableLengths.all (fun l => decide (l = 0)) = true ↔ ∀ i, i < s.csrNat HUF_N → codeLength s i = 0 := by
  simp [State.tableLengths]

/-- The three ends of HUF.BLDL on a table it has read (R205). -/
theorem hufBldlEffect_of_lengths {s : State} (h : readLengths s (s.csrNat HUF_N) 0 = .lengths s.tableLengths) :
    ((∀ i, i < s.csrNat HUF_N → codeLength s i = 0) ∧ hufBldlEffect s = .ok (s.builtWithoutCodes, .complete)) ∨
    (¬ (∀ i, i < s.csrNat HUF_N → codeLength s i = 0) ∧ kraftSum s.tableLengths ≠ 2 ^ 32 ∧
      hufBldlEffect s = .ok (s.begunFromLengths, .corrupt .eHTable 0x100)) ∨
    (¬ (∀ i, i < s.csrNat HUF_N → codeLength s i = 0) ∧ kraftSum s.tableLengths = 2 ^ 32 ∧
      hufBldlEffect s = .ok (s.builtFromLengths, .complete)) := by
  rw [← tableLengths_all_zero_iff, hufBldlEffect, h]
  by_cases hzero : s.tableLengths.all (fun l => decide (l = 0)) = true
  · exact .inl ⟨hzero, if_pos hzero⟩
  · by_cases hkraft : kraftSum s.tableLengths = 2 ^ 32
    · exact .inr (.inr ⟨hzero, hkraft, (if_neg hzero).trans (if_neg (not_not.2 hkraft))⟩)
    · exact .inr (.inl ⟨hzero, hkraft, (if_neg hzero).trans (if_pos hkraft)⟩)

theorem exec_hufBldl_of_pass {s : State} (hrej : buildRejects s 1 = none) :
    exec .hufBldl s = conclude (hufBldlEffect s) := by
  rw [exec_eq_conclude, effectOf, checked_pass ((firstFailure_hufBldlChecks s).trans hrej)]

/-- A completed HUF.BLDL has passed its checks, read lengths of at most 32, and left the tree of no code or of a
complete table (R205). -/
theorem hufBldl_complete {s t : State} (h : exec .hufBldl s = .next t) (hl : t.last = .complete) :
    buildRejects s 1 = none ∧ (∀ i, i < s.csrNat HUF_N → codeLength s i ≤ 32) ∧
      (((∀ i, i < s.csrNat HUF_N → codeLength s i = 0) ∧ t = completed s.builtWithoutCodes) ∨
        (kraftSum s.tableLengths = 2 ^ 32 ∧ t = completed s.builtFromLengths)) := by
  have hrej : buildRejects s 1 = none := by
    cases hrej : buildRejects s 1 with
    | none => rfl
    | some p =>
      rw [((treeBuilderChecks s p.1 p.2).2 hrej)] at h
      cases h
      cases hl
  rw [exec_hufBldl_of_pass hrej] at h
  cases hread : readLengths s (s.csrNat HUF_N) 0 with
  | fault f =>
    rw [hufBldlEffect, hread] at h
    cases h
  | tooLong i =>
    rw [hufBldlEffect, hread] at h
    cases h
    cases hl
  | lengths ls =>
    obtain ⟨hls, hmax⟩ := readLengths_lengths hread
    simp only [Nat.zero_add] at hls hmax
    subst hls
    refine ⟨hrej, hmax, ?_⟩
    rcases hufBldlEffect_of_lengths hread with ⟨hzero, he⟩ | ⟨-, -, he⟩ | ⟨-, hkraft, he⟩ <;> rw [he] at h <;> cases h
    · exact .inl ⟨hzero, rfl⟩
    · cases hl
    · exact .inr ⟨hkraft, rfl⟩

/-- The canonical order lists the symbols in use. -/
theorem canonicalOrder_length {s : State} (hmax : ∀ i, i < s.csrNat HUF_N → codeLength s i ≤ 32) :
    (canonicalOrder s.tableLengths).length = usedSymbols s (codeLength s) := by
  rw [State.tableLengths, (canonicalOrder_perm hmax).length_eq, List.length_map, usedSymbols]

theorem usedSymbols_eq_zero {s : State} {entry : Nat → Nat} (h : ∀ i, i < s.csrNat HUF_N → entry i = 0) :
    usedSymbols s entry = 0 := by
  rw [usedSymbols, List.length_eq_zero_iff, List.filter_eq_nil_iff]
  intro i hi
  rw [decide_eq_true_eq, not_not]
  exact h i (List.mem_range.1 hi)

/-- A complete table has codes. -/
theorem usedSymbols_pos_of_kraft {s : State} (hmax : ∀ i, i < s.csrNat HUF_N → codeLength s i ≤ 32)
    (hkraft : kraftSum s.tableLengths = 2 ^ 32) : 0 < usedSymbols s (codeLength s) := by
  have hvolume : volume (canonicalOrder s.tableLengths) = 2 ^ 32 := by
    rw [State.tableLengths, volume_canonicalOrder hmax, ← kraftSum_tableLengths, hkraft]
  rw [← canonicalOrder_length hmax]
  refine List.length_pos_iff.2 fun hnil => ?_
  rw [hnil] at hvolume
  cases hvolume

section complete
variable {s : State} (hrej : buildRejects s 1 = none)
include hrej

theorem begunFromLengths_hnsym : s.begunFromLengths.hnsym.toNat = s.csrNat HUF_N := by
  obtain ⟨-, hmax, -⟩ := buildRejects_none hrej
  rw [State.begunFromLengths, State.beginTree_hnsym, BitVec.toNat_ofNat]
  omega

variable (hmax : ∀ i, i < s.csrNat HUF_N → codeLength s i ≤ 32) (hkraft : kraftSum s.tableLengths = 2 ^ 32)
include hmax hkraft

/-- The trie of the table. -/
theorem tableTree_grown : ∃ level, Growing (lengthStart (s.csrNat HUF_N) s.hc0 s.hc1) (s.csrNat HUF_N) (2 ^ 32) level []
    (codesFrom 0 (canonicalOrder s.tableLengths)) (lengthTree s.tableLengths s.hc0 s.hc1) := by
  obtain ⟨-, hn, -⟩ := buildRejects_none hrej
  rw [kraftSum_tableLengths] at hkraft
  exact lengthTree_grown hn hmax hkraft s.hc0 s.hc1

/-- HNEXT after the build: one internal node for each code but one (R205). -/
theorem lengthTree_next : (lengthTree s.tableLengths s.hc0 s.hc1).next + 1 =
    s.csrNat HUF_N + usedSymbols s (codeLength s) := by
  obtain ⟨level, hgrown⟩ := tableTree_grown hrej hmax hkraft
  rw [hgrown.count, codesFrom_length, canonicalOrder_length hmax]
  rfl

end complete

/-- A filled slot is a listed child. -/
theorem withTree_child_of_filled (u : State) {t : TreeBuild} {c : Bool} {n : Nat} (h : t.child c n ≠ EMPTY) :
    (u.withTree t).child c n = some (t.child c n) := by
  have hcell : ∀ {x : Option Node}, x.getD EMPTY ≠ EMPTY → x = some (x.getD EMPTY) := fun {x} hx => by
    cases x with
    | none => exact absurd rfl hx
    | some v => rfl
  cases c
  · exact hcell h
  · exact hcell h

/-- Bits that lead to a leaf are a walk to it, whatever bits follow (R206). -/
theorem refWalk_of_leads {t : TreeBuild} {u : State} {first : Nat} (hsym : u.hnsym.toNat = first) {p : List Bool}
    {n x : Nat} (h : t.Leads first p n x) (hx : x < first) (rest : List Bool) :
    refWalk (u.withTree t) false (p ++ rest) n = some (x, rest) := by
  have hsym : (u.withTree t).hnsym.toNat = first := hsym
  induction p generalizing n with
  | nil =>
    obtain rfl : n = x := h
    rw [List.nil_append]
    cases rest with
    | nil => rw [refWalk, hsym, if_pos hx]
    | cons b bs => rw [refWalk, hsym, if_pos hx]
  | cons c p ih =>
    obtain ⟨hle, -, hne, hrest⟩ := h
    rw [List.cons_append, refWalk, hsym, if_neg (Nat.not_lt.2 hle), Bool.bne_false, withTree_child_of_filled u hne,
      Option.getD_some]
    exact ih hrest

/-- Settles O35 (it holds): the symbol's code is one of those inserted. -/
theorem hufBldlDecodesCanonicalCodes : Obligations.HufBldlDecodesCanonicalCodes := by
  intro s t h hl sym hsym hne rest
  obtain ⟨hrej, hmax, hend⟩ := hufBldl_complete h hl
  obtain ⟨-, hn, -⟩ := buildRejects_none hrej
  rcases hend with ⟨hzero, -⟩ | ⟨hkraft, rfl⟩
  · exact absurd (hzero sym hsym) hne
  · obtain ⟨level, hgrown⟩ := tableTree_grown hrej hmax hkraft
    have hcode := hgrown.codes _ (canonicalCode_mem_codesFrom hmax hsym hne)
    have hroot : (completed s.builtFromLengths).hroot.toNat = s.csrNat HUF_N := by
      have hroot : (completed s.builtFromLengths).hroot = BitVec.ofNat 32 (s.csrNat HUF_N) := hgrown.root
      rw [hroot, BitVec.toNat_ofNat]
      omega
    have hwalk := refWalk_of_leads (begunFromLengths_hnsym hrej) hcode hsym rest
    rw [hroot, ← hwalk]
    exact refWalk_congr (t := completed s.builtFromLengths) (s := s.builtFromLengths) rfl (fun _ _ => rfl) _ _ _

/-- The tree of a completed HUF.BLDL: the root NIL or the first internal node, every child a node in use, a leaf only
with a code (R200, R209). -/
structure LengthTree (s t : State) : Prop where
  hnsym : t.hnsym.toNat = s.csrNat HUF_N
  root : t.hroot = NIL ∨ (t.hroot.toNat = s.csrNat HUF_N ∧ s.csrNat HUF_N < t.hnext.toNat)
  children : ∀ n, s.csrNat HUF_N ≤ n → n < t.hnext.toNat → ∀ c, ∃ m, t.child c n = some m ∧
    m.toNat < t.hnext.toNat ∧ (m.toNat < s.csrNat HUF_N → codeLength s m.toNat ≠ 0)

theorem lengthTree_of_hufBldl {s t : State} (h : exec .hufBldl s = .next t) (hl : t.last = .complete) :
    LengthTree s t := by
  obtain ⟨hrej, hmax, hend⟩ := hufBldl_complete h hl
  obtain ⟨-, hn, -⟩ := buildRejects_none hrej
  rcases hend with ⟨-, rfl⟩ | ⟨hkraft, rfl⟩
  · have hnext : (completed s.builtWithoutCodes).hnext.toNat = s.csrNat HUF_N := Nat.mod_eq_of_lt (by omega)
    exact ⟨begunFromLengths_hnsym hrej, .inl rfl, fun n hle hlt => absurd hlt (by rw [hnext]; exact Nat.not_lt.2 hle)⟩
  · obtain ⟨level, hgrown⟩ := tableTree_grown hrej hmax hkraft
    have hcount := lengthTree_next hrej hmax hkraft
    have hused := usedSymbols_le s (codeLength s)
    have hnext : (completed s.builtFromLengths).hnext.toNat = (lengthTree s.tableLengths s.hc0 s.hc1).next :=
      Nat.mod_eq_of_lt (by omega)
    have hroot : (completed s.builtFromLengths).hroot.toNat = s.csrNat HUF_N := by
      have hroot : (completed s.builtFromLengths).hroot = BitVec.ofNat 32 (s.csrNat HUF_N) := hgrown.root
      rw [hroot, BitVec.toNat_ofNat]
      omega
    refine ⟨begunFromLengths_hnsym hrej, .inr ⟨hroot, by rw [hnext]; exact hgrown.rooted⟩, fun n hle hlt c => ?_⟩
    rw [hnext] at hlt ⊢
    have hfilled : (lengthTree s.tableLengths s.hc0 s.hc1).child c n ≠ EMPTY :=
      fun he => absurd ((hgrown.empty_iff n c hle hlt).1 he) List.not_mem_nil
    refine ⟨_, withTree_child_of_filled s.begunFromLengths hfilled, ?_⟩
    rcases hgrown.children n c hle hlt hfilled with ⟨hin, hlt'⟩ | hleaf
    · exact ⟨hlt', fun hsym => absurd hsym (Nat.not_lt.2 hin)⟩
    · rw [codesFrom_map_snd] at hleaf
      obtain ⟨e, he, hsym⟩ := List.mem_map.1 hleaf
      obtain ⟨hlt', hlen, hpos, -⟩ := (mem_canonicalOrder_iff _ _ e).1 he
      rw [← hsym]
      exact ⟨by omega, fun _ => by omega⟩

/-- Settles O32 (it holds): the merge loop's children lie below their node, and no slot of a complete trie is open. -/
theorem builtTreesAreListed : Obligations.BuiltTreesAreListed := by
  refine ⟨fun s t => hufBldw_listed, fun s t h hl => ?_⟩
  have htree := lengthTree_of_hufBldl h hl
  refine ⟨htree.root.imp_right fun ⟨hroot, hlt⟩ => hroot ▸ hlt, fun n hlt hle c => ?_⟩
  obtain ⟨m, hm, hlt', -⟩ := htree.children n (htree.hnsym ▸ hle) hlt c
  rw [hm, Option.any_some, decide_eq_true_eq]
  exact hlt'

/-- Settles O38 (it holds): the nodes a walk meets are in use, and a leaf among them has a nonzero entry. -/
theorem decodedSymbolsOccur : Obligations.DecodedSymbolsOccur := by
  refine ⟨fun s t u => decoded_symbols_occur_of_hufBldw, fun s t u h hl hdec hu => ?_⟩
  have htree := lengthTree_of_hufBldl h hl
  obtain ⟨hrej, -, hend⟩ := hufBldl_complete h hl
  obtain ⟨-, hn, -⟩ := buildRejects_none hrej
  obtain ⟨-, hchecks, -⟩ := hufDec_not_corrupt hdec hu
  obtain ⟨-, hnil⟩ := hufTreeRejects_none hchecks
  have hbase : t.base .output = s.base .output := by
    rcases hend with ⟨-, rfl⟩ | ⟨-, rfl⟩ <;> rfl
  rw [← htree.hnsym] at hn ⊢
  rw [← hbase]
  refine decoded_symbols_occur hdec hu hn (fun n hle hlt c m hm => ?_) fun hpos => ?_
  · obtain ⟨m', hm', hlt', hleaf⟩ := htree.children n (htree.hnsym ▸ hle) hlt c
    rw [hm, Option.some.injEq] at hm'
    rw [hm', htree.hnsym]
    exact ⟨hlt', hleaf⟩
  · obtain ⟨hroot, hlt⟩ := htree.root.resolve_left (hnil hpos)
    rw [hroot, htree.hnsym]
    exact ⟨hlt, fun hsym => absurd hsym (Nat.lt_irrefl _)⟩

/-! The four ends on a readable table. -/

section outcomes
variable {s : State} (hrej : buildRejects s 1 = none) (hread : s.Readable .table)
include hrej hread

/-- Reading the table: all lengths, or the first one above 32 (R203, R205). -/
theorem readLengths_of_readable :
    ((∀ i, i < s.csrNat HUF_N → codeLength s i ≤ 32) ∧
      readLengths s (s.csrNat HUF_N) 0 = .lengths s.tableLengths) ∨
    ∃ k, k < s.csrNat HUF_N ∧ 32 < codeLength s k ∧ (∀ j, j < k → codeLength s j ≤ 32) ∧
      readLengths s (s.csrNat HUF_N) 0 = .tooLong k := by
  obtain ⟨-, -, hlen, hin⟩ := buildRejects_none hrej
  have htable := readLengths_ready hin hread (s.csrNat HUF_N) 0 (by omega)
  simp only [Nat.zero_add] at htable
  exact htable

/-- A length above 32 ends the builder at the first such symbol (R205). -/
theorem hufBldl_tooLong {i : Nat} (hi : i < s.csrNat HUF_N) (hlong : 32 < codeLength s i)
    (hbefore : ∀ j, j < i → codeLength s j ≤ 32) : exec .hufBldl s =
      .next (stoppedBy (emptyTree s .lengths (s.csrNat HUF_N)) .eHTable (BitVec.ofNat 32 i)) := by
  rcases readLengths_of_readable hrej hread with ⟨hmax, -⟩ | ⟨k, -, hlong', hbefore', he⟩
  · exact absurd hlong (Nat.not_lt.2 (hmax i hi))
  · obtain rfl : k = i := by
      rcases Nat.lt_trichotomy k i with hlt | heq | hlt
      · exact absurd hlong' (Nat.not_lt.2 (hbefore k hlt))
      · exact heq
      · exact absurd hlong (Nat.not_lt.2 (hbefore' i hlt))
    rw [exec_hufBldl_of_pass hrej, hufBldlEffect, he]
    rfl

variable (hmax : ∀ i, i < s.csrNat HUF_N → codeLength s i ≤ 32)
include hmax

theorem readLengths_of_max : readLengths s (s.csrNat HUF_N) 0 = .lengths s.tableLengths := by
  rcases readLengths_of_readable hrej hread with ⟨-, he⟩ | ⟨k, hk, hlong, -⟩
  · exact he
  · exact absurd hlong (Nat.not_lt.2 (hmax k hk))

/-- Without a code the builder completes with no tree (R205). -/
theorem hufBldl_withoutCodes (hzero : ∀ i, i < s.csrNat HUF_N → codeLength s i = 0) : exec .hufBldl s =
    .next (completed { emptyTree s .lengths (s.csrNat HUF_N) with hvalid := true }) := by
  rcases hufBldlEffect_of_lengths (readLengths_of_max hrej hread hmax) with ⟨-, he⟩ | ⟨hne, -⟩ | ⟨hne, -⟩
  · rw [exec_hufBldl_of_pass hrej, he]
    rfl
  · exact absurd hzero hne
  · exact absurd hzero hne

/-- Lengths that fail the Kraft equality end the builder (R204, R205). -/
theorem hufBldl_incomplete (hused : usedSymbols s (codeLength s) ≠ 0) (hkraft : kraftSum s.tableLengths ≠ 2 ^ 32) :
    exec .hufBldl s = .next (stoppedBy (emptyTree s .lengths (s.csrNat HUF_N)) .eHTable 0x100) := by
  rcases hufBldlEffect_of_lengths (readLengths_of_max hrej hread hmax) with ⟨hzero, -⟩ | ⟨-, -, he⟩ | ⟨-, hk, -⟩
  · exact absurd (usedSymbols_eq_zero hzero) hused
  · rw [exec_hufBldl_of_pass hrej, he]
    rfl
  · exact absurd hk hkraft

/-- Lengths that meet the Kraft equality are built (R204, R205). -/
theorem hufBldl_builds (hkraft : kraftSum s.tableLengths = 2 ^ 32) :
    exec .hufBldl s = .next (completed s.builtFromLengths) := by
  have hused := usedSymbols_pos_of_kraft hmax hkraft
  rcases hufBldlEffect_of_lengths (readLengths_of_max hrej hread hmax) with ⟨hzero, -⟩ | ⟨-, hk, -⟩ | ⟨-, -, he⟩
  · exact absurd (usedSymbols_eq_zero hzero) hused.ne'
  · exact absurd hkraft hk
  · rw [exec_hufBldl_of_pass hrej, he]
    rfl

end outcomes

/-- Settles O34 (it holds): one lemma for each end; the invariant gives the last one's registers and node RAM. -/
theorem hufBldlOutcomes : Obligations.HufBldlOutcomes := by
  intro s hrej hread
  rw [← kraftSum_tableLengths]
  refine ⟨fun i => hufBldl_tooLong hrej hread, fun hzero => ?_, hufBldl_incomplete hrej hread, fun hmax hkraft => ?_⟩
  · exact hufBldl_withoutCodes hrej hread (fun i hi => by rw [hzero i hi]; exact Nat.zero_le _) hzero
  · have hused := usedSymbols_pos_of_kraft hmax hkraft
    have hcount := lengthTree_next hrej hmax hkraft
    have hnext : s.csrNat HUF_N + usedSymbols s (codeLength s) - 1 =
        (lengthTree s.tableLengths s.hc0 s.hc1).next := by omega
    obtain ⟨level, hgrown⟩ := tableTree_grown hrej hmax hkraft
    have hroot : BitVec.ofNat 32 (s.csrNat HUF_N) = (lengthTree s.tableLengths s.hc0 s.hc1).root := hgrown.root.symm
    rw [hnext]
    refine ⟨(lengthTree s.tableLengths s.hc0 s.hc1).hc0, (lengthTree s.tableLengths s.hc0 s.hc1).hc1, ?_, hgrown.kept⟩
    rw [hufBldl_builds hrej hread hmax hkraft, hroot]
    rfl

end Sys2Proof.Machine

/-! The checks of PP.ASM and PP.ALPHA (spec/44_planar.md R231, R234) as the rules print them. -/

namespace Sys2Proof.Machine
open Sys2Proof.Claims

/-! The rows both tables begin with. -/

/-- Row 1 of both tables: the must-be-zero bits of PP_FMT (R32). -/
theorem badFormatBits_iff (s : State) : s.badFormatBits = true ↔ BadFormat s := by
  have hlow : (s.csr PP_FMT >>> 14) &&& 3 ≠ 0 ↔ bitsOf (s.csr PP_FMT) 14 2 ≠ 0 := by
    rw [← shift_mask_toNat _ 14 2 (by decide), ne_eq, BitVec.toNat_eq]
    rfl
  have hhigh := shift_ne_zero_iff (s.csr PP_FMT) (lo := 20) (width := 12) (by decide)
  rw [BadFormat, hlow, hhigh, State.badFormatBits, Bool.or_eq_true, decide_eq_true_eq, decide_eq_true_eq]

/-- Row 2 of both tables: CC out of 1 .. 4. -/
theorem badChannels_iff (s : State) : s.badChannels = true ↔ s.channels = 0 ∨ 4 < s.channels := by
  have hmax : PLANES_MAX = 4 := rfl
  rw [State.badChannels, Bool.or_eq_true, decide_eq_true_eq, decide_eq_true_eq, hmax]

/-! The rows over the planes in use (R231 rows 3, 6, 8 and 9). -/

/-- The numbers below `n` are the numbers of the planes below `n`, in order. -/
theorem range_eq_map_planes {n : Nat} (hn : n ≤ 4) :
    List.range n = (([0, 1, 2, 3] : List (Fin 4)).filter (fun c => decide (c.val < n))).map Fin.val := by
  interval_cases n <;> rfl

/-- A check of each member of a list: the first bad member decides. -/
theorem firstFailure_map {α : Type} (l : List α) (bad : α → Bool) (cause : Cause) (info : α → Word) :
    firstFailure (l.map (fun x => (bad x, cause, info x))) = (l.find? bad).map (fun x => (cause, info x)) := by
  induction l with
  | nil => rfl
  | cons x l ih => cases hx : bad x <;> simp [hx, ih]

/-- A check of each plane in use: the first bad plane decides. -/
theorem firstFailure_planes {s : State} (hn : s.channels ≤ 4) {check : Nat → Check} {bad : Fin 4 → Bool} {cause : Cause}
    {info : Fin 4 → Word} (h : ∀ c : Fin 4, check c.val = (bad c, cause, info c)) :
    firstFailure ((List.range s.channels).map check) = (firstPlane s bad).map (fun c => (cause, info c)) := by
  rw [range_eq_map_planes hn, List.map_map]
  simp only [Function.comp_def, h]
  rw [firstFailure_map, firstPlane, List.find?_filter]
  simp only [Bool.decide_and, Bool.decide_eq_true]

/-- Plane `c` by its number. -/
theorem planeRegion_val (c : Fin 4) : planeRegion c.val = .plane c := by
  rw [planeRegion, Fin.ofNat_val_eq_self]

theorem cfgInfo_planeBase (c : Fin 4) : cfgInfo (Region.plane c).baseReg = planeBase c := by
  fin_cases c <;> rfl

/-- Row 6 of R231. -/
theorem firstFailure_planeLengths {s : State} (hn : s.channels ≤ 4) :
    firstFailure ((List.range s.channels).map
        (fun c => (decide (s.len (planeRegion c) < s.npix), .ePlane, BitVec.ofNat 32 c))) =
      (firstPlane s (fun c => decide (s.len (.plane c) < s.csrNat PP_W * s.csrNat PP_H))).map
        (fun c => (.ePlane, BitVec.ofNat 32 c.val)) :=
  firstFailure_planes hn fun c => by rw [planeRegion_val, State.npix]

/-- Row 8 of R231. -/
theorem firstFailure_planesInside {s : State} (hn : s.channels ≤ 4) :
    firstFailure ((List.range s.channels).map (fun c => s.insideCheck (planeRegion c))) =
      (firstPlane s (fun c => decide (¬ s.Inside (.plane c)))).map (fun c => (.eBadCfg, planeBase c)) :=
  firstFailure_planes hn fun c => by
    simp only [planeRegion_val, State.insideCheck, badCfg, cfgInfo_planeBase, not_inside_iff, Bool.decide_eq_true]

/-- Row 9 of R231. -/
theorem firstFailure_planesApart {s : State} (hn : s.channels ≤ 4) :
    firstFailure ((List.range s.channels).map (fun c => s.disjointCheck .output (planeRegion c))) =
      (firstPlane s (fun c => decide (Overlap s .output (.plane c)))).map (fun c => (.eBadCfg, planeBase c)) :=
  firstFailure_planes hn fun c => by
    simp only [planeRegion_val, State.disjointCheck, badCfg, cfgInfo_planeBase, overlap_iff, Bool.decide_eq_true]

/-- Row 3 of R231: two planes that share a lane are found with the larger number first. -/
theorem badLanes_iff {s : State} (hn : s.channels ≤ 4) : s.badLanes = true ↔
    (∃ c : Fin 4, c.val < s.channels ∧ s.channels ≤ s.lane c.val) ∨
      (∃ c d : Fin 4, c.val < s.channels ∧ d.val < s.channels ∧ c ≠ d ∧ s.lane c.val = s.lane d.val) := by
  simp only [State.badLanes, List.any_eq_true, List.mem_range, Bool.or_eq_true, decide_eq_true_eq]
  constructor
  · rintro ⟨c, hc, hlane | ⟨d, hd, heq⟩⟩
    · exact .inl ⟨⟨c, by omega⟩, hc, hlane⟩
    · exact .inr ⟨⟨c, by omega⟩, ⟨d, by omega⟩, hc, hd.trans hc, by simp only [ne_eq, Fin.mk.injEq]; omega, heq.symm⟩
  · rintro (⟨c, hc, hlane⟩ | ⟨c, d, hc, hd, hne, heq⟩)
    · exact ⟨c, hc, .inl hlane⟩
    · rcases lt_or_gt_of_ne hne with hlt | hgt
      · exact ⟨d, hd, .inr ⟨c, hlt, heq⟩⟩
      · exact ⟨c, hc, .inr ⟨d, hgt, heq.symm⟩⟩

/-! The tables. -/

/-- The model's list of checks of PP.ASM is the table R231 prints. -/
theorem firstFailure_ppAsmChecks (s : State) : firstFailure (ppAsmChecks s) = ppAsmRejects s := by
  unfold ppAsmRejects ppAsmChecks
  simp only [badCfg, List.append_assoc, List.cons_append, List.nil_append, firstFailure_cons, badFormatBits_iff,
    badChannels_iff]
  refine ite_congr rfl (fun _ => rfl) fun _ => ite_congr rfl (fun _ => rfl) fun hchannels => ?_
  have hn : s.channels ≤ 4 := by omega
  rw [firstFailure_append, ← List.singleton_append, firstFailure_append, firstFailure_append,
    firstFailure_planeLengths hn, firstFailure_planesInside hn, firstFailure_planesApart hn]
  simp only [badLanes_iff hn, not_inside_iff, State.insideCheck, badCfg, firstFailure_cons, firstFailure_nil,
    Bool.and_eq_true, decide_eq_true_eq]
  refine ite_congr rfl (fun _ => rfl) fun _ => ite_congr rfl (fun _ => rfl) fun _ =>
    ite_congr rfl (fun _ => rfl) fun _ => ?_
  cases firstPlane s _ with
  | some c => rfl
  | none =>
    cases s.regionOutside .output with
    | true => rfl
    | false =>
      cases firstPlane s _ with
      | some c => rfl
      | none => cases firstPlane s _ <;> rfl

/-- The model's list of checks of PP.ALPHA is the table R234 prints. -/
theorem firstFailure_ppAlphaChecks (s : State) : firstFailure (ppAlphaChecks s) = ppAlphaRejects s := by
  have hbits : s.alphaBits ∉ [4, 5, 7, 8] ↔
      s.alphaBits ≠ 4 ∧ s.alphaBits ≠ 5 ∧ s.alphaBits ≠ 7 ∧ s.alphaBits ≠ 8 := by simp
  unfold ppAlphaRejects ppAlphaChecks
  simp only [badFormatBits_iff, badChannels_iff, hbits, not_inside_iff, overlap_iff, State.insideCheck,
    State.disjointCheck, badCfg, firstFailure_cons, firstFailure_nil, decide_eq_true_eq]
  rfl

/-- Settles O40 (it holds): the first row that applies ends the command with nothing else changed. -/
theorem planarChecks : Obligations.PlanarChecks := by
  refine fun s c info => ⟨fun hrej => ?_, fun hrej => ?_⟩
  · rw [exec_eq_conclude, effectOf, checked_fail ((firstFailure_ppAsmChecks s).trans hrej)]
    rfl
  · rw [exec_eq_conclude, effectOf, checked_fail ((firstFailure_ppAlphaChecks s).trans hrej)]
    rfl

end Sys2Proof.Machine

/-! PP.ASM (spec/44_planar.md R231, R232, R236): the image in the course of the pixel loop holds the column sums, which the
next row of a band continues. -/

namespace Sys2Proof.Machine
open Sys2Proof.Claims

/-! What the checks establish. -/

/-- What PP.ASM needs: its checks passed, and the planes in use written (R231, R88). -/
structure AsmReady (s : State) : Prop extends AsmSafe s where
  lanes : ∀ c d, c < s.channels → d < s.channels → s.lane c = s.lane d → c = d
  apart : ∀ c, c < s.channels → s.Disjoint .output (planeRegion c)
  written : ∀ c, c < s.channels → ∀ k, k < s.npix → (s.byteAt (s.base (planeRegion c) + k)).isSome = true

theorem lanes_of_badLanes {s : State} (h : s.badLanes = false) {c d : Nat} (hc : c < s.channels) (hd : d < s.channels)
    (heq : s.lane c = s.lane d) : c = d := by
  have hne : ∀ i j, j < i → i < s.channels → s.lane j ≠ s.lane i := by
    intro i j hj hi
    have hrow := List.any_eq_false.1 h i (List.mem_range.2 hi)
    simp only [Bool.or_eq_true, not_or, List.any_eq_true, decide_eq_true_eq, List.mem_range, not_exists, not_and] at hrow
    exact hrow.2 j hj
  rcases Nat.lt_trichotomy c d with hlt | heq' | hgt
  · exact absurd heq (hne d c hlt hd)
  · exact heq'
  · exact absurd heq.symm (hne c d hgt hc)

theorem asmReady_of_rejects {s : State} (h : ppAsmRejects s = none)
    (hw : ∀ c : Fin 4, c.val < s.channels → ∀ k, k < s.npix → (s.byteAt (s.base (.plane c) + k)).isSome = true) :
    AsmReady s := by
  have hc := (firstFailure_eq_none_iff _).1 ((firstFailure_ppAsmChecks s).trans h)
  have hsafe := asmSafe_of_checks hc
  have hmax : PLANES_MAX = 4 := rfl
  simp only [ppAsmChecks, List.forall_mem_append, List.forall_mem_cons, List.forall_mem_map, List.mem_range, badCfg_fst,
    disjointCheck_fst, State.badChannels, hmax, Bool.or_eq_false_iff, decide_eq_false_iff_not, Nat.not_lt] at hc
  obtain ⟨⟨⟨⟨⟨-, ⟨-, hfour⟩, hlanes, -⟩, -⟩, -⟩, -⟩, hapart⟩ := hc
  refine ⟨hsafe, fun c d => lanes_of_badLanes hlanes, hapart, fun c hc => hw (Fin.ofNat 4 c) ?_⟩
  rwa [Fin.val_ofNat, Nat.mod_eq_of_lt (by omega)]

/-! The column sums (R236). -/

/-- The row a sum in row `y` starts from. -/
def State.topRow (s : State) (y : Nat) : Nat := if s.vdelta then y - y % (s.csrNat PP_H / 3) else y

/-- A band's first row, or any row without the vertical delta, starts its own sum. -/
theorem topRow_first {s : State} {y : Nat} (h : ¬ (s.vdelta = true ∧ y % (s.csrNat PP_H / 3) ≠ 0)) : s.topRow y = y := by
  unfold State.topRow
  split
  · rename_i hv
    have hzero : y % (s.csrNat PP_H / 3) = 0 := by tauto
    rw [hzero, Nat.sub_zero]
  · rfl

/-- Any other row starts where the row above it does. -/
theorem topRow_succ {s : State} {y : Nat} (hv : s.vdelta = true) (h : (y + 1) % (s.csrNat PP_H / 3) ≠ 0) :
    s.topRow (y + 1) = s.topRow y ∧ s.topRow y ≤ y := by
  have hdiv := Nat.succ_div_of_not_dvd (mt Nat.mod_eq_zero_of_dvd h)
  have habove := Nat.div_add_mod y (s.csrNat PP_H / 3)
  have hrow := Nat.div_add_mod (y + 1) (s.csrNat PP_H / 3)
  rw [hdiv] at hrow
  simp only [State.topRow, if_pos hv]
  omega

/-- The sum of `n` bytes of a plane's column `x` from row `y0` down. -/
def State.columnSum (s : State) (c : Fin 4) (x y0 n : Nat) : Byte :=
  (List.range n).foldl (fun v j => v + s.regionByte (.plane c) ((y0 + j) * s.csrNat PP_W + x)) 0

theorem columnSum_succ (s : State) (c : Fin 4) (x y0 n : Nat) : s.columnSum c x y0 (n + 1) =
    s.columnSum c x y0 n + s.regionByte (.plane c) ((y0 + n) * s.csrNat PP_W + x) := by
  rw [State.columnSum, List.range_succ, List.foldl_concat, ← State.columnSum]

theorem asmSum_eq (s : State) (p : Nat) (c : Fin 4) : asmSum s p c =
    s.columnSum c (p % s.csrNat PP_W) (s.topRow (p / s.csrNat PP_W))
      (p / s.csrNat PP_W - s.topRow (p / s.csrNat PP_W) + 1) := rfl

/-- In the first row of a sum stands the plane's byte. -/
theorem asmSum_first {s : State} {p : Nat} (c : Fin 4)
    (h : ¬ (s.vdelta = true ∧ p / s.csrNat PP_W % (s.csrNat PP_H / 3) ≠ 0)) :
    asmSum s p c = s.regionByte (.plane c) p := by
  rw [asmSum_eq, topRow_first h, Nat.sub_self, columnSum_succ, Nat.add_zero, Nat.div_add_mod']
  exact BitVec.zero_add _

/-- Where the vertical delta adds a row there is a row above. -/
theorem row_above {s : State} {p : Nat} (hy : p / s.csrNat PP_W % (s.csrNat PP_H / 3) ≠ 0) :
    0 < s.csrNat PP_W ∧ s.csrNat PP_W ≤ p := by
  have hdiv : p / s.csrNat PP_W ≠ 0 := fun h0 => hy (by rw [h0, Nat.zero_mod])
  obtain ⟨hw, hle⟩ := Nat.div_ne_zero_iff.1 hdiv
  exact ⟨Nat.pos_of_ne_zero hw, hle⟩

/-- In any other row the plane's byte is added to the sum of the row above it (R232). -/
theorem asmSum_next {s : State} {p : Nat} (c : Fin 4) (hv : s.vdelta = true)
    (hy : p / s.csrNat PP_W % (s.csrNat PP_H / 3) ≠ 0) :
    asmSum s p c = s.regionByte (.plane c) p + asmSum s (p - s.csrNat PP_W) c := by
  obtain ⟨hw, hle⟩ := row_above hy
  have hrow := Nat.div_eq_sub_div hw hle
  have hcolumn := Nat.mod_eq_sub_mod hle
  rw [hrow] at hy
  obtain ⟨htop, htople⟩ := topRow_succ hv hy
  have hbyte : ((p - s.csrNat PP_W) / s.csrNat PP_W + 1) * s.csrNat PP_W + p % s.csrNat PP_W = p := by
    rw [← hrow, Nat.div_add_mod']
  rw [asmSum_eq, asmSum_eq, ← hcolumn, hrow, htop, Nat.sub_add_comm htople, columnSum_succ, ← Nat.add_assoc,
    Nat.add_sub_cancel' htople, hbyte, BitVec.add_comm]

/-! The image in the course of the loop. -/

/-- The place of plane `c`'s byte of pixel `p` in OUT (R230). -/
def State.pixelAddr (s : State) (p c : Nat) : Nat := s.base .output + (p * s.channels + s.lane c)

/-- The byte stored in the first row of a sum (R231). -/
theorem asmByte_first {s : State} {p c : Nat} {v : Byte}
    (h : ¬ (s.vdelta = true ∧ p / s.csrNat PP_W % (s.csrNat PP_H / 3) ≠ 0))
    (hv : readMem s (s.base (planeRegion c) + p) = .ok v) : asmByte s p c = .ok v := by
  rw [asmByte, hv]
  exact if_neg h

/-- The byte stored in any other row (R231, R232). -/
theorem asmByte_next {s : State} {p c : Nat} {v above : Byte}
    (h : s.vdelta = true ∧ p / s.csrNat PP_W % (s.csrNat PP_H / 3) ≠ 0)
    (hv : readMem s (s.base (planeRegion c) + p) = .ok v)
    (habove : readMem s (s.pixelAddr (p - s.csrNat PP_W) c) = .ok above) : asmByte s p c = .ok (v + above) := by
  rw [State.pixelAddr] at habove
  rw [asmByte, hv]
  simp only [habove]
  exact if_pos h

/-- MEM `m` once the pixels before `p` and the planes before `c` of pixel `p` are stored: their bytes are the column sums,
and every byte outside OUT is as in `s`. -/
structure Assembled (s : State) (p c : Nat) (m : List Host.Cell) : Prop where
  stored : ∀ q d, d < s.channels → q < p ∨ (q = p ∧ d < c) →
    cellRead m (s.pixelAddr q d) = some (asmSum s q (Fin.ofNat 4 d))
  kept : ∀ a, s.OutsideOut (s.len .output) a → cellRead m a = s.byteAt a

theorem assembled_start (s : State) : Assembled s 0 0 s.mem :=
  ⟨fun q d _ h => by omega, fun _ _ => rfl⟩

/-- With all its planes stored a pixel is done. -/
theorem Assembled.nextPixel {s : State} {p : Nat} {m : List Host.Cell} (h : Assembled s p s.channels m) :
    Assembled s (p + 1) 0 m :=
  ⟨fun q d hd hq => h.stored q d hd (by omega), h.kept⟩

section assemble
variable {s : State} (hs : AsmReady s)
include hs

theorem pixelAddr_lt {p c : Nat} (hp : p < s.npix) (hc : c < s.channels) : s.pixelAddr p c < s.memSize :=
  inside_lt hs.output (hs.size ▸ lane_lt_image hp (hs.lane c hc))

/-- No two planes and pixels share a place: the lanes are distinct and below the channel count (R231). -/
theorem pixelAddr_inj {p q c d : Nat} (hc : c < s.channels) (hd : d < s.channels)
    (h : s.pixelAddr q d = s.pixelAddr p c) : q = p ∧ d = c := by
  have hlc := hs.lane c hc
  have hld := hs.lane d hd
  have h : q * s.channels + s.lane d = p * s.channels + s.lane c := Nat.add_left_cancel h
  have hq : q = p := by
    have hdiv := congrArg (· / s.channels) h
    simpa only [Nat.mul_comm _ s.channels, Nat.mul_add_div (Nat.zero_lt_of_lt hc), Nat.div_eq_of_lt hlc,
      Nat.div_eq_of_lt hld, Nat.add_zero] using hdiv
  subst hq
  exact ⟨rfl, hs.lanes d c hd hc (Nat.add_left_cancel h)⟩

/-- A plane's byte read in the course of the loop: the loop stores outside the planes. -/
theorem readMem_plane {c k : Nat} {m : List Host.Cell}
    (hm : ∀ a, s.OutsideOut (s.len .output) a → cellRead m a = s.byteAt a) (hc : c < s.channels) (hk : k < s.npix) :
    readMem (s.setMem m) (s.base (planeRegion c) + k) = .ok (s.regionByte (planeRegion c) k) := by
  obtain ⟨hin, hlen⟩ := hs.plane c hc
  obtain ⟨b, hb⟩ := Option.isSome_iff_exists.1 (hs.written c hc k hk)
  have hread := hm _ (outsideOut_of_disjoint (hs.apart c hc) (hk.trans_le hlen) le_rfl)
  refine readMem_ok (inside_lt hin (hk.trans_le hlen)) (hread.trans ?_)
  rw [State.regionByte, hb, Option.getD_some]

/-- The byte computed for the next place is its column sum (R231, R232, R236). -/
theorem asmByte_assembled {p c : Nat} {m : List Host.Cell} (hm : Assembled s p c m) (hp : p < s.npix)
    (hc : c < s.channels) : asmByte (s.setMem m) p c = .ok (asmSum s p (Fin.ofNat 4 c)) := by
  have hplane := readMem_plane hs hm.kept hc hp
  by_cases hdelta : s.vdelta = true ∧ p / s.csrNat PP_W % (s.csrNat PP_H / 3) ≠ 0
  · obtain ⟨hv, hy⟩ := hdelta
    obtain ⟨hw, hle⟩ := row_above hy
    have habove : readMem (s.setMem m) (s.pixelAddr (p - s.csrNat PP_W) c) =
        .ok (asmSum s (p - s.csrNat PP_W) (Fin.ofNat 4 c)) :=
      readMem_ok (pixelAddr_lt hs (by omega) hc) (hm.stored _ c hc (.inl (by omega)))
    rw [asmByte_next (s := s.setMem m) ⟨hv, hy⟩ hplane habove, asmSum_next _ hv hy, planeRegion]
  · rw [asmByte_first (s := s.setMem m) hdelta hplane, asmSum_first _ hdelta, planeRegion]

/-- Storing that byte. -/
theorem Assembled.store {p c : Nat} {m : List Host.Cell} (hm : Assembled s p c m) (hp : p < s.npix)
    (hc : c < s.channels) :
    Assembled s p (c + 1) (cellWrite m (s.pixelAddr p c) (asmSum s p (Fin.ofNat 4 c))) := by
  refine ⟨fun q d hd hq => ?_, fun a ha => ?_⟩
  · by_cases heq : s.pixelAddr q d = s.pixelAddr p c
    · obtain ⟨rfl, rfl⟩ := pixelAddr_inj hs hc hd heq
      exact cellRead_cellWrite_self _ _ _
    · rw [cellRead_cellWrite_ne _ _ heq]
      refine hm.stored q d hd ?_
      by_contra hlast
      obtain ⟨rfl, rfl⟩ : q = p ∧ d = c := by omega
      exact heq rfl
  · have hlt := hs.size ▸ lane_lt_image hp (hs.lane c hc)
    rw [cellRead_cellWrite_ne _ _ (by unfold State.pixelAddr; omega), hm.kept a ha]

/-- The planes of one pixel. -/
theorem asmPixel_assembled {p n c : Nat} {m : List Host.Cell} (hm : Assembled s p c m) (hp : p < s.npix)
    (hn : c + n = s.channels) :
    ∃ m', asmPixel p n c (s.setMem m) = .ok (s.setMem m') ∧ Assembled s p s.channels m' := by
  induction n generalizing c m with
  | zero => exact ⟨m, rfl, hn ▸ hm⟩
  | succ n ih =>
    have hc : c < s.channels := by omega
    obtain ⟨m', hloop, hm'⟩ := ih (hm.store hs hp hc) (by omega)
    refine ⟨m', ?_, hm'⟩
    rw [asmPixel, asmByte_assembled hs hm hp hc]
    have hwrite : writeMem (s.setMem m) (s.base .output + (p * s.channels + s.lane c)) (asmSum s p (Fin.ofNat 4 c)) = _ :=
      writeMem_ok (pixelAddr_lt hs hp hc)
    simp only [State.setMem_base, State.setMem_channels, State.setMem_lane, hwrite]
    exact hloop

/-- The pixels from pixel `p` on. -/
theorem asmImage_assembled {n p : Nat} {m : List Host.Cell} (hm : Assembled s p 0 m) (hn : p + n = s.npix) :
    ∃ m', asmImage n p (s.setMem m) = .ok (s.setMem m') ∧ Assembled s s.npix 0 m' := by
  induction n generalizing p m with
  | zero => exact ⟨m, rfl, hn ▸ hm⟩
  | succ n ih =>
    obtain ⟨m', hpixel, hm'⟩ := asmPixel_assembled hs hm (by omega) (Nat.zero_add s.channels)
    obtain ⟨m'', hrest, hm''⟩ := ih hm'.nextPixel (by omega)
    refine ⟨m'', ?_, hm''⟩
    rw [asmImage, State.setMem_channels, hpixel]
    exact hrest

end assemble

/-- Settles O41 (it holds): the pixel loop from its start, over the whole image. -/
theorem ppAsmSumsColumns : Obligations.PpAsmSumsColumns := by
  intro s hrej hwritten
  have hs := asmReady_of_rejects hrej hwritten
  obtain ⟨m, hloop, hm⟩ := asmImage_assembled hs (assembled_start s) (Nat.zero_add s.npix)
  refine ⟨m, ?_, fun p c hp hc => ?_, hm.kept⟩
  · have hself : s.setMem s.mem = s := rfl
    rw [hself] at hloop
    rw [exec_eq_conclude, effectOf, checked_pass ((firstFailure_ppAsmChecks s).trans hrej), ppAsmEffect, hloop]
    rfl
  · have hstored := hm.stored p c hc (.inl hp)
    rwa [Fin.ofNat_val_eq_self] at hstored

end Sys2Proof.Machine

/-! PP.ALPHA against the run list (spec/44_planar.md R233 to R235): the alpha lane in the course of the run loop, and runs
that cover the image. -/

namespace Sys2Proof.Machine
open Sys2Proof.Claims

/-! What the checks establish. -/

/-- What PP.ALPHA needs: its checks passed, and the table written (R234, R88). -/
structure AlphaReady (s : State) : Prop extends AlphaSafe s where
  apart : s.Disjoint .output .table
  readable : s.Readable .table

theorem alphaReady_of_rejects {s : State} (h : ppAlphaRejects s = none) (hr : s.Readable .table) : AlphaReady s := by
  have hc := (firstFailure_eq_none_iff _).1 ((firstFailure_ppAlphaChecks s).trans h)
  simp only [ppAlphaChecks, List.forall_mem_cons, badCfg_fst, insideCheck_fst, disjointCheck_fst,
    regionOutside_eq_false_iff, decide_eq_false_iff_not, not_not, Nat.not_le] at hc
  obtain ⟨-, -, hlane, -, hsize, -, hout, htable, hapart, -⟩ := hc
  exact ⟨⟨hout, hsize, hlane, htable⟩, hapart, hr⟩

/-! A table entry (R233). -/

theorem bitsOf_value (e : Word) : bitsOf e 0 8 = e.toNat % 256 := by
  rw [bitsOf, Nat.pow_zero, Nat.div_one]
  rfl

theorem bitsOf_run (e : Word) : bitsOf e 8 24 = e.toNat / 256 := by
  have hlt := e.isLt
  rw [bitsOf, Nat.mod_eq_of_lt (by omega)]
  rfl

/-! The alpha lane in the course of the loop. -/

/-- The place of pixel `p`'s alpha byte in OUT (R230). -/
def State.alphaAddr (s : State) (p : Nat) : Nat := s.base .output + (p * s.channels + s.alphaLane)

/-- MEM `m` once the alpha bytes `done` stand in the first pixels, every other byte being as in `s`. -/
structure Overlaid (s : State) (done : List Byte) (m : List Host.Cell) : Prop where
  laid : ∀ k, k < done.length → cellRead m (s.alphaAddr k) = done[k]?
  kept : ∀ a, (∀ k, k < done.length → a ≠ s.alphaAddr k) → cellRead m a = s.byteAt a

theorem overlaid_nil (s : State) : Overlaid s [] s.mem :=
  ⟨fun k hk => absurd hk (Nat.not_lt_zero k), fun _ _ => rfl⟩

section alpha
variable {s : State} (hs : AlphaReady s)
include hs

theorem alphaAddr_inj {p q : Nat} (h : s.alphaAddr q = s.alphaAddr p) : q = p := by
  have hpos : 0 < s.channels := Nat.zero_lt_of_lt hs.lane
  have hmul : q * s.channels = p * s.channels := Nat.add_right_cancel (Nat.add_left_cancel h)
  exact Nat.eq_of_mul_eq_mul_right hpos hmul

theorem alphaAddr_mem_output {p : Nat} (hp : p < s.npix) : p * s.channels + s.alphaLane < s.len .output :=
  hs.size ▸ lane_lt_image hp hs.lane

/-- One more alpha byte. -/
theorem Overlaid.append {done : List Byte} {m : List Host.Cell} (h : Overlaid s done m) (a : Byte) :
    Overlaid s (done ++ [a]) (cellWrite m (s.alphaAddr done.length) a) := by
  refine ⟨fun k hk => ?_, fun x hx => ?_⟩
  · rw [List.length_append, List.length_singleton] at hk
    rcases Nat.lt_succ_iff_lt_or_eq.1 hk with hlt | rfl
    · rw [cellRead_cellWrite_ne _ _ fun heq => hlt.ne (alphaAddr_inj hs heq), h.laid k hlt,
        List.getElem?_append_left hlt]
    · rw [cellRead_cellWrite_self, List.getElem?_concat_length]
  · rw [List.length_append, List.length_singleton] at hx
    rw [cellRead_cellWrite_ne _ _ (hx _ (Nat.lt_succ_self _)), h.kept x fun k hk => hx k (by omega)]

/-- One run (R234). -/
theorem fillAlpha_overlaid (a : Byte) {n : Nat} {done : List Byte} {m : List Host.Cell} (h : Overlaid s done m)
    (hn : done.length + n ≤ s.npix) :
    ∃ m', fillAlpha a n done.length (s.setMem m) = .ok (s.setMem m') ∧ Overlaid s (done ++ List.replicate n a) m' := by
  induction n generalizing done m with
  | zero => exact ⟨m, rfl, by rwa [List.replicate_zero, List.append_nil]⟩
  | succ n ih =>
    obtain ⟨m', hrest, hm'⟩ := ih (h.append hs a) (by rw [List.length_append, List.length_singleton]; omega)
    rw [List.length_append, List.length_singleton] at hrest
    rw [List.append_assoc, List.singleton_append, ← List.replicate_succ] at hm'
    refine ⟨m', ?_, hm'⟩
    have hwrite : writeMem (s.setMem m) (s.base .output + (done.length * s.channels + s.alphaLane)) a = _ :=
      writeMem_ok (inside_lt hs.output (alphaAddr_mem_output hs (by omega)))
    simp only [fillAlpha, State.setMem_base, State.setMem_channels, State.setMem_alphaLane, hwrite]
    exact hrest

/-- A table entry read in the course of the loop: the alpha lane is apart from the table. -/
theorem readMem32_overlaid {done : List Byte} {m : List Host.Cell} (h : Overlaid s done m) (hd : done.length ≤ s.npix)
    {k : Nat} (hk : k < s.len .table / 4) : readMem32 (s.setMem m) (s.base .table + 4 * k) = .ok (s.tableEntry k) := by
  have hkeep : s.KeepsRegion .table m := by
    refine fun j hj => h.kept _ fun p hp => ?_
    exact (disjoint_separate hs.apart (alphaAddr_mem_output hs (hp.trans_le hd)) hj).symm
  have hread : (s.setMem m).Readable .table := fun j hj => by
    show (cellRead m (s.base .table + j)).isSome = true
    rw [hkeep j hj]
    exact hs.readable j hj
  have hbyte : ∀ j, j < s.len .table → (s.setMem m).regionByte .table j = s.regionByte .table j := fun j hj =>
    congrArg (Option.getD · 0) (hkeep j hj)
  have hentry : (s.setMem m).tableEntry k = s.tableEntry k := by
    rw [State.tableEntry, hbyte _ (by omega), hbyte _ (by omega), hbyte _ (by omega), hbyte _ (by omega),
      ← State.tableEntry]
  rw [← hentry]
  exact readMem32_table (s := s.setMem m) hs.table hread (by rw [State.setMem_len]; omega)

/-- The run loop lays what the run list does (R234). -/
theorem alphaRuns_overlaid (expand : Nat → Nat → Byte) {n k : Nat} {done : List Byte} {m : List Host.Cell}
    (h : Overlaid s done m) (hd : done.length ≤ s.npix) (hn : k + n = s.len .table / 4) :
    let r := refAlpha s.npix s.alphaBits expand ((List.range n).map (fun i => s.tableEntry (k + i))) k done
    ∃ m', alphaRuns expand n k done.length (s.setMem m) = .ok ((s.setMem m').setProduced r.1.length, r.2) ∧
      Overlaid s r.1 m' ∧ r.1.length ≤ s.npix := by
  induction n generalizing k done m with
  | zero => exact ⟨m, rfl, h, hd⟩
  | succ n ih =>
    rw [range_succ_map_add, alphaRuns, State.setMem_base, readMem32_overlaid hs h hd (by omega)]
    simp only [refAlpha, bitsOf_value, bitsOf_run, State.setMem_alphaBits, State.setMem_npix]
    split
    · exact ⟨m, rfl, h, hd⟩
    · split
      · exact ⟨m, rfl, h, hd⟩
      · rename_i hfit
        obtain ⟨m', hfill, hm'⟩ := fillAlpha_overlaid hs
          (alphaValue expand s.alphaBits ((s.tableEntry k).toNat % 256)) h (Nat.not_lt.1 hfit)
        rw [hfill]
        have hrest := ih (k := k + 1) hm' (by rw [List.length_append, List.length_replicate]; omega) (by omega)
        rwa [List.length_append, List.length_replicate] at hrest

end alpha

/-! Runs that cover the image. -/

/-- Runs whose values fit and that sum to the pixels left complete the image (R234). -/
theorem refAlpha_covers {npix bits : Nat} {expand : Nat → Nat → Byte} {es : List Word} {k : Nat} {done : List Byte}
    (hfit : ∀ e ∈ es, bits = 8 ∨ e.toNat % 256 < 2 ^ bits)
    (hsum : done.length + (es.map (fun e => e.toNat / 256)).sum = npix) :
    (refAlpha npix bits expand es k done).2 = .complete ∧ (refAlpha npix bits expand es k done).1.length = npix := by
  induction es generalizing k done with
  | nil =>
    rw [List.map_nil, List.sum_nil] at hsum
    exact ⟨if_neg (by omega), hsum⟩
  | cons e es ih =>
    rw [List.map_cons, List.sum_cons] at hsum
    rw [List.forall_mem_cons] at hfit
    obtain ⟨hvalue, hrest⟩ := hfit
    rw [refAlpha, if_neg (by omega), if_neg (by omega)]
    exact ih hrest (by rw [List.length_append, List.length_replicate]; omega)

/-- On a readable table that passes the checks PP.ALPHA is the run list, laid over the alpha lane (R234). -/
theorem exec_ppAlpha_of_ready {s : State} (hrej : ppAlphaRejects s = none) (hs : AlphaReady s) :
    let r := refAlpha s.npix s.alphaBits alphaExpand (alphaEntries s) 0 []
    ∃ m, exec .ppAlpha s = .next (applyEnding r.2 { s with mem := m, produced := BitVec.ofNat 32 r.1.length }) ∧
      Overlaid s r.1 m ∧ r.1.length ≤ s.npix := by
  have hcleared : AlphaReady (s.setProduced 0) := ⟨⟨hs.output, hs.size, hs.lane, hs.table⟩, hs.apart, hs.readable⟩
  obtain ⟨m, hloop, hm, hlen⟩ := alphaRuns_overlaid hcleared alphaExpand (n := s.len .table / 4) (k := 0)
    (overlaid_nil (s.setProduced 0)) (Nat.zero_le _) (Nat.zero_add _)
  have hentries : (List.range (s.len .table / 4)).map (fun i => (s.setProduced 0).tableEntry (0 + i)) = alphaEntries s := by
    simp only [Nat.zero_add]
    rfl
  rw [hentries] at hloop hm hlen
  refine ⟨m, ?_, ⟨hm.laid, hm.kept⟩, hlen⟩
  have hstart : (s.setProduced 0).setMem (s.setProduced 0).mem = s.setProduced 0 := rfl
  rw [hstart] at hloop
  rw [exec_eq_conclude, effectOf, checked_pass ((firstFailure_ppAlphaChecks s).trans hrej)]
  exact congrArg conclude hloop

/-- Settles O42 (it holds): the run loop from its start; runs that cover the image are a fact about the run list. -/
theorem ppAlphaLaysRuns : Obligations.PpAlphaLaysRuns := by
  intro s hrej hread r
  obtain ⟨m, hexec, hm, hlen⟩ := exec_ppAlpha_of_ready hrej (alphaReady_of_rejects hrej hread)
  refine ⟨⟨m, hexec, hlen, hm.laid, hm.kept⟩, fun hfit hsum => ?_⟩
  obtain ⟨hcomplete, hcovers⟩ := refAlpha_covers (npix := s.npix) (expand := alphaExpand) (k := 0) (done := []) hfit
    ((Nat.zero_add _).trans hsum)
  refine ⟨hcomplete, hcovers, m, ?_⟩
  rw [hexec, hcomplete, hcovers]
  rfl

end Sys2Proof.Machine

/-! The checks of the cipher commands (spec/45_cipher.md R262, R264, R266, R267) as the rules print them. -/

namespace Sys2Proof.Machine
open Sys2Proof.Claims

/-- The model's list of checks of KS.LCG and KS.PM is the one R262 and R264 print. -/
theorem firstFailure_streamChecks (s : State) : firstFailure [s.insideCheck .output] = streamRejects s := by
  unfold streamRejects
  simp only [not_inside_iff, State.insideCheck, badCfg, firstFailure_cons, firstFailure_nil]
  rfl

/-- The model's list of checks of KS.HASH is the one R266 prints. -/
theorem firstFailure_ksHashChecks (s : State) : firstFailure (ksHashChecks s) = ksHashRejects s := by
  unfold ksHashRejects ksHashChecks
  simp only [not_inside_iff, overlap_iff, State.insideCheck, State.disjointCheck, badCfg, firstFailure_cons,
    firstFailure_nil]
  rfl

/-- The model's list of checks of KS.RAW is the one R267 prints. -/
theorem firstFailure_ksRawChecks (s : State) : firstFailure (ksRawChecks s) = ksRawRejects s := by
  unfold ksRawRejects ksRawChecks
  simp only [not_inside_iff, overlap_iff, State.insideCheck, State.disjointCheck, badCfg, firstFailure_cons,
    firstFailure_nil, decide_eq_true_eq]
  rfl

/-- A failing check ends the command with nothing else changed (R131, R295). -/
theorem conclude_checked_fail {cs : List Check} {c : Cause} {info : Word} (h : firstFailure cs = some (c, info))
    (s : State) (body : Effect) : conclude (checked cs s body) = .next (stoppedBy s c info) := by
  rw [checked_fail h]
  rfl

/-- Settles O43 (it holds): the first failing check ends the command with nothing else changed. -/
theorem cipherChecks : Obligations.CipherChecks := fun s _ _ _ =>
  ⟨fun hrej => conclude_checked_fail ((firstFailure_streamChecks s).trans hrej) s _,
    fun hrej => conclude_checked_fail ((firstFailure_streamChecks s).trans hrej) s _,
    fun hrej => conclude_checked_fail ((firstFailure_ksHashChecks s).trans hrej) s _,
    fun hrej => conclude_checked_fail ((firstFailure_ksRawChecks s).trans hrej) s _⟩

theorem streamRejects_eq_none_iff (s : State) : streamRejects s = none ↔ s.Inside .output := by
  unfold streamRejects
  split <;> simp_all

/-- What the checks of KS.HASH have established once they pass (R266). -/
theorem ksHashRejects_none {s : State} (h : ksHashRejects s = none) :
    s.Inside .output ∧ s.Inside .key ∧ s.Disjoint .output .key := by
  have hc := (firstFailure_eq_none_iff _).1 ((firstFailure_ksHashChecks s).trans h)
  simp only [ksHashChecks, List.forall_mem_cons, insideCheck_fst, disjointCheck_fst, regionOutside_eq_false_iff] at hc
  obtain ⟨hout, hkey, hapart, -⟩ := hc
  exact ⟨hout, hkey, hapart⟩

/-- What the checks of KS.RAW have established once they pass (R267). -/
theorem ksRawRejects_none {s : State} (h : ksRawRejects s = none) :
    0 < s.len .key ∧ s.csrNat KS_ROT < 8 ∧ s.Inside .output ∧ s.Inside .key ∧ s.Disjoint .output .key := by
  have hc := (firstFailure_eq_none_iff _).1 ((firstFailure_ksRawChecks s).trans h)
  simp only [ksRawChecks, List.forall_mem_cons, badCfg_fst, insideCheck_fst, disjointCheck_fst,
    regionOutside_eq_false_iff, decide_eq_false_iff_not] at hc
  obtain ⟨hlen, hrot, hout, hkey, hapart, -⟩ := hc
  exact ⟨Nat.pos_of_ne_zero hlen, by omega, hout, hkey, hapart⟩

end Sys2Proof.Machine

/-! The in-place transform all cipher commands share (spec/45_cipher.md R260, R261), for any keystream. -/

namespace Sys2Proof.Machine
open Sys2Proof.Claims

/-- MEM `m` once the first `n` bytes of OUT are `byte`, every other byte being as in `s`. -/
structure Transformed (s : State) (byte : Nat → Byte) (n : Nat) (m : List Host.Cell) : Prop where
  stored : ∀ k, k < n → cellRead m (s.base .output + k) = some (byte k)
  kept : ∀ a, s.OutsideOut n a → cellRead m a = s.byteAt a

theorem transformed_start (s : State) (byte : Nat → Byte) : Transformed s byte 0 s.mem :=
  ⟨fun k hk => absurd hk (Nat.not_lt_zero k), fun _ _ => rfl⟩

theorem Transformed.store {s : State} {byte : Nat → Byte} {n : Nat} {m : List Host.Cell} (h : Transformed s byte n m) :
    Transformed s byte (n + 1) (cellWrite m (s.base .output + n) (byte n)) := by
  refine ⟨fun k hk => ?_, fun a ha => ?_⟩
  · rcases Nat.lt_succ_iff_lt_or_eq.1 hk with hlt | rfl
    · rw [cellRead_cellWrite_ne _ _ (by omega), h.stored k hlt]
    · rw [cellRead_cellWrite_self]
  · rw [cellRead_cellWrite_ne _ _ (by omega), h.kept a (by omega)]

/-- Whatever has been stored to OUT, the generator goes through the states `st` and answers the bytes `key`. -/
def Generates (gen : State → Word → Nat → Except Fault (Byte × Word)) (s : State) (st : Nat → Word) (key : Nat → Byte) :
    Prop :=
  ∀ m k, (∀ a, s.OutsideOut (s.len .output) a → cellRead m a = s.byteAt a) → k < s.len .output →
    gen (s.setMem m) (st k) k = .ok (key k, st (k + 1))

section transform
variable {gen : State → Word → Nat → Except Fault (Byte × Word)} {pre : Byte → Byte} {bias : Bool} {s : State}

/-- On written output inside MEM the loop runs to its end, each byte transformed once (R260). -/
theorem transformLoop_transformed {st : Nat → Word} {key : Nat → Byte} (hin : s.Inside .output)
    (hread : s.Readable .output) (hgen : Generates gen s st key) {n i : Nat} {m : List Host.Cell}
    (hm : Transformed s (fun k => biased bias (pre (s.regionByte .output k)) (key k)) i m) (hn : i + n = s.len .output) :
    ∃ m', transformLoop gen pre bias n i (st i) (s.setMem m) = .ok (st (s.len .output), s.setMem m') ∧
      Transformed s (fun k => biased bias (pre (s.regionByte .output k)) (key k)) (s.len .output) m' := by
  induction n generalizing i m with
  | zero => exact ⟨m, by rw [← hn]; rfl, hn ▸ hm⟩
  | succ n ih =>
    have hi : i < s.len .output := by omega
    obtain ⟨x, hx⟩ := Option.isSome_iff_exists.1 (hread i hi)
    have hbyte : s.regionByte .output i = x := by rw [State.regionByte, hx, Option.getD_some]
    have hload : readMem (s.setMem m) (s.base .output + i) = .ok x :=
      readMem_ok (inside_lt hin hi) ((hm.kept _ (by omega)).trans hx)
    have hkey := hgen m i (fun a ha => hm.kept a (by omega)) hi
    have hstore : writeMem (s.setMem m) (s.base .output + i) (cipherByte bias (pre x) (key i)) = _ :=
      writeMem_ok (inside_lt hin hi)
    obtain ⟨m', hloop, hm'⟩ := ih hm.store (by omega)
    refine ⟨m', ?_, hm'⟩
    simp only [transformLoop, State.setMem_base, hload, hkey, hstore]
    rw [hbyte] at hloop
    exact hloop

/-- A completed transform in the terms of R260: the output bytes, KSTATE, KPOS, PRODUCED, and nothing else. -/
theorem cipherEffect_transforms {st : Nat → Word} {key : Nat → Byte} (final : Word → Word) (hin : s.Inside .output)
    (hread : s.Readable .output) (hgen : Generates gen s st key) :
    TransformsOut s (conclude (cipherEffect gen pre bias (st 0) final s)) (final (st (s.len .output)))
      (fun k => biased bias (pre (s.regionByte .output k)) (key k)) := by
  obtain ⟨m, hloop, hm⟩ := transformLoop_transformed hin hread hgen (transformed_start s _) (Nat.zero_add _)
  have hself : s.setMem s.mem = s := rfl
  have hcount : BitVec.ofNat 32 (s.len .output) = s.csr OUT_LEN := BitVec.ofNat_toNat 32 (s.csr OUT_LEN)
  rw [hself] at hloop
  refine ⟨m, ?_, hm.stored, hm.kept⟩
  rw [cipherEffect, hloop]
  simp only [State.setCipher, State.setProduced, hcount]
  rfl

/-- A loop that runs to its end has read every byte of its range and its keystream, the bytes from there on still being
as they were. -/
theorem transformLoop_reads {n i : Nat} {g : Word} {r : Word × State} (h : transformLoop gen pre bias n i g s = .ok r)
    {k : Nat} (hi : i ≤ k) (hk : k < i + n) :
    ∃ m g' p, (∀ a, a < s.base .output + i ∨ s.base .output + k ≤ a → cellRead m a = s.byteAt a) ∧
      (∃ x, readMem (s.setMem m) (s.base .output + k) = .ok x) ∧ gen (s.setMem m) g' k = .ok p := by
  induction n generalizing i g s with
  | zero => omega
  | succ n ih =>
    simp only [transformLoop] at h
    split at h
    · cases h
    · rename_i x hx
      split at h
      · cases h
      · rename_i kb g' hkey
        split at h
        · cases h
        · rename_i hw
          obtain ⟨-, rfl⟩ := writeMem_eq_ok hw
          rcases Nat.eq_or_lt_of_le hi with rfl | hlt
          · exact ⟨s.mem, g, _, fun _ _ => rfl, ⟨x, hx⟩, hkey⟩
          · obtain ⟨m, g'', p, hkept, hread, hgen⟩ := ih h hlt (by omega)
            refine ⟨m, g'', p, fun a ha => (hkept a ?_).trans ?_, hread, hgen⟩
            · rw [State.setMem_base]
              omega
            · exact cellRead_cellWrite_ne _ _ (by omega)

/-- The same for the transform of all of OUT. -/
theorem cipherEffect_reads {start : Word} {final : Word → Word} {p : State × Ending}
    (h : cipherEffect gen pre bias start final s = .ok p) {k : Nat} (hk : k < s.len .output) :
    ∃ m g q, (∀ a, s.OutsideOut k a → cellRead m a = s.byteAt a) ∧
      (∃ x, readMem (s.setMem m) (s.base .output + k) = .ok x) ∧ gen (s.setMem m) g k = .ok q := by
  unfold cipherEffect at h
  split at h
  · cases h
  · rename_i hloop
    exact transformLoop_reads hloop (Nat.zero_le k) (by omega)

/-- A completed transform has found every byte of OUT written (R88). -/
theorem readable_of_cipherEffect {start : Word} {final : Word → Word} {p : State × Ending}
    (h : cipherEffect gen pre bias start final s = .ok p) : s.Readable .output := by
  intro k hk
  obtain ⟨m, -, -, hkept, ⟨x, hx⟩, -⟩ := cipherEffect_reads h hk
  obtain ⟨-, hbyte⟩ := (readMem_eq_ok_iff _ _ _).1 hx
  rw [← hkept _ (.inr le_rfl)]
  exact Option.isSome_iff_exists.2 ⟨x, hbyte⟩

end transform

end Sys2Proof.Machine

/-! The keystreams of the four cipher commands in closed form (spec/45_cipher.md R262 to R267). -/

namespace Sys2Proof.Machine
open Sys2Proof.Claims

/-! KS.LCG and KS.PM: one check, and a keystream that reads no MEM (R262, R264). -/

theorem streamCipher_transforms {gen : State → Word → Nat → Except Fault (Byte × Word)} {s : State} {st : Nat → Word}
    {key : Nat → Byte} (hgen : Generates gen s st key) (bias : Bool) (hin : s.Inside .output)
    (hread : s.Readable .output) :
    TransformsOut s (conclude (checked [s.insideCheck .output] s (cipherEffect gen id bias (st 0) id s)))
      (st (s.len .output)) (fun k => biased bias (s.regionByte .output k) (key k)) := by
  rw [checked_pass ((firstFailure_streamChecks s).trans ((streamRejects_eq_none_iff s).2 hin))]
  exact cipherEffect_transforms id hin hread hgen

/-- The keystream byte is bits 16 to 23 of the stepped seed (R262). -/
theorem lcgByte_eq (g : Word) : lcgByte g = BitVec.ofNat 8 (g.toNat / 65536 % 32768) := by
  have hmask := shift_mask_toNat g 16 15 (by decide)
  apply BitVec.eq_of_toNat_eq
  rw [lcgByte, BitVec.toNat_setWidth, BitVec.toNat_ofNat]
  exact congrArg (· % 2 ^ 8) hmask

theorem generates_lcgGen (s : State) (seed : Word) :
    Generates lcgGen s (fun k => lcgNext^[k] seed)
      (fun k => BitVec.ofNat 8 ((lcgNext^[k + 1] seed).toNat / 65536 % 32768)) := by
  intro m k _ _
  simp only [lcgGen, lcgByte_eq, ← Function.iterate_succ_apply' lcgNext]

/-- Settles O44 (it holds): the transform of OUT under the iterated seed. -/
theorem ksLcgTransform : Obligations.KsLcgTransform := fun s =>
  streamCipher_transforms (generates_lcgGen s (s.csr KS_SEED))

/-- The generator's state after `k` steps: the seed, which need not be reduced, and then its powers (R263, R264). -/
def pmState (mult : Nat) (seed : Word) (k : Nat) : Word :=
  if k = 0 then seed else BitVec.ofNat 32 (seed.toNat * mult ^ k % PM_MOD)

theorem pmState_succ (mult : Nat) (seed : Word) (k : Nat) :
    pmState mult seed (k + 1) = BitVec.ofNat 32 (seed.toNat * mult ^ (k + 1) % PM_MOD) := rfl

theorem pmNext_pmState (mult : Nat) (seed : Word) (k : Nat) :
    pmNext mult (pmState mult seed k) = pmState mult seed (k + 1) := by
  cases k with
  | zero => rw [pmState_succ, Nat.zero_add, pow_one]; rfl
  | succ k =>
    have hlt : seed.toNat * mult ^ (k + 1) % PM_MOD < 2 ^ 32 := (Nat.mod_lt _ (by decide)).trans (by decide)
    rw [pmState_succ, pmState_succ, pmNext, BitVec.toNat_ofNat, Nat.mod_eq_of_lt hlt, Nat.mod_mul_mod, mul_assoc,
      ← pow_succ]

theorem generates_pmGen (s : State) (mult : Nat) (seed : Word) :
    Generates (pmGen mult) s (pmState mult seed)
      (fun k => BitVec.ofNat 8 (seed.toNat * mult ^ (k + 1) % PM_MOD)) := by
  intro m k _ _
  rw [pmGen, pmNext_pmState, pmState_succ, BitVec.setWidth_ofNat_of_le (by decide)]

/-- Settles O45 (it holds): the transform of OUT under the powers of the multiplier. -/
theorem ksPmTransform : Obligations.KsPmTransform := fun s =>
  streamCipher_transforms (generates_pmGen s pmMult (s.csr KS_SEED))

/-! KS.HASH. -/

/-- A written key inside MEM reads as its bytes (R266). -/
theorem readKey_region {s : State} (hin : s.Inside .key) (hread : s.Readable .key) {n i : Nat} (hn : i + n ≤ s.len .key) :
    readKey s n i = .ok ((List.range n).map (fun k => s.regionByte .key (i + k))) := by
  induction n generalizing i with
  | zero => rfl
  | succ n ih =>
    rw [readKey, readMem_region hin hread (by omega), ih (by omega), range_succ_map_add]

/-- The state after `k` bytes is the counter of the next block to begin (R266). -/
theorem generates_hashGen (s : State) (digest : List Byte → Word → Nat → Byte) (key : List Byte) (ctr0 : Word) :
    Generates (hashGen digest key ctr0) s (fun k => ctr0 + BitVec.ofNat 32 ((k + 31) / 32))
      (fun k => digest key (ctr0 + BitVec.ofNat 32 (k / 32)) (k % 32)) := by
  intro m k _ _
  have hnext : ctr0 + BitVec.ofNat 32 (k / 32) + 1 = ctr0 + BitVec.ofNat 32 ((k + 1 + 31) / 32) := by
    rw [show (k + 1 + 31) / 32 = k / 32 + 1 by omega, BitVec.ofNat_add, BitVec.add_assoc]
    rfl
  exact congrArg (fun g => Except.ok (_, g)) hnext

/-- KS.HASH on written output, for whatever key it has read. -/
theorem ksHash_transforms {s : State} {key : List Byte} (bias : Bool) (hrej : ksHashRejects s = none)
    (hread : s.Readable .output) (hkey : readKey s (s.len .key) 0 = .ok key) :
    TransformsOut s (exec (.ksHash bias) s) (s.csr KS_CTR0 + BitVec.ofNat 32 ((s.len .output + 31) / 32))
      (fun k => biased bias (s.regionByte .output k)
        (hashFn key (s.csr KS_CTR0 + BitVec.ofNat 32 (k / 32)) (k % 32))) := by
  obtain ⟨hin, -, -⟩ := ksHashRejects_none hrej
  have htransform := cipherEffect_transforms (pre := id) (bias := bias) id hin hread
    (generates_hashGen s hashFn key (s.csr KS_CTR0))
  simp only [Nat.zero_add, Nat.reduceDiv, BitVec.add_zero] at htransform
  rw [exec_eq_conclude, effectOf, checked_pass ((firstFailure_ksHashChecks s).trans hrej), ksHashEffect, hkey]
  exact htransform

/-- Settles O46 (it holds): the transform of OUT under the digests of the key region. -/
theorem ksHashTransform : Obligations.KsHashTransform := by
  intro s bias hrej hread hreadKey
  obtain ⟨-, hinKey, -⟩ := ksHashRejects_none hrej
  have hkey := readKey_region hinKey hreadKey (Nat.zero_add (s.len .key)).le
  simp only [Nat.zero_add] at hkey
  exact ksHash_transforms bias hrej hread hkey

/-! KS.RAW. -/

theorem rotl8_eq_rotateLeft (x : Byte) {r : Nat} (h : r < 8) : rotl8 x r = x.rotateLeft r := by
  rw [BitVec.rotateLeft, Nat.mod_eq_of_lt h]
  rfl

/-- The key bytes are outside OUT, so the transform reads them as they were (R267). -/
theorem generates_rawGen {s : State} {key : Nat → Byte} (hpos : 0 < s.len .key) (hin : s.Inside .key)
    (hapart : s.Disjoint .output .key)
    (hkey : ∀ k, k < s.len .output → s.byteAt (s.base .key + k % s.len .key) = some (key k)) :
    Generates rawGen s (fun _ => 0) key := by
  intro m k hm hk
  have hlt := Nat.mod_lt k hpos
  have hread : readMem (s.setMem m) ((s.setMem m).base .key + k % (s.setMem m).len .key) = .ok (key k) :=
    readMem_ok (inside_lt hin hlt) ((hm _ (outsideOut_of_disjoint hapart hlt le_rfl)).trans (hkey k hk))
  rw [rawGen, hread]

/-- KS.RAW on written output, where the key bytes it uses are written. -/
theorem ksRaw_transforms {s : State} {key : Nat → Byte} (bias : Bool) (hrej : ksRawRejects s = none)
    (hread : s.Readable .output)
    (hkey : ∀ k, k < s.len .output → s.byteAt (s.base .key + k % s.len .key) = some (key k)) :
    TransformsOut s (exec (.ksRaw bias) s) 0
      (fun k => biased bias ((s.regionByte .output k).rotateLeft (s.csrNat KS_ROT)) (key k)) := by
  obtain ⟨hpos, hrot, hin, hinKey, hapart⟩ := ksRawRejects_none hrej
  simp only [← rotl8_eq_rotateLeft _ hrot]
  rw [exec_eq_conclude, effectOf, checked_pass ((firstFailure_ksRawChecks s).trans hrej)]
  exact cipherEffect_transforms (fun _ => 0) hin hread (generates_rawGen hpos hinKey hapart hkey)

/-- Settles O47 (it holds): the transform of OUT under the repeated key. -/
theorem ksRawTransform : Obligations.KsRawTransform := by
  intro s bias hrej hread hreadKey
  obtain ⟨hpos, -⟩ := ksRawRejects_none hrej
  refine ksRaw_transforms bias hrej hread fun k _ => ?_
  obtain ⟨b, hb⟩ := Option.isSome_iff_exists.1 (hreadKey _ (Nat.mod_lt k hpos))
  rw [State.regionByte, hb, Option.getD_some]

end Sys2Proof.Machine

/-! A cipher command applied twice (spec/45_cipher.md R269 (a), (b)): the second run finds the same keystream, since the
first has changed neither the configuration nor a byte outside OUT. -/

namespace Sys2Proof.Machine
open Sys2Proof.Claims

/-- In eight bits the bias flips the top bit and carries nowhere. -/
theorem add_bias_eq_xor : ∀ y : Byte, y + 0x80 = y ^^^ 0x80 := by decide

/-- R269: with the same keystream byte R261 undoes itself. -/
theorem biased_biased (bias : Bool) (x kb : Byte) : biased bias (biased bias x kb) kb = x := by
  cases bias with
  | false => exact (BitVec.xor_assoc x kb kb).trans (by rw [BitVec.xor_self, BitVec.xor_zero])
  | true =>
    calc (((x ^^^ kb) + 0x80) ^^^ kb) + 0x80 = x ^^^ (kb ^^^ kb) ^^^ (0x80 ^^^ 0x80) := by
          rw [add_bias_eq_xor, add_bias_eq_xor]; ac_rfl
      _ = x := by rw [BitVec.xor_self, BitVec.xor_self, BitVec.xor_zero, BitVec.xor_zero]

/-- The command combines each byte of OUT with the keystream `key`, and does nothing else to MEM. -/
def Enciphers (i : Instr) (bias : Bool) (key : Nat → Byte) (s : State) : Prop :=
  ∃ ks, TransformsOut s (exec i s) ks (fun k => biased bias (s.regionByte .output k) (key k))

/-- What a completed cipher command leaves (R260). -/
def State.ciphered (s : State) (m : List Host.Cell) (ks : Word) : State :=
  completed { s with mem := m, kstate := ks, kpos := s.csr OUT_LEN, produced := s.csr OUT_LEN }

/-- Wherever the command answers a next state, doing it again restores MEM. -/
def Restores (i : Instr) (s : State) : Prop :=
  ∀ t, exec i s = .next t → ∃ u, exec i t = .next u ∧ ∀ a, u.byteAt a = s.byteAt a

/-- Two runs under one keystream restore MEM. -/
theorem restores_of_enciphers {i : Instr} {bias : Bool} {key : Nat → Byte} {s : State} (hread : s.Readable .output)
    (hfirst : Enciphers i bias key s)
    (hsecond : ∀ m ks, (∀ a, s.OutsideOut (s.len .output) a → cellRead m a = s.byteAt a) →
      (s.ciphered m ks).Readable .output → Enciphers i bias key (s.ciphered m ks)) : Restores i s := by
  intro t ht
  obtain ⟨ks, m, hexec, hstored, hkept⟩ := hfirst
  obtain rfl : s.ciphered m ks = t := Host.Outcome.next.inj (hexec.symm.trans ht)
  have hbyte : ∀ k, k < s.len .output → (s.ciphered m ks).byteAt (s.base .output + k) = some _ := hstored
  obtain ⟨ks', m', hexec', hstored', hkept'⟩ :=
    hsecond m ks hkept fun k hk => Option.isSome_iff_exists.2 ⟨_, hbyte k hk⟩
  refine ⟨_, hexec', fun a => ?_⟩
  by_cases ha : s.OutsideOut (s.len .output) a
  · exact (hkept' a ha).trans (hkept a ha)
  · obtain ⟨k, rfl⟩ := Nat.exists_eq_add_of_le (Nat.not_lt.1 (not_or.1 ha).1)
    have hk : k < s.len .output := by omega
    obtain ⟨x, hx⟩ := Option.isSome_iff_exists.1 (hread k hk)
    have hagain : (s.ciphered m ks).regionByte .output k = biased bias x (key k) := by
      have hfirstByte : (s.ciphered m ks).regionByte .output k = biased bias (s.regionByte .output k) (key k) :=
        congrArg (Option.getD · 0) (hbyte k hk)
      rw [hfirstByte, State.regionByte, hx, Option.getD_some]
    have hrestored : cellRead m' (s.base .output + k) = some x :=
      (hstored' k hk).trans (congrArg some ((congrArg (biased bias · (key k)) hagain).trans (biased_biased bias x (key k))))
    exact hrestored.trans hx.symm

/-- A command stopped by a check is stopped by it again, with MEM untouched; so only runs past the checks remain. -/
theorem restores_of_checks {i : Instr} {s : State} {checks : State → List Check} {body : State → Effect}
    (hexec : ∀ v, exec i v = conclude (checked (checks v) v (body v)))
    (hchecks : ∀ c info, checks (stoppedBy s c info) = checks s)
    (hbody : firstFailure (checks s) = none → ∀ p, body s = .ok p → Restores i s) : Restores i s := by
  intro t ht
  cases hcheck : firstFailure (checks s) with
  | some p =>
    obtain ⟨c, info⟩ := p
    have hstop := (hexec s).trans (conclude_checked_fail hcheck s (body s))
    obtain rfl : stoppedBy s c info = t := Host.Outcome.next.inj (hstop.symm.trans ht)
    exact ⟨_, (hexec _).trans (conclude_checked_fail ((congrArg _ (hchecks c info)).trans hcheck) _ _), fun _ => rfl⟩
  | none =>
    have hrun := (hexec s).symm.trans ht
    rw [checked_pass hcheck] at hrun
    obtain ⟨u, r, heffect, -⟩ := conclude_eq_next hrun
    exact hbody hcheck _ heffect t ht

/-- KS.LCG and KS.PM: the keystream `key` is made from the seed alone (R262, R264). -/
theorem streamCipher_restores {i : Instr} {gen : State → Word → Nat → Except Fault (Byte × Word)} {bias : Bool}
    {st : Word → Nat → Word} {key : Word → Nat → Byte}
    (hexec : ∀ v, exec i v =
      conclude (checked [v.insideCheck .output] v (cipherEffect gen id bias (st (v.csr KS_SEED) 0) id v)))
    (hgen : ∀ v seed, Generates gen v (st seed) (key seed)) (s : State) : Restores i s := by
  refine restores_of_checks hexec (fun _ _ => rfl) fun hpass p hp => ?_
  have hin := (streamRejects_eq_none_iff s).1 ((firstFailure_streamChecks s).symm.trans hpass)
  have henc : ∀ v, v.Inside .output → v.Readable .output → Enciphers i bias (key (v.csr KS_SEED)) v := fun v hv hr =>
    ⟨_, hexec v ▸ streamCipher_transforms (hgen v _) bias hv hr⟩
  have hread := readable_of_cipherEffect hp
  exact restores_of_enciphers hread (henc s hin hread) fun m ks _ => henc (s.ciphered m ks) hin

theorem ksLcg_restores (bias : Bool) (s : State) : Restores (.ksLcg bias) s :=
  streamCipher_restores (exec_eq_conclude _) generates_lcgGen s

theorem ksPm_restores (bias : Bool) (s : State) : Restores (.ksPm bias) s :=
  streamCipher_restores (st := pmState pmMult) (exec_eq_conclude _) (fun v => generates_pmGen v pmMult) s

/-- A read depends on its byte only. -/
theorem readMem_congr_byte {s t : State} {a : Nat} (hs : t.memSize = s.memSize) (h : t.byteAt a = s.byteAt a) :
    readMem t a = readMem s a := by
  simp only [readMem, hs, h]

/-- The key reads the same wherever its region does. -/
theorem readKey_ciphered {s : State} {m : List Host.Cell} (ks : Word) (hm : s.KeepsRegion .key m) {n i : Nat}
    (hn : i + n ≤ s.len .key) : readKey (s.ciphered m ks) n i = readKey s n i := by
  induction n generalizing i with
  | zero => rfl
  | succ n ih =>
    have hread : readMem (s.ciphered m ks) ((s.ciphered m ks).base .key + i) = readMem s (s.base .key + i) :=
      readMem_congr_byte rfl (hm i (by omega))
    simp only [readKey, hread, ih (by omega : i + 1 + n ≤ s.len .key)]

theorem ksHash_restores (bias : Bool) (s : State) : Restores (.ksHash bias) s := by
  refine restores_of_checks (exec_eq_conclude _) (fun _ _ => rfl) fun hpass p hp => ?_
  have hrej := (firstFailure_ksHashChecks s).symm.trans hpass
  obtain ⟨-, -, hapart⟩ := ksHashRejects_none hrej
  simp only [ksHashEffect] at hp
  split at hp
  · cases hp
  · rename_i key hkey
    have hread := readable_of_cipherEffect hp
    refine restores_of_enciphers hread ⟨_, ksHash_transforms bias hrej hread hkey⟩ fun m ks hm hagain => ?_
    have hkeep : s.KeepsRegion .key m := fun k hk => hm _ (outsideOut_of_disjoint hapart hk le_rfl)
    exact ⟨_, ksHash_transforms (s := s.ciphered m ks) bias hrej hagain
      ((readKey_ciphered ks hkeep (Nat.zero_add _).le).trans hkey)⟩

/-- A completed KS.RAW has found the key bytes it used written (R267). -/
theorem rawKey_of_cipherEffect {pre : Byte → Byte} {bias : Bool} {start : Word} {final : Word → Word} {s : State}
    {p : State × Ending} (hpos : 0 < s.len .key) (hapart : s.Disjoint .output .key)
    (h : cipherEffect rawGen pre bias start final s = .ok p) {k : Nat} (hk : k < s.len .output) :
    s.byteAt (s.base .key + k % s.len .key) = some (s.regionByte .key (k % s.len .key)) := by
  obtain ⟨m, g, q, hkept, -, hgen⟩ := cipherEffect_reads h hk
  unfold rawGen at hgen
  split at hgen
  · cases hgen
  · rename_i b hb
    obtain ⟨-, hb⟩ := (readMem_eq_ok_iff _ _ _).1 hb
    have hbyte : s.byteAt (s.base .key + k % s.len .key) = some b :=
      (hkept _ (outsideOut_of_disjoint hapart (Nat.mod_lt k hpos) hk.le)).symm.trans hb
    rw [State.regionByte, hbyte, Option.getD_some]

theorem byte_rotateLeft_zero (x : Byte) : x.rotateLeft 0 = x := by
  rw [← rotl8_eq_rotateLeft x (by decide), rotl8, BitVec.shiftLeft_zero, BitVec.ushiftRight_eq_zero le_rfl, BitVec.or_zero]

/-- Without a rotation KS.RAW only combines (R269 (b)). -/
theorem ksRaw_enciphers {s : State} {key : Nat → Byte} (bias : Bool) (hrot : s.csr KS_ROT = 0)
    (hrej : ksRawRejects s = none) (hread : s.Readable .output)
    (hkey : ∀ k, k < s.len .output → s.byteAt (s.base .key + k % s.len .key) = some (key k)) :
    Enciphers (.ksRaw bias) bias key s := by
  have htransform := ksRaw_transforms bias hrej hread hkey
  have hzero : s.csrNat KS_ROT = 0 := congrArg BitVec.toNat hrot
  simp only [hzero, byte_rotateLeft_zero] at htransform
  exact ⟨_, htransform⟩

theorem ksRaw_restores (bias : Bool) {s : State} (hrot : s.csr KS_ROT = 0) : Restores (.ksRaw bias) s := by
  refine restores_of_checks (exec_eq_conclude _) (fun _ _ => rfl) fun hpass p hp => ?_
  have hrej := (firstFailure_ksRawChecks s).symm.trans hpass
  obtain ⟨hpos, -, -, -, hapart⟩ := ksRawRejects_none hrej
  have hread := readable_of_cipherEffect hp
  have hkey := fun k hk => rawKey_of_cipherEffect hpos hapart hp (k := k) hk
  refine restores_of_enciphers hread (ksRaw_enciphers bias hrot hrej hread hkey) fun m ks hm hagain =>
    ksRaw_enciphers (s := s.ciphered m ks) bias hrot hrej hagain fun k hk => ?_
  exact (hm _ (outsideOut_of_disjoint hapart (Nat.mod_lt k hpos) le_rfl)).trans (hkey k hk)

/-- Settles O48 (it holds): by the four cipher commands. -/
theorem cipherInvolution : Obligations.CipherInvolution := by
  intro i s t hi hrot
  cases i with
  | ksLcg bias => exact ksLcg_restores bias s t
  | ksPm bias => exact ksPm_restores bias s t
  | ksHash bias => exact ksHash_restores bias s t
  | ksRaw bias => exact ksRaw_restores bias (hrot bias rfl) t
  | _ => cases hi

end Sys2Proof.Machine

/-! The exceptions (spec/60_exceptions.md R293, R295, R297): which cause a command can end with, and what a failed static
check leaves. -/

namespace Sys2Proof.Machine
open Sys2Proof.Claims

/-! The causes of LZ.DEC (R175, R293). -/

/-- No row of R173 raises E_BOUNDS. -/
theorem lzDecChecks_ne_eBounds {s : State} {c : Check} (h : c ∈ lzDecChecks s) : c.2.1 ≠ .eBounds := by
  revert c
  simp [lzDecChecks, State.cursorCheck, State.insideCheck, State.disjointCheck, badCfg]

/-- Only an index into the offset table can be out of bounds (R175). -/
theorem tableMode_of_planMatch_eBounds {br : Word} {o l opos : Nat} {s : State} {info : Word}
    (h : planMatch br o l opos s = .stop (.corrupt .eBounds info)) : s.tableMode = true := by
  by_contra hdist
  have hdistance : ∀ i, matchDistance br o s ≠ .bad .eBounds i := by
    intro i
    unfold matchDistance
    rw [if_neg hdist]
    split <;> nofun
  unfold planMatch at h
  split at h
  · cases h
  · rename_i hbad; cases h; exact hdistance _ hbad
  · split_ifs at h <;> cases h

/-- A Corrupt end of the loop of LZ.DEC is a match that ended it. -/
theorem lzLoop_corrupt {fuel : Nat} {s t : State} {c : Cause} {info : Word}
    (h : lzLoop fuel 0 s = .ok (t, .corrupt c info)) :
    ∃ u k br o l, LzCourse s u k ∧ planMatch br o l k u = .stop (.corrupt c info) := by
  obtain ⟨u, k, -, hc, -, hexit⟩ :=
    lzLoop_exit (P := fun _ _ => True) ⟨fun _ _ => trivial, fun _ _ _ => trivial⟩ (lzCourse_refl s) trivial h
  cases hexit with
  | stop _ hp => exact ⟨u, k, _, _, _, hc, hp⟩

theorem tableMode_of_lzDec_eBounds {s u : State} {info : Word}
    (h : effectOf .lzDec s = .ok (u, .corrupt .eBounds info)) : s.tableMode = true := by
  rcases checked_cases (lzDecChecks s) s (lzLoop s.bitsLeft 0 ((lzInit s).setProduced 0)) with
    ⟨c, i, hfail, he⟩ | ⟨-, he⟩ <;> rw [effectOf, he] at h
  · cases h
    exact absurd rfl (lzDecChecks_ne_eBounds (firstFailure_mem hfail))
  · obtain ⟨v, k, br, o, l, hc, hp⟩ := lzLoop_corrupt h
    have hmode : v.tableMode = s.tableMode := tableMode_congr ((lzCourse_csr hc (by decide)).trans (lzStart_csr s _))
    exact hmode.symm.trans (tableMode_of_planMatch_eBounds hp)

/-! Every command. -/

/-- A command that has stopped the run Corrupt ended with the cause that is recorded (R131). -/
theorem exec_corrupt {i : Instr} {s t : State} (h : exec i s = .next t) (hi : i ≠ .halt) (hlast : t.last = .corrupt) :
    ∃ u c info, effectOf i s = .ok (u, .corrupt c info) ∧ t = u.takeCorrupt c info := by
  rw [exec_eq_conclude] at h
  obtain ⟨u, r, he, rfl⟩ := conclude_eq_next h
  obtain ⟨-, hr⟩ := effectOf_does he
  cases r with
  | complete => cases hlast
  | truncated c info => cases hlast
  | corrupt c info => exact ⟨u, c, info, he, rfl⟩
  | halt => exact absurd hr hi

/-- A Corrupt or Truncated outcome of a command is recorded with one of the causes R293 allows it. -/
theorem exec_causes {i : Instr} {s t : State} (h : exec i s = .next t) (hi : i ≠ .halt) :
    (t.last = .corrupt → ∃ c ∈ corruptCauses i, t.cause = some c) ∧
    (t.last = .truncated → ∃ c ∈ truncatedCauses i, t.cause = some c) := by
  obtain ⟨u, r, -, hr, rfl⟩ := exec_next h
  cases r with
  | complete => exact ⟨nofun, nofun⟩
  | truncated c info => exact ⟨nofun, fun _ => ⟨c, hr, rfl⟩⟩
  | corrupt c info => exact ⟨fun _ => ⟨c, hr, rfl⟩, nofun⟩
  | halt => exact absurd hr hi

/-- A step of a run that decodes no command has met the end of the list or an illegal word (R130). -/
theorem step_without_command {s t : State} (hrun : s.run = .busy) (h : step s = .next t)
    (hnone : ∀ w i, s.fetch = .word w → decode w ≠ .ok i) :
    t = s.takeCorrupt .eCmdEnd s.cp ∨ ∃ w, t = s.takeCorrupt .eIllCmd w := by
  unfold step cycle at h
  rw [if_pos hrun] at h
  split at h
  · cases h; exact .inl rfl
  · cases h
  · rename_i w hw
    unfold runWord at h
    split at h
    · cases h; exact .inr ⟨w, rfl⟩
    · rename_i i hi
      exact absurd hi (hnone w i hw)

/-- Settles O9 (it holds): each ending is one R293 allows the command, and a match of LZ.DEC meets E_BOUNDS only at the
offset table. -/
theorem causesPerCommand : Obligations.CausesPerCommand := by
  refine ⟨fun i s t h hi => ?_, fun s t h => ?_, fun s t hrun h hnone => ?_⟩
  · obtain ⟨hcorrupt, htruncated⟩ := exec_causes h hi
    refine ⟨hcorrupt, htruncated, ?_⟩
    rintro rfl hlast hcause
    obtain ⟨u, c, info, he, rfl⟩ := exec_corrupt h hi hlast
    obtain rfl : c = .eBounds := Option.some.inj hcause
    exact tableMode_of_lzDec_eBounds he
  · obtain rfl : s.endHalt = t := Host.Outcome.next.inj h
    exact ⟨rfl, rfl⟩
  · rcases step_without_command hrun h hnone with rfl | ⟨w, rfl⟩
    · exact ⟨rfl, .inl rfl⟩
    · exact ⟨rfl, .inr rfl⟩

/-! Static failures (R295, R297): only a check made before the operation ends a command with one of their causes. -/

/-- The causes that only a static check raises. -/
abbrev StaticCause (c : Cause) : Prop := c = .eBadCfg ∨ c = .eBadSeq ∨ c = .ePlane ∨ c = .eIllCsr

/-- An effect that does not end Corrupt with a static check's cause. -/
def EndsNonstatic (e : Effect) : Prop := ∀ u c info, e = .ok (u, .corrupt c info) → ¬ StaticCause c

@[simp] theorem endsNonstatic_error (f : Fault) : EndsNonstatic (.error f) := by
  intro u c info h
  cases h

@[simp] theorem endsNonstatic_complete (s : State) : EndsNonstatic (.ok (s, .complete)) := by
  intro u c info h
  cases h

@[simp] theorem endsNonstatic_truncated (s : State) (c : Cause) (info : Word) :
    EndsNonstatic (.ok (s, .truncated c info)) := by
  intro u c' info' h
  cases h

@[simp] theorem endsNonstatic_corrupt (s : State) (c : Cause) (info : Word) :
    EndsNonstatic (.ok (s, .corrupt c info)) ↔ ¬ StaticCause c := by
  refine ⟨fun h => h s c info rfl, fun hc u c' info' h => ?_⟩
  cases h
  exact hc

/-- Truncated or Complete, as the readers of bits and the run loop end (R155, R156, R234). -/
theorem endsNonstatic_truncated_or_complete (s : State) (p : Prop) [Decidable p] (c : Cause) (info : Word) :
    EndsNonstatic (.ok (s, if p then .truncated c info else .complete)) := by
  split
  · exact endsNonstatic_truncated s c info
  · exact endsNonstatic_complete s

theorem endsNonstatic_checked {cs : List Check} {s : State} {body : Effect} (hcs : ∀ c ∈ cs, ¬ StaticCause c.2.1)
    (hbody : EndsNonstatic body) : EndsNonstatic (checked cs s body) := by
  rcases checked_cases cs s body with ⟨c, info, hfail, he⟩ | ⟨-, he⟩ <;> rw [he]
  · exact (endsNonstatic_corrupt s c info).2 (hcs _ (firstFailure_mem hfail))
  · exact hbody

/-- A static cause comes from the checks, which leave the state they are given. -/
theorem eq_of_checked_static {cs : List Check} {s u : State} {body : Effect} {c : Cause} {info : Word}
    (h : checked cs s body = .ok (u, .corrupt c info)) (hc : StaticCause c) (hbody : EndsNonstatic body) : u = s := by
  rcases checked_cases cs s body with ⟨c', info', -, he⟩ | ⟨-, he⟩ <;> rw [he] at h
  · cases h; rfl
  · exact absurd hc (hbody u c info h)

/-! The operations. -/

theorem brBitEffect_endsNonstatic (s : State) : EndsNonstatic (brBitEffect s) := by
  unfold brBitEffect
  split <;> simp

theorem brBitsEffect_endsNonstatic (n : Nat) (s : State) : EndsNonstatic (brBitsEffect n s) := by
  unfold brBitsEffect
  split
  · exact endsNonstatic_error _
  · exact endsNonstatic_truncated_or_complete _ _ _ _

theorem brUnaryEffect_endsNonstatic (decoding : Nat → Word) (s : State) : EndsNonstatic (brUnaryEffect decoding s) := by
  unfold brUnaryEffect
  split
  · exact endsNonstatic_error _
  · exact endsNonstatic_truncated_or_complete _ _ _ _

theorem ocCopyEffect_endsNonstatic (s : State) : EndsNonstatic (ocCopyEffect s) := by
  unfold ocCopyEffect
  split <;> simp

theorem lzLoop_endsNonstatic (fuel : Nat) (s : State) : EndsNonstatic (lzLoop fuel 0 s) := by
  intro u c info h
  obtain ⟨v, k, br, o, l, -, hp⟩ := lzLoop_corrupt h
  rcases planMatch_stop hp with hr | ⟨_, hr⟩ | ⟨_, hr⟩ | ⟨_, hr⟩ | ⟨_, hr⟩ <;> cases hr <;> decide

theorem hufBldwEffect_endsNonstatic (s : State) : EndsNonstatic (hufBldwEffect s) := by
  unfold hufBldwEffect
  split <;> simp

theorem hufBldlEffect_endsNonstatic (s : State) : EndsNonstatic (hufBldlEffect s) := by
  unfold hufBldlEffect
  split
  · exact endsNonstatic_error _
  · simp
  · split
    · exact endsNonstatic_complete _
    · split <;> simp

theorem decodeSymbols_endsNonstatic (pol : Bool) (m k : Nat) (s : State) : EndsNonstatic (decodeSymbols pol m k s) := by
  intro u c info h
  obtain ⟨_, _, _, -, -, -, ⟨hr, -⟩ | ⟨hr, -⟩⟩ := decodeSymbols_ok h <;> cases hr

theorem ppAsmEffect_endsNonstatic (s : State) : EndsNonstatic (ppAsmEffect s) := by
  unfold ppAsmEffect
  split <;> simp

theorem alphaRuns_endsNonstatic (expand : Nat → Nat → Byte) (n k p : Nat) (s : State) :
    EndsNonstatic (alphaRuns expand n k p s) := by
  induction n generalizing k p s with
  | zero => exact endsNonstatic_truncated_or_complete _ _ _ _
  | succ n ih =>
    unfold alphaRuns
    split
    · exact endsNonstatic_error _
    · split
      · simp
      · split
        · simp
        · split
          · exact endsNonstatic_error _
          · exact ih _ _ _

theorem cipherEffect_endsNonstatic (gen : State → Word → Nat → Except Fault (Byte × Word)) (pre : Byte → Byte)
    (bias : Bool) (start : Word) (final : Word → Word) (s : State) :
    EndsNonstatic (cipherEffect gen pre bias start final s) := by
  unfold cipherEffect
  split <;> simp

theorem ksHashEffect_endsNonstatic (digest : List Byte → Word → Nat → Byte) (bias : Bool) (s : State) :
    EndsNonstatic (ksHashEffect digest bias s) := by
  unfold ksHashEffect
  split
  · exact endsNonstatic_error _
  · exact cipherEffect_endsNonstatic _ _ _ _ _ _

/-! Every command. -/

/-- An index above 0x21 is refused before anything is written (R133, R134). -/
theorem eq_of_setConfig_corrupt {csr : BitVec 8} {value : Word → Word} {s u : State} {c : Cause} {info : Word}
    (h : setConfig csr value s = .ok (u, .corrupt c info)) : u = s := by
  unfold setConfig at h
  split at h <;> cases h
  rfl

/-- A static cause leaves the state alone, but for HUF.DEC, which may have consumed its tree. -/
theorem eq_of_effectOf_static {i : Instr} {s u : State} {c : Cause} {info : Word}
    (h : effectOf i s = .ok (u, .corrupt c info)) (hc : StaticCause c) (hi : i ≠ .hufDec) : u = s := by
  cases i with
  | halt => cases h
  | setlo csr imm => exact eq_of_setConfig_corrupt (value := fun _ => 0#16 ++ imm) h
  | sethi csr imm => exact eq_of_setConfig_corrupt (value := fun old => imm ++ old.extractLsb' 0 16) h
  | brOpen ord => exact eq_of_checked_static h hc (endsNonstatic_complete _)
  | brBit => exact eq_of_checked_static h hc (brBitEffect_endsNonstatic s)
  | brBits n => exact eq_of_checked_static h hc (brBitsEffect_endsNonstatic _ s)
  | brUnary => exact eq_of_checked_static h hc (brUnaryEffect_endsNonstatic _ s)
  | ocCopy => exact eq_of_checked_static h hc (ocCopyEffect_endsNonstatic s)
  | lzDec => exact eq_of_checked_static h hc (lzLoop_endsNonstatic _ _)
  | hufBldw => exact eq_of_checked_static h hc (hufBldwEffect_endsNonstatic s)
  | hufBldl => exact eq_of_checked_static h hc (hufBldlEffect_endsNonstatic s)
  | hufDec => exact absurd rfl hi
  | ppAsm => exact eq_of_checked_static h hc (ppAsmEffect_endsNonstatic s)
  | ppAlpha => exact eq_of_checked_static h hc (alphaRuns_endsNonstatic _ _ _ _ _)
  | ksLcg bias => exact eq_of_checked_static h hc (cipherEffect_endsNonstatic _ _ _ _ _ _)
  | ksPm bias => exact eq_of_checked_static h hc (cipherEffect_endsNonstatic _ _ _ _ _ _)
  | ksHash bias => exact eq_of_checked_static h hc (ksHashEffect_endsNonstatic _ _ s)
  | ksRaw bias => exact eq_of_checked_static h hc (cipherEffect_endsNonstatic _ _ _ _ _ _)

/-- The checks on the tree raise E_HTABLE, so a static cause of HUF.DEC comes before PRODUCED is cleared (R206). -/
theorem eq_of_hufDecEffect_static {s u : State} {c : Cause} {info : Word}
    (h : hufDecEffect s = .ok (u, .corrupt c info)) (hc : StaticCause c) : u = s :=
  eq_of_checked_static h hc
    (endsNonstatic_checked (by simp [hufTableChecks]) (decodeSymbols_endsNonstatic _ _ _ _))

/-- HUF.DEC has consumed its tree where its sequence check passed; where that failed with the cursor open there was no tree
(R206). -/
theorem hufDec_static {s u : State} {c : Cause} {info : Word} (h : effectOf .hufDec s = .ok (u, .corrupt c info))
    (hc : StaticCause c) : u = { s with hvalid := if s.bopen = true then false else s.hvalid } := by
  rcases checked_cases [(!s.bopen || !s.hvalid, .eBadSeq, 0)] s (hufDecEffect s.consumeTree) with
    ⟨c', info', hfail, he⟩ | ⟨hpass, he⟩ <;> rw [effectOf, he] at h
  · cases h
    obtain ⟨hseq, -⟩ : (s.bopen = false ∨ s.hvalid = false) ∧ .eBadSeq = c ∧ 0#32 = info := by simpa using hfail
    have hkeep : (if s.bopen = true then false else s.hvalid) = s.hvalid := by
      rcases hseq with ho | hv
      · simp [ho]
      · simp [hv]
    rw [hkeep]
  · have ho : s.bopen = true := by
      have hboth : s.bopen = true ∧ s.hvalid = true := by simpa using hpass
      exact hboth.1
    rw [eq_of_hufDecEffect_static h hc, if_pos ho]
    rfl

/-- Settles O10 (it holds): a static cause comes from a check, which leaves the state it is given; HUF.DEC makes its
later checks with the tree consumed. -/
theorem staticFailureChangesNothing : Obligations.StaticFailureChangesNothing := by
  intro i s t h hi hlast hcause
  obtain ⟨u, c, info, he, rfl⟩ := exec_corrupt h hi hlast
  have hc : StaticCause c := by simpa using hcause
  by_cases hdec : i = .hufDec
  · subst hdec
    rw [hufDec_static he hc]
    simp only [true_and]
    rfl
  · rw [eq_of_effectOf_static he hc hdec]
    simp only [hdec, false_and, if_false]
    rfl

end Sys2Proof.Machine
